-- ==== Sys2Proof/Word.lean ====
section
/-! DEFINITION. The word types of the hart: 64-bit storage for SXLEN-bit values, and bytes. -/

namespace Sys2Proof

/-- Storage for one register. With SXLEN=32 a register value stands zero-extended in the low 32 bits (log entry 36). -/
abbrev Word := BitVec 64

/-- One byte of memory, the smallest addressable unit (R120). -/
abbrev Byte := BitVec 8

/-- A register number `x0`..`x31` (R20). -/
abbrev RegId := BitVec 5

/-- The width of an integer register in a mode: the values of SXLEN and UXLEN (R7). -/
inductive Xlen where
  | rv32
  | rv64
deriving DecidableEq, Repr

/-- The number of bits of a width. -/
def Xlen.bits : Xlen → Nat
  | .rv32 => 32
  | .rv64 => 64

end Sys2Proof
end

