-- ==== Sys2Proof/Config.lean ====
section
/-! DEFINITION. What an implementation fixes (R7), as plain data that stands in `State.cfg` and that no step changes,
and the free values: constants without a body that stand for what the spec leaves open. -/

namespace Sys2Proof

/-- Privilege modes, U < S < M (R22, R373); V=0 always (D4). -/
inductive Priv where
  | user
  | supervisor
  | machine
deriving DecidableEq, Repr

/-- The kind of an access, `acc` of R10: stores, store-conditionals and AMOs are `store`. -/
inductive Access where
  | fetch
  | load
  | store
deriving DecidableEq, Repr

/-- What an exception code writes to `stval` (R81, D13); `either` is a free choice at each trap (U14). -/
inductive TvalPolicy where
  | informative
  | zero
  | either
deriving DecidableEq, Repr

/-- `MISALIGNED_POLICY` (R7, D8): raise code 4/6, or do the access byte by byte in address order, up or down. -/
inductive MisalignedPolicy where
  | trap
  | split (ascending : Bool)
deriving DecidableEq, Repr

/-- What a misaligned access to a page with PBMT=IO does where misaligned accesses are split (R207, U30). -/
inductive IoMisaligned where
  | perform
  | misaligned
  | accessFault
deriving DecidableEq, Repr

/-- How `sstatus.UXL` behaves when SXLEN=64 (R31): read-only 2, read-only 1, or WARL over 1 and 2. -/
inductive UxlPolicy where
  | same
  | narrow
  | writable
deriving DecidableEq, Repr

/-- `IALIGN` (R7, R72): 32, 16, or either, as `misa` selects. -/
inductive IalignPolicy where
  | fixed32
  | fixed16
  | switchable
deriving DecidableEq, Repr

/-- One region of the physical map: `pma_pmp_ok` of R7 and R136 as data (log entry 34). An access is allowed when it
lies wholly in the first region that holds it and its mode and kind are listed. -/
structure Region where
  base      : Nat
  size      : Nat
  /-- device memory: its behaviour is outside the spec (R136) -/
  device    : Bool
  /-- main memory that is cacheable, an attribute PBMT overrides (R205, R206) -/
  cacheable : Bool
  allow     : List (Priv × Access)
  /-- hardware page-table writes and RsrvEventual are supported (R180) -/
  ptWrite   : Bool
deriving DecidableEq, Repr

/-- The optional extensions, `EXT_*` of R7 and those R3 names (D22); H and Sv64 are absent (D4, R6). `f`, `v`, `x` say
whether the state behind FS, VS and XS exists (R41). -/
structure Extensions where
  svnapot   : Bool
  svpbmt    : Bool
  svinval   : Bool
  svadu     : Bool
  svvptc    : Bool
  ssqosid   : Bool
  ssdbltrp  : Bool
  zicfilp   : Bool
  zicfiss   : Bool
  sscofpmf  : Bool
  zicbom    : Bool
  zicboz    : Bool
  ssnpm     : Bool
  smstateen : Bool
  a         : Bool
  zimop     : Bool
  zcmop     : Bool
  rv32d     : Bool
  priv114   : Bool
  f         : Bool
  v         : Bool
  x         : Bool
deriving DecidableEq, Repr

/-- The implementation parameters of R7. -/
structure Config where
  /-- `SXLEN` (D2) -/
  sxlen             : Xlen
  /-- legal values of `sstatus.UXL` (R31, D3) -/
  uxl               : UxlPolicy
  /-- `IALIGN` (R72, D1) -/
  ialign            : IalignPolicy
  /-- `ILEN` in bits (D1) -/
  ilen              : Nat
  ext               : Extensions
  /-- the page-based members of `SATP_MODES` (D15) -/
  sv32              : Bool
  sv39              : Bool
  sv48              : Bool
  sv57              : Bool
  asidLen           : Nat
  ppnLen            : Nat
  paLen             : Nat
  /-- `IMPL_SEI`, `IMPL_STI`, `IMPL_SSI`; LCOFI is implemented with Sscofpmf (D20) -/
  implSei           : Bool
  implSti           : Bool
  implSsi           : Bool
  /-- platform interrupts that can become pending (bits 16 and above count) -/
  platformIrqs      : Word
  /-- platform bits of `SIP_WRITABLE` -/
  sipPlatform       : Word
  /-- platform bits of `SIE_WRITABLE` beyond the interrupts that can become pending -/
  siePlatform       : Word
  /-- `PLATFORM_IRQ_PRIORITY`: interrupt codes, highest priority first (R351) -/
  irqOrder          : List Nat
  scounterenMask    : BitVec 32
  stvecDirect       : Bool
  stvecVectored     : Bool
  /-- `STVEC_BASE_MASK`, over the bits of `stvec` (bits 1:0 count as 0) -/
  stvecBaseMask     : Word
  /-- `TVAL_INFORMATIVE`: exception codes that are not `informative`, with what they are (D13) -/
  tval              : List (Nat × TvalPolicy)
  /-- `SCAUSE_CODE_BITS` (D14) -/
  scauseCodeBits    : Nat
  ubeWritable       : Bool
  sBigEndian        : Bool
  /-- byte order of explicit accesses made with effective privilege M (machine level; log entry 22) -/
  mBigEndian        : Bool
  /-- the fixed scheme of an implementation without Svadu: true for hardware A/D updating (R182, D17) -/
  hwAd              : Bool
  regions           : List Region
  misaligned        : MisalignedPolicy
  ioMisaligned      : IoMisaligned
  rcidLen           : Nat
  mcidLen           : Nat
  /-- `SFENCE_ILLEGAL_WHEN_BARE_ONLY` (R274, D38) -/
  sfenceIllegalBare : Bool
  /-- SINVAL.VMA acts as SFENCE.VMA does, at once, and PendingInval stays empty (R281, R290) -/
  svinvalEager      : Bool
  /-- the bytes of the naturally aligned block that `cbo.flush` flushes (R211; PRESUMED: log entry 44) -/
  cacheBlock        : Nat
  /-- FIOM is read-only zero when only Bare is supported (R92, U42) -/
  fiomReadOnly      : Bool
  /-- (mask, match) of the further instruction words that extensions outside the spec define on this hart (R227; log
  entry 7) -/
  foreign           : List (BitVec 32 × BitVec 32)
  /-- `RESET_VECTOR`, `RESET_RCID`, `RESET_MCID` (R118, D10) -/
  resetVector       : Word
  resetRcid         : BitVec 12
  resetMcid         : BitVec 12
deriving DecidableEq, Repr

/-- FREE VALUE: which of the allowed sources of a page-table read is used (R172, U27), at a draw. -/
opaque Config.atcPick : Nat → Nat

/-- FREE VALUE: whether an `either` exception writes `stval` informatively (R81, U14), at a draw. -/
opaque Config.tvalPick : Nat → Bool

/-- FREE VALUE: how far counter `n` has moved since it was last read (R380, U12), at a draw. -/
opaque Config.counterStep : Nat → Nat → Nat

/-- FREE VALUE: the Exception Code read back after a write of a code the field cannot hold, from the written code and
the one before (R79, U4). -/
opaque Config.wlrlCode : Word → Word → Word

/-- FREE VALUE: what an invalid address becomes in `sepc` (R73, U13), from the number of usable address bits. -/
opaque Config.legalEpc : Nat → Word → Word

/-- FREE VALUE: what an invalid address becomes in `stval` (R88, U13). -/
opaque Config.legalTval : Nat → Word → Word

/-- FREE VALUE: the legal CBIE that Zicbom reads back after a write of the value it reserves (R93, U43). -/
opaque Config.cbieLegal : BitVec 2 → BitVec 2 → BitVec 2

/-- FREE VALUE: the legal PMM that Ssnpm reads back after a write (R93). -/
opaque Config.pmmLegal : BitVec 2 → BitVec 2 → BitVec 2

/-- FREE VALUE: what a trap into M-mode leaves in a machine register whose value the spec does not give (R367). -/
opaque Config.machineFree : Nat → Word

/-- FREE VALUE: how many step 2 reads a cached invalid PTE may satisfy after a store made the PTE valid (Svvptc, R213). -/
opaque Config.svvptcBound : Nat

end Sys2Proof
end

