-- ==== Sys2Proof/Machine/Words.lean ====
section
/-! DEFINITION. Words that the spec names an extension for, or leaves to the base ISA, and does not define (R227). All are
PRESUMED from the published encodings (log entries 7, 43); every word of an opcode that no instruction has is left out. -/

namespace Sys2Proof.Machine

/-- A set of words: those that agree with the second component in the bits of the first. -/
abbrev WordSet : Type := BitVec 32 × BitVec 32

/-- The word is in the set. -/
def WordSet.has (p : WordSet) (w : BitVec 32) : Bool := w &&& p.1 == p.2

/-- One set a value of the field at bit `pos`, with the mask and the other bits given. -/
def fieldWords (mask base : BitVec 32) (pos : Nat) (values : List Nat) : List WordSet :=
  values.map (fun v => (mask, base ||| BitVec.ofNat 32 (v * 2 ^ pos)))

/-! ### The base ISA -/

/-- The words of the base ISA in both widths: LUI, AUIPC, JAL, JALR, branches, loads, stores, OP-IMM and OP but for the rows
of R224; and beside them FENCE.I, MRET and WFI. -/
def commonBaseWords : List WordSet :=
  [(0x7F, 0x37), (0x7F, 0x17), (0x7F, 0x6F), (0x707F, 0x67), (0x707F, 0x100F), (0xFFFFFFFF, 0x30200073),
    (0xFFFFFFFF, 0x10500073)] ++
  fieldWords 0x707F 0x63 12 [0, 1, 4, 5, 6, 7] ++ fieldWords 0x707F 0x03 12 [0, 1, 4, 5] ++ fieldWords 0x707F 0x23 12 [0, 1] ++
  fieldWords 0x707F 0x13 12 [2, 3, 4, 6, 7] ++
  [(0xFE00007F, 0x33), (0xFE00707F, 0x40000033), (0xFE00707F, 0x40005033)]

/-- The words of the base ISA with registers of a width, beside the rows of R224 (log entry 7). -/
def baseIsaWords : Xlen → List WordSet
  | .rv32 => commonBaseWords ++ [(0xFE00707F, 0x1013), (0xFE00707F, 0x5013), (0xFE00707F, 0x40005013)]
  | .rv64 =>
    commonBaseWords ++ [(0xFC00707F, 0x1013), (0xFC00707F, 0x5013), (0xFC00707F, 0x40005013)] ++
    fieldWords 0x707F 0x03 12 [3, 6] ++ [(0x707F, 0x3023), (0x707F, 0x1B)] ++
    fieldWords 0xFE00707F 0x1B 12 [1, 5] ++ fieldWords 0xFE00707F 0x3B 12 [0, 1, 5] ++
    [(0xFE00707F, 0x4000501B), (0xFE00707F, 0x4000003B), (0xFE00707F, 0x4000503B)]

/-! ### A, Zicbom, Zicboz, Zimop, Zcmop, Zicfilp, Zicfiss -/

/-- LPAD is AUIPC with `rd` = `x0` (R329). -/
def lpadWord (w : BitVec 32) : Bool := w &&& 0xFFF#32 == 0x17#32

/-- SSAMOSWAP.W, and SSAMOSWAP.D where registers have 64 bits (R330). -/
def ssamoswapWord (c : Config) (w : BitVec 32) : Bool :=
  w &&& 0xF800707F#32 == 0x4800202F#32 || (c.sxlen == .rv64 && w &&& 0xF800707F#32 == 0x4800302F#32)

/-- CBO.FLUSH, whose `rs1` is the word's (R211). -/
def flushWord (w : BitVec 32) : Bool := w &&& 0xFFF07FFF#32 == 0x0020200F#32

/-- AMOs, LR and SC of width 2 (`funct3`), and with 64-bit registers of width 3. -/
def atomicWords (x : Xlen) : List WordSet :=
  let word : List WordSet := [(0x1800707F, 0x0000202F), (0xF800707F, 0x0800202F), (0xF9F0707F, 0x1000202F), (0xF800707F, 0x1800202F)]
  match x with
  | .rv32 => word
  | .rv64 => word ++ word.map (fun p => (p.1, p.2 ||| 0x1000#32))

/-! ### F and D -/

/-- Words with a rounding mode in `funct3`: 0 to 4 or 7. -/
def rounded (l : List WordSet) : List WordSet :=
  l.flatMap (fun p => [(p.1 ||| 0x4000#32, p.2), (p.1 ||| 0x7000#32, p.2 ||| 0x4000#32), (p.1 ||| 0x7000#32, p.2 ||| 0x7000#32)])

/-- What both precisions have, by `fmt`: multiply-adds, FADD to FDIV, FSQRT, FCVT to and from 32-bit integers, FSGNJ, FMIN and
FMAX, the comparisons, FCLASS. -/
def floatWords (fmt : Nat) : List WordSet :=
  let f (w : BitVec 32) : BitVec 32 := w ||| BitVec.ofNat 32 (fmt * 2 ^ 25)
  rounded ([(0x06000073, f 0x43), (0xFFF0007F, f 0x58000053)] ++ fieldWords 0xFE00007F (f 0x53) 27 [0, 1, 2, 3] ++
    fieldWords 0xFFF0007F (f 0xC0000053) 20 [0, 1] ++ fieldWords 0xFFF0007F (f 0xD0000053) 20 [0, 1]) ++
  fieldWords 0xFE00707F (f 0x20000053) 12 [0, 1, 2] ++ fieldWords 0xFE00707F (f 0x28000053) 12 [0, 1] ++
  fieldWords 0xFE00707F (f 0xA0000053) 12 [0, 1, 2] ++ [(0xFFF0707F, f 0xE0001053)]

/-- F: FLW, FSW, the words of single precision, FMV.X.W, FMV.W.X, and with 64-bit registers the FCVTs of 64-bit integers. -/
def singleWords (x : Xlen) : List WordSet :=
  [(0x707F, 0x2007), (0x707F, 0x2027)] ++ floatWords 0 ++ [(0xFFF0707F, 0xE0000053), (0xFFF0707F, 0xF0000053)] ++
  (match x with
    | .rv32 => []
    | .rv64 => rounded (fieldWords 0xFFF0007F 0xC0000053 20 [2, 3] ++ fieldWords 0xFFF0007F 0xD0000053 20 [2, 3]))

/-- D: FLD, FSD, the words of double precision, FCVT.S.D and FCVT.D.S, and with 64-bit registers the FCVTs of 64-bit integers,
FMV.X.D and FMV.D.X. -/
def doubleWords (x : Xlen) : List WordSet :=
  [(0x707F, 0x3007), (0x707F, 0x3027)] ++ floatWords 1 ++ rounded [(0xFFF0007F, 0x40100053), (0xFFF0007F, 0x42000053)] ++
  (match x with
    | .rv32 => []
    | .rv64 =>
      rounded (fieldWords 0xFFF0007F 0xC2000053 20 [2, 3] ++ fieldWords 0xFFF0007F 0xD2000053 20 [2, 3]) ++
      [(0xFFF0707F, 0xE2000053), (0xFFF0707F, 0xF2000053)])

/-! ### V -/

/-- Vector loads (opcode 0x07) and stores (0x27) of both kinds: unit-stride, strided, indexed, mask. Indices of 64 bits need
64-bit registers. -/
def vectorMemoryWords (x : Xlen) (op : BitVec 32) : List WordSet :=
  let index : List Nat :=
    match x with
    | .rv32 => [0, 5, 6]
    | .rv64 => [0, 5, 6, 7]
  fieldWords 0x1DF0707F op 12 [0, 5, 6, 7] ++ fieldWords 0x1C00707F (op ||| 0x08000000#32) 12 [0, 5, 6, 7] ++
  fieldWords 0x1C00707F (op ||| 0x04000000#32) 12 index ++ fieldWords 0x1C00707F (op ||| 0x0C000000#32) 12 index ++
  [(0xFFF0707F, op ||| 0x02B00000#32)]

/-- The fault-only-first loads, and the loads and stores of whole registers, 1, 2, 4 or 8 of them. -/
def vectorWholeWords : List WordSet :=
  fieldWords 0x1DF0707F 0x01000007 12 [0, 5, 6, 7] ++
  [0, 5, 6, 7].flatMap (fun width => fieldWords 0xFFF0707F (0x02800007#32 ||| BitVec.ofNat 32 (width * 2 ^ 12)) 29 [0, 1, 3, 7]) ++
  fieldWords 0xFFF0707F 0x02800027 29 [0, 1, 3, 7]

/-- Vector operations by `funct6`, with every mask bit and every operand. -/
def vectorPlain (funct3 : Nat) (funct6 : List Nat) : List WordSet :=
  fieldWords 0xFC00707F (0x57#32 ||| BitVec.ofNat 32 (funct3 * 2 ^ 12)) 26 funct6

/-- Vector operations by `funct6` and the mask bit together: bits 31:25. -/
def vectorMasked (funct3 : Nat) (funct7 : List Nat) : List WordSet :=
  fieldWords 0xFE00707F (0x57#32 ||| BitVec.ofNat 32 (funct3 * 2 ^ 12)) 25 funct7

/-- Vector operations whose `vs1` field is part of the code; the base gives `funct6` and `funct3`. -/
def vectorUnary (base : BitVec 32) (vs1 : List Nat) : List WordSet := fieldWords 0xFC0FF07F base 15 vs1

/-- Integer operations, vector with vector (OPIVV), scalar (OPIVX) and immediate (OPIVI): those of all three, of the first two,
of the last two, and each one's own; VADC, VSBC and VMERGE (mask bit 0), VMV.V (mask bit 1, `vs2` 0), VMV<nr>R. -/
def vectorIntegerWords : List WordSet :=
  [0, 3, 4].flatMap (fun f => vectorPlain f
    [0x00, 0x09, 0x0A, 0x0B, 0x0C, 0x11, 0x18, 0x19, 0x1C, 0x1D, 0x20, 0x21, 0x25, 0x28, 0x29, 0x2A, 0x2B, 0x2C, 0x2D, 0x2E,
      0x2F] ++ vectorMasked f [0x20, 0x2E] ++ [(0xFFF0707F, 0x5E000057#32 ||| BitVec.ofNat 32 (f * 2 ^ 12))]) ++
  [0, 4].flatMap (fun f => vectorPlain f [0x02, 0x04, 0x05, 0x06, 0x07, 0x13, 0x1A, 0x1B, 0x22, 0x23, 0x27] ++
    vectorMasked f [0x24]) ++
  [3, 4].flatMap (fun f => vectorPlain f [0x03, 0x0E, 0x0F, 0x1E, 0x1F]) ++
  vectorPlain 0 [0x0E, 0x30, 0x31] ++ fieldWords 0xFE0FF07F 0x9E003057 15 [0, 1, 3, 7]

/-- Multiplications, divisions, averages, widening operations (OPMVV, OPMVX), reductions, mask operations, extensions, VMV.X.S,
VMV.S.X. -/
def vectorMultiplyWords : List WordSet :=
  [2, 6].flatMap (fun f => vectorPlain f
    [0x08, 0x09, 0x0A, 0x0B, 0x20, 0x21, 0x22, 0x23, 0x24, 0x25, 0x26, 0x27, 0x29, 0x2B, 0x2D, 0x2F, 0x30, 0x31, 0x32, 0x33,
      0x34, 0x35, 0x36, 0x37, 0x38, 0x3A, 0x3B, 0x3C, 0x3D, 0x3F]) ++
  vectorPlain 2 [0, 1, 2, 3, 4, 5, 6, 7] ++ vectorPlain 6 [0x0E, 0x0F, 0x3E] ++
  vectorMasked 2 [0x2F, 0x31, 0x33, 0x35, 0x37, 0x39, 0x3B, 0x3D, 0x3F] ++
  vectorUnary 0x40002057 [16, 17] ++ vectorUnary 0x48002057 [2, 3, 4, 5, 6, 7] ++ vectorUnary 0x50002057 [1, 2, 3, 16] ++
  [(0xFE0FF07F, 0x42002057), (0xFFF0707F, 0x42006057), (0xFDFFF07F, 0x5008A057)]

/-- Floating-point operations (OPFVV, OPFVF), reductions, conversions, VFSQRT to VFCLASS, VFMERGE, the moves. -/
def vectorFloatWords : List WordSet :=
  [1, 5].flatMap (fun f => vectorPlain f
    [0x00, 0x02, 0x04, 0x06, 0x08, 0x09, 0x0A, 0x18, 0x19, 0x1B, 0x1C, 0x20, 0x24, 0x28, 0x29, 0x2A, 0x2B, 0x2C, 0x2D, 0x2E,
      0x2F, 0x30, 0x32, 0x34, 0x36, 0x38, 0x3C, 0x3D, 0x3E, 0x3F]) ++
  vectorPlain 1 [0x01, 0x03, 0x05, 0x07, 0x31, 0x33] ++ vectorPlain 5 [0x0E, 0x0F, 0x1D, 0x1F, 0x21, 0x27] ++
  vectorUnary 0x48001057 [0, 1, 2, 3, 6, 7, 8, 9, 10, 11, 12, 14, 15, 16, 17, 18, 19, 20, 21, 22, 23] ++
  vectorUnary 0x4C001057 [0, 4, 5, 16] ++
  [(0xFE0FF07F, 0x42001057), (0xFFF0707F, 0x42005057), (0xFE00707F, 0x5C005057), (0xFFF0707F, 0x5E005057)]

/-- V: VSETVLI, VSETIVLI and VSETVL, loads and stores, and the operations. -/
def vectorWords (x : Xlen) : List WordSet :=
  [(0x8000707F, 0x7057), (0xC000707F, 0xC0007057), (0xFE00707F, 0x80007057)] ++
  vectorMemoryWords x 0x07 ++ vectorMemoryWords x 0x27 ++ vectorWholeWords ++
  vectorIntegerWords ++ vectorMultiplyWords ++ vectorFloatWords

/-! ### All of them -/

/-- The words that a named extension has (R3, R41, R93, R95, R127, R330): A, Zicbom, Zicboz, F, V, Zimop, Zcmop, RV32D, and
Zicfiss, whose words are those of Zimop and Zcmop and SSAMOSWAP. V and RV32D bring
the words of F, and V those of D, which they depend on. -/
def extensionWords (c : Config) : List WordSet :=
  (if c.ext.a then atomicWords c.sxlen else []) ++
  (if c.ext.zicbom then [(0xFFF07FFF, 0x0000200F), (0xFFF07FFF, 0x0010200F), (0xFFF07FFF, 0x0020200F)] else []) ++
  (if c.ext.zicboz then [(0xFFF07FFF, 0x0040200F)] else []) ++
  (if c.ext.f || c.ext.v || c.ext.rv32d then singleWords c.sxlen else []) ++
  (if c.ext.v then vectorWords c.sxlen else []) ++
  (if c.ext.zimop || c.ext.zicfiss then [(0xB3C0707F, 0x81C04073), (0xB200707F, 0x82004073)] else []) ++
  (if c.ext.zcmop || c.ext.zicfiss then [(0xFFFFF8FF, 0x00006081)] else []) ++
  (if c.ext.rv32d || c.ext.v then doubleWords c.sxlen else [])

/-- Bits that no row of R224 matches and that an extension outside the spec defines on this hart (R227; log entries 7, 43). -/
def foreignWord (c : Config) (w : BitVec 32) : Bool :=
  (c.foreign ++ extensionWords c).any (fun p => WordSet.has p w) || (c.ext.zicfiss && ssamoswapWord c w)

end Sys2Proof.Machine
end

