-- ==== Sys2Proof/Machine/ResetConfig.lean ====
section
/-! DEFINITION. The configuration of the reset state: the one legal implementation a run from reset is a run of. -/

namespace Sys2Proof.Machine

/-- A region of main memory open to every mode and every kind of access. -/
def openRegion (base size : Nat) : Region :=
  { base := base, size := size, device := false, cacheable := true, ptWrite := true,
    allow := [(.user, .fetch), (.user, .load), (.user, .store), (.supervisor, .fetch), (.supervisor, .load),
      (.supervisor, .store), (.machine, .fetch), (.machine, .load), (.machine, .store)] }

/-- The configuration of the reset state: one legal implementation (DESIGN CHOICE: log entry 1). -/
def resetConfig : Config where
  sxlen             := .rv64
  uxl               := .same
  ialign            := .fixed32
  ilen              := 32
  ext               :=
    { svnapot := true, svpbmt := true, svinval := true, svadu := true, svvptc := true, ssqosid := false,
      ssdbltrp := false, zicfilp := false, zicfiss := false, sscofpmf := false, zicbom := false, zicboz := false,
      ssnpm := false, smstateen := false, a := false, zimop := false, zcmop := false, rv32d := false, priv114 := false,
      f := false, v := false, x := false }
  sv32              := false
  sv39              := true
  sv48              := true
  sv57              := true
  asidLen           := 16
  ppnLen            := 44
  paLen             := 56
  implSei           := true
  implSti           := true
  implSsi           := true
  platformIrqs      := 0
  sipPlatform       := 0
  siePlatform       := 0
  irqOrder          := [9, 1, 5, 13]
  scounterenMask    := BitVec.allOnes 32
  stvecDirect       := true
  stvecVectored     := true
  stvecBaseMask     := BitVec.allOnes 64
  tval              := []
  scauseCodeBits    := 6
  ubeWritable       := false
  sBigEndian        := false
  mBigEndian        := false
  hwAd              := true
  regions           := [openRegion 0 (2 ^ 56)]
  misaligned        := .trap
  ioMisaligned      := .perform
  rcidLen           := 12
  mcidLen           := 12
  sfenceIllegalBare := false
  svinvalEager      := false
  cacheBlock        := 64
  fiomReadOnly      := false
  foreign           := baseIsaWords .rv64
  resetVector       := 0x80000000
  resetRcid         := 0
  resetMcid         := 0

end Sys2Proof.Machine
end

