-- ==== Sys2Proof/Syntax.lean ====
section
/-! DEFINITION. The instructions: one constructor per row of spec/opcode_table.json (R224). Every operand has exactly the
width of its encoding field, so each term is an instruction word and each field of a word is kept. -/

namespace Sys2Proof

/-- The nineteen instructions of R224. -/
inductive Instr where
  /-- SRET (R251) -/
  | sret
  /-- SFENCE.VMA (R261) -/
  | sfenceVma (rs1 rs2 : RegId)
  /-- SINVAL.VMA (R282) -/
  | sinvalVma (rs1 rs2 : RegId)
  /-- SFENCE.W.INVAL (R284) -/
  | sfenceWInval
  /-- SFENCE.INVAL.IR (R285) -/
  | sfenceInvalIr
  /-- HINVAL.VVMA (R287) -/
  | hinvalVvma (rs1 rs2 : RegId)
  /-- HINVAL.GVMA (R288) -/
  | hinvalGvma (rs1 rs2 : RegId)
  /-- CSRRW (R302) -/
  | csrrw (rd : RegId) (csr : BitVec 12) (rs1 : RegId)
  /-- CSRRS (R303) -/
  | csrrs (rd : RegId) (csr : BitVec 12) (rs1 : RegId)
  /-- CSRRC (R304) -/
  | csrrc (rd : RegId) (csr : BitVec 12) (rs1 : RegId)
  /-- CSRRWI (R305) -/
  | csrrwi (rd : RegId) (csr : BitVec 12) (uimm : BitVec 5)
  /-- CSRRSI (R306) -/
  | csrrsi (rd : RegId) (csr : BitVec 12) (uimm : BitVec 5)
  /-- CSRRCI (R307) -/
  | csrrci (rd : RegId) (csr : BitVec 12) (uimm : BitVec 5)
  /-- ECALL (R320) -/
  | ecall
  /-- EBREAK (R321) -/
  | ebreak
  /-- FENCE (R323); `rs1` and `rd` are reserved and ignored -/
  | fence (fm pred succ : BitVec 4) (rs1 rd : RegId)
  /-- ADDI (R331) -/
  | addi (rd rs1 : RegId) (imm : BitVec 12)
  /-- LW (R332) -/
  | lw (rd rs1 : RegId) (imm : BitVec 12)
  /-- SW (R333) -/
  | sw (rs2 rs1 : RegId) (imm : BitVec 12)
deriving DecidableEq, Repr

end Sys2Proof
end

