-- ==== Sys2Proof/Machine/State.lean ====
section
/-! DEFINITION. The state of the hart as plain data, the reasons a step can stop, and the state after reset.
INVENTORY.md, section State, lists every field with the rule that names it. -/

namespace Sys2Proof.Machine

/-- Why a step stops with no successor state. -/
inductive Fault where
  /-- `satp` is written with MODE=Bare and a nonzero pattern in the remaining fields: UNSPECIFIED (R102, D16, U1).
  Raised by a CSR instruction that writes `satp`. Safe: the hart goes on in a way the spec does not constrain. -/
  | satpBareNonzero
  /-- a location is accessed with memory attributes that differ from those of the access before it, without the fence
  sequence of R211: coherence or ordering may be lost (R210, R417, U32). Raised by LW, SW, the fetch and the reads and
  updates of page tables, those of a speculative walk too. Safe. -/
  | incoherentTypes
deriving DecidableEq, Repr

/-- Why a step is refused: what is asked for has no meaning in the spec. -/
inductive Refusal where
  /-- an instruction whose arm has no meaning yet. Safe. -/
  | notModelled (mnemonic : String)
  /-- an access to a region of device memory, whose behaviour is outside the spec (R136). Raised by fetch, LW, SW. Safe. -/
  | deviceAccess
  /-- a page table lies in device memory (R133, R421, U35). Raised by address translation, and by the step before which a
  speculative walk reads there. Safe. -/
  | pageTableInDevice
  /-- a CSR of the machine level (number bits 9:8 = 11) is accessed from M-mode: outside the spec (R6). Safe. -/
  | machineCsr (csr : BitVec 12)
  /-- `satp` is written with a Bare encoding designated for custom use (R103, U3). Safe. -/
  | customSatp
  /-- the fetched word belongs to an extension outside the spec (R227). Raised by step. Safe. -/
  | outsideSpec (word : BitVec 32)
deriving DecidableEq, Repr

/-- Either way of stopping, inside the model's own operations. -/
inductive Stop where
  | fault (f : Fault)
  | refusal (r : Refusal)
deriving DecidableEq, Repr

/-- The synchronous exceptions (R340), with environment call from M-mode (R320, R342). -/
inductive Cause where
  | instrMisaligned
  | instrAccess
  | illegal
  | breakpoint
  | loadMisaligned
  | loadAccess
  | storeMisaligned
  | storeAccess
  | ecallU
  | ecallS
  | ecallM
  | instrPage
  | loadPage
  | storePage
  | softwareCheck
  | hardwareError
deriving DecidableEq, Repr

/-- The address-translation schemes: `satp.MODE` (R101). -/
inductive Scheme where
  | bare
  | sv32
  | sv39
  | sv48
  | sv57
deriving DecidableEq, Repr

/-- The memory type of an access: PBMT (R205). -/
inductive MemType where
  | pma
  | nc
  | io
deriving DecidableEq, Repr

/-- The fields of `sstatus` (R25, R26); SD and the WPRI fields are computed by its read (R41, R42). -/
structure Sstatus where
  sie   : Bool
  spie  : Bool
  ube   : Bool
  spp   : Bool
  vs    : BitVec 2
  fs    : BitVec 2
  xs    : BitVec 2
  sum   : Bool
  mxr   : Bool
  spelp : Bool
  sdt   : Bool
  uxl   : BitVec 2
deriving DecidableEq, Repr

/-- `scause` (R77): the code is held in the low bits whatever SXLEN is. -/
structure Scause where
  interrupt : Bool
  code      : Word
deriving DecidableEq, Repr

/-- The fields of `senvcfg` (R90). -/
structure Senvcfg where
  fiom  : Bool
  lpe   : Bool
  sse   : Bool
  cbie  : BitVec 2
  cbcfe : Bool
  cbze  : Bool
  pmm   : BitVec 2
deriving DecidableEq, Repr

/-- The fields of `satp` (R99, R100). -/
structure Satp where
  mode : Scheme
  asid : BitVec 16
  ppn  : BitVec 44
deriving DecidableEq, Repr

/-- The fields of `srmcfg` (R110). -/
structure Srmcfg where
  rcid : BitVec 12
  mcid : BitVec 12
deriving DecidableEq, Repr

/-- The CSRs this spec defines (R24, R310). -/
inductive Csr where
  | sstatus
  | sie
  | stvec
  | scounteren
  | senvcfg
  | sscratch
  | sepc
  | scause
  | stval
  | sip
  | satp
  | srmcfg
  | counter (n : BitVec 5)
  | counterHigh (n : BitVec 5)
deriving DecidableEq, Repr

/-- An entry of the address-translation cache (R112). -/
structure AtcEntry where
  /-- physical address of the PTE that was read -/
  pteAddr    : Nat
  /-- the PTE value read, as it stood in memory -/
  pte        : Word
  /-- the level of the read -/
  level      : Nat
  scheme     : Scheme
  /-- the virtual-address bits that select it: `vpn[LEVELS-1:level]` -/
  vpn        : Nat
  asid       : BitVec 16
  isGlobal   : Bool
  /-- step 2 reads it has satisfied with V=0 while memory held V=1 (R213) -/
  staleReads : Nat
deriving DecidableEq, Repr

/-- What an SFENCE.VMA or SINVAL.VMA selects: `none` where the register is `x0` (R262, R281). -/
structure FenceRequest where
  va   : Option Word
  asid : Option (BitVec 16)
deriving DecidableEq, Repr

/-- A speculative execution of the translation algorithm that has begun (R113): the `satp` values of step 1, where it
stands, and the fences executed since it began (R173, R266). -/
structure InflightWalk where
  va       : Word
  acc      : Access
  epriv    : Priv
  scheme   : Scheme
  asid     : BitVec 16
  base     : Nat
  level    : Nat
  isGlobal : Bool
  fences   : List FenceRequest
deriving DecidableEq, Repr

/-- What an access has in the end of the attributes that PBMT overrides (R205, R206): cacheability, and main memory or
I/O. -/
structure Attributes where
  cacheable : Bool
  io        : Bool
deriving DecidableEq, Repr

/-- How much of the sequence of R211 (`fence iorw, iorw`, `cbo.flush`, `fence iorw, iorw`) has followed an access. -/
inductive Since where
  | nothing
  | fenced
  | flushed
  | synced
deriving DecidableEq, Repr

/-- How a location was last accessed (R209 to R211): not yet, or with which attributes, and what followed. -/
inductive Seen where
  | unseen
  | seen (last : Attributes) (since : Since)
deriving DecidableEq, Repr

/-- What an address translation or a data access may change: memory, the ATC, the record of memory types, the draws. -/
structure MemSys where
  /-- physical memory (R120): bytes by address, in canonical form -/
  mem   : List Host.Cell
  /-- the address-translation cache (R112) -/
  atc   : List AtcEntry
  /-- the attributes of the last access by location (R210, U32), in canonical form; kept only with Svpbmt -/
  types : List (Nat × Seen)
  /-- free values drawn so far (the model's own) -/
  draws : Nat
deriving DecidableEq, Repr

/-- The machine-level registers that a trap into M-mode writes or reads (R367). -/
structure MachineRegs where
  mepc   : Word
  mcause : Word
  mtval  : Word
  mtval2 : Word
  mtinst : Word
  mtvec  : Word
  mpp    : Priv
  mpie   : Bool
  mie    : Bool
  /-- where a trap into M-mode saves ELP (Zicfilp; log entry 23) -/
  mpelp  : Bool
deriving DecidableEq, Repr

/-- The machine-level inputs that supervisor rules read (R7), constant while the hart runs in S or U (D24). -/
structure MachineInputs where
  /-- `mstatus.TVM` (R109) -/
  tvm        : Bool
  /-- `mstatus.TSR` (R253) -/
  tsr        : Bool
  /-- `mstatus.MPRV` (R140) -/
  mprv       : Bool
  mcounteren : BitVec 32
  /-- `menvcfg.ADUE` (R182) -/
  adue       : Bool
  /-- `menvcfg.SSE` (R95) -/
  menvcfgSse : Bool
  /-- landing pads enabled in S-mode (R256) -/
  menvcfgLpe : Bool
  /-- `menvcfg.CBCFE`: `cbo.flush` is enabled below M-mode (Zicbom; log entry 44) -/
  menvcfgCbcfe : Bool
  /-- `mstateen0` bit 55 (R111) -/
  mstateen55 : Bool
  /-- IALIGN is 16 now, on a hart where it is switchable (R72) -/
  ialign16   : Bool
  /-- exception codes taken in S-mode when they arise in U-mode, and in S-mode (R345) -/
  delegU     : Word
  delegS     : Word
deriving DecidableEq, Repr

/-- The LR/SC reservation (R115, R186): the physical address where it starts and how many bytes it holds. Which ones are
legal is `reservationOk`. -/
structure Reservation where
  addr : Nat
  size : Nat
deriving DecidableEq, Repr

/-- One act of an agent outside the instruction stream (R385): the environment, other harts and devices, the translation
walker (D27), and, while the hart is in M-mode, the SEE (R346, D29). -/
inductive EnvAction where
  /-- the environment drives `sip.SEIP` (R58) -/
  | setSei (b : Bool)
  /-- the environment drives `sip.STIP` (R59) -/
  | setSti (b : Bool)
  /-- `sip.SSIP` is set (R60) -/
  | raiseSsi
  /-- `sip.LCOFIP` is set (R61) -/
  | raiseLcofi
  /-- the platform bits of `sip` change (R385) -/
  | setPlatform (v : Word)
  /-- a counter is modified (R375, R380) -/
  | setCounter (n : BitVec 5) (v : BitVec 64)
  /-- another hart or a device writes a byte of physical memory (R385) -/
  | writeByte (addr : Nat) (b : Byte)
  /-- a speculative walk begins (R173) -/
  | beginWalk (va : Word) (acc : Access)
  /-- in-flight walk `n` does its next step 2 read, from memory or from its `k`-th usable ATC entry (R171, R173) -/
  | advanceWalk (n : Nat) (k : Option Nat)
  /-- in-flight walk `n` is abandoned (R113) -/
  | abandonWalk (n : Nat)
  /-- ATC entry `n` is dropped (R112, R269) -/
  | dropEntry (n : Nat)
  /-- pending SINVAL.VMA request `n` removes its entries (R282) -/
  | performInval (n : Nat)
  /-- M-mode software changes the machine-level inputs (D24); no effect outside M-mode -/
  | setInputs (m : MachineInputs)
  /-- M-mode software writes a machine-level register group; no effect outside M-mode -/
  | setMachineRegs (m : MachineRegs)
  /-- the SEE writes an integer register; no effect outside M-mode -/
  | seeReg (r : RegId) (v : Word)
  /-- the SEE writes a supervisor CSR through its write rule; no effect outside M-mode -/
  | seeCsr (c : Csr) (v : Word)
  /-- the SEE, which may run the A extension's instructions, makes or drops the reservation (R186); no effect outside
  M-mode -/
  | seeReserve (r : Option Reservation)
  /-- the SEE enters a mode at an address; no effect outside M-mode -/
  | seeResume (p : Priv) (pc : Word)
deriving DecidableEq, Repr

/-- The state of the hart and of what surrounds it. -/
structure State where
  /-- the implementation parameters (R7): never changed -/
  cfg          : Config
  /-- `x0`..`x31` (R20); `x0` reads as 0 through `State.reg` -/
  regs         : Vector Word 32
  /-- `pc` (R21) -/
  pc           : Word
  /-- `priv` (R22) -/
  priv         : Priv
  sstatus      : Sstatus
  stvec        : Word
  sip          : Word
  sie          : Word
  scounteren   : BitVec 32
  sscratch     : Word
  sepc         : Word
  scause       : Scause
  stval        : Word
  senvcfg      : Senvcfg
  satp         : Satp
  srmcfg       : Srmcfg
  /-- `cycle`, `time`, `instret`, `hpmcounter3..31`: the value last read or set (R64, R380) -/
  counters     : Vector (BitVec 64) 32
  /-- the Zicfilp `ELP` state: a landing pad is expected (R115) -/
  elp          : Bool
  /-- the LR/SC reservation (R115, R186, R401) -/
  reservation  : Option Reservation
  ms           : MemSys
  /-- in-flight speculative walks (R113) -/
  walks        : List InflightWalk
  /-- `PendingInval` (R281) -/
  pendingInval : List FenceRequest
  mach         : MachineRegs
  inputs       : MachineInputs
  /-- the interrupt condition is to be evaluated before anything else happens (R352; the model's own) -/
  recheck      : Bool
  /-- what the other agents do before each coming step, one list a step (R385; the model's own) -/
  inbox        : List (List EnvAction)
deriving DecidableEq, Repr

/-- The machine right after the reset of a hart with the given parameters (R118, R401): M-mode, `pc` at the reset vector,
ATC and `PendingInval` empty, no reservation, memory with nothing listed; every register the spec gives no value for
holds 0, or the legal value nearest to it (DESIGN CHOICE: log entry 2). -/
def resetState (c : Config) : State where
  cfg          := c
  regs         := Vector.replicate 32 0
  pc           := c.resetVector
  priv         := .machine
  sstatus      :=
    { sie := false, spie := false, ube := false, spp := false, vs := 0, fs := 0, xs := 0, sum := false, mxr := false,
      spelp := false, sdt := false, uxl := 2 }
  stvec        := if c.stvecDirect then 0 else 1
  sip          := 0
  sie          := 0
  scounteren   := 0
  sscratch     := 0
  sepc         := 0
  scause       := { interrupt := false, code := 0 }
  stval        := 0
  senvcfg      := { fiom := false, lpe := false, sse := false, cbie := 0, cbcfe := false, cbze := false, pmm := 0 }
  satp         := { mode := .bare, asid := 0, ppn := 0 }
  srmcfg       := { rcid := c.resetRcid, mcid := c.resetMcid }
  counters     := Vector.replicate 32 0
  elp          := false
  reservation  := none
  ms           := { mem := [], atc := [], types := [], draws := 0 }
  walks        := []
  pendingInval := []
  mach         :=
    { mepc := 0, mcause := 0, mtval := 0, mtval2 := 0, mtinst := 0, mtvec := 0, mpp := .user, mpie := false, mie := false,
      mpelp := false }
  inputs       :=
    { tvm := false, tsr := false, mprv := false, mcounteren := BitVec.allOnes 32, adue := true, menvcfgSse := false,
      menvcfgLpe := false, menvcfgCbcfe := true, mstateen55 := true, ialign16 := false, delegU := BitVec.allOnes 64,
      delegS := ~~~(1#64 <<< 9) }
  recheck      := false
  inbox        := []

/-- The state after reset, in the configuration of log entry 1. -/
def State.reset : State := resetState resetConfig

end Sys2Proof.Machine
end

