-- ==== Sys2Proof/Machine/Operands.lean ====
section
/-! DEFINITION. The operand forms: widths, bit helpers, integer registers, immediates, effective addresses, and what the
configuration says of the CSR fields. -/

namespace Sys2Proof.Machine

/-- A value cut to a register width, zero-extended in storage. -/
def cut (x : Xlen) (v : Word) : Word :=
  match x with
  | .rv32 => (v.setWidth 32).setWidth 64
  | .rv64 => v

/-- The word with exactly bit `n` equal to `b`. -/
def bitAt (b : Bool) (n : Nat) : Word := if b then 1#64 <<< n else 0#64

/-- UXL as it reads: a WARL field whose legal values the configuration fixes (R31, D3). -/
def State.uxl (s : State) : BitVec 2 :=
  match s.cfg.uxl with
  | .same => 2
  | .narrow => 1
  | .writable => s.sstatus.uxl

/-- UXLEN (R31): 32 when SXLEN=32, else by UXL. -/
def State.uxlen (s : State) : Xlen :=
  match s.cfg.sxlen with
  | .rv32 => .rv32
  | .rv64 => if s.uxl = 1 then .rv32 else .rv64

/-- XLEN in a mode: UXLEN in U-mode, else SXLEN (R31; M-mode has the width of S-mode, log entry 21). -/
def State.xlenOf (s : State) (p : Priv) : Xlen :=
  match p with
  | .user => s.uxlen
  | .supervisor => s.cfg.sxlen
  | .machine => s.cfg.sxlen

/-- XLEN of the instruction being executed. -/
def State.xlen (s : State) : Xlen := s.xlenOf s.priv

/-- Reading a source register: `x0` is 0 (R20); bits above the width of the mode are ignored (R32). -/
def State.reg (s : State) (r : RegId) : Word :=
  if r = 0 then 0 else cut s.xlen (s.regs[r.toNat]'(r.isLt))

/-- What a register write stores: the result cut to the width of the mode, sign-extended to SXLEN (R32). -/
def State.fit (s : State) (v : Word) : Word :=
  match s.xlen with
  | .rv64 => v
  | .rv32 => cut s.cfg.sxlen ((v.setWidth 32).signExtend 64)

/-- Writing a destination register: a write to `x0` is discarded (R20). -/
def State.setReg (s : State) (r : RegId) (v : Word) : State :=
  if r = 0 then s else { s with regs := s.regs.set r.toNat (s.fit v) r.isLt }

/-- The I and S immediate, sign-extended (R223). -/
def immediate (imm : BitVec 12) : Word := imm.signExtend 64

/-- The CSR immediate, zero-extended (R223). -/
def immediateZero (uimm : BitVec 5) : Word := uimm.setWidth 64

/-- `x[rs1] + sext(imm)` modulo 2^XLEN (R332, R333). -/
def State.effectiveAddress (s : State) (rs1 : RegId) (imm : BitVec 12) : Word :=
  cut s.xlen (s.reg rs1 + immediate imm)

/-- The next instruction: `pc + 4` modulo 2^SXLEN (R231, D25). -/
def State.advance (s : State) : State := { s with pc := cut s.cfg.sxlen (s.pc + 4) }

/-- The effective privilege mode of an explicit access: MPRV substitutes MPP (R140). -/
def State.effectivePriv (s : State) : Priv := if s.inputs.mprv then s.mach.mpp else s.priv

/-- The address an access made with effective privilege `p` uses: modulo 2^UXLEN in U-mode (R33, R327). -/
def State.narrow (s : State) (p : Priv) (va : Word) : Word := cut (s.xlenOf p) va

/-- IALIGN is 16 now (R72). -/
def State.align16 (s : State) : Bool :=
  match s.cfg.ialign with
  | .fixed32 => false
  | .fixed16 => true
  | .switchable => s.inputs.ialign16

/-- A page-based scheme is supported: `satp.MODE` is not read-only 0 (R35, R92). -/
def paged (c : Config) : Bool := c.sv32 || c.sv39 || c.sv48 || c.sv57

/-- The bytes of a reservation lie in one naturally aligned 4 KiB region of physical memory (R186). -/
def Reservation.inOnePage (r : Reservation) : Bool := r.size != 0 && r.addr / 4096 == (r.addr + r.size - 1) / 4096

/-- A reservation that the hart can hold: with the A extension only, and with page-based virtual memory in one base page
(R186). -/
def reservationOk (c : Config) (r : Option Reservation) : Bool :=
  match r with
  | none => true
  | some r => c.ext.a && (!paged c || r.inOnePage)

/-- The low `n` bits of a word. -/
def lowBits (n : Nat) : Word := BitVec.ofNat 64 (2 ^ n - 1)

/-- The SXLEN-bit mask. -/
def sxMask (c : Config) : Word := lowBits c.sxlen.bits

/-- Platform interrupt bits: 16 and above, below SXLEN (R54). -/
def platformBits (c : Config) : Word := sxMask c &&& ~~~(lowBits 16)

/-- The standard interrupts that are implemented (R55, R62); LCOFI with Sscofpmf (R61). -/
def standardIrqs (c : Config) : Word :=
  bitAt c.implSsi 1 ||| bitAt c.implSti 5 ||| bitAt c.implSei 9 ||| bitAt c.ext.sscofpmf 13

/-- The bits of `sip` that exist: interrupts that can become pending (R54, R62). -/
def sipBits (c : Config) : Word := standardIrqs c ||| (c.platformIrqs &&& platformBits c)

/-- `SIP_WRITABLE`: SSIP and LCOFIP where implemented, and platform bits; never STIP or SEIP (R56 to R62). -/
def sipWritable (c : Config) : Word :=
  bitAt c.implSsi 1 ||| bitAt c.ext.sscofpmf 13 ||| (c.sipPlatform &&& c.platformIrqs &&& platformBits c)

/-- `SIE_WRITABLE`: every interrupt that can become pending, and further platform bits (R57, R62). -/
def sieWritable (c : Config) : Word := sipBits c ||| (c.siePlatform &&& platformBits c)

/-- `HW_AD_UPDATE` (R182): `menvcfg.ADUE` with Svadu, else the implementation's fixed scheme. -/
def State.hwAd (s : State) : Bool := if s.cfg.ext.svadu then s.inputs.adue else s.cfg.hwAd

/-- The ASID operand: `x[rs2][ASIDLEN-1:0]`, the bits above ignored (R262, R267, R268). -/
def asidOperand (c : Config) (v : Word) : BitVec 16 := v.setWidth 16 &&& BitVec.ofNat 16 (2 ^ c.asidLen - 1)

/-- Whether a scheme is among `SATP_MODES`; Bare always is (R101, D15). -/
def supported (c : Config) : Scheme → Bool
  | .bare => true
  | .sv32 => c.sv32
  | .sv39 => c.sv39
  | .sv48 => c.sv48
  | .sv57 => c.sv57

end Sys2Proof.Machine
end

