-- ==== Sys2Proof/Machine/Flags.lean ====
section
/-! DEFINITION. The hart has no condition codes (R23); its status bits are fields of `sstatus` and `senvcfg`. This file
says how each field reads, what an explicit write leaves in it, and which interrupt the status bits let through. -/

namespace Sys2Proof.Machine

/-- SUM as it reads: read-only 0 when `satp.MODE` is read-only 0 (R35). -/
def State.sumOn (s : State) : Bool := paged s.cfg && s.sstatus.sum

/-- SDT as it reads: read-only zero without Ssdbltrp (R38). -/
def State.sdtOn (s : State) : Bool := s.cfg.ext.ssdbltrp && s.sstatus.sdt

/-- SPELP as it reads: read-only zero without Zicfilp (R37). -/
def State.spelpOn (s : State) : Bool := s.cfg.ext.zicfilp && s.sstatus.spelp

/-- UBE as it reads: read-only with the endianness of S-mode unless it is writable (R36, D7). -/
def State.ubeOn (s : State) : Bool := if s.cfg.ubeWritable then s.sstatus.ube else s.cfg.sBigEndian

/-- A two-bit context status field: read-only zero without the state behind it (R41). -/
def context (present : Bool) (v : BitVec 2) : BitVec 2 := if present then v else 0

/-- FS, VS and XS as they read (R41). -/
def State.fs (s : State) : BitVec 2 := context s.cfg.ext.f s.sstatus.fs
@[inherit_doc State.fs] def State.vs (s : State) : BitVec 2 := context s.cfg.ext.v s.sstatus.vs
@[inherit_doc State.fs] def State.xs (s : State) : BitVec 2 := context s.cfg.ext.x s.sstatus.xs

/-- SD: some context field is Dirty (R41). -/
def State.sd (s : State) : Bool := s.fs = 3 || s.vs = 3 || s.xs = 3

/-- A two-bit field at bit `n`. -/
def pairAt (v : BitVec 2) (n : Nat) : Word := v.setWidth 64 <<< n

/-- `sstatus` as it reads: each field at its place, zero elsewhere (R25, R26, R43). -/
def State.readSstatus (s : State) : Word :=
  bitAt s.sstatus.sie 1 ||| bitAt s.sstatus.spie 5 ||| bitAt s.ubeOn 6 ||| bitAt s.sstatus.spp 8 |||
    pairAt s.vs 9 ||| pairAt s.fs 13 ||| pairAt s.xs 15 ||| bitAt s.sumOn 18 ||| bitAt s.sstatus.mxr 19 |||
    bitAt s.spelpOn 23 ||| bitAt s.sdtOn 24 |||
    (match s.cfg.sxlen with
      | .rv32 => bitAt s.sd 31
      | .rv64 => pairAt s.uxl 32 ||| bitAt s.sd 63)

/-- UXL after a write: 1 and 2 are legal, any other value leaves it (R31). -/
def uxlWrite (c : Config) (old new : BitVec 2) : BitVec 2 :=
  match c.sxlen, c.uxl with
  | .rv64, .writable => if new = 1 ∨ new = 2 then new else old
  | _, _ => old

/-- An explicit write of `sstatus` (R43): WARL fields first, SIE last and only with SDT clear (R38). -/
def State.writeSstatus (s : State) (w : Word) : State :=
  let sdt := s.cfg.ext.ssdbltrp && w.getLsbD 24
  { s with sstatus :=
    { sie := w.getLsbD 1 && !sdt
      spie := w.getLsbD 5
      ube := s.cfg.ubeWritable && w.getLsbD 6
      spp := w.getLsbD 8
      vs := context s.cfg.ext.v (w.extractLsb' 9 2)
      fs := context s.cfg.ext.f (w.extractLsb' 13 2)
      xs := context s.cfg.ext.x (w.extractLsb' 15 2)
      sum := paged s.cfg && w.getLsbD 18
      mxr := w.getLsbD 19
      spelp := s.cfg.ext.zicfilp && w.getLsbD 23
      sdt := sdt
      uxl := uxlWrite s.cfg s.sstatus.uxl (w.extractLsb' 32 2) } }

/-- FIOM as it reads (R91, R92). -/
def State.fiomOn (s : State) : Bool := !(s.cfg.fiomReadOnly && !paged s.cfg) && s.senvcfg.fiom

/-- `senvcfg` as it reads: the fields of absent extensions and the WPRI fields are zero (R90 to R97, D22). -/
def State.readSenvcfg (s : State) : Word :=
  bitAt s.fiomOn 0 ||| bitAt (s.cfg.ext.zicfilp && s.senvcfg.lpe) 2 ||| bitAt (s.cfg.ext.zicfiss && s.senvcfg.sse) 3 |||
    pairAt (context s.cfg.ext.zicbom s.senvcfg.cbie) 4 ||| bitAt (s.cfg.ext.zicbom && s.senvcfg.cbcfe) 6 |||
    bitAt (s.cfg.ext.zicboz && s.senvcfg.cbze) 7 |||
    (match s.cfg.sxlen with
      | .rv32 => 0
      | .rv64 => pairAt (context s.cfg.ext.ssnpm s.senvcfg.pmm) 32)

/-- CBIE after a write with Zicbom: the reserved value 2 becomes a free legal value (R93, U43). -/
def cbieWrite (old new : BitVec 2) : BitVec 2 :=
  if new ≠ 2 then new
  else if Config.cbieLegal new old ≠ 2 then Config.cbieLegal new old
  else 0

/-- An explicit write of `senvcfg` (R91 to R97). That CBZE and CBCFE hold every written value, which value CBIE and PMM take, and
that CBZE has no effect, R93 leaves to their extensions (DESIGN CHOICE, unsafe: log entry 24). -/
def State.writeSenvcfg (s : State) (w : Word) : State :=
  { s with senvcfg :=
    { fiom := !(s.cfg.fiomReadOnly && !paged s.cfg) && w.getLsbD 0
      lpe := s.cfg.ext.zicfilp && w.getLsbD 2
      sse := s.cfg.ext.zicfiss && w.getLsbD 3
      cbie := if s.cfg.ext.zicbom then cbieWrite s.senvcfg.cbie (w.extractLsb' 4 2) else 0
      cbcfe := s.cfg.ext.zicbom && w.getLsbD 6
      cbze := s.cfg.ext.zicboz && w.getLsbD 7
      pmm :=
        match s.cfg.sxlen with
        | .rv32 => 0
        | .rv64 => if s.cfg.ext.ssnpm then Config.pmmLegal (w.extractLsb' 32 2) s.senvcfg.pmm else 0 } }

/-- Landing pads are enabled in a mode (R94, R256); never in M-mode here. -/
def State.landingPads (s : State) (p : Priv) : Bool :=
  match p with
  | .user => s.cfg.ext.zicfilp && s.senvcfg.lpe
  | .supervisor => s.cfg.ext.zicfilp && s.inputs.menvcfgLpe
  | .machine => false

/-- A landing pad is expected and the mode has them enabled; with landing pads off the hart keeps NO_LP_EXPECTED (R86, R94,
R329). -/
def State.padMissing (s : State) : Bool := s.elp && s.landingPads s.priv

/-- `sip` as it reads: bits that do not exist are zero (R55, R62). -/
def State.readSip (s : State) : Word := s.sip &&& sipBits s.cfg

/-- `sie` as it reads: bits that are not writable are zero (R57). -/
def State.readSie (s : State) : Word := s.sie &&& sieWritable s.cfg

/-- An explicit write of `sip` changes only the bits of `SIP_WRITABLE` (R56). -/
def State.writeSip (s : State) (w : Word) : State :=
  { s with sip := (s.sip &&& ~~~(sipWritable s.cfg)) ||| (w &&& sipWritable s.cfg) }

/-- An explicit write of `sie` keeps the bits of `SIE_WRITABLE` (R57). -/
def State.writeSie (s : State) (w : Word) : State := { s with sie := w &&& sieWritable s.cfg }

/-- Condition (a) of R350: S-mode with SIE set, or U-mode. -/
def State.interruptsEnabled (s : State) : Bool :=
  match s.priv with
  | .user => true
  | .supervisor => s.sstatus.sie
  | .machine => false

/-- `takeable(i)` of R350. -/
def State.takeable (s : State) (i : Nat) : Bool :=
  s.interruptsEnabled && s.readSip.getLsbD i && s.readSie.getLsbD i

/-- `select_interrupt()` of R351: the first takeable code of the priority order, else the lowest takeable code. -/
def State.selectInterrupt (s : State) : Option Nat :=
  (s.cfg.irqOrder ++ List.range 64).find? s.takeable

end Sys2Proof.Machine
end

