-- ==== Sys2Proof/Machine/Ops.lean ====
section
/-! DEFINITION. The named operations: physical memory, PMA and PMP, valid addresses, taking an exception or an interrupt,
returning from one, and the fences' effect on the address-translation cache. -/

namespace Sys2Proof.Machine

/-! ### Sparse data by address: memory and the record of memory types -/

/-- What a list of pairs holds at a key; `d` where the key is not listed. -/
def lookupAt {α : Type} (d : α) : List (Nat × α) → Nat → α
  | [], _ => d
  | (k, v) :: rest, a => if k = a then v else lookupAt d rest a

/-- The list without a key. -/
def eraseAt {α : Type} (m : List (Nat × α)) (a : Nat) : List (Nat × α) := m.filter (fun c => decide (c.1 ≠ a))

/-- The list with a pair put before the first greater key. -/
def insertAt {α : Type} (a : Nat) (v : α) : List (Nat × α) → List (Nat × α)
  | [] => [(a, v)]
  | (k, w) :: rest => if a < k then (a, v) :: (k, w) :: rest else (k, w) :: insertAt a v rest

/-- A write: the key's entry is replaced, and removed where the value is what an unlisted key reads as. -/
def updateAt {α : Type} [DecidableEq α] (d : α) (m : List (Nat × α)) (a : Nat) (v : α) : List (Nat × α) :=
  if v = d then eraseAt m a else insertAt a v (eraseAt m a)

/-- The canonical form: keys strictly rising, no entry equal to the default. -/
def canonical {α : Type} [DecidableEq α] (d : α) (m : List (Nat × α)) : Bool :=
  decide (m.Pairwise (fun c e => c.1 < e.1)) && m.all (fun c => decide (c.2 ≠ d))

/-- What a byte of memory that nothing has written reads as (DESIGN CHOICE: log entry 3). -/
def unwrittenByte : Byte := 0

/-- One byte of physical memory. -/
def Memory.read (m : List Host.Cell) (a : Nat) : Byte := lookupAt unwrittenByte m a

/-- Writing one byte of physical memory. -/
def Memory.write (m : List Host.Cell) (a : Nat) (b : Byte) : List Host.Cell := updateAt unwrittenByte m a b

/-- Memory is in its canonical form. -/
def Memory.wf (m : List Host.Cell) : Bool := canonical unwrittenByte m

/-- `n` bytes from an address up. -/
def Memory.readBytes (m : List Host.Cell) : Nat → Nat → List Byte
  | _, 0 => []
  | a, n + 1 => Memory.read m a :: Memory.readBytes m (a + 1) n

/-- A list of bytes stored from an address up. -/
def Memory.writeBytes (m : List Host.Cell) : Nat → List Byte → List Host.Cell
  | _, [] => m
  | a, b :: bs => Memory.writeBytes (Memory.write m a b) (a + 1) bs

/-- The value of bytes, the first the least significant. -/
def littleValue : List Byte → Nat
  | [] => 0
  | b :: bs => b.toNat + 256 * littleValue bs

/-- `n` bytes of a value, the least significant first. -/
def littleBytes : Nat → Nat → List Byte
  | 0, _ => []
  | n + 1, v => BitVec.ofNat 8 v :: littleBytes n (v / 256)

/-- The value of bytes in memory order (R121): little-endian, or big-endian. -/
def joinBytes (big : Bool) (bs : List Byte) : Nat := littleValue (if big then bs.reverse else bs)

/-- A value as bytes in memory order (R121). -/
def splitBytes (big : Bool) (n v : Nat) : List Byte := if big then (littleBytes n v).reverse else littleBytes n v

/-! ### PMA and PMP -/

/-- The verdict of `pma_pmp_ok` (R7, R136). -/
inductive Verdict where
  | ok
  | device
  | denied
deriving DecidableEq, Repr

/-- The first region that holds all of `n` bytes at `pa`. -/
def regionOf (c : Config) (pa n : Nat) : Option Region :=
  c.regions.find? (fun r => decide (r.base ≤ pa) && decide (pa + n ≤ r.base + r.size))

/-- `pma_pmp_ok`: no access beyond 2^PALEN (R137, D9); else what the region says. -/
def pmaCheck (c : Config) (pa n : Nat) (acc : Access) (p : Priv) : Verdict :=
  if 2 ^ c.paLen < pa + n then .denied
  else match regionOf c pa n with
    | none => .denied
    | some r => if r.allow.contains (p, acc) then (if r.device then .device else .ok) else .denied

/-- A hardware store to a PTE passes its check: it is checked as a store of S-mode, whatever the mode of the access (PRESUMED,
unsafe: log entry 40), and has to lie in memory with page-table write support (R167, R180). -/
def pteStoreOk (c : Config) (pa n : Nat) : Bool :=
  match pmaCheck c pa n .store .supervisor, regionOf c pa n with
  | .ok, some r => r.ptWrite
  | _, _ => false

/-! ### Accesses to one location with different attributes (R206, R210, R211, R417, U32; log entry 16) -/

/-- The attributes of an access of `n` bytes: those of its region, or those that its page's PBMT puts in their place
(R205, R206). -/
def attributesOf (c : Config) (pa n : Nat) (mt : MemType) : Attributes :=
  match mt, regionOf c pa n with
  | .pma, some r => { cacheable := r.cacheable && !r.device, io := r.device }
  | .pma, none => { cacheable := false, io := false }
  | .nc, _ => { cacheable := false, io := false }
  | .io, _ => { cacheable := false, io := true }

/-- An access keeps coherence and ordering with the last access to the location: the same attributes, two non-cacheable ones
with a full fence between, or any with the whole sequence of fence, `cbo.flush` and fence between (R211). That other accesses
stop is U32. -/
def compatible (last : Seen) (now : Attributes) : Bool :=
  match last with
  | .unseen => true
  | .seen before since =>
    before == now || (!before.cacheable && !now.cacheable && since != .nothing) || since == .synced

/-- The `n` locations from `pa` up, one after the other. -/
def span (pa n : Nat) : List Nat := (List.range n).map (pa + ·)

/-- The record after an access of `n` bytes, or `none` where the access breaks R211; nothing is recorded without Svpbmt. -/
def touchTypes (c : Config) (pa n : Nat) (mt : MemType) (types : List (Nat × Seen)) : Option (List (Nat × Seen)) :=
  let now := attributesOf c pa n mt
  if !c.ext.svpbmt then some types
  else if (span pa n).all (fun a => compatible (lookupAt .unseen types a) now) then
    some ((span pa n).foldl (fun t a => updateAt .unseen t a (.seen now .nothing)) types)
  else none

/-- The memory system with an access recorded, or the stop of U32. -/
def MemSys.touch (ms : MemSys) (c : Config) (pa n : Nat) (mt : MemType) : Except Stop MemSys :=
  match touchTypes c pa n mt ms.types with
  | some types => .ok { ms with types := types }
  | none => .error (.fault .incoherentTypes)

/-- A full fence as the next of the sequence (R211). -/
def Since.afterFence : Since → Since
  | .nothing => .fenced
  | .fenced => .fenced
  | .flushed => .synced
  | .synced => .synced

/-- A `cbo.flush` as the next of the sequence: it counts only after a fence (R211). -/
def Since.afterFlush : Since → Since
  | .nothing => .nothing
  | .fenced => .flushed
  | .flushed => .flushed
  | .synced => .synced

/-- What has followed the last access to a location, changed; a location without an access stays so. -/
def Seen.follow (f : Since → Since) : Seen → Seen
  | .unseen => .unseen
  | .seen last since => .seen last (f since)

/-- The record with what has followed the last access changed, location by location. -/
def followTypes (f : Nat → Since → Since) (types : List (Nat × Seen)) : List (Nat × Seen) :=
  types.map (fun c => (c.1, c.2.follow (f c.1)))

/-- A full fence (`fence iorw, iorw`) comes after every access so far (R211). -/
def fenceTypes (types : List (Nat × Seen)) : List (Nat × Seen) := followTypes (fun _ => Since.afterFence) types

/-- `cbo.flush` to the block of `size` bytes that holds `pa` (R211; that it reaches the whole block is PRESUMED: log entry
44). -/
def flushTypes (size pa : Nat) (types : List (Nat × Seen)) : List (Nat × Seen) :=
  followTypes (fun a since => if a / size = pa / size then since.afterFlush else since) types

/-! ### Schemes and valid virtual addresses -/

/-- LEVELS (R8). -/
def Scheme.levels : Scheme → Nat
  | .bare => 0
  | .sv32 => 2
  | .sv39 => 3
  | .sv48 => 4
  | .sv57 => 5

/-- Index bits per level (R142 to R147). -/
def Scheme.vpnBits : Scheme → Nat
  | .sv32 => 10
  | _ => 9

/-- PTESIZE (R8, R131). -/
def Scheme.pteBytes : Scheme → Nat
  | .sv32 => 4
  | _ => 8

/-- The width of a PTE's PPN (R8). -/
def Scheme.ppnBits : Scheme → Nat
  | .sv32 => 22
  | _ => 44

/-- Usable virtual-address bits (R8); all 64 under Bare. -/
def Scheme.vaBits : Scheme → Nat
  | .bare => 64
  | .sv32 => 32
  | .sv39 => 39
  | .sv48 => 48
  | .sv57 => 57

/-- `va_valid` of R152: bits 63:B-1 all zeros or all ones; every address under Bare and Sv32. -/
def vaValid (sch : Scheme) (va : Word) : Bool :=
  match sch with
  | .bare => true
  | .sv32 => true
  | sch => va >>> (sch.vaBits - 1) == 0 || va >>> (sch.vaBits - 1) == BitVec.allOnes 64 >>> (sch.vaBits - 1)

/-- A legalised address: the identity on valid addresses, and from an invalid one to a free invalid one (R73, R88, D12). -/
def legalize (f : Nat → Word → Word) (sch : Scheme) (va : Word) : Word :=
  if vaValid sch va then va
  else if vaValid sch (f sch.vaBits va) then va
  else f sch.vaBits va

/-- What `sepc` keeps of a value: bit 0 clear, and bit 1 too where only IALIGN=32 is supported (R70, R74). -/
def epcMask (c : Config) : Word := if c.ialign = .fixed32 then ~~~3#64 else ~~~1#64

/-- Writing `sepc`, explicitly or on trap entry (R73, R74, R362). -/
def State.setSepc (s : State) (v : Word) : State :=
  { s with sepc := legalize Config.legalEpc s.satp.mode (cut s.cfg.sxlen v) &&& epcMask s.cfg }

/-- `read_sepc()`: bit 1 is masked while IALIGN=32 (R72). -/
def State.readSepc (s : State) : Word := s.sepc &&& (if s.align16 then ~~~1#64 else ~~~3#64)

/-! ### Taking an exception or an interrupt -/

/-- The exception codes (R340; 11 is environment call from M-mode, R320). -/
def Cause.code : Cause → Nat
  | .instrMisaligned => 0
  | .instrAccess => 1
  | .illegal => 2
  | .breakpoint => 3
  | .loadMisaligned => 4
  | .loadAccess => 5
  | .storeMisaligned => 6
  | .storeAccess => 7
  | .ecallU => 8
  | .ecallS => 9
  | .ecallM => 11
  | .instrPage => 12
  | .loadPage => 13
  | .storePage => 15
  | .softwareCheck => 18
  | .hardwareError => 19

/-- The policy of `TVAL_INFORMATIVE` for a code (R81, D13). -/
def tvalPolicy (c : Config) (code : Nat) : TvalPolicy :=
  match c.tval.lookup code with
  | some p => p
  | none => .informative

/-- A value that `stval` must hold whatever address it is: below 2^N, N the smaller of SXLEN and ILEN, where faulting
instruction bits are reported (R88). -/
def tvalHeld (c : Config) (v : Word) : Bool :=
  tvalPolicy c Cause.illegal.code != .zero && decide (v.toNat < 2 ^ min c.sxlen.bits c.ilen)

/-- A value as `stval` holds it (R88). -/
def legalStval (c : Config) (sch : Scheme) (v : Word) : Word :=
  if tvalHeld c v then v else legalize Config.legalTval sch v

/-- Writing `stval`, explicitly or on trap entry (R88, R365). -/
def State.setStval (s : State) (v : Word) : State :=
  { s with stval := legalStval s.cfg s.satp.mode (cut s.cfg.sxlen v) }

/-- The trap value of an exception and the draws after it (R340, R365): `info` by the policy of its code; a software
check's cause always (R86); zero for the other traps (R87). -/
def trapValue (c : Config) (cause : Cause) (info : Word) (draws : Nat) : Word × Nat :=
  match cause with
  | .ecallU | .ecallS | .ecallM | .hardwareError => (0, draws)
  | .softwareCheck => (info, draws)
  | cause =>
    match tvalPolicy c cause.code with
    | .informative => (info, draws)
    | .zero => (0, draws)
    | .either => (if Config.tvalPick draws then info else 0, draws + 1)

/-- `delegated_to_S` for an exception (R345): never from M-mode. -/
def State.delegated (s : State) (code : Nat) : Bool :=
  match s.priv with
  | .user => s.inputs.delegU.getLsbD code
  | .supervisor => s.inputs.delegS.getLsbD code
  | .machine => false

/-- `trap_vector` of R364: BASE, plus four times the code for an interrupt under Vectored, modulo 2^SXLEN (D25). -/
def State.trapVector (s : State) (isInterrupt : Bool) (code : Nat) : Word :=
  let base := s.stvec &&& ~~~3#64
  if s.stvec &&& 3#64 = 1#64 ∧ isInterrupt then cut s.cfg.sxlen (base + BitVec.ofNat 64 (4 * code))
  else cut s.cfg.sxlen base

/-- A cause as one word, Interrupt at bit SXLEN-1 (R77). -/
def causeWord (c : Config) (isInterrupt : Bool) (code : Word) : Word :=
  cut c.sxlen ((code &&& lowBits (c.sxlen.bits - 1)) ||| bitAt isInterrupt (c.sxlen.bits - 1))

/-- A trap into M-mode (R346, R367): the machine-level registers take the trap, nothing of the supervisor level changes but
ELP, which Zicfilp saves and clears (PRESUMED, unsafe: log entry 23). `mtval2` is given for a double trap; else it and
`mtinst` are free (log entry 5). -/
def State.trapToM (s : State) (code : Nat) (mtval2 : Option Word) (tval epc : Word) : State :=
  { s with
    mach :=
      { s.mach with
        mepc := epc
        mcause := BitVec.ofNat 64 code
        mtval := tval
        mtval2 := mtval2.getD (cut s.cfg.sxlen (Config.machineFree s.ms.draws))
        mtinst := cut s.cfg.sxlen (Config.machineFree (s.ms.draws + 1))
        mpp := s.priv
        mpie := s.mach.mie
        mie := false
        mpelp := s.padMissing }
    elp := s.elp && !s.cfg.ext.zicfilp
    ms := { s.ms with draws := s.ms.draws + 2 }
    priv := .machine
    pc := cut s.cfg.sxlen (s.mach.mtvec &&& ~~~3#64) }

/-- The double trap of R367: delivered into M-mode with code 16, the unexpected trap's cause in `mtval2`. -/
def State.doubleTrap (s : State) (isInterrupt : Bool) (code : Nat) (tval epc : Word) : State :=
  s.trapToM 16 (some (causeWord s.cfg isInterrupt (BitVec.ofNat 64 code))) tval epc

/-- The status fields on entry into S-mode (R361, R366), with Zicfilp's save of ELP (R360), which is NO_LP_EXPECTED where the
mode has landing pads off (R94). -/
def State.enterStatus (s : State) : Sstatus :=
  { s.sstatus with
    spp := decide (s.priv ≠ .user)
    spie := s.sstatus.sie
    sie := false
    sdt := s.cfg.ext.ssdbltrp
    spelp := s.padMissing }

/-- `TrapToS` of R360. -/
def State.trapToS (s : State) (isInterrupt : Bool) (code : Nat) (tval epc : Word) : State :=
  if s.sdtOn then s.doubleTrap isInterrupt code tval epc
  else
    let s1 := (s.setSepc epc).setStval tval
    { s1 with
      sstatus := s.enterStatus
      elp := s.elp && !s.cfg.ext.zicfilp
      scause := { interrupt := isInterrupt, code := BitVec.ofNat 64 code }
      priv := .supervisor
      pc := s.trapVector isInterrupt code }

/-- TAKING AN EXCEPTION at the current `pc` (R345, R346, R360, R362): in S-mode where it is delegated, else in M-mode. In
U-mode with UXLEN<SXLEN the saved `pc` is the SXLEN-bit one, not reduced modulo 2^UXLEN (DESIGN CHOICE, unsafe: log entry
21). -/
def State.takeException (s : State) (cause : Cause) (info : Word) : State :=
  let tv := trapValue s.cfg cause info s.ms.draws
  let s1 := { s with ms := { s.ms with draws := tv.2 } }
  if s.delegated cause.code then s1.trapToS false cause.code tv.1 s.pc
  else s1.trapToM cause.code none tv.1 s.pc

/-- Taking interrupt `code` before the instruction at `pc` (R350, R360, R362): always into S-mode, trap value 0 (R87). -/
def State.takeInterrupt (s : State) (code : Nat) : State := s.trapToS true code 0 s.pc

/-- RETURNING FROM AN EXCEPTION: the effect of SRET (R252), with the clearing of MPRV and Zicfilp's ELP (R256), which a mode
with landing pads off does not take over (S-mode: DESIGN CHOICE, unsafe, log entry 23). The interrupt condition is
evaluated before anything else happens (R352). -/
def State.returnFromTrap (s : State) : State :=
  let p := if s.sstatus.spp then Priv.supervisor else Priv.user
  { s with
    sstatus := { s.sstatus with sie := s.sstatus.spie, spie := true, spp := false, sdt := false, spelp := false }
    elp := if s.cfg.ext.zicfilp then s.landingPads p && s.spelpOn else s.elp
    inputs := { s.inputs with mprv := false }
    priv := p
    pc := s.readSepc
    recheck := true }

/-- The faulting instruction's bits as `stval` reports them (R85): at most ILEN and SXLEN bits, right-justified. -/
def instrBits (c : Config) (len : Nat) (w : Word) : Word :=
  w &&& lowBits (min len (min c.ilen c.sxlen.bits))

/-! ### How an operation on part of the state ends -/

/-- The result of an operation: a value and the state after, an exception with its trap value and the state it leaves,
or a stop. -/
inductive Res (σ α : Type) where
  | ok (a : α) (s : σ)
  | exc (cause : Cause) (info : Word) (s : σ)
  | stop (t : Stop)
deriving DecidableEq, Repr

/-- A stop as an outcome of the step. -/
def Stop.outcome : Stop → Host.Outcome State Fault Refusal
  | .fault f => .fault f
  | .refusal r => .refused r

/-! ### Invalidation of the address-translation cache -/

/-- Permission bits of a PTE by number: V 0, R 1, W 2, X 3, U 4, G 5, A 6, D 7 (R144). -/
def pteV (p : Word) : Bool := p.getLsbD 0
@[inherit_doc pteV] def pteR (p : Word) : Bool := p.getLsbD 1
@[inherit_doc pteV] def pteW (p : Word) : Bool := p.getLsbD 2
@[inherit_doc pteV] def pteX (p : Word) : Bool := p.getLsbD 3
@[inherit_doc pteV] def pteU (p : Word) : Bool := p.getLsbD 4
@[inherit_doc pteV] def pteG (p : Word) : Bool := p.getLsbD 5
@[inherit_doc pteV] def pteA (p : Word) : Bool := p.getLsbD 6
@[inherit_doc pteV] def pteD (p : Word) : Bool := p.getLsbD 7

/-- The virtual page number bits `vpn[LEVELS-1:i]` of an address (R142 to R147). -/
def vpnFrom (sch : Scheme) (i : Nat) (va : Word) : Nat :=
  (va.toNat / 2 ^ (12 + sch.vpnBits * i)) % 2 ^ (sch.vpnBits * (sch.levels - i))

/-- An entry covers an address: it agrees with it in `vpn[LEVELS-1:level]` (R262). -/
def AtcEntry.covers (e : AtcEntry) (va : Word) : Bool := vpnFrom e.scheme e.level va == e.vpn

/-- An entry holds a leaf PTE: anything but a valid pointer (R262, D37). -/
def AtcEntry.isLeaf (e : AtcEntry) : Bool := !pteV e.pte || pteR e.pte || pteW e.pte || pteX e.pte

/-- The set `M` of R262: what SFENCE.VMA or SINVAL.VMA with these operands must invalidate. -/
def FenceRequest.hits (q : FenceRequest) (e : AtcEntry) : Bool :=
  (match q.va with
    | none => true
    | some va => e.covers va && e.isLeaf) &&
  (match q.asid with
    | none => true
    | some a => e.asid == a && !e.isGlobal)

/-- Removing the entries a request selects (R262). -/
def MemSys.invalidate (ms : MemSys) (q : FenceRequest) : MemSys :=
  { ms with atc := ms.atc.filter (fun e => !q.hits e) }

/-- In-flight walks lose the right to create entries that a request selects (R266). -/
def InflightWalk.fenced (w : InflightWalk) (q : FenceRequest) : InflightWalk := { w with fences := q :: w.fences }

/-- A request takes effect with its ordering: entries removed, in-flight walks bound (R262, R266, R285). -/
def State.fenceOne (s : State) (q : FenceRequest) : State :=
  { s with ms := s.ms.invalidate q, walks := s.walks.map (fun w => w.fenced q) }

/-- Every pending SINVAL.VMA request is ordered and retired (R285, R286). -/
def State.retirePending (s : State) : State :=
  { s.pendingInval.foldl State.fenceOne s with pendingInval := [] }

end Sys2Proof.Machine
end

