-- ==== Sys2Proof/Machine/Translate.lean ====
section
/-! DEFINITION. Address translation (R150): the eight steps, with Svnapot, Svpbmt, Svadu or Svade, Svvptc, and the
address-translation cache. Log entries 8, 9, 20 say how the cache's free choices are taken. -/

namespace Sys2Proof.Machine

/-- What one execution of the algorithm reads of the hart: `satp` as loaded by step 1 (R151), the access, SUM, MXR and
the A/D scheme. -/
structure WalkCtx where
  cfg    : Config
  scheme : Scheme
  asid   : BitVec 16
  root   : Nat
  va     : Word
  acc    : Access
  epriv  : Priv
  sum    : Bool
  mxr    : Bool
  hwAd   : Bool
deriving DecidableEq, Repr

/-- The page-fault exception of an access kind (R158). -/
def pageFaultOf : Access → Cause
  | .fetch => .instrPage
  | .load => .loadPage
  | .store => .storePage

/-- The access-fault exception of an access kind (R158). -/
def accessFaultOf : Access → Cause
  | .fetch => .instrAccess
  | .load => .loadAccess
  | .store => .storeAccess

/-- `va.vpn[i]` (R142, R145 to R147). -/
def vpnIndex (sch : Scheme) (i : Nat) (va : Word) : Nat := (va.toNat / 2 ^ (12 + sch.vpnBits * i)) % 2 ^ sch.vpnBits

/-- The whole PPN of a PTE (R144, R145). -/
def ptePpn (sch : Scheme) (pte : Word) : Nat := (pte.toNat / 2 ^ 10) % 2 ^ sch.ppnBits

/-- The PBMT field, bits 62:61 (R205). -/
def ptePbmt (pte : Word) : BitVec 2 := pte.extractLsb' 61 2

/-- The N bit, bit 63 (R200). -/
def pteN (pte : Word) : Bool := pte.getLsbD 63

/-- A valid PTE is a leaf when R or X is set (R155; W without R is reserved). -/
def pteIsLeaf (pte : Word) : Bool := pteR pte || pteX pte

/-- The 64 KiB NAPOT encoding: level 0 and `ppn[0][3:0] = 1000` (R201). -/
def napotOk (i : Nat) (pte : Word) : Bool := i == 0 && pte.extractLsb' 10 4 == 0b1000#4

/-- `reserved_set(pte, i)` of R154, with the reserved NAPOT encodings of R201 and the non-leaf bits of R156. -/
def reservedSet (c : Config) (sch : Scheme) (i : Nat) (pte : Word) : Bool :=
  (!pteIsLeaf pte && (pteD pte || pteA pte || pteU pte)) ||
  (match sch with
    | .sv32 => false
    | _ =>
      pte.extractLsb' 54 7 != 0 ||
      (pteN pte && !c.ext.svnapot) || (pteN pte && !napotOk i pte) ||
      (ptePbmt pte != 0 && !c.ext.svpbmt) || (ptePbmt pte != 0 && !pteIsLeaf pte) || ptePbmt pte == 3)

/-- The PPN after the NAPOT substitution: the low four bits are those of `va.vpn[0]` (R201). -/
def napotPpn (sch : Scheme) (pte : Word) (va : Word) : Nat :=
  if sch ≠ .sv32 ∧ pteN pte then ptePpn sch pte / 16 * 16 + vpnIndex sch 0 va % 16 else ptePpn sch pte

/-- `perm_ok` of R165. -/
def permOk (c : WalkCtx) (pte : Word) : Bool :=
  (match c.epriv with
    | .user => pteU pte
    | .supervisor => !pteU pte || (c.acc != .fetch && c.sum)
    | .machine => true) &&
  (match c.acc with
    | .fetch => pteX pte
    | .load => pteR pte || (c.mxr && pteX pte)
    | .store => pteW pte)

/-- The memory type of a leaf (R205, R206). -/
def memTypeOf (sch : Scheme) (pte : Word) : MemType :=
  if sch = .sv32 then .pma
  else if ptePbmt pte = 1 then .nc
  else if ptePbmt pte = 2 then .io
  else .pma

/-- What one level of the algorithm says of a PTE: steps 3 to 8. -/
inductive LevelResult where
  | pageFault
  | accessFault
  /-- a pointer: the next table, and whether the mappings below it are global (R149, R155) -/
  | descend (base : Nat) (isGlobal : Bool)
  /-- a leaf: the physical address (R169), the memory type, and whether step 7 sets A or D (R167) -/
  | leaf (pa : Nat) (mt : MemType) (update : Bool)
deriving DecidableEq, Repr

/-- The physical address of step 8 (R169). -/
def leafAddress (sch : Scheme) (i : Nat) (pte va : Word) : Nat :=
  (napotPpn sch pte va / 2 ^ (sch.vpnBits * i) * 2 ^ (sch.vpnBits * i) +
    (va.toNat / 2 ^ 12) % 2 ^ (sch.vpnBits * i)) * 2 ^ 12 + va.toNat % 2 ^ 12

/-- Step 7 has something to set (R167). -/
def needsUpdate (acc : Access) (pte : Word) : Bool := !pteA pte || (acc == .store && !pteD pte)

/-- Steps 3 to 8 for the PTE at `addr`, read at level `i` (R154, R155, R165 to R169). -/
def levelResult (c : WalkCtx) (i addr : Nat) (pte : Word) : LevelResult :=
  if !pteV pte || (!pteR pte && pteW pte) || reservedSet c.cfg c.scheme i pte then .pageFault
  else if !pteIsLeaf pte then
    if i = 0 then .pageFault else .descend (ptePpn c.scheme pte * 2 ^ 12) (pteG pte)
  else if !permOk c pte then .pageFault
  else if i ≠ 0 ∧ ptePpn c.scheme pte % 2 ^ (c.scheme.vpnBits * i) ≠ 0 then .pageFault
  else if needsUpdate c.acc pte then
    if !c.hwAd then .pageFault
    else if !pteStoreOk c.cfg addr c.scheme.pteBytes then .accessFault
    else .leaf (leafAddress c.scheme i pte c.va) (memTypeOf c.scheme pte) true
  else .leaf (leafAddress c.scheme i pte c.va) (memTypeOf c.scheme pte) false

/-- A PTE with A set, and D for a store (R168). -/
def markPte (acc : Access) (pte : Word) : Word :=
  if acc = .store then pte ||| 0xC0#64 else pte ||| 0x40#64

/-- A PTE as memory holds it: PTESIZE bytes in S-mode endianness (R123, R131). -/
def pteAt (c : Config) (sch : Scheme) (mem : List Host.Cell) (addr : Nat) : Word :=
  BitVec.ofNat 64 (joinBytes c.sBigEndian (Memory.readBytes mem addr sch.pteBytes))

/-- Memory with a PTE stored whole (R131). -/
def storePte (c : Config) (sch : Scheme) (mem : List Host.Cell) (addr : Nat) (pte : Word) : List Host.Cell :=
  Memory.writeBytes mem addr (splitBytes c.sBigEndian sch.pteBytes pte.toNat)

/-- The address of the PTE that step 2 reads (R153). -/
def pteAddress (c : WalkCtx) (i base : Nat) : Nat := base + vpnIndex c.scheme i c.va * c.scheme.pteBytes

/-- The entry that a read creates (R112); an invalid PTE's G bit counts for nothing (R148). -/
def newEntry (c : WalkCtx) (i addr : Nat) (isGlobal : Bool) (pte : Word) : AtcEntry :=
  { pteAddr := addr, pte := pte, level := i, scheme := c.scheme, vpn := vpnFrom c.scheme i c.va, asid := c.asid,
    isGlobal := isGlobal || (pteV pte && pteG pte), staleReads := 0 }

/-- A NAPOT PTE read at level 0 makes an entry for each of its 16 slots (R202), each holding the same PTE. -/
def napotEntries (e : AtcEntry) : List AtcEntry :=
  (List.range 16).map (fun j =>
    { e with pteAddr := e.pteAddr / 128 * 128 + 8 * j, vpn := e.vpn / 16 * 16 + j })

/-- The entries that one step 2 read creates (R112, R202); a NAPOT PTE may be cached with its V bit clear too (R172). -/
def createdEntries (c : WalkCtx) (i addr : Nat) (isGlobal : Bool) (pte : Word) : List AtcEntry :=
  let e := newEntry c i addr isGlobal pte
  if c.cfg.ext.svnapot && c.scheme != .sv32 && pteN pte && napotOk i pte then e :: napotEntries e else [e]

/-- Adding an entry to the set; an equal entry is not added twice. -/
def addEntry (atc : List AtcEntry) (e : AtcEntry) : List AtcEntry :=
  if atc.any (fun x => { x with staleReads := 0 } == e) then atc else e :: atc

/-- An entry may satisfy the step 2 read at `addr`, level `i` (R171): the ASID matches or it is global, and it is an entry
for that PTE address, or for that virtual address at that level (log entry 8). -/
def AtcEntry.serves (e : AtcEntry) (c : WalkCtx) (i addr : Nat) : Bool :=
  (e.asid == c.asid || e.isGlobal) &&
    (e.pteAddr == addr || (e.scheme == c.scheme && e.level == i && e.covers c.va))

/-- Svvptc has run out for an entry with V=0 whose PTE in memory has V=1 (R213). -/
def AtcEntry.expired (e : AtcEntry) (c : Config) (memPte : Option Word) : Bool :=
  match memPte with
  | some p => c.ext.svvptc && !pteV e.pte && pteV p && decide (Config.svvptcBound ≤ e.staleReads)
  | none => false

/-- A stale entry whose A or D step 7 would set: the compare fails and the step returns to step 2 (R168), so that a walk
that ends does not end through it (log entry 9). -/
def loopsBack (r : LevelResult) (e : AtcEntry) (memPte : Option Word) : Bool :=
  match r with
  | .leaf _ _ true => memPte != some e.pte
  | _ => false

/-- The entries that a step 2 read may be satisfied from. -/
def usableEntries (c : WalkCtx) (i addr : Nat) (memPte : Option Word) (atc : List AtcEntry) : List AtcEntry :=
  atc.filter (fun e => e.serves c i addr && !e.expired c.cfg memPte && !loopsBack (levelResult c i addr e.pte) e memPte)

/-- What memory gives to a step 2 read: the PTE, or nothing where the read violates a PMA or PMP check; `none` outside
where the page table lies in device memory. Every such read is checked as a load of S-mode, whatever the access and its
mode (PRESUMED, unsafe: log entry 40). -/
def readPte (c : WalkCtx) (mem : List Host.Cell) (addr : Nat) : Option (Option Word) :=
  match pmaCheck c.cfg addr c.scheme.pteBytes .load .supervisor with
  | .ok => some (some (pteAt c.cfg c.scheme mem addr))
  | .denied => some none
  | .device => none

/-- Steps 3 to 8 for what memory gives; a denied read is an access fault (R153). -/
def memoryResult (c : WalkCtx) (i addr : Nat) (memPte : Option Word) : LevelResult :=
  match memPte with
  | some p => levelResult c i addr p
  | none => .accessFault

/-- The source that serves a step 2 read, with the draws after it (R172): memory where it makes no difference, else a
free choice among memory and the usable entries. -/
def chooseSource (c : WalkCtx) (i addr : Nat) (memPte : Option Word) (ms : MemSys) : Option AtcEntry × Nat :=
  let es := usableEntries c i addr memPte ms.atc
  if es.all (fun e => levelResult c i addr e.pte == memoryResult c i addr memPte) then (none, ms.draws)
  else (es[Config.atcPick ms.draws % (es.length + 1)]?, ms.draws + 1)

/-- The count of an invalid entry that is used although memory holds a valid PTE goes up (R213). -/
def countStale (e : AtcEntry) (memPte : Option Word) (atc : List AtcEntry) : List AtcEntry :=
  match memPte with
  | some p =>
    if !pteV e.pte && pteV p then atc.map (fun x => if x = e then { x with staleReads := x.staleReads + 1 } else x)
    else atc
  | none => atc

/-- The atomic update of step 7, where the level says there is one: the PTE in memory gets A, and D for a store (R168,
R203: the PTE as it stands in memory). -/
def updatePte (c : WalkCtx) (addr : Nat) (r : LevelResult) (pte : Word) (ms : MemSys) : MemSys :=
  match r with
  | .leaf _ _ true => { ms with mem := storePte c.cfg c.scheme ms.mem addr (markPte c.acc pte) }
  | _ => ms

/-- Step 7 updates the PTE (R167). -/
def LevelResult.updates : LevelResult → Bool
  | .leaf _ _ u => u
  | _ => false

/-- Step 7 after a level's result; where memory is read or written, the access to the PTE is recorded (R210, U32). -/
def finishLevel (c : WalkCtx) (addr : Nat) (isRead : Bool) (r : LevelResult) (pte : Word) (ms : MemSys) :
    Except Stop (LevelResult × MemSys) :=
  match if isRead || r.updates then ms.touch c.cfg addr c.scheme.pteBytes .pma else .ok ms with
  | .ok ms' => .ok (r, updatePte c addr r pte ms')
  | .error t => .error t

/-- One level: step 2 from its source, the cache entry the read creates, steps 3 to 7 (R153 to R168), or a stop. -/
def walkLevel (c : WalkCtx) (i base : Nat) (isGlobal : Bool) (ms : MemSys) : Except Stop (LevelResult × MemSys) :=
  let addr := pteAddress c i base
  match readPte c ms.mem addr with
  | none => .error (.refusal .pageTableInDevice)
  | some memPte =>
    let source := chooseSource c i addr memPte ms
    let ms1 := { ms with draws := source.2 }
    match source.1, memPte with
    | some e, _ =>
      finishLevel c addr false (levelResult c i addr e.pte) e.pte { ms1 with atc := countStale e memPte ms1.atc }
    | none, some p =>
      finishLevel c addr true (levelResult c i addr p) p
        { ms1 with atc := (createdEntries c i addr isGlobal p).foldl addEntry ms1.atc }
    | none, none => .ok (.accessFault, ms1)

/-- How a level ends the walk, or goes on to the next (R155). -/
def afterLevel (c : WalkCtx) (next : Nat → Bool → MemSys → Res MemSys (Nat × MemType)) :
    Except Stop (LevelResult × MemSys) → Res MemSys (Nat × MemType)
  | .error t => .stop t
  | .ok (.pageFault, ms) => .exc (pageFaultOf c.acc) c.va ms
  | .ok (.accessFault, ms) => .exc (accessFaultOf c.acc) c.va ms
  | .ok (.leaf pa mt _, ms) => .ok (pa, mt) ms
  | .ok (.descend base g, ms) => next base g ms

/-- The walk from level `i` down (R150, steps 2 to 8). -/
def walkFrom (c : WalkCtx) : Nat → Nat → Bool → MemSys → Res MemSys (Nat × MemType)
  | 0, base, g, ms =>
    afterLevel c (fun _ _ ms' => .exc (pageFaultOf c.acc) c.va ms') (walkLevel c 0 base g ms)
  | i + 1, base, g, ms =>
    afterLevel c (fun base' g' ms' => walkFrom c i base' (g || g') ms') (walkLevel c (i + 1) base g ms)

/-- `Translate` (R150, R141): under Bare the address itself; else steps 0 to 8. -/
def translate (c : WalkCtx) (ms : MemSys) : Res MemSys (Nat × MemType) :=
  match c.scheme with
  | .bare => .ok (c.va.toNat, .pma) ms
  | sch =>
    if vaValid sch c.va then walkFrom c (sch.levels - 1) (c.root * 2 ^ 12) false ms
    else .exc (pageFaultOf c.acc) c.va ms

/-- The access's own check of PMA and PMP (R169, R327); PBMT=NC makes a page of an I/O region main memory (R205, R206,
R209). -/
def checkAccess (c : WalkCtx) (n pa : Nat) (mt : MemType) (ms : MemSys) : Res MemSys (Nat × MemType) :=
  match pmaCheck c.cfg pa n c.acc c.epriv with
  | .ok => .ok (pa, mt) ms
  | .denied => .exc (accessFaultOf c.acc) c.va ms
  | .device => if mt = .nc then .ok (pa, mt) ms else .stop (.refusal .deviceAccess)

/-- The physical address of an access of `n` bytes: translation, then the check (R327). -/
def locate (c : WalkCtx) (n : Nat) (ms : MemSys) : Res MemSys (Nat × MemType) :=
  match translate c ms with
  | .ok (pa, mt) ms' => checkAccess c n pa mt ms'
  | .exc cause info ms' => .exc cause info ms'
  | .stop t => .stop t

/-- The scheme in force for an effective privilege mode: none in M-mode, where `satp` is not active (R107, R140). -/
def State.schemeFor (s : State) (p : Priv) : Scheme := if p = .machine then .bare else s.satp.mode

/-- The context of an access at `va` (R151, R327). -/
def State.walkCtx (s : State) (va : Word) (acc : Access) (p : Priv) : WalkCtx :=
  { cfg := s.cfg, scheme := s.schemeFor p, asid := s.satp.asid, root := s.satp.ppn.toNat, va := s.narrow p va, acc := acc,
    epriv := p, sum := s.sumOn, mxr := s.sstatus.mxr, hwAd := s.hwAd }

end Sys2Proof.Machine
end

