-- ==== Sys2Proof/Machine/Access.lean ====
section
/-! DEFINITION. Explicit loads and stores (R327) and instruction fetch (R221): byte order and misaligned accesses. -/

namespace Sys2Proof.Machine

/-- Explicit accesses with an effective privilege are big-endian (R121, R124, R327). -/
def State.bigEndian (s : State) (p : Priv) : Bool :=
  match p with
  | .user => s.ubeOn
  | .supervisor => s.cfg.sBigEndian
  | .machine => s.cfg.mBigEndian

/-! ### One piece of an access -/

/-- A misaligned access to a page with PBMT=IO, by the configuration (R207, U30). -/
def ioMisalignedCause (c : Config) (acc : Access) : Option Cause :=
  match c.ioMisaligned with
  | .perform => none
  | .misaligned => some (if acc = .store then .storeMisaligned else .loadMisaligned)
  | .accessFault => some (accessFaultOf acc)

/-- Where a piece of `n` bytes lies, recorded as accessed: translation, PMA and PMP, attributes (R210, R327). -/
def reach (c : WalkCtx) (isPiece : Bool) (n : Nat) (ms : MemSys) : Res MemSys Nat :=
  match locate c n ms with
  | .ok (pa, mt) ms' =>
    match if isPiece && mt == .io then ioMisalignedCause c.cfg c.acc else none with
    | some cause => .exc cause c.va ms'
    | none =>
      match ms'.touch c.cfg pa n mt with
      | .ok ms'' => .ok pa ms''
      | .error t => .stop t
  | .exc cause info ms' => .exc cause info ms'
  | .stop t => .stop t

/-- Loading `n` bytes as one piece. -/
def loadPiece (c : WalkCtx) (isPiece : Bool) (n : Nat) (ms : MemSys) : Res MemSys (List Byte) :=
  match reach c isPiece n ms with
  | .ok pa ms' => .ok (Memory.readBytes ms'.mem pa n) ms'
  | .exc cause info ms' => .exc cause info ms'
  | .stop t => .stop t

/-- Storing bytes as one piece. -/
def storePiece (c : WalkCtx) (isPiece : Bool) (bs : List Byte) (ms : MemSys) : Res MemSys Unit :=
  match reach c isPiece bs.length ms with
  | .ok pa ms' => .ok () { ms' with mem := Memory.writeBytes ms'.mem pa bs }
  | .exc cause info ms' => .exc cause info ms'
  | .stop t => .stop t

/-- The byte pieces of a misaligned load, in the order given, each translated by itself (R127). -/
def loadPieces : List WalkCtx → MemSys → Res MemSys (List Byte)
  | [], ms => .ok [] ms
  | c :: cs, ms =>
    match loadPiece c true 1 ms with
    | .ok b ms' =>
      match loadPieces cs ms' with
      | .ok bs ms'' => .ok (b ++ bs) ms''
      | .exc cause info ms'' => .exc cause info ms''
      | .stop t => .stop t
    | .exc cause info ms' => .exc cause info ms'
    | .stop t => .stop t

/-- The byte pieces of a misaligned store, in the order given; those before a failing one stay stored (R127). -/
def storePieces : List (WalkCtx × Byte) → MemSys → Res MemSys Unit
  | [], ms => .ok () ms
  | (c, b) :: cs, ms =>
    match storePiece c true [b] ms with
    | .ok _ ms' => storePieces cs ms'
    | .exc cause info ms' => .exc cause info ms'
    | .stop t => .stop t

/-! ### Loads and stores -/

/-- The contexts of the `n` byte pieces of an access, in address order. -/
def State.pieces (s : State) (va : Word) (n : Nat) (acc : Access) : List WalkCtx :=
  (List.range n).map (fun k => s.walkCtx (va + BitVec.ofNat 64 k) acc s.effectivePriv)

/-- A list in address order, or turned round for a policy that goes down (D8). -/
def inOrder {α : Type} (ascending : Bool) (l : List α) : List α := if ascending then l else l.reverse

/-- `MemRead(va, n)` (R327): the bytes in memory order. -/
def State.loadBytes (s : State) (va : Word) (n : Nat) : Res MemSys (List Byte) :=
  let c := s.walkCtx va .load s.effectivePriv
  if c.va.toNat % n = 0 then loadPiece c false n s.ms
  else match s.cfg.misaligned with
    | .trap => .exc .loadMisaligned c.va s.ms
    | .split up =>
      match loadPieces (inOrder up (s.pieces va n .load)) s.ms with
      | .ok bs ms => .ok (inOrder up bs) ms
      | .exc cause info ms => .exc cause info ms
      | .stop t => .stop t

/-- `MemWrite(va, n, v)` (R327), given the bytes in memory order. -/
def State.storeBytes (s : State) (va : Word) (bs : List Byte) : Res MemSys Unit :=
  let c := s.walkCtx va .store s.effectivePriv
  if c.va.toNat % bs.length = 0 then storePiece c false bs s.ms
  else match s.cfg.misaligned with
    | .trap => .exc .storeMisaligned c.va s.ms
    | .split up => storePieces (inOrder up ((s.pieces va bs.length .store).zip bs)) s.ms

/-- An operation on the memory system as one on the state: the rest of the state is as it was. -/
def State.withMs {α : Type} (s : State) : Res MemSys α → Res State α
  | .ok a ms => .ok a { s with ms := ms }
  | .exc cause info ms => .exc cause info { s with ms := ms }
  | .stop t => .stop t

/-- A 32-bit load in the byte order of its effective privilege (R327, R332). -/
def State.loadWord (s : State) (va : Word) : Res State (BitVec 32) :=
  match s.withMs (s.loadBytes va 4) with
  | .ok bs s' => .ok (BitVec.ofNat 32 (joinBytes (s.bigEndian s.effectivePriv) bs)) s'
  | .exc cause info s' => .exc cause info s'
  | .stop t => .stop t

/-- A 32-bit store in the byte order of its effective privilege (R327, R333). -/
def State.storeWord (s : State) (va : Word) (v : BitVec 32) : Res State Unit :=
  s.withMs (s.storeBytes va (splitBytes (s.bigEndian s.effectivePriv) 4 v.toNat))

/-! ### Instruction fetch -/

/-- What a fetch brings: a 32-bit word, or a 16-bit parcel that is an instruction by its length (R220). -/
inductive Fetched where
  | word (w : BitVec 32)
  | half (h : BitVec 16)
deriving DecidableEq, Repr

/-- Fetching `n` bytes at a virtual address (R221): always little-endian (R122), from the current memory (D39), recorded as an
access to its location (R210, R417). -/
def State.fetchBytes (s : State) (va : Word) (n : Nat) (ms : MemSys) : Res MemSys Nat :=
  match reach (s.walkCtx va .fetch s.priv) false n ms with
  | .ok pa ms' => .ok (littleValue (Memory.readBytes ms'.mem pa n)) ms'
  | .exc cause info ms' => .exc cause info ms'
  | .stop t => .stop t

/-- The second parcel of a 32-bit instruction, translated by itself (R84, R221). -/
def State.fetchSecond (s : State) (low : Nat) (ms : MemSys) : Res MemSys Fetched :=
  match s.fetchBytes (s.pc + 2) 2 ms with
  | .ok high ms' => .ok (.word (BitVec.ofNat 32 (low + 2 ^ 16 * high))) ms'
  | .exc cause info ms' => .exc cause info ms'
  | .stop t => .stop t

/-- The 32-bit fetch of a whole word. -/
def State.fetchWhole (s : State) : Res MemSys Fetched :=
  match s.fetchBytes s.pc 4 s.ms with
  | .ok w ms => .ok (.word (BitVec.ofNat 32 w)) ms
  | .exc cause info ms => .exc cause info ms
  | .stop t => .stop t

/-- The fetch by parcels, where a 16-bit instruction or a page boundary may follow the first one (R221). With IALIGN=16 a first
parcel with bits 1:0 = 11 calls for a second one, with bits 4:2 = 111 too (DESIGN CHOICE: log entry 28); with IALIGN=32 every
first parcel does (log entry 38). -/
def State.fetchParcels (s : State) : Res MemSys Fetched :=
  match s.fetchBytes s.pc 2 s.ms with
  | .ok low ms => if s.align16 && low % 4 != 3 then .ok (.half (BitVec.ofNat 16 low)) ms else s.fetchSecond low ms
  | .exc cause info ms => .exc cause info ms
  | .stop t => .stop t

/-- IALIGN in bytes, as it is now (R72). -/
def State.ialignBytes (s : State) : Nat := if s.align16 then 2 else 4

/-- `pc` is aligned to IALIGN (R126). -/
def State.pcAligned (s : State) : Bool := s.pc.toNat % s.ialignBytes == 0

/-- The fetch at `pc` (R221): with IALIGN=32 one access, with IALIGN=16 each parcel is translated separately (log entry 28), and
so it is at a `pc` that IALIGN=32 does not allow (DESIGN CHOICE: log entry 38). -/
def State.fetch (s : State) : Res State Fetched :=
  s.withMs (if !s.align16 && s.pcAligned then s.fetchWhole else s.fetchParcels)

end Sys2Proof.Machine
end

