-- ==== Sys2Proof/Machine/Base.lean ====
section
/-! DEFINITION. ADDI (R331), LW (R332) and SW (R333). -/

namespace Sys2Proof.Machine

/-- ADDI (R331). -/
def execAddi (rd rs1 : RegId) (imm : BitVec 12) (s : State) : Host.Outcome State Fault Refusal :=
  .next (s.setReg rd (s.reg rs1 + immediate imm)).advance

/-- LW (R332). -/
def execLw (rd rs1 : RegId) (imm : BitVec 12) (s : State) : Host.Outcome State Fault Refusal :=
  match s.loadWord (s.effectiveAddress rs1 imm) with
  | .ok v s' => .next (s'.setReg rd (v.signExtend 64)).advance
  | .exc cause info s' => .next (s'.takeException cause info)
  | .stop t => t.outcome

/-- SW (R333). -/
def execSw (rs2 rs1 : RegId) (imm : BitVec 12) (s : State) : Host.Outcome State Fault Refusal :=
  match s.storeWord (s.effectiveAddress rs1 imm) ((s.reg rs2).setWidth 32) with
  | .ok _ s' => .next s'.advance
  | .exc cause info s' => .next (s'.takeException cause info)
  | .stop t => t.outcome

end Sys2Proof.Machine
end

