-- ==== Sys2Proof/Machine/Csr.lean ====
section
/-! DEFINITION. The supervisor CSRs by number, who may access them, and the read and write rule of each (R24, R300 to R312). -/

namespace Sys2Proof.Machine

/-! ### Numbers and access -/

/-- The CSR with a number, where it is implemented (R24, D6; `srmcfg` only with Ssqosid, R311; upper halves of the counters
only when SXLEN=32, R310). -/
def csrOf (c : Config) (num : BitVec 12) : Option Csr :=
  if num = 0x100 then some .sstatus
  else if num = 0x104 then some .sie
  else if num = 0x105 then some .stvec
  else if num = 0x106 then some .scounteren
  else if num = 0x10A then some .senvcfg
  else if num = 0x140 then some .sscratch
  else if num = 0x141 then some .sepc
  else if num = 0x142 then some .scause
  else if num = 0x143 then some .stval
  else if num = 0x144 then some .sip
  else if num = 0x180 then some .satp
  else if num = 0x181 then (if c.ext.ssqosid then some .srmcfg else none)
  else if num.extractLsb' 5 7 = 0b1100000#7 then some (.counter (num.extractLsb' 0 5))
  else if num.extractLsb' 5 7 = 0b1100100#7 then
    (if c.sxlen = .rv32 then some (.counterHigh (num.extractLsb' 0 5)) else none)
  else none

/-- A privilege mode as the number of CSR address bits 9:8 (R300). -/
def privNumber : Priv → Nat
  | .user => 0
  | .supervisor => 1
  | .machine => 3

/-- `scounteren` as it reads: bits outside `SCOUNTEREN_WRITABLE` are zero (R67). -/
def State.scounterenOn (s : State) : BitVec 32 := s.scounteren &&& s.cfg.scounterenMask

/-- `counter_check` of R310. -/
def State.counterOpen (s : State) (n : BitVec 5) : Bool :=
  match s.priv with
  | .user => s.scounterenOn.getLsbD n.toNat && s.inputs.mcounteren.getLsbD n.toNat
  | .supervisor => s.inputs.mcounteren.getLsbD n.toNat
  | .machine => true

/-- The checks of one CSR: R309 for `satp`, R310 for the counters, R311 for `srmcfg`. -/
def State.csrOpen (s : State) : Csr → Bool
  | .satp => !(s.priv == .supervisor && s.inputs.tvm)
  | .srmcfg => !(s.cfg.ext.smstateen && !s.inputs.mstateen55 && s.priv != .machine)
  | .counter n => s.counterOpen n
  | .counterHigh n => s.counterOpen n
  | .sstatus | .sie | .stvec | .scounteren | .senvcfg | .sscratch | .sepc | .scause | .stval | .sip => true

/-- The verdict of `csr_check`. -/
inductive CsrVerdict where
  | ok (c : Csr)
  | illegal
  /-- a machine-level CSR accessed from M-mode: outside the spec (log entry 6) -/
  | machineLevel
deriving DecidableEq, Repr

/-- `csr_check` of R300, with the checks of R309 to R311. -/
def State.csrCheck (s : State) (num : BitVec 12) (isWrite : Bool) : CsrVerdict :=
  if privNumber s.priv < (num.extractLsb' 8 2).toNat then .illegal
  else if isWrite && num.extractLsb' 10 2 == 3 then .illegal
  else if num.extractLsb' 8 2 = 3 then .machineLevel
  else match csrOf s.cfg num with
    | some c => if s.csrOpen c then .ok c else .illegal
    | none => .illegal

/-! ### `satp` -/

/-- MODE encodings (R101). -/
def Scheme.code : Scheme → Word
  | .bare => 0
  | .sv32 => 1
  | .sv39 => 8
  | .sv48 => 9
  | .sv57 => 10

/-- `satp` as it reads (R99, R100). -/
def State.readSatp (s : State) : Word :=
  match s.cfg.sxlen with
  | .rv32 => s.satp.mode.code <<< 31 ||| (s.satp.asid.setWidth 64 &&& lowBits 9) <<< 22 ||| (s.satp.ppn.setWidth 64 &&& lowBits 22)
  | .rv64 => s.satp.mode.code <<< 60 ||| s.satp.asid.setWidth 64 <<< 44 ||| s.satp.ppn.setWidth 64

/-- The scheme a written MODE selects, where it is supported (R101, R104). -/
def satpMode (c : Config) (w : Word) : Option Scheme :=
  let sch : Option Scheme :=
    match c.sxlen with
    | .rv32 => some (if w.getLsbD 31 then .sv32 else .bare)
    | .rv64 =>
      if w.extractLsb' 60 4 = 0 then some .bare
      else if w.extractLsb' 60 4 = 8 then some .sv39
      else if w.extractLsb' 60 4 = 9 then some .sv48
      else if w.extractLsb' 60 4 = 10 then some .sv57
      else none
  sch.filter (supported c)

/-- The written ASID and PPN, kept to their implemented bits (R104, R105). -/
def satpFields (c : Config) (sch : Scheme) (w : Word) : Satp :=
  let asid : BitVec 16 :=
    match c.sxlen with
    | .rv32 => (w.extractLsb' 22 9).setWidth 16
    | .rv64 => w.extractLsb' 44 16
  let ppn : BitVec 44 :=
    match c.sxlen with
    | .rv32 => (w.extractLsb' 0 22).setWidth 44
    | .rv64 => w.extractLsb' 0 44
  { mode := sch, asid := asid &&& BitVec.ofNat 16 (2 ^ c.asidLen - 1), ppn := ppn &&& BitVec.ofNat 44 (2 ^ c.ppnLen - 1) }

/-- The fields of `satp` other than MODE (R102). -/
def satpRest (c : Config) (w : Word) : Word :=
  match c.sxlen with
  | .rv32 => w &&& lowBits 31
  | .rv64 => w &&& lowBits 60

/-- Bare with a nonzero rest stops: a custom encoding is refused (R103), the others fault (R102, D16). -/
def bareStop (c : Config) (w : Word) : Stop :=
  if c.sxlen = .rv32 ∧ w.extractLsb' 29 2 = 3 then .refusal .customSatp else .fault .satpBareNonzero

/-- `write_satp` of R104; the ATC is left as it is (R108). -/
def State.writeSatp (s : State) (w : Word) : Except Stop State :=
  match satpMode s.cfg w with
  | none => .ok s
  | some sch =>
    if sch = .bare ∧ satpRest s.cfg w ≠ 0 then .error (bareStop s.cfg w)
    else .ok { s with satp := satpFields s.cfg sch w }

/-! ### The other CSRs -/

/-- A MODE that `stvec` supports (R46, D11). -/
def stvecModeOk (c : Config) (m : Word) : Bool := (m == 0 && c.stvecDirect) || (m == 1 && c.stvecVectored)

/-- Writing `stvec`: BASE is masked; an unsupported MODE leaves MODE (R47, R48). -/
def State.writeStvec (s : State) (w : Word) : State :=
  let mode := if stvecModeOk s.cfg (w &&& 3) then w &&& 3 else s.stvec &&& 3
  { s with stvec := (w &&& s.cfg.stvecBaseMask &&& sxMask s.cfg &&& ~~~3#64) ||| mode }

/-- The Exception Code after a write: a code the field cannot hold leaves a free one of its width (R79, U4). -/
def scauseCode (c : Config) (old new : Word) : Word :=
  if new &&& ~~~(lowBits c.scauseCodeBits) = 0 then new else Config.wlrlCode new old &&& lowBits c.scauseCodeBits

/-- Writing `scause` (R77, R79). -/
def State.writeScause (s : State) (w : Word) : State :=
  { s with scause :=
    { interrupt := w.getLsbD (s.cfg.sxlen.bits - 1)
      code := scauseCode s.cfg s.scause.code (w &&& lowBits (s.cfg.sxlen.bits - 1)) } }

/-- `srmcfg` as it reads (R110). -/
def State.readSrmcfg (s : State) : Word := s.srmcfg.rcid.setWidth 64 ||| s.srmcfg.mcid.setWidth 64 <<< 16

/-- Writing `srmcfg` keeps the implemented low bits of each field (R110). -/
def State.writeSrmcfg (s : State) (w : Word) : State :=
  { s with srmcfg :=
    { rcid := w.extractLsb' 0 12 &&& BitVec.ofNat 12 (2 ^ s.cfg.rcidLen - 1)
      mcid := w.extractLsb' 16 12 &&& BitVec.ofNat 12 (2 ^ s.cfg.mcidLen - 1) } }

/-- The value a counter has now: a free value not below the one last read or set (R380). -/
def State.counterNow (s : State) (n : BitVec 5) : BitVec 64 :=
  let old := (s.counters[n.toNat]'(n.isLt)).toNat
  BitVec.ofNat 64 (old + Config.counterStep n.toNat s.ms.draws % (2 ^ 64 - old))

/-- The state after a counter has been read: its value is kept for the next read (R380). -/
def State.countRead (s : State) (n : BitVec 5) : State :=
  { s with counters := s.counters.set n.toNat (s.counterNow n) n.isLt, ms := { s.ms with draws := s.ms.draws + 1 } }

/-- `read(csr)` of R308: the value, and the state after; only the counters' draw changes anything. -/
def State.readCsr (s : State) : Csr → Word × State
  | .sstatus => (s.readSstatus, s)
  | .sie => (s.readSie, s)
  | .stvec => (s.stvec, s)
  | .scounteren => (s.scounterenOn.setWidth 64, s)
  | .senvcfg => (s.readSenvcfg, s)
  | .sscratch => (s.sscratch, s)
  | .sepc => (s.readSepc, s)
  | .scause => (causeWord s.cfg s.scause.interrupt s.scause.code, s)
  | .stval => (s.stval, s)
  | .sip => (s.readSip, s)
  | .satp => (s.readSatp, s)
  | .srmcfg => (s.readSrmcfg, s)
  | .counter n => (cut s.cfg.sxlen (s.counterNow n), s.countRead n)
  | .counterHigh n => (s.counterNow n >>> 32, s.countRead n)

/-- `write(csr, v)` of R308, for a value cut to SXLEN bits; a counter is never written by it (R310). -/
def State.writeCsr (s : State) (c : Csr) (v : Word) : Except Stop State :=
  let w := cut s.cfg.sxlen v
  match c with
  | .sstatus => .ok (s.writeSstatus w)
  | .sie => .ok (s.writeSie w)
  | .stvec => .ok (s.writeStvec w)
  | .scounteren => .ok { s with scounteren := w.setWidth 32 &&& s.cfg.scounterenMask }
  | .senvcfg => .ok (s.writeSenvcfg w)
  | .sscratch => .ok { s with sscratch := w }
  | .sepc => .ok (s.setSepc w)
  | .scause => .ok (s.writeScause w)
  | .stval => .ok (s.setStval w)
  | .sip => .ok (s.writeSip w)
  | .satp => s.writeSatp w
  | .srmcfg => .ok (s.writeSrmcfg w)
  | .counter _ => .ok s
  | .counterHigh _ => .ok s

/-- The CSRs on which the interrupt conditions expressly depend (R352). -/
def interruptCsr : Csr → Bool
  | .sstatus | .sie | .sip => true
  | .stvec | .scounteren | .senvcfg | .sscratch | .sepc | .scause | .stval | .satp | .srmcfg => false
  | .counter _ => false
  | .counterHigh _ => false

end Sys2Proof.Machine
end

