-- ==== Sys2Proof/Decode.lean ====
section
/-! DEFINITION. The decoder, total on any bytes, and the encoder, both from R222 to R225. Both are independent of the
configuration: an instruction of an absent extension decodes, and its meaning raises the exception (R227, D22). -/

namespace Sys2Proof

/-- Why bytes are not an instruction of R224. -/
inductive Reject where
  /-- fewer bytes than the instruction's length -/
  | tooShort
  /-- bits 1:0 are not 11: a 16-bit instruction, none of which this spec defines (R220) -/
  | sixteenBit
  /-- bits 4:0 are 11111: an instruction longer than 32 bits, none of which this spec defines (R220) -/
  | longer
  /-- a 32-bit word that matches no row of R224 -/
  | noRow
deriving DecidableEq, Repr

/-- Bits `lo + n - 1` to `lo` of an instruction word (R222). -/
def wordField (w : BitVec 32) (lo n : Nat) : BitVec n := w.extractLsb' lo n

/-- A word of format R, I or I-csr: funct7 or imm[11:5], rs2 or imm[4:0], rs1, funct3, rd, opcode (R222). -/
def packWord (f7 : BitVec 7) (rs2 rs1 : BitVec 5) (f3 : BitVec 3) (rd : BitVec 5) (op : BitVec 7) : BitVec 32 :=
  f7 ++ rs2 ++ rs1 ++ f3 ++ rd ++ op

/-- The SYSTEM words with funct3=000 and rd=x0 (R225). -/
def decodePrivileged (f7 : BitVec 7) (rs2 rs1 : BitVec 5) : Option Instr :=
  if f7 = 0b0000000#7 then
    if rs1 = 0 ∧ rs2 = 0 then some .ecall
    else if rs1 = 0 ∧ rs2 = 1 then some .ebreak
    else none
  else if f7 = 0b0001000#7 then
    if rs1 = 0 ∧ rs2 = 2 then some .sret else none
  else if f7 = 0b0001001#7 then some (.sfenceVma rs1 rs2)
  else if f7 = 0b0001011#7 then some (.sinvalVma rs1 rs2)
  else if f7 = 0b0001100#7 then
    if rs1 = 0 ∧ rs2 = 0 then some .sfenceWInval
    else if rs1 = 0 ∧ rs2 = 1 then some .sfenceInvalIr
    else none
  else if f7 = 0b0010011#7 then some (.hinvalVvma rs1 rs2)
  else if f7 = 0b0110011#7 then some (.hinvalGvma rs1 rs2)
  else none

/-- The SYSTEM major opcode, by funct3 (R225). -/
def decodeSystem (w : BitVec 32) : Option Instr :=
  let rd := wordField w 7 5
  let f3 := wordField w 12 3
  let rs1 := wordField w 15 5
  let csr := wordField w 20 12
  if f3 = 0b000#3 then
    if rd = 0 then decodePrivileged (wordField w 25 7) (wordField w 20 5) rs1 else none
  else if f3 = 0b001#3 then some (.csrrw rd csr rs1)
  else if f3 = 0b010#3 then some (.csrrs rd csr rs1)
  else if f3 = 0b011#3 then some (.csrrc rd csr rs1)
  else if f3 = 0b101#3 then some (.csrrwi rd csr rs1)
  else if f3 = 0b110#3 then some (.csrrsi rd csr rs1)
  else if f3 = 0b111#3 then some (.csrrci rd csr rs1)
  else none

/-- The instruction of a 32-bit word, if it matches a row of R224. -/
def decodeWord (w : BitVec 32) : Option Instr :=
  let op := wordField w 0 7
  let f3 := wordField w 12 3
  if op = 0b1110011#7 then decodeSystem w
  else if op = 0b0001111#7 ∧ f3 = 0b000#3 then
    some (.fence (wordField w 28 4) (wordField w 24 4) (wordField w 20 4) (wordField w 15 5) (wordField w 7 5))
  else if op = 0b0010011#7 ∧ f3 = 0b000#3 then
    some (.addi (wordField w 7 5) (wordField w 15 5) (wordField w 20 12))
  else if op = 0b0000011#7 ∧ f3 = 0b010#3 then
    some (.lw (wordField w 7 5) (wordField w 15 5) (wordField w 20 12))
  else if op = 0b0100011#7 ∧ f3 = 0b010#3 then
    some (.sw (wordField w 20 5) (wordField w 15 5) (wordField w 25 7 ++ wordField w 7 5))
  else none

/-- Four bytes as one word, the byte at the lowest address in bits 7:0 (R122, R221). -/
def wordOfBytes (b0 b1 b2 b3 : Byte) : BitVec 32 := b3 ++ b2 ++ b1 ++ b0

/-- The four bytes of a word in memory order (R122). -/
def bytesOfWord (w : BitVec 32) : List Byte := [wordField w 0 8, wordField w 8 8, wordField w 16 8, wordField w 24 8]

/-- The decoder: the instruction at the head of a list of bytes with the bytes after it, or why there is none. -/
def decode : List Byte → Except Reject (Instr × List Byte)
  | b0 :: b1 :: b2 :: b3 :: rest =>
    if b0.extractLsb' 0 2 ≠ 0b11#2 then .error .sixteenBit
    else if b0.extractLsb' 0 5 = 0b11111#5 then .error .longer
    else match decodeWord (wordOfBytes b0 b1 b2 b3) with
      | some i => .ok (i, rest)
      | none => .error .noRow
  | b0 :: _ => if b0.extractLsb' 0 2 ≠ 0b11#2 then .error .sixteenBit else .error .tooShort
  | [] => .error .tooShort

/-- The instruction the decoder reads from a word numbered as spec/opcode_table.json numbers it: bit 0 the least
significant; the bits at and above `nbits` are 0. -/
def decodeTableWord (nbits w : Nat) : Option Instr :=
  match decode (bytesOfWord (BitVec.ofNat 32 (w % 2 ^ nbits))) with
  | .ok (i, _) => some i
  | .error _ => none

/-- The opcode of the SYSTEM instructions. -/
def opSystem : BitVec 7 := 0b1110011#7

/-- A privileged SYSTEM word: funct3=000 and rd=x0 (R224). -/
def encodePrivileged (f7 : BitVec 7) (rs2 rs1 : BitVec 5) : BitVec 32 := packWord f7 rs2 rs1 0 0 opSystem

/-- A CSR word: the 12-bit number in bits 31:20 (R222). -/
def encodeCsr (f3 : BitVec 3) (rd : RegId) (csr : BitVec 12) (src : BitVec 5) : BitVec 32 :=
  packWord (csr.extractLsb' 5 7) (csr.extractLsb' 0 5) src f3 rd opSystem

/-- A word of format I: the immediate in bits 31:20 (R222). -/
def encodeI (op : BitVec 7) (f3 : BitVec 3) (rd rs1 : RegId) (imm : BitVec 12) : BitVec 32 :=
  packWord (imm.extractLsb' 5 7) (imm.extractLsb' 0 5) rs1 f3 rd op

/-- The encoder: the word of an instruction (R224). -/
def encode : Instr → BitVec 32
  | .sret => encodePrivileged 0b0001000 2 0
  | .sfenceVma rs1 rs2 => encodePrivileged 0b0001001 rs2 rs1
  | .sinvalVma rs1 rs2 => encodePrivileged 0b0001011 rs2 rs1
  | .sfenceWInval => encodePrivileged 0b0001100 0 0
  | .sfenceInvalIr => encodePrivileged 0b0001100 1 0
  | .hinvalVvma rs1 rs2 => encodePrivileged 0b0010011 rs2 rs1
  | .hinvalGvma rs1 rs2 => encodePrivileged 0b0110011 rs2 rs1
  | .csrrw rd csr rs1 => encodeCsr 0b001 rd csr rs1
  | .csrrs rd csr rs1 => encodeCsr 0b010 rd csr rs1
  | .csrrc rd csr rs1 => encodeCsr 0b011 rd csr rs1
  | .csrrwi rd csr uimm => encodeCsr 0b101 rd csr uimm
  | .csrrsi rd csr uimm => encodeCsr 0b110 rd csr uimm
  | .csrrci rd csr uimm => encodeCsr 0b111 rd csr uimm
  | .ecall => encodePrivileged 0b0000000 0 0
  | .ebreak => encodePrivileged 0b0000000 1 0
  | .fence fm pred succ rs1 rd => fm ++ pred ++ succ ++ rs1 ++ 0b000#3 ++ rd ++ 0b0001111#7
  | .addi rd rs1 imm => encodeI 0b0010011 0b000 rd rs1 imm
  | .lw rd rs1 imm => encodeI 0b0000011 0b010 rd rs1 imm
  | .sw rs2 rs1 imm => packWord (imm.extractLsb' 5 7) rs2 rs1 0b010 (imm.extractLsb' 0 5) 0b0100011

end Sys2Proof
end

