-- ==== Sys2Proof/Machine/Fence.lean ====
section
/-! DEFINITION. SFENCE.VMA and Svinval (R260 to R293), FENCE (R323, R324), and the illegal-instruction exception that a
decoded instruction raises. -/

namespace Sys2Proof.Machine

/-- The illegal-instruction exception of a decoded instruction: its own bits are the trap value (R85, R227). -/
def raiseIllegal (i : Instr) (s : State) : Host.Outcome State Fault Refusal :=
  .next (s.takeException .illegal (instrBits s.cfg 32 ((encode i).setWidth 64)))

/-- The permissions of SFENCE.VMA and SINVAL.VMA: not in U-mode, nor in S-mode with TVM=1 (R276, R289). -/
def State.fencePermitted (s : State) : Bool :=
  match s.priv with
  | .user => false
  | .supervisor => !s.inputs.tvm
  | .machine => true

/-- SFENCE.VMA and SINVAL.VMA are legal: permitted, and not made illegal by a hart whose `satp.MODE` is read-only Bare
(R274, R276, D38; that SINVAL.VMA follows SFENCE.VMA there is DEDUCED from R289: log entry 41). -/
def State.fenceLegal (s : State) : Bool := s.fencePermitted && !(s.cfg.sfenceIllegalBare && !paged s.cfg)

/-- SINVAL.VMA is legal: Svinval is there, and SFENCE.VMA would be legal (R280, R289). -/
def State.sinvalLegal (s : State) : Bool := s.cfg.ext.svinval && s.fenceLegal

/-- SFENCE.W.INVAL and SFENCE.INVAL.IR are legal: Svinval is there, above U-mode (R280, R289). -/
def State.invalOrderLegal (s : State) : Bool := s.cfg.ext.svinval && s.priv != .user

/-- The operands of SFENCE.VMA and SINVAL.VMA: chosen by register number, not by value (R261, R262, R282). -/
def State.fenceRequest (s : State) (rs1 rs2 : RegId) : FenceRequest :=
  { va := if rs1 = 0 then none else some (s.reg rs1)
    asid := if rs2 = 0 then none else some (asidOperand s.cfg (s.reg rs2)) }

/-- The address operand is absent or valid under the current MODE (R275). -/
def State.fenceVaOk (s : State) (rs1 : RegId) : Bool := rs1 = 0 || vaValid s.satp.mode (s.reg rs1)

/-- What SFENCE.VMA does to the cache: pending requests are retired first (R286), then exactly the set `M` is removed (R262;
log entry 33). -/
def State.fenceNow (s : State) (q : FenceRequest) : State := s.retirePending.fenceOne q

/-- SFENCE.VMA (R262). With an invalid address it retires every pending request, as each SFENCE.VMA does first (R286), and has
no other effect (R275; DEDUCED: log entry 42). -/
def execSfenceVma (rs1 rs2 : RegId) (s : State) : Host.Outcome State Fault Refusal :=
  if !s.fenceLegal then raiseIllegal (.sfenceVma rs1 rs2) s
  else if !s.fenceVaOk rs1 then .next s.retirePending.advance
  else .next (s.fenceNow (s.fenceRequest rs1 rs2)).advance

/-- `PendingInval` with a request in it (R281, R282). -/
def addRequest (q : FenceRequest) (l : List FenceRequest) : List FenceRequest := if q ∈ l then l else q :: l

/-- SINVAL.VMA (R282): the request is recorded; the entries go at a later step of the environment or at a fence. A simple
implementation does at once what SFENCE.VMA does (R290). -/
def execSinvalVma (rs1 rs2 : RegId) (s : State) : Host.Outcome State Fault Refusal :=
  if !s.sinvalLegal then raiseIllegal (.sinvalVma rs1 rs2) s
  else if !s.fenceVaOk rs1 then .next s.advance
  else if s.cfg.svinvalEager then .next (s.fenceNow (s.fenceRequest rs1 rs2)).advance
  else .next { s with pendingInval := addRequest (s.fenceRequest rs1 rs2) s.pendingInval }.advance

/-- SFENCE.W.INVAL (R284): stores are visible at once here, so only `pc` moves. -/
def execSfenceWInval (s : State) : Host.Outcome State Fault Refusal :=
  if !s.invalOrderLegal then raiseIllegal .sfenceWInval s
  else .next s.advance

/-- SFENCE.INVAL.IR (R285): every pending request takes effect; with none pending only `pc` moves (R290, R292). -/
def execSfenceInvalIr (s : State) : Host.Outcome State Fault Refusal :=
  if !s.invalOrderLegal then raiseIllegal .sfenceInvalIr s
  else .next s.retirePending.advance

/-- HINVAL.VVMA: the hypervisor extension is absent, so an illegal instruction in every mode (R287, D4). -/
def execHinvalVvma (rs1 rs2 : RegId) (s : State) : Host.Outcome State Fault Refusal := raiseIllegal (.hinvalVvma rs1 rs2) s

/-- HINVAL.GVMA: the hypervisor extension is absent, so an illegal instruction in every mode (R288, D4). -/
def execHinvalGvma (rs1 rs2 : RegId) (s : State) : Host.Outcome State Fault Refusal := raiseIllegal (.hinvalGvma rs1 rs2) s

/-- An effective predecessor or successor set, bits I, O, R, W from bit 3 down: in U-mode with FIOM=1, I implies R and O
implies W (R324). -/
def State.fenceSet (s : State) (b : BitVec 4) : BitVec 4 :=
  if s.priv = .user ∧ s.fiomOn then b ||| (b >>> 2) else b

/-- FENCE (R323): with one hart and one flat memory the order holds already. A fence of all accesses against all is what
R211 asks for between accesses with two non-cacheable memory types. `fm`, `rs1` and `rd` are ignored. -/
def execFence (_fm pred succ : BitVec 4) (_rs1 _rd : RegId) (s : State) : Host.Outcome State Fault Refusal :=
  if s.fenceSet pred = 0b1111 ∧ s.fenceSet succ = 0b1111 then
    .next { s with ms := { s.ms with types := fenceTypes s.ms.types } }.advance
  else .next s.advance

/-! ### `cbo.flush` (R211). Zicbom defines it and no row has it: what R211 does not say is PRESUMED (log entry 44) -/

/-- `cbo.flush` is enabled: below M-mode by `menvcfg.CBCFE`, in U-mode by `senvcfg.CBCFE` too. -/
def State.flushLegal (s : State) : Bool :=
  match s.priv with
  | .user => s.inputs.menvcfgCbcfe && s.senvcfg.cbcfe
  | .supervisor => s.inputs.menvcfgCbcfe
  | .machine => true

/-- The exception that `cbo.flush` raises where a load at its address raises: that of a store. -/
def flushCause : Cause → Cause
  | .loadPage => .storePage
  | .loadAccess => .storeAccess
  | c => c

/-- `cbo.flush` at `x[rs1]`: its address is translated and checked as a load's, and the block that holds it is flushed, which is
the middle of the sequence of R211. Memory is flat and coherent, so no byte changes. -/
def State.flushBlock (s : State) (rs1 : RegId) : Host.Outcome State Fault Refusal :=
  match s.withMs (locate (s.walkCtx (s.reg rs1) .load s.effectivePriv) 1 s.ms) with
  | .ok (pa, _) s' => .next { s' with ms := { s'.ms with types := flushTypes s.cfg.cacheBlock pa s'.ms.types } }.advance
  | .exc cause info s' => .next (s'.takeException (flushCause cause) info)
  | .stop t => t.outcome

end Sys2Proof.Machine
end

