-- ==== Sys2Proof/Machine/CsrInstr.lean ====
section
/-! DEFINITION. The six CSR instructions (R300 to R307). -/

namespace Sys2Proof.Machine

/-- What a CSR instruction writes, from the value read and its operand (R302 to R304). -/
inductive CsrOp where
  | swap
  | set
  | clear
deriving DecidableEq, Repr

/-- The value written. -/
def CsrOp.combine (op : CsrOp) (old src : Word) : Word :=
  match op with
  | .swap => src
  | .set => old ||| src
  | .clear => old &&& ~~~src

/-- The write of a CSR instruction; a write of `sip`, `sie` or `sstatus` has the interrupt condition evaluated next (R352). -/
def State.commitCsr (s : State) (c : Csr) (v : Word) : Except Stop State :=
  match s.writeCsr c v with
  | .ok s' => .ok { s' with recheck := s'.recheck || interruptCsr c }
  | .error t => .error t

/-- The read and the write of a CSR instruction (R301): the value read (0 where it is not read) and the state after. -/
def State.csrReadWrite (s : State) (op : CsrOp) (c : Csr) (src : Word) (isRead isWrite : Bool) : Except Stop (Word × State) :=
  let r := if isRead then s.readCsr c else (0, s)
  if isWrite then
    match r.2.commitCsr c (op.combine r.1 src) with
    | .ok s' => .ok (r.1, s')
    | .error t => .error t
  else .ok r

/-- The common part of the CSR instructions (R300): the check, the read and the write, the result, `pc + 4`. -/
def csrInstr (i : Instr) (op : CsrOp) (rd : RegId) (num : BitVec 12) (src : Word) (isRead isWrite : Bool) (s : State) :
    Host.Outcome State Fault Refusal :=
  match s.csrCheck num isWrite with
  | .illegal => raiseIllegal i s
  | .machineLevel => .refused (.machineCsr num)
  | .ok c =>
    match s.csrReadWrite op c src isRead isWrite with
    | .ok (v, s') => .next (s'.setReg rd v).advance
    | .error t => t.outcome

/-- CSRRW (R302). -/
def execCsrrw (rd : RegId) (csr : BitVec 12) (rs1 : RegId) (s : State) : Host.Outcome State Fault Refusal :=
  csrInstr (.csrrw rd csr rs1) .swap rd csr (s.reg rs1) (decide (rd ≠ 0)) true s

/-- CSRRS (R303). -/
def execCsrrs (rd : RegId) (csr : BitVec 12) (rs1 : RegId) (s : State) : Host.Outcome State Fault Refusal :=
  csrInstr (.csrrs rd csr rs1) .set rd csr (s.reg rs1) true (decide (rs1 ≠ 0)) s

/-- CSRRC (R304). -/
def execCsrrc (rd : RegId) (csr : BitVec 12) (rs1 : RegId) (s : State) : Host.Outcome State Fault Refusal :=
  csrInstr (.csrrc rd csr rs1) .clear rd csr (s.reg rs1) true (decide (rs1 ≠ 0)) s

/-- CSRRWI (R305). -/
def execCsrrwi (rd : RegId) (csr : BitVec 12) (uimm : BitVec 5) (s : State) : Host.Outcome State Fault Refusal :=
  csrInstr (.csrrwi rd csr uimm) .swap rd csr (immediateZero uimm) (decide (rd ≠ 0)) true s

/-- CSRRSI (R306). -/
def execCsrrsi (rd : RegId) (csr : BitVec 12) (uimm : BitVec 5) (s : State) : Host.Outcome State Fault Refusal :=
  csrInstr (.csrrsi rd csr uimm) .set rd csr (immediateZero uimm) true (decide (uimm ≠ 0)) s

/-- CSRRCI (R307). -/
def execCsrrci (rd : RegId) (csr : BitVec 12) (uimm : BitVec 5) (s : State) : Host.Outcome State Fault Refusal :=
  csrInstr (.csrrci rd csr uimm) .clear rd csr (immediateZero uimm) true (decide (uimm ≠ 0)) s

end Sys2Proof.Machine
end

