-- ==== Sys2Proof/Machine/System.lean ====
section
/-! DEFINITION. SRET (R252, R253), ECALL (R320) and EBREAK (R321). -/

namespace Sys2Proof.Machine

/-- SRET is permitted: not in U-mode, nor in S-mode with TSR=1 (R253). -/
def State.sretPermitted (s : State) : Bool :=
  match s.priv with
  | .user => false
  | .supervisor => !s.inputs.tsr
  | .machine => true

/-- SRET (R252). -/
def execSret (s : State) : Host.Outcome State Fault Refusal :=
  if s.sretPermitted then .next s.returnFromTrap else raiseIllegal .sret s

/-- The environment-call exception of a mode (R320). -/
def ecallCause : Priv → Cause
  | .user => .ecallU
  | .supervisor => .ecallS
  | .machine => .ecallM

/-- ECALL (R320). -/
def execEcall (s : State) : Host.Outcome State Fault Refusal := .next (s.takeException (ecallCause s.priv) 0)

/-- EBREAK (R321): the trap value is its own address, or zero; in U-mode with UXLEN<SXLEN the address is not reduced modulo
2^UXLEN (DESIGN CHOICE, unsafe: log entry 21). -/
def execEbreak (s : State) : Host.Outcome State Fault Refusal := .next (s.takeException .breakpoint s.pc)

end Sys2Proof.Machine
end

