-- ==== Sys2Proof/Machine/Environment.lean ====
section
/-! DEFINITION. What the agents outside the instruction stream do between two steps (R385): the environment, other harts
and devices, the translation walker (R173, D27), Svinval's pending removals (R282), and, while the hart is in M-mode, the
SEE (R346). An action that its rule does not allow changes nothing. -/

namespace Sys2Proof.Machine

/-! ### Pending interrupts and counters -/

/-- `sip` with the bits of a mask driven to a value; bits that do not exist stay as they are (R58 to R61, R114). -/
def State.driveSip (s : State) (mask v : Word) : State :=
  let m := mask &&& sipBits s.cfg
  { s with sip := (s.sip &&& ~~~m) ||| (v &&& m) }

/-- A counter is modified (R375, R380). -/
def State.setCounter (s : State) (n : BitVec 5) (v : BitVec 64) : State :=
  { s with counters := s.counters.set n.toNat v n.isLt }

/-- Another hart or a device writes a byte that exists (R385). -/
def State.writeByte (s : State) (a : Nat) (b : Byte) : State :=
  if a < 2 ^ s.cfg.paLen then { s with ms := { s.ms with mem := Memory.write s.ms.mem a b } } else s

/-! ### Speculative walks (R173, R176, R266; log entry 27) -/

/-- The effective privilege of a speculative access: that of the access it stands for (R140). -/
def State.speculativePriv (s : State) (acc : Access) : Priv :=
  match acc with
  | .fetch => s.priv
  | .load => s.effectivePriv
  | .store => s.effectivePriv

/-- A walk begins, where `satp` is active and selects a scheme, for a valid address (R107, R173). -/
def State.beginWalk (s : State) (va : Word) (acc : Access) : State :=
  let p := s.speculativePriv acc
  let va' := s.narrow p va
  if s.schemeFor p = .bare ∨ !vaValid s.satp.mode va' then s
  else
    { s with walks := s.walks ++
      [{ va := va', acc := acc, epriv := p, scheme := s.satp.mode, asid := s.satp.asid, base := s.satp.ppn.toNat * 2 ^ 12,
         level := s.satp.mode.levels - 1, isGlobal := false, fences := [] }] }

/-- The context of an in-flight walk: `satp` as it loaded it, permissions as they are now. -/
def State.walkCtxOf (s : State) (w : InflightWalk) : WalkCtx :=
  { cfg := s.cfg, scheme := w.scheme, asid := w.asid, root := 0, va := w.va, acc := w.acc, epriv := w.epriv,
    sum := s.sumOn, mxr := s.sstatus.mxr, hwAd := s.hwAd }

/-- Where a walk stands after a level; nothing where it has ended. -/
def InflightWalk.onward (w : InflightWalk) (r : LevelResult) : Option InflightWalk :=
  match r, w.level with
  | .descend base g, l + 1 => some { w with base := base, level := l, isGlobal := w.isGlobal || g }
  | _, _ => none

/-- A speculative walk may set A in a leaf that passes its checks and still stands in memory; never D (R176). -/
def speculativeUpdate (c : WalkCtx) (addr : Nat) (r : LevelResult) (pte : Word) (memPte : Option Word) (ms : MemSys) : MemSys :=
  match r with
  | .leaf _ _ true =>
    if memPte = some pte then { ms with mem := storePte c.cfg c.scheme ms.mem addr (markPte .load pte) } else ms
  | _ => ms

/-- What a walk's read returns: memory's PTE, with the entries it creates, or the PTE of the `k`-th usable entry (R171), whose
use counts where it is stale (R213). The second component is the cache after the read, before new entries. -/
def speculativeSource (c : WalkCtx) (w : InflightWalk) (addr : Nat) (memPte : Option Word) (atc : List AtcEntry)
    (k : Option Nat) : Option (Word × List AtcEntry × List AtcEntry) :=
  match k with
  | some n => ((usableEntries c w.level addr memPte atc)[n]?).map (fun e => (e.pte, countStale e memPte atc, []))
  | none => memPte.map (fun p => (p, atc, createdEntries c w.level addr w.isGlobal p))

/-- One read of a speculative walk: the memory system after, and the walk if it goes on. It raises no exception, and it
ends where the entry it would create is one that a fence executed since it began would have removed (R173, R266). It stops
the model where it would read a page table in device memory (R421, U35) or break R211 (U32). -/
def State.walkOnce (s : State) (w : InflightWalk) (k : Option Nat) : Except Stop (MemSys × Option InflightWalk) :=
  let c := s.walkCtxOf w
  let addr := pteAddress c w.level w.base
  match readPte c s.ms.mem addr with
  | none => .error (.refusal .pageTableInDevice)
  | some memPte =>
    match speculativeSource c w addr memPte s.ms.atc k with
    | none => .ok (s.ms, none)
    | some (pte, atc, es) =>
      if w.fences.any (fun q => q.hits (newEntry c w.level addr w.isGlobal pte)) then .ok ({ s.ms with atc := atc }, none)
      else
        let r := levelResult c w.level addr pte
        let kept := es.filter (fun e => !w.fences.any (fun q => q.hits e))
        match if k.isNone || r.updates then s.ms.touch c.cfg addr c.scheme.pteBytes .pma else .ok s.ms with
        | .ok ms => .ok (speculativeUpdate c addr r pte memPte { ms with atc := kept.foldl addEntry atc }, w.onward r)
        | .error t => .error t

/-- In-flight walk `n` does its next read; a read that stops the model changes nothing here (`State.actStop`). -/
def State.advanceWalk (s : State) (n : Nat) (k : Option Nat) : State :=
  match s.walks[n]? with
  | none => s
  | some w =>
    match s.walkOnce w k with
    | .ok (ms, some w') => { s with ms := ms, walks := s.walks.set n w' }
    | .ok (ms, none) => { s with ms := ms, walks := s.walks.eraseIdx n }
    | .error _ => s

/-- A pending SINVAL.VMA request removes its entries and stays pending (R282). -/
def State.performInval (s : State) (n : Nat) : State :=
  match s.pendingInval[n]? with
  | none => s
  | some q => { s with ms := s.ms.invalidate q }

/-! ### The SEE, while the hart is in M-mode (R346, D29) -/

/-- A state change that only the SEE makes. -/
def State.bySee (s : State) (s' : State) : State := if s.priv = .machine then s' else s

/-- The SEE writes a supervisor CSR through its write rule; a write without a meaning changes nothing. -/
def State.seeCsr (s : State) (c : Csr) (v : Word) : State :=
  match s.writeCsr c v with
  | .ok s' => s'
  | .error _ => s

/-- The SEE makes or drops the reservation; one that R186 does not allow changes nothing. -/
def State.seeReserve (s : State) (r : Option Reservation) : State :=
  if reservationOk s.cfg r then { s with reservation := r } else s

/-- The SEE enters a mode at an aligned address, with MPRV clear unless it stays in M-mode, and with the ELP that the trap
saved where the mode has landing pads enabled (PRESUMED, unsafe: log entry 23). -/
def State.seeResume (s : State) (p : Priv) (pc : Word) : State :=
  { s with
    priv := p
    elp := if s.cfg.ext.zicfilp then s.landingPads p && s.mach.mpelp else s.elp
    mach := { s.mach with mpelp := false }
    pc := cut s.cfg.sxlen pc &&& (if s.align16 then ~~~1#64 else ~~~3#64)
    inputs := { s.inputs with mprv := s.inputs.mprv && decide (p = .machine) } }

/-! ### One turn of the other agents -/

/-- One action. -/
def State.act (s : State) : EnvAction → State
  | .setSei b => s.driveSip (bitAt true 9) (bitAt b 9)
  | .setSti b => s.driveSip (bitAt true 5) (bitAt b 5)
  | .raiseSsi => s.driveSip (bitAt true 1) (bitAt true 1)
  | .raiseLcofi => s.driveSip (bitAt true 13) (bitAt true 13)
  | .setPlatform v => s.driveSip (platformBits s.cfg) v
  | .setCounter n v => s.setCounter n v
  | .writeByte a b => s.writeByte a b
  | .beginWalk va acc => s.beginWalk va acc
  | .advanceWalk n k => s.advanceWalk n k
  | .abandonWalk n => { s with walks := s.walks.eraseIdx n }
  | .dropEntry n => { s with ms := { s.ms with atc := s.ms.atc.eraseIdx n } }
  | .performInval n => s.performInval n
  | .setInputs m => s.bySee { s with inputs := m }
  | .setMachineRegs m => s.bySee { s with mach := m }
  | .seeReg r v => s.bySee (s.setReg r v)
  | .seeCsr c v => s.bySee (s.seeCsr c v)
  | .seeReserve r => s.bySee (s.seeReserve r)
  | .seeResume p pc => s.bySee (s.seeResume p pc)

/-- Why the model stops at an action: a speculative read that has no meaning here (R421, U32, U35). -/
def State.actStop (s : State) (a : EnvAction) : Option Stop :=
  match a with
  | .advanceWalk n k =>
    match s.walks[n]? with
    | none => none
    | some w =>
      match s.walkOnce w k with
      | .ok _ => none
      | .error t => some t
  | .setSei _ | .setSti _ | .raiseSsi | .raiseLcofi | .setPlatform _ | .setCounter _ _ | .writeByte _ _ | .beginWalk _ _ => none
  | .abandonWalk _ | .dropEntry _ | .performInval _ | .setInputs _ | .setMachineRegs _ | .seeReg _ _ | .seeCsr _ _ => none
  | .seeReserve _ | .seeResume _ _ => none

/-- The first stop among the actions of a batch. -/
def State.batchStop : State → List EnvAction → Option Stop
  | _, [] => none
  | s, a :: rest =>
    match s.actStop a with
    | some t => some t
    | none => (s.act a).batchStop rest

/-- The stop of the other agents' turn, where it has one. -/
def State.environmentStop (s : State) : Option Stop :=
  match s.inbox with
  | [] => none
  | batch :: rest => { s with inbox := rest }.batchStop batch

/-- The turn of the other agents before a step: the first batch of the inbox (R231, R385; log entry 10). -/
def State.environmentTurn (s : State) : State :=
  match s.inbox with
  | [] => { s with recheck := false }
  | batch :: rest => { batch.foldl State.act { s with inbox := rest } with recheck := false }

end Sys2Proof.Machine
end

