-- ==== Sys2Proof/Machine/Run.lean ====
section
/-! DEFINITION. One step of the hart as R231 gives it: interrupt, fetch, decode, execute. -/

namespace Sys2Proof.Machine

/-- The instruction of a fetched word, if it is one of R224. -/
def instrOf (w : BitVec 32) : Option Instr :=
  match decode (bytesOfWord w) with
  | .ok (i, _) => some i
  | .error _ => none

/-! ### Words of the extensions that the spec names and does not define (PRESUMED encodings: log entry 43) -/

/-- SSAMOSWAP in U-mode with Zicfiss inactive there and `menvcfg.SSE` set is an illegal instruction (R95, R330). -/
def State.ssamoswapIllegal (s : State) (w : BitVec 32) : Bool :=
  s.cfg.ext.zicfiss && s.priv == .user && !s.senvcfg.sse && s.inputs.menvcfgSse && ssamoswapWord s.cfg w

/-- The word is fetched as an instruction of its length: with IALIGN=32 there are no 16-bit instructions (R220; DEDUCED: log
entry 7). -/
def lengthFits (len : Nat) (w : BitVec 32) : Bool := len == 16 || w.extractLsb' 0 2 == 3#2

/-! ### Executing a fetched instruction -/

/-- An instruction that nothing of higher priority stops runs where `pc` is aligned; else it raises
instruction-address-misaligned, code 0, which comes after the exceptions of the fetch and after illegal instruction (R126,
R348). -/
def State.ifAligned (s : State) (o : Host.Outcome State Fault Refusal) : Host.Outcome State Fault Refusal :=
  if s.pcAligned then o else .next (s.takeException .instrMisaligned s.pc)

/-- A CSR instruction does not get past `csr_check` (R300): an illegal instruction, or a machine-level CSR, of which the spec
does not say whether it is one (log entry 6). -/
def State.csrBarred (s : State) (num : BitVec 12) (isWrite : Bool) : Bool :=
  match s.csrCheck num isWrite with
  | .ok _ => false
  | .illegal => true
  | .machineLevel => true

/-- What a misaligned `pc` comes after (R348): the instruction is illegal here, or the spec does not say whether it is. -/
def State.barred (s : State) : Instr → Bool
  | .sret => !s.sretPermitted
  | .sfenceVma _ _ => !s.fenceLegal
  | .sinvalVma _ _ => !s.sinvalLegal
  | .sfenceWInval => !s.invalOrderLegal
  | .sfenceInvalIr => !s.invalOrderLegal
  | .hinvalVvma _ _ => true
  | .hinvalGvma _ _ => true
  | .csrrw _ csr _ => s.csrBarred csr true
  | .csrrs _ csr rs1 => s.csrBarred csr (decide (rs1 ≠ 0))
  | .csrrc _ csr rs1 => s.csrBarred csr (decide (rs1 ≠ 0))
  | .csrrwi _ csr _ => s.csrBarred csr true
  | .csrrsi _ csr uimm => s.csrBarred csr (decide (uimm ≠ 0))
  | .csrrci _ csr uimm => s.csrBarred csr (decide (uimm ≠ 0))
  | .ecall => false
  | .ebreak => false
  | .fence _ _ _ _ _ => false
  | .addi _ _ _ => false
  | .lw _ _ _ => false
  | .sw _ _ _ => false

/-- A decoded instruction, in the order of R348. -/
def State.execute (s : State) (i : Instr) : Host.Outcome State Fault Refusal :=
  if s.barred i then exec i s else s.ifAligned (exec i s)

/-- LPAD, which Zicfilp has: a no-op where landing pads are off (R94, R329; outside U-mode PRESUMED: log entry 43); where they
are on, its effect is not in the spec. -/
def State.runLpad (s : State) (w : BitVec 32) : Host.Outcome State Fault Refusal :=
  if s.landingPads s.priv then .refused (.outsideSpec w) else s.ifAligned (.next s.advance)

/-- An illegal instruction that is no row of R224, with its own bits, `len` of them, as trap value (R85, R227). -/
def State.raiseWord (s : State) (len : Nat) (w : BitVec 32) : Host.Outcome State Fault Refusal :=
  .next (s.takeException .illegal (instrBits s.cfg len (w.setWidth 64)))

/-- CBO.FLUSH, which Zicbom has: illegal where it is not enabled, else the flush (R211; log entry 44). -/
def State.runFlush (s : State) (w : BitVec 32) : Host.Outcome State Fault Refusal :=
  if s.flushLegal then s.ifAligned (s.flushBlock (w.extractLsb' 15 5)) else s.raiseWord 32 w

/-- An instruction that is none of R224: LPAD; else a landing-pad fault (R86); else CBO.FLUSH; else one of an extension outside
the spec, or an illegal instruction (R227). Bits 4:0 = 11111 with IALIGN=16 count as 32 bits (DESIGN
CHOICE, unsafe: log entry 28). -/
def State.noInstruction (s : State) (len : Nat) (w : BitVec 32) : Host.Outcome State Fault Refusal :=
  if s.cfg.ext.zicfilp && lpadWord w then s.runLpad w
  else if s.padMissing then .next (s.takeException .softwareCheck 2)
  else if s.cfg.ext.zicbom && flushWord w then s.runFlush w
  else if lengthFits len w && foreignWord s.cfg w && !s.ssamoswapIllegal w then .refused (.outsideSpec w)
  else s.raiseWord len w

/-- Decode and execute a fetched word. -/
def State.runWord (s : State) (w : BitVec 32) : Host.Outcome State Fault Refusal :=
  match instrOf w with
  | some i => if s.padMissing then .next (s.takeException .softwareCheck 2) else s.execute i
  | none => s.noInstruction 32 w

/-- Fetch, decode and execute the instruction at `pc` (R231, steps 2 to 4). -/
def State.runNext (s : State) : Host.Outcome State Fault Refusal :=
  match s.fetch with
  | .ok (.word w) s' => s'.runWord w
  | .ok (.half h) s' => s'.noInstruction 16 (h.setWidth 32)
  | .exc cause info s' => .next (s'.takeException cause info)
  | .stop t => t.outcome

/-- A step once the other agents have had their turn: the interrupt of highest priority, or the next instruction (R231,
R347). -/
def State.proceed (s : State) : Host.Outcome State Fault Refusal :=
  match s.selectInterrupt with
  | some code => .next (s.takeInterrupt code)
  | none => s.runNext

/-- The interrupt taken right after SRET or a write of `sip`, `sie` or `sstatus`, before any agent acts (R352). -/
def State.immediateInterrupt (s : State) : Option Nat := if s.recheck then s.selectInterrupt else none

/-- One step (R231). It stops where the turn of the other agents does. -/
def State.advanceHart (s : State) : Host.Outcome State Fault Refusal :=
  match s.immediateInterrupt with
  | some code => .next ({ s with recheck := false }.takeInterrupt code)
  | none =>
    match s.environmentStop with
    | some t => t.outcome
    | none => s.environmentTurn.proceed

/-- The physical address that the fetch at `pc` uses; without a translation, `pc` within the physical space. -/
def State.fetchAddress (s : State) : Nat :=
  match translate (s.walkCtx s.pc .fetch s.priv) s.ms with
  | .ok (pa, _) _ => pa
  | .exc _ _ _ => s.pc.toNat % 2 ^ s.cfg.paLen
  | .stop _ => s.pc.toNat % 2 ^ s.cfg.paLen

end Sys2Proof.Machine
end

