-- ==== Sys2Proof/Machine/Step.lean ====
section
/-! DEFINITION. The step of the machine, and a state with an instruction placed where the step fetches. -/

namespace Sys2Proof.Machine

/-- One step of the hart (R231): Machine/Run.lean says what it is. -/
def step (s : State) : Host.Outcome State Fault Refusal := s.advanceHart

/-- The state with an instruction's bits stored where `step` fetches its next instruction, the first byte at the lowest
address (R122); the bits at and above `nbits` are 0. -/
def State.withFetchWord (s : State) (nbits w : Nat) : State :=
  { s with ms := { s.ms with
      mem := Memory.writeBytes s.ms.mem s.fetchAddress (bytesOfWord (BitVec.ofNat 32 (w % 2 ^ nbits))) } }

end Sys2Proof.Machine
end

