-- ==== Sys2Proof/WellFormed.lean ====
section
/-! DEFINITION. What a well-formed term is. An instruction term needs no check: every operand of `Instr` has the width of
its encoding field. A configuration is well-formed when its parameters are within the bounds R7 gives them. -/

namespace Sys2Proof

/-- `SATP_MODES`: Sv32 only with SXLEN=32, the others only with SXLEN=64, Sv48 with Sv39, Sv57 with Sv48 (R101, D15). -/
def Config.modesOk (c : Config) : Bool :=
  match c.sxlen with
  | .rv32 => !c.sv39 && !c.sv48 && !c.sv57
  | .rv64 => !c.sv32 && (!c.sv48 || c.sv39) && (!c.sv57 || c.sv48)

/-- `ASIDLEN` ≤ ASIDMAX (R105). -/
def Config.asidOk (c : Config) : Bool :=
  match c.sxlen with
  | .rv32 => decide (c.asidLen ≤ 9)
  | .rv64 => decide (c.asidLen ≤ 16)

/-- `PPNLEN` is at most the width of `satp.PPN` (R106). -/
def Config.ppnOk (c : Config) : Bool :=
  match c.sxlen with
  | .rv32 => decide (c.ppnLen ≤ 22)
  | .rv64 => decide (c.ppnLen ≤ 44)

/-- `PALEN` is at most 34 with SXLEN=32 and 56 with SXLEN=64 (R7). -/
def Config.paOk (c : Config) : Bool :=
  match c.sxlen with
  | .rv32 => decide (c.paLen ≤ 34)
  | .rv64 => decide (c.paLen ≤ 56)

/-- Svnapot and Svpbmt each depend on Sv39 (R2); Smstateen with Ssqosid asks for bit 55 of `mstateen0`, which Priv 1.14
introduces (R111); RV32D is an extension of SXLEN=32 (R127). -/
def Config.dependsOk (c : Config) : Bool :=
  (!c.ext.svnapot || c.sv39) && (!c.ext.svpbmt || c.sv39) &&
    (!(c.ext.smstateen && c.ext.ssqosid) || c.ext.priv114) && (!c.ext.rv32d || c.sxlen == .rv32)

/-- A mask of platform interrupts: bits 16 and above, below SXLEN (R54). -/
def Config.platformMaskOk (c : Config) (m : Word) : Bool :=
  m.toNat % 2 ^ 16 == 0 && decide (m.toNat < 2 ^ c.sxlen.bits)

/-- The three masks of platform interrupts are such masks (R54, R62). -/
def Config.platformOk (c : Config) : Bool :=
  c.platformMaskOk c.platformIrqs && c.platformMaskOk c.sipPlatform && c.platformMaskOk c.siePlatform

/-- `PLATFORM_IRQ_PRIORITY` is a total order of the implemented codes that extends 9 > 1 > 5 > 13 (R351). -/
def Config.irqOrderOk (c : Config) : Bool :=
  decide c.irqOrder.Nodup && (c.irqOrder.filter (fun i => decide (i < 16)) == [9, 1, 5, 13]) &&
    (List.range 64).all (fun i => !(c.platformIrqs.getLsbD i) || c.irqOrder.contains i)

/-- `STVEC_MODES` is not empty (D11). -/
def Config.stvecOk (c : Config) : Bool := c.stvecDirect || c.stvecVectored

/-- The Exception Code holds 0..31 and every implemented interrupt code, and leaves room for the Interrupt bit (R78). -/
def Config.scauseOk (c : Config) : Bool :=
  decide (5 ≤ c.scauseCodeBits) && decide (c.scauseCodeBits < c.sxlen.bits) &&
    (List.range 64).all (fun i => !(c.platformIrqs.getLsbD i) || decide (i < 2 ^ c.scauseCodeBits))

/-- `RCIDLEN` and `MCIDLEN` are at most 12, and the reset values fit them (R110, R117). -/
def Config.srmcfgOk (c : Config) : Bool :=
  decide (c.rcidLen ≤ 12) && decide (c.mcidLen ≤ 12) &&
    decide (c.resetRcid.toNat < 2 ^ c.rcidLen) && decide (c.resetMcid.toNat < 2 ^ c.mcidLen)

/-- `ILEN` is at least the 32 bits of every instruction of R224. -/
def Config.ilenOk (c : Config) : Bool := decide (32 ≤ c.ilen)

/-- With SXLEN=32 there is no UXL field and UXLEN=32 (R31). -/
def Config.uxlOk (c : Config) : Bool :=
  match c.sxlen with
  | .rv32 => c.uxl == .same
  | .rv64 => true

/-- IALIGN in bytes when the hart comes out of reset: 2 only where it is always 16 bits (R72, R126). -/
def Config.resetAlign (c : Config) : Nat :=
  match c.ialign with
  | .fixed16 => 2
  | .fixed32 | .switchable => 4

/-- `RESET_VECTOR` is an SXLEN-bit address aligned to IALIGN (R126). -/
def Config.resetOk (c : Config) : Bool :=
  c.resetVector.toNat % c.resetAlign == 0 && decide (c.resetVector.toNat < 2 ^ c.sxlen.bits)

/-- A cache block is a power of two in size and lies in one page (PRESUMED: log entry 44). -/
def Config.blockOk (c : Config) : Bool := (List.range 13).any (fun k => c.cacheBlock == 2 ^ k)

/-- A well-formed configuration: every check of this file. -/
def Config.wf (c : Config) : Bool :=
  c.modesOk && c.asidOk && c.ppnOk && c.paOk && c.dependsOk && c.platformOk && c.irqOrderOk && c.stvecOk &&
    c.scauseOk && c.srmcfgOk && c.ilenOk && c.uxlOk && c.resetOk && c.blockOk

end Sys2Proof
end

