-- ==== Sys2Proof/Safety.lean ====
section
/-! DEFINITION. What claims are stated in: the invariants that every step keeps, which outcomes go on, and where a
translation stores to memory. -/

namespace Sys2Proof.Machine

/-- Memory and the record of memory types are in canonical form. -/
abbrev State.MemoryOk (s : State) : Prop :=
  Memory.wf s.ms.mem = true ∧ canonical Seen.unseen s.ms.types = true

/-- SDT=1 implies SIE=0 (R40). -/
abbrev State.DoubleTrapSafe (s : State) : Prop := s.sdtOn = true → s.sstatus.sie = false

/-- The bits of an instruction address that IALIGN keeps zero on this implementation (R70, R126). -/
def alignMask (c : Config) : Word := if c.ialign = .fixed32 then 3#64 else 1#64

/-- `pc` and `sepc` are aligned (R21, R70, R126). -/
abbrev State.AddressesOk (s : State) : Prop :=
  s.pc &&& alignMask s.cfg = 0 ∧ s.sepc &&& alignMask s.cfg = 0

/-- `stvec.MODE` is a supported one, and BASE has bits of STVEC_BASE_MASK only (R46 to R48). -/
abbrev State.VectorOk (s : State) : Prop :=
  stvecModeOk s.cfg (s.stvec &&& 3) = true ∧ s.stvec &&& ~~~(s.cfg.stvecBaseMask ||| 3#64) = 0

/-- `satp` holds a supported MODE and only implemented bits of ASID and PPN, all of them zero under Bare (R101 to R105). -/
abbrev State.SatpOk (s : State) : Prop :=
  supported s.cfg s.satp.mode = true ∧
  s.satp.asid &&& ~~~(BitVec.ofNat 16 (2 ^ s.cfg.asidLen - 1)) = 0 ∧
  s.satp.ppn &&& ~~~(BitVec.ofNat 44 (2 ^ s.cfg.ppnLen - 1)) = 0 ∧
  (s.satp.mode = .bare → s.satp.asid = 0 ∧ s.satp.ppn = 0)

/-- `scause` holds a code that its field can hold, where that field holds every implemented interrupt code (R78, R79). -/
abbrev State.CauseOk (s : State) : Prop :=
  s.cfg.scauseOk = true → s.scause.code &&& ~~~(lowBits s.cfg.scauseCodeBits) = 0

/-- A landing pad is expected only in a mode that has landing pads enabled (R94, R329). -/
abbrev State.PadsOk (s : State) : Prop := s.elp = true → s.landingPads s.priv = true

/-- The reservation, where one is held, is one that the hart can hold: with the A extension, and under page-based virtual
memory in one base page (R186). -/
abbrev State.ReservationOk (s : State) : Prop := reservationOk s.cfg s.reservation = true

/-- Every WARL register holds a legal value (R31, R36 to R41, R57, R67, R93, R110). -/
abbrev State.WarlOk (s : State) : Prop :=
  (s.cfg.ext.ssdbltrp = false → s.sstatus.sdt = false) ∧
  (s.cfg.ext.zicfilp = false → s.sstatus.spelp = false) ∧
  s.scounteren &&& ~~~s.cfg.scounterenMask = 0 ∧
  s.sie &&& ~~~(sieWritable s.cfg) = 0 ∧
  s.sip &&& ~~~(sipBits s.cfg) = 0 ∧
  s.srmcfg.rcid &&& ~~~(BitVec.ofNat 12 (2 ^ s.cfg.rcidLen - 1)) = 0 ∧
  s.srmcfg.mcid &&& ~~~(BitVec.ofNat 12 (2 ^ s.cfg.mcidLen - 1)) = 0 ∧
  (s.sstatus.uxl = 1 ∨ s.sstatus.uxl = 2) ∧
  s.senvcfg.cbie ≠ 2

/-- The control registers are legal: every clause but those about memory and about SDT. -/
abbrev State.ControlOk (s : State) : Prop :=
  s.AddressesOk ∧ s.VectorOk ∧ s.SatpOk ∧ s.WarlOk ∧ s.CauseOk ∧ s.PadsOk ∧ s.ReservationOk

/-- An outcome that goes on. -/
def goesOn {σ φ ρ : Type} : Host.Outcome σ φ ρ → Bool
  | .next _ => true
  | .fault _ => false
  | .refused _ => false

/-- Where the walk from level `i` stores a PTE: the address of the leaf whose A or D it sets, if it does (R168). -/
def walkStores (c : WalkCtx) : Nat → Nat → Bool → MemSys → Option Nat
  | i, base, g, ms =>
    match walkLevel c i base g ms with
    | .ok (.leaf _ _ true, _) => some (pteAddress c i base)
    | .ok (.descend base' g', ms') =>
      match i with
      | 0 => none
      | j + 1 => walkStores c j base' (g || g') ms'
    | _ => none

/-- Where a translation stores a PTE, if it does. -/
def translationStores (c : WalkCtx) (ms : MemSys) : Option Nat :=
  if c.scheme = .bare then none
  else if vaValid c.scheme c.va then walkStores c (c.scheme.levels - 1) (c.root * 2 ^ 12) false ms
  else none

/-- An entry of the cache may satisfy the step 2 read at `addr`, level `i`: its ASID is the walk's or it is global, and it is for
that PTE address, or for that virtual address at that level (R171; log entry 8). -/
def entryMatches (c : WalkCtx) (i addr : Nat) (e : AtcEntry) : Prop :=
  (e.asid = c.asid ∨ e.isGlobal = true) ∧
  (e.pteAddr = addr ∨ e.scheme = c.scheme ∧ e.level = i ∧ e.vpn = vpnFrom c.scheme i c.va)

/-- A PTE that the step 2 read at `addr`, level `i`, may return: memory's, where the read passes its checks, or that of a
matching entry of the cache (R153, R171, R172). -/
def pteSource (c : WalkCtx) (ms : MemSys) (i addr : Nat) (pte : Word) : Prop :=
  pmaCheck c.cfg addr c.scheme.pteBytes .load .supervisor = .ok ∧ pte = pteAt c.cfg c.scheme ms.mem addr ∨
  ∃ e ∈ ms.atc, entryMatches c i addr e ∧ pte = e.pte

/-- From the table `base` at level `i` the walk may come, over pointers, to the table `base'` at level `j` (R155). -/
def walkReaches (c : WalkCtx) (ms : MemSys) : Nat → Nat → Nat → Nat → Prop
  | 0, base, j, base' => j = 0 ∧ base' = base
  | i + 1, base, j, base' =>
    j = i + 1 ∧ base' = base ∨
    ∃ pte next g, pteSource c ms (i + 1) (pteAddress c (i + 1) base) pte ∧
      levelResult c (i + 1) (pteAddress c (i + 1) base) pte = .descend next g ∧ walkReaches c ms i next j base'

/-- An address lies among the bytes of the PTE that a translation stores. -/
def inStoredPte (c : WalkCtx) (ms : MemSys) (a : Nat) : Prop :=
  ∃ p, translationStores c ms = some p ∧ p ≤ a ∧ a < p + c.scheme.pteBytes

/-- What the byte pieces of a misaligned load may write: the PTEs that their translations store. -/
def loadPiecesWrite : List WalkCtx → MemSys → Nat → Prop
  | [], _, _ => False
  | c :: cs, ms, a =>
    inStoredPte c ms a ∨
    match loadPiece c true 1 ms with
    | .ok _ ms' => loadPiecesWrite cs ms' a
    | .exc _ _ _ => False
    | .stop _ => False

/-- What the byte pieces of a misaligned store may write: PTEs, and the bytes stored. -/
def storePiecesWrite : List (WalkCtx × Byte) → MemSys → Nat → Prop
  | [], _, _ => False
  | (c, b) :: cs, ms, a =>
    inStoredPte c ms a ∨
    match reach c true 1 ms with
    | .ok pa ms' => a = pa ∨ storePiecesWrite cs { ms' with mem := Memory.writeBytes ms'.mem pa [b] } a
    | .exc _ _ _ => False
    | .stop _ => False

/-- The addresses that a 32-bit load at `va` may write. -/
def State.loadWrites (s : State) (va : Word) (a : Nat) : Prop :=
  let c := s.walkCtx va .load s.effectivePriv
  if c.va.toNat % 4 = 0 then inStoredPte c s.ms a
  else match s.cfg.misaligned with
    | .trap => False
    | .split up => loadPiecesWrite (inOrder up (s.pieces va 4 .load)) s.ms a

/-- The addresses that a 32-bit store of `v` at `va` may write: those of a PTE, and the four bytes from where it reaches. -/
def State.storeWrites (s : State) (va : Word) (v : BitVec 32) (a : Nat) : Prop :=
  let c := s.walkCtx va .store s.effectivePriv
  if c.va.toNat % 4 = 0 then
    inStoredPte c s.ms a ∨ ∃ pa ms', reach c false 4 s.ms = .ok pa ms' ∧ pa ≤ a ∧ a < pa + 4
  else match s.cfg.misaligned with
    | .trap => False
    | .split up =>
      storePiecesWrite
        (inOrder up ((s.pieces va 4 .store).zip (splitBytes (s.bigEndian s.effectivePriv) 4 v.toNat))) s.ms a

/-- The integer registers after an instruction whose one destination is `rd`: `rd` reads the result at the width of the
mode (`x0` reads 0), every other register reads as before; in storage `rd` takes the result, in the narrower mode
sign-extended to SXLEN, and every other register keeps all its bits (R20, R32). -/
def State.registersAfter (s t : State) (rd : RegId) (v : Word) : Prop :=
  t.reg rd = (if rd = 0 then 0 else cut s.xlen v) ∧ (∀ r, r ≠ rd → t.reg r = s.reg r) ∧
  (∀ r : RegId, (r ≠ rd ∨ r = 0) → t.regs[r.toNat]'(r.isLt) = s.regs[r.toNat]'(r.isLt)) ∧
  (rd ≠ 0 → t.regs[rd.toNat]'(rd.isLt) =
    match s.xlen, s.cfg.sxlen with
    | .rv64, _ => v
    | .rv32, .rv32 => (v.setWidth 32).setWidth 64
    | .rv32, .rv64 => (v.setWidth 32).signExtend 64)

/-- Every byte of memory reads as before. -/
def State.memoryAlike (s t : State) : Prop := ∀ a, Memory.read t.ms.mem a = Memory.read s.ms.mem a

/-- Every supervisor CSR, and what of the machine level the model holds, is as before; the counters are not in it. -/
def State.supervisorAlike (s t : State) : Prop :=
  t.sstatus = s.sstatus ∧ t.stvec = s.stvec ∧ t.sip = s.sip ∧ t.sie = s.sie ∧ t.scounteren = s.scounteren ∧
  t.sscratch = s.sscratch ∧ t.sepc = s.sepc ∧ t.scause = s.scause ∧ t.stval = s.stval ∧ t.senvcfg = s.senvcfg ∧
  t.satp = s.satp ∧ t.srmcfg = s.srmcfg ∧ t.elp = s.elp ∧ t.mach = s.mach ∧ t.inputs = s.inputs ∧
  t.reservation = s.reservation ∧ t.cfg = s.cfg

/-- Every CSR but one reads as before, and so does what no CSR instruction writes: the mode, ELP, the machine level, the
reservation, the ATC, pending invalidations, walks and the parameters. -/
def State.othersAlike (s t : State) (c : Csr) : Prop :=
  (∀ d, d ≠ c → (t.readCsr d).1 = (s.readCsr d).1) ∧ t.priv = s.priv ∧ t.elp = s.elp ∧ t.mach = s.mach ∧
  t.inputs = s.inputs ∧ t.reservation = s.reservation ∧ t.ms.atc = s.ms.atc ∧ t.pendingInval = s.pendingInval ∧
  t.walks = s.walks ∧ t.inbox = s.inbox ∧ t.cfg = s.cfg

/-- The state after a CSR instruction that reads and writes `c`, given the state `u` in which `c` has been written: `rd` has
the value read before, `pc` moves on, and nothing else changes (R300, R301). -/
def State.csrWritten (s t u : State) (rd : RegId) (c : Csr) : Prop :=
  s.registersAfter t rd (s.readCsr c).1 ∧
  t = { u with regs := t.regs, pc := cut s.cfg.sxlen (s.pc + 4), recheck := s.recheck || interruptCsr c } ∧
  s.othersAlike t c ∧ s.memoryAlike t

/-- The row of R224 an instruction belongs to: mask and match. -/
def tableRow : Instr → BitVec 32 × BitVec 32
  | .sret => (0xFFFFFFFF, 0x10200073)
  | .sfenceVma _ _ => (0xFE007FFF, 0x12000073)
  | .sinvalVma _ _ => (0xFE007FFF, 0x16000073)
  | .sfenceWInval => (0xFFFFFFFF, 0x18000073)
  | .sfenceInvalIr => (0xFFFFFFFF, 0x18100073)
  | .hinvalVvma _ _ => (0xFE007FFF, 0x26000073)
  | .hinvalGvma _ _ => (0xFE007FFF, 0x66000073)
  | .csrrw _ _ _ => (0x0000707F, 0x00001073)
  | .csrrs _ _ _ => (0x0000707F, 0x00002073)
  | .csrrc _ _ _ => (0x0000707F, 0x00003073)
  | .csrrwi _ _ _ => (0x0000707F, 0x00005073)
  | .csrrsi _ _ _ => (0x0000707F, 0x00006073)
  | .csrrci _ _ _ => (0x0000707F, 0x00007073)
  | .ecall => (0xFFFFFFFF, 0x00000073)
  | .ebreak => (0xFFFFFFFF, 0x00100073)
  | .fence _ _ _ _ _ => (0x0000707F, 0x0000000F)
  | .addi _ _ _ => (0x0000707F, 0x00000013)
  | .lw _ _ _ => (0x0000707F, 0x00002003)
  | .sw _ _ _ => (0x0000707F, 0x00002023)

end Sys2Proof.Machine
end

