-- ==== Sys2Proof/Certificates/Slice0/Obligations.lean ====
section
/-! DEFINITION. The statements for the provers. Each docstring names the rules of spec/ it formalises. Where a statement
rests on a choice of the model or on an inference the spec marks as its own, the docstring says so. -/

open Sys2Proof Sys2Proof.Machine

/-! ### Encoding -/

/-- Decoding the encoding of an instruction gives that instruction, with every operand, whatever bytes follow (R222 to R225). -/
def Obligations.DecodeOfEncode : Prop :=
  ∀ (i : Instr) (rest : List Byte), decode (bytesOfWord (encode i) ++ rest) = .ok (i, rest)

/-- Each word has one meaning: an instruction that the decoder reads encodes to the word it was read from, and the bytes
after it are left (R222 to R225). -/
def Obligations.EncodeOfDecode : Prop :=
  ∀ (b0 b1 b2 b3 : Byte) (rest left : List Byte) (i : Instr),
    decode (b0 :: b1 :: b2 :: b3 :: rest) = .ok (i, left) → left = rest ∧ encode i = wordOfBytes b0 b1 b2 b3

/-- A word is an instruction of a row exactly when the word AND the row's mask is the row's match (R224). -/
def Obligations.WordsFollowTheTable : Prop :=
  ∀ (w : BitVec 32) (i : Instr),
    w &&& (tableRow i).1 = (tableRow i).2 ↔ ∃ j, instrOf w = some j ∧ tableRow j = tableRow i

/-- Words that the spec writes out decode to what it says they are (R258, R279, R293, R302 to R307, R320 to R333), and
reserved words near them decode to nothing (R225, R227). -/
def Obligations.SpecWordsDecode : Prop :=
  instrOf 0x10200073 = some .sret ∧ instrOf 0x12B50073 = some (.sfenceVma 10 11) ∧
  instrOf 0x16B50073 = some (.sinvalVma 10 11) ∧ instrOf 0x18000073 = some .sfenceWInval ∧
  instrOf 0x18100073 = some .sfenceInvalIr ∧ instrOf 0x140292F3 = some (.csrrw 5 0x140 5) ∧
  instrOf 0x14202573 = some (.csrrs 10 0x142 0) ∧ instrOf 0x14453073 = some (.csrrc 0 0x144 10) ∧
  instrOf 0x140FD073 = some (.csrrwi 0 0x140 31) ∧ instrOf 0x10016073 = some (.csrrsi 0 0x100 2) ∧
  instrOf 0x100175F3 = some (.csrrci 11 0x100 2) ∧ instrOf 0x00000073 = some .ecall ∧
  instrOf 0x00100073 = some .ebreak ∧ instrOf 0x0FF0000F = some (.fence 0 15 15 0 0) ∧
  instrOf 0xFFF00293 = some (.addi 5 0 0xFFF) ∧ instrOf 0x00052583 = some (.lw 11 10 0) ∧
  instrOf 0xFEB52E23 = some (.sw 11 10 0xFFC) ∧
  instrOf 0x102000F3 = none ∧ instrOf 0x18200073 = none ∧ instrOf 0x18008073 = none

/-! ### One step -/

/-- Where no interrupt is due, before or after the other agents' turn, and the fetch brings a word that decodes to `i`,
the step is `i`'s meaning, at a `pc` aligned to IALIGN. It starts from the state after that turn, in which the fetch has changed
the memory system only; with an empty inbox the turn only clears `recheck` (R231, R347). That the turn may stop the model is U32
and U35 of the spec's list (log entries 16, 17). -/
def Obligations.StepRunsTheDecodedInstruction : Prop :=
  ∀ (s u : State) (w : BitVec 32) (i : Instr),
    s.immediateInterrupt = none → s.environmentStop = none → s.environmentTurn.selectInterrupt = none →
    s.environmentTurn.fetch = .ok (.word w) u → instrOf w = some i → u.padMissing = false →
    u.pc.toNat % (if u.align16 then 2 else 4) = 0 →
    step s = exec i u ∧ (∃ m, u = { s.environmentTurn with ms := m }) ∧
      (s.inbox = [] → s.environmentStop = none ∧ s.environmentTurn = { s with recheck := false })

/-- Without translation, a fetch is little-endian whatever UBE is. With IALIGN=32 it brings the four bytes at `pc`, the byte at
`pc` in bits 7:0. With IALIGN=16 it brings the 16-bit parcel at `pc`, which is the instruction where its bits 1:0 are not 11,
and else a second parcel at `pc` + 2 as the upper half. It changes nothing but the record of attributes (R122, R141, R220,
R221; that bits 4:0 = 11111 count as 32 bits is the model's choice, log entry 28, and the record is log entry 16). With IALIGN=32
and a `pc` that is no multiple of four it brings two parcels too, which is the model's choice (log entry 38). With translation
the four bytes come from where the access with the mode's own privilege reaches. -/
def Obligations.FetchIsLittleEndian : Prop :=
  (∀ (s : State) (pa : Nat), s.align16 = false → s.pc.toNat % 4 = 0 → (s.priv = .machine ∨ s.satp.mode = .bare) →
    pa = (s.narrow s.priv s.pc).toNat → pmaCheck s.cfg pa 4 .fetch s.priv = .ok →
    (∀ k, k < 4 → compatible (lookupAt .unseen s.ms.types (pa + k)) (attributesOf s.cfg pa 4 .pma) = true) →
    ∃ types, s.fetch = .ok (.word (wordOfBytes (Memory.read s.ms.mem pa) (Memory.read s.ms.mem (pa + 1))
      (Memory.read s.ms.mem (pa + 2)) (Memory.read s.ms.mem (pa + 3)))) { s with ms := { s.ms with types := types } }) ∧
  (∀ (s : State) (pa : Nat) (h : BitVec 16), (s.align16 = true ∨ s.pc.toNat % 4 ≠ 0) →
    (s.priv = .machine ∨ s.satp.mode = .bare) →
    pa = (s.narrow s.priv s.pc).toNat → pmaCheck s.cfg pa 2 .fetch s.priv = .ok →
    (∀ k, k < 2 → compatible (lookupAt .unseen s.ms.types (pa + k)) (attributesOf s.cfg pa 2 .pma) = true) →
    h = Memory.read s.ms.mem (pa + 1) ++ Memory.read s.ms.mem pa →
    (s.align16 = true → h.extractLsb' 0 2 ≠ 3 →
      ∃ types, s.fetch = .ok (.half h) { s with ms := { s.ms with types := types } }) ∧
    (∀ qa : Nat, (s.align16 = true → h.extractLsb' 0 2 = 3) →
      qa = (s.narrow s.priv (s.pc + 2)).toNat → pmaCheck s.cfg qa 2 .fetch s.priv = .ok →
      (∀ k, k < 2 → compatible (lookupAt .unseen s.ms.types (qa + k)) (attributesOf s.cfg qa 2 .pma) = true) →
      ∃ types, s.fetch = .ok (.word (wordOfBytes (Memory.read s.ms.mem pa) (Memory.read s.ms.mem (pa + 1))
        (Memory.read s.ms.mem qa) (Memory.read s.ms.mem (qa + 1)))) { s with ms := { s.ms with types := types } })) ∧
  (∀ (s : State) (pa : Nat) (m : MemSys), s.align16 = false → s.pc.toNat % 4 = 0 →
    reach (s.walkCtx s.pc .fetch s.priv) false 4 s.ms = .ok pa m →
    s.fetch = .ok (.word (wordOfBytes (Memory.read m.mem pa) (Memory.read m.mem (pa + 1)) (Memory.read m.mem (pa + 2))
      (Memory.read m.mem (pa + 3)))) { s with ms := m })

/-- A fetch that raises takes its exception, the fetched memory system kept; where the second parcel of an instruction raises,
the trap value is that parcel's address and `pc`, which `sepc` takes, is the instruction's (R84, R221). A word or a 16-bit
parcel that is no instruction raises the illegal-instruction exception with its own bits as trap value (R85, R220, R227; which
words other extensions have is log entries 7 and 43, and that with IALIGN=32 none ends in other than 11, log entry 7). Where a landing
pad is expected and enabled, an instruction of R224 raises the software check with cause 2 (R86); that it comes before every other
exception of the instruction but the fetch's is log entry 23, since R348 leaves its place open. With Zicfilp off in U-mode LPAD is
a no-op (R94, R329), and with Zicfiss off there and `menvcfg.SSE` set SSAMOSWAP is illegal (R95, R330); their encodings are
PRESUMED (log entry 43). CBO.FLUSH is illegal where it is not enabled, else it runs (R211; log entry 44). At a `pc` that is not
aligned an instruction raises code 0, after the exceptions of the fetch and after illegal instruction (R348; that a machine-level
CSR number stops the model there too is log entry 38). How long an instruction with bits 4:0 = 11111 is, is log entry 28. -/
def Obligations.FetchAndDecodeExceptions : Prop :=
  ∀ s u : State, s.immediateInterrupt = none → s.environmentStop = none → s.environmentTurn.selectInterrupt = none →
    (∀ (cause : Cause) (info : Word), s.environmentTurn.fetch = .exc cause info u →
      step s = .next (u.takeException cause info) ∧ u = { s.environmentTurn with ms := u.ms } ∧
        cause ∈ [Cause.instrAccess, Cause.instrPage]) ∧
    (∀ (e : State) (low : Nat) (m m' : MemSys) (cause : Cause) (info : Word), e = s.environmentTurn →
      (e.align16 = true ∧ low % 4 = 3 ∨ e.align16 = false ∧ e.pc.toNat % 4 ≠ 0) →
      e.fetchBytes e.pc 2 e.ms = .ok low m → e.fetchBytes (e.pc + 2) 2 m = .exc cause info m' →
      step s = .next ({ e with ms := m' }.takeException cause info) ∧ info = e.narrow e.priv (e.pc + 2) ∧
        cause ∈ [Cause.instrAccess, Cause.instrPage]) ∧
    (∀ w : BitVec 32, s.environmentTurn.fetch = .ok (.word w) u → (∀ i, w &&& (tableRow i).1 ≠ (tableRow i).2) →
      ((u.cfg.ext.zicfilp = false ∨ w &&& 0xFFF#32 ≠ 0x17#32) → u.padMissing = false → 32 ≤ u.cfg.ilen →
        (foreignWord u.cfg w = false ∨ w.extractLsb' 0 2 ≠ 3) → step s = .next (u.takeException .illegal (w.setWidth 64))) ∧
      (u.cfg.ext.zicfilp = true → w &&& 0xFFF#32 = 0x17#32 → u.priv = .user → u.senvcfg.lpe = false →
        step s = if u.pc.toNat % (if u.align16 then 2 else 4) = 0 then .next { u with pc := cut u.cfg.sxlen (u.pc + 4) }
          else .next (u.takeException .instrMisaligned u.pc)) ∧
      (u.cfg.ext.zicbom = true → w &&& 0xFFF07FFF#32 = 0x0020200F#32 → u.padMissing = false → 32 ≤ u.cfg.ilen →
        step s = if u.priv ≠ .machine ∧ u.inputs.menvcfgCbcfe = false ∨ u.priv = .user ∧ u.senvcfg.cbcfe = false then
            .next (u.takeException .illegal (w.setWidth 64))
          else if u.pc.toNat % (if u.align16 then 2 else 4) ≠ 0 then .next (u.takeException .instrMisaligned u.pc)
          else u.flushBlock (w.extractLsb' 15 5)) ∧
      (u.cfg.ext.zicfiss = true → u.priv = .user → u.senvcfg.sse = false → u.inputs.menvcfgSse = true →
        (w &&& 0xF800707F#32 = 0x4800202F#32 ∨ u.cfg.sxlen = .rv64 ∧ w &&& 0xF800707F#32 = 0x4800302F#32) →
        u.padMissing = false → 32 ≤ u.cfg.ilen → step s = .next (u.takeException .illegal (w.setWidth 64)))) ∧
    (∀ h : BitVec 16, s.environmentTurn.fetch = .ok (.half h) u → u.padMissing = false → 16 ≤ u.cfg.ilen →
      foreignWord u.cfg (h.setWidth 32) = false → step s = .next (u.takeException .illegal (h.setWidth 64))) ∧
    (∀ (w : BitVec 32) (i : Instr), s.environmentTurn.fetch = .ok (.word w) u → instrOf w = some i →
      (u.elp = true → u.landingPads u.priv = true → step s = .next (u.takeException .softwareCheck 2)) ∧
      (u.padMissing = false → u.pc.toNat % (if u.align16 then 2 else 4) ≠ 0 →
        (u.barred i = false → step s = .next (u.takeException .instrMisaligned u.pc)) ∧
        (u.barred i = true → step s = exec i u ∧
          (exec i u = .next (u.takeException .illegal (instrBits u.cfg 32 ((encode i).setWidth 64))) ∨
            ∃ num, exec i u = .refused (.machineCsr num)))))

/-! ### Interrupts -/

/-- Which interrupt is taken: it is pending and enabled in a mode that takes it, none is missed, and the standard ones go
SEI, SSI, STI, LCOFI (R350, R351). -/
def Obligations.InterruptSelection : Prop :=
  ∀ s : State, s.cfg.irqOrderOk = true →
    (∀ i, s.takeable i = true ↔
      (s.priv = .supervisor ∧ s.sstatus.sie = true ∨ s.priv = .user) ∧
        s.readSip.getLsbD i = true ∧ s.readSie.getLsbD i = true) ∧
    (s.selectInterrupt = none ↔ ∀ i, s.takeable i = false) ∧
    (∀ i, s.selectInterrupt = some i → s.takeable i = true ∧
      (i = 1 → s.takeable 9 = false) ∧
      (i = 5 → s.takeable 9 = false ∧ s.takeable 1 = false) ∧
      (i = 13 → s.takeable 9 = false ∧ s.takeable 1 = false ∧ s.takeable 5 = false))

/-- An interrupt that is due after the other agents' turn is taken instead of the instruction at `pc`: nothing is fetched
or executed, `sepc` takes `pc`, `scause` the code with the Interrupt bit, `stval` zero, and Vectored mode adds four times
the code to BASE (R347, R360 to R365). That SPELP takes NO_LP_EXPECTED where landing pads are off, and that with Zicfilp ELP is
cleared and without it stays, is log entry 23; that `sepc` takes the SXLEN-bit `pc` in a narrower U-mode too is the model's choice
(log entry 21). -/
def Obligations.InterruptIsTakenBeforeFetch : Prop :=
  ∀ (s e : State) (code : Nat), s.immediateInterrupt = none → s.environmentStop = none → e = s.environmentTurn →
    e.selectInterrupt = some code → e.sdtOn = false →
    ∃ t, step s = .next t ∧ t.priv = .supervisor ∧ t.scause = { interrupt := true, code := BitVec.ofNat 64 code } ∧
      t.stval = 0 ∧
      (vaValid e.satp.mode (cut e.cfg.sxlen e.pc) = true → t.sepc = cut e.cfg.sxlen e.pc &&& epcMask e.cfg) ∧
      t.pc = cut e.cfg.sxlen
        (if e.stvec &&& 3 = 1 then (e.stvec &&& ~~~3#64) + BitVec.ofNat 64 (4 * code) else e.stvec &&& ~~~3#64) ∧
      t.sstatus = { e.sstatus with spp := decide (e.priv ≠ .user), spie := e.sstatus.sie, sie := false,
                                   sdt := e.cfg.ext.ssdbltrp, spelp := e.elp && e.landingPads e.priv } ∧
      t.elp = (e.elp && !e.cfg.ext.zicfilp) ∧
      t = { e with pc := t.pc, priv := t.priv, sstatus := t.sstatus, elp := t.elp, sepc := t.sepc, scause := t.scause,
                   stval := t.stval }

/-- Right after SRET, and after a CSR instruction that writes `sip`, `sie` or `sstatus`, an interrupt that the new values
let through is taken before any other agent acts and before the next instruction (R352). -/
def Obligations.InterruptRightAfterSretOrCsrWrite : Prop :=
  (∀ s : State, s.sretPermitted = true → ∃ t, exec .sret s = .next t ∧ t.recheck = true) ∧
  (∀ (s : State) (rd : RegId) (num : BitVec 12) (src : BitVec 5) (c : Csr), s.csrCheck num true = .ok c → interruptCsr c = true →
    (∃ t, exec (.csrrw rd num src) s = .next t ∧ t.recheck = true) ∧
    (∃ t, exec (.csrrwi rd num src) s = .next t ∧ t.recheck = true) ∧
    (src ≠ 0 →
      (∃ t, exec (.csrrs rd num src) s = .next t ∧ t.recheck = true) ∧
      (∃ t, exec (.csrrc rd num src) s = .next t ∧ t.recheck = true) ∧
      (∃ t, exec (.csrrsi rd num src) s = .next t ∧ t.recheck = true) ∧
      (∃ t, exec (.csrrci rd num src) s = .next t ∧ t.recheck = true))) ∧
  (∀ (t : State) (code : Nat), t.recheck = true → t.selectInterrupt = some code →
    step t = .next ({ t with recheck := false }.takeInterrupt code))

/-! ### Reset and the invariants -/

/-- The reset state of the spec: M-mode, `pc` at RESET_VECTOR, ATC and PendingInval empty, RCID and MCID at their
parameters (R118, R401); with a well-formed configuration it satisfies the three invariants. That no walk is under way and
no reservation is held is the model's choice (log entries 27, 30). -/
def Obligations.ResetState : Prop :=
  ∀ c : Config,
    (resetState c).priv = .machine ∧ (resetState c).pc = c.resetVector ∧ (resetState c).ms.atc = [] ∧
    (resetState c).pendingInval = [] ∧ (resetState c).srmcfg = { rcid := c.resetRcid, mcid := c.resetMcid } ∧
    (resetState c).walks = [] ∧ (resetState c).reservation = none ∧
    (c.wf = true → (resetState c).MemoryOk ∧ (resetState c).DoubleTrapSafe ∧ (resetState c).ControlOk)

/-- Every step keeps memory and the record of memory types in canonical form. The form is the model's (log entry 3). -/
def Obligations.StepKeepsMemoryCanonical : Prop :=
  ∀ s t : State, s.MemoryOk → step s = .next t → t.MemoryOk

/-- Every step keeps SDT=1 implies SIE=0 (R40, an inference the spec marks as derived from R38, R39 and R361). -/
def Obligations.StepKeepsDoubleTrapRule : Prop :=
  ∀ s t : State, s.DoubleTrapSafe → step s = .next t → t.DoubleTrapSafe

/-- Every step keeps `pc` and `sepc` aligned, `stvec` at a supported mode and within STVEC_BASE_MASK, `satp` at a supported mode,
UXL at 1 or 2, CBIE off its reserved value, the code of `scause` within its width, unimplemented bits zero, ELP at
NO_LP_EXPECTED where landing pads are off, and the reservation, under page-based virtual memory, within one naturally aligned 4 KiB
page (R21, R31, R46 to R48, R57, R67, R70, R78, R93, R94, R101 to R105, R110, R126, R186). R94
speaks of U-mode only: that ELP is so in S-mode and in M-mode too is the model's choice (log entry 23), and so is that CBIE never
holds its reserved value (log entry 24), and that a reservation is held only with the A extension and its set is not empty (log
entry 30). No step changes the implementation parameters; that they stand in the state is the model's choice (log entry 1). -/
def Obligations.StepKeepsControlRegistersLegal : Prop :=
  ∀ s t : State, step s = .next t → t.cfg = s.cfg ∧ (s.ControlOk → t.ControlOk)

/-- No instruction but SRET ends in a lower privilege mode than it started in, and SRET ends in S-mode or U-mode unless it
traps into M-mode (R374). -/
def Obligations.OnlySretLowersTheMode : Prop :=
  (∀ (i : Instr) (s t : State), i ≠ .sret → exec i s = .next t → privNumber s.priv ≤ privNumber t.priv) ∧
  (∀ s t : State, s.sretPermitted = true → exec .sret s = .next t → t.priv = (if s.sstatus.spp then .supervisor else .user))

/-- An instruction executed in U-mode that does not trap changes no supervisor CSR, no machine-level register, no pending
invalidation and no walk under way (R300, R310, R373). -/
def Obligations.UserModeIsolation : Prop :=
  ∀ (i : Instr) (s t : State), s.priv = .user → exec i s = .next t → t.priv = .user →
    s.supervisorAlike t ∧ t.pendingInval = s.pendingInval ∧ t.walks = s.walks ∧ t.inbox = s.inbox

/-! ### Traps -/

/-- An exception taken in S-mode: SPP, SPIE, SIE, SDT, SPELP and ELP, `sepc`, `scause`, `stval`, the mode and `pc`, and nothing
else but the draws of free values; a synchronous exception goes to BASE in either vector mode (R360 to R366, R82 to R88). What
Zicfilp saves and clears is log entry 23, and that `sepc` takes the SXLEN-bit `pc` in a narrower U-mode too is the model's choice
(log entry 21). -/
def Obligations.ExceptionIntoSupervisor : Prop :=
  ∀ (s t : State) (c : Cause) (info : Word), s.delegated c.code = true → s.sdtOn = false → t = s.takeException c info →
    t.priv = .supervisor ∧ t.pc = cut s.cfg.sxlen (s.stvec &&& ~~~3#64) ∧
    t.sstatus.spp = decide (s.priv ≠ .user) ∧ t.sstatus.spie = s.sstatus.sie ∧ t.sstatus.sie = false ∧
    (s.cfg.ext.ssdbltrp = true → t.sstatus.sdt = true) ∧
    t.sstatus.spelp = (s.elp && s.landingPads s.priv) ∧ t.elp = (s.elp && !s.cfg.ext.zicfilp) ∧
    t.sstatus.mxr = s.sstatus.mxr ∧ t.sstatus.sum = s.sstatus.sum ∧ t.sstatus.uxl = s.sstatus.uxl ∧
    t.sstatus.ube = s.sstatus.ube ∧ t.sstatus.fs = s.sstatus.fs ∧ t.sstatus.vs = s.sstatus.vs ∧ t.sstatus.xs = s.sstatus.xs ∧
    t.scause = { interrupt := false, code := BitVec.ofNat 64 c.code } ∧
    (vaValid s.satp.mode (cut s.cfg.sxlen s.pc) = true → t.sepc = cut s.cfg.sxlen s.pc &&& epcMask s.cfg) ∧
    (c ∈ [Cause.ecallU, Cause.ecallS, Cause.hardwareError] → t.stval = 0) ∧
    (c ∉ [Cause.ecallU, Cause.ecallS, Cause.ecallM, Cause.hardwareError, Cause.softwareCheck] →
      (tvalPolicy s.cfg c.code = .zero → t.stval = 0) ∧
      (tvalPolicy s.cfg c.code = .informative →
        (vaValid s.satp.mode (cut s.cfg.sxlen info) = true ∨
          tvalPolicy s.cfg 2 ≠ .zero ∧ (cut s.cfg.sxlen info).toNat < 2 ^ min s.cfg.sxlen.bits s.cfg.ilen) →
        t.stval = cut s.cfg.sxlen info) ∧
      (tvalPolicy s.cfg c.code = .either → vaValid s.satp.mode (cut s.cfg.sxlen info) = true →
        t.stval = 0 ∨ t.stval = cut s.cfg.sxlen info)) ∧
    (c = .softwareCheck → info ∈ [0, 2, 3] → t.stval = info) ∧
    t = { s with pc := t.pc, priv := t.priv, sstatus := t.sstatus, elp := t.elp, sepc := t.sepc, scause := t.scause,
                 stval := t.stval, ms := { s.ms with draws := t.ms.draws } }

/-- A trap into S-mode with SDT set is a double trap: it goes to M-mode with code 16 and the trap's own cause in `mtval2`,
and leaves `sepc`, `scause`, `stval` and `sstatus` (R367). The machine-level status and ELP after it are log entries 5 and 23. -/
def Obligations.DoubleTrap : Prop :=
  ∀ (s : State) (isInterrupt : Bool) (code : Nat) (tval epc : Word), s.sdtOn = true → code < 2 ^ 31 →
    ∃ t, s.trapToS isInterrupt code tval epc = t ∧ t.priv = .machine ∧ t.mach.mcause = 16 ∧
      t.mach.mtval2 = BitVec.ofNat 64 code ||| bitAt isInterrupt (s.cfg.sxlen.bits - 1) ∧
      t.mach.mepc = epc ∧ t.mach.mtval = tval ∧ t.mach.mpp = s.priv ∧ t.mach.mpie = s.mach.mie ∧ t.mach.mie = false ∧
      t = { s with pc := t.pc, priv := t.priv, elp := s.elp && !s.cfg.ext.zicfilp, mach := t.mach, ms := { s.ms with draws := t.ms.draws } }

/-- An exception that is not delegated, and every exception of M-mode, enters M-mode and leaves every supervisor CSR, every
integer register, memory and the ATC (R345, R346). What `mcause`, `mepc` and MPP take is the model's, from the family (log entry
5), and so is that ELP is saved in MPELP and cleared (log entry 23). -/
def Obligations.ExceptionIntoMachine : Prop :=
  ∀ (s t : State) (c : Cause) (info : Word), s.delegated c.code = false → t = s.takeException c info →
    t.priv = .machine ∧ t.mach.mcause = BitVec.ofNat 64 c.code ∧ t.mach.mepc = s.pc ∧ t.mach.mpp = s.priv ∧
    t.mach.mpelp = (s.elp && s.landingPads s.priv) ∧
    t = { s with pc := t.pc, priv := t.priv, elp := s.elp && !s.cfg.ext.zicfilp, mach := t.mach, ms := { s.ms with draws := t.ms.draws } }

/-- SPP: written by a trap into S-mode, used and cleared by SRET, read and written by CSR access (R28). -/
def Obligations.SppRule : Prop :=
  (∀ (s : State) (isInterrupt : Bool) (code : Nat) (tval epc : Word), s.sdtOn = false →
    (s.trapToS isInterrupt code tval epc).sstatus.spp = decide (s.priv ≠ .user)) ∧
  (∀ s : State, s.sretPermitted = true → ∃ t, exec .sret s = .next t ∧ t.sstatus.spp = false ∧
    (s.sstatus.spp = false → t.priv = .user) ∧ (s.sstatus.spp = true → t.priv = .supervisor)) ∧
  (∀ s : State, s.readSstatus.getLsbD 8 = s.sstatus.spp) ∧
  (∀ (s : State) (rs1 : RegId), s.priv ≠ .user →
    ∃ t, exec (.csrrw 0 0x100 rs1) s = .next t ∧ t.sstatus.spp = (s.reg rs1).getLsbD 8)

/-- SPIE: set from SIE by a trap into S-mode, which clears SIE; SRET sets SIE from it and then sets it; read and written by
CSR access (R30). -/
def Obligations.SpieRule : Prop :=
  (∀ (s : State) (isInterrupt : Bool) (code : Nat) (tval epc : Word), s.sdtOn = false →
    (s.trapToS isInterrupt code tval epc).sstatus.spie = s.sstatus.sie ∧
    (s.trapToS isInterrupt code tval epc).sstatus.sie = false) ∧
  (∀ s : State, s.sretPermitted = true → ∃ t, exec .sret s = .next t ∧ t.sstatus.sie = s.sstatus.spie ∧
    t.sstatus.spie = true) ∧
  (∀ s : State, s.readSstatus.getLsbD 5 = s.sstatus.spie) ∧
  (∀ (s : State) (rs1 : RegId), s.priv ≠ .user →
    ∃ t, exec (.csrrw 0 0x100 rs1) s = .next t ∧ t.sstatus.spie = (s.reg rs1).getLsbD 5)

/-- SRET where it is permitted: the mode from SPP, SIE from SPIE, SPIE set, SPP and SDT clear, `pc` from the masked `sepc`,
MPRV clear; no integer register, no other CSR, no byte of memory and no ATC entry changes (R252 to R256). With Zicfilp ELP
takes SPELP where the new mode has landing pads enabled; that it is cleared where not is log entry 23. -/
def Obligations.SretResult : Prop :=
  ∀ s : State, (s.priv = .supervisor ∧ s.inputs.tsr = false ∨ s.priv = .machine) →
    ∃ t, exec .sret s = .next t ∧
      t.priv = (if s.sstatus.spp then .supervisor else .user) ∧
      t.pc = s.sepc &&& (if s.align16 then ~~~1#64 else ~~~3#64) ∧
      t.sstatus = { s.sstatus with sie := s.sstatus.spie, spie := true, spp := false, sdt := false, spelp := false } ∧
      t.inputs = { s.inputs with mprv := false } ∧
      (s.cfg.ext.zicfilp = false → t.elp = s.elp) ∧
      (s.cfg.ext.zicfilp = true → t.elp = (s.landingPads t.priv && s.sstatus.spelp)) ∧
      t = { s with priv := t.priv, pc := t.pc, sstatus := t.sstatus, inputs := t.inputs, elp := t.elp, recheck := true }

/-- ECALL raises the environment-call exception of its mode, with trap value zero, at its own address (R320). In M-mode it
is code 11, and where the exception is not delegated `mcause`, `mepc` and `mtval` take what they do, from general knowledge of the
machine level (log entry 5). That `sepc` takes the SXLEN-bit `pc` in a narrower U-mode too is the model's choice (log entry 21). -/
def Obligations.EcallResult : Prop :=
  ∀ (s : State) (code : Nat),
    code = (match s.priv with | .user => 8 | .supervisor => 9 | .machine => 11) →
    ∃ t, exec .ecall s = .next t ∧
      (s.delegated code = true → s.sdtOn = false →
        t.priv = .supervisor ∧ t.scause = { interrupt := false, code := BitVec.ofNat 64 code } ∧ t.stval = 0 ∧
        t.pc = cut s.cfg.sxlen (s.stvec &&& ~~~3#64) ∧
        (vaValid s.satp.mode (cut s.cfg.sxlen s.pc) = true → t.sepc = cut s.cfg.sxlen s.pc &&& epcMask s.cfg)) ∧
      (s.delegated code = true → s.sdtOn = true →
        t.priv = .machine ∧ t.mach.mcause = 16 ∧ t.mach.mtval2 = BitVec.ofNat 64 code) ∧
      (s.delegated code = false →
        t.priv = .machine ∧ t.mach.mcause = BitVec.ofNat 64 code ∧ t.mach.mepc = s.pc ∧ t.mach.mtval = 0) ∧
      t = { s with pc := t.pc, priv := t.priv, sstatus := t.sstatus, elp := t.elp, sepc := t.sepc, scause := t.scause,
                   stval := t.stval, mach := t.mach, ms := { s.ms with draws := t.ms.draws } }

/-- EBREAK raises the breakpoint exception, with its own address as trap value or zero (R82, R321). What `mcause` and `mepc`
take where it is not delegated is the model's, from the family (log entry 5); that the address is not reduced modulo 2^UXLEN
in a narrower U-mode is the model's choice (log entry 21). -/
def Obligations.EbreakResult : Prop :=
  ∀ s : State, ∃ t, exec .ebreak s = .next t ∧
    (s.delegated 3 = true → s.sdtOn = false →
      t.priv = .supervisor ∧ t.scause = { interrupt := false, code := 3 } ∧
      t.pc = cut s.cfg.sxlen (s.stvec &&& ~~~3#64) ∧
      (vaValid s.satp.mode (cut s.cfg.sxlen s.pc) = true →
        t.sepc = cut s.cfg.sxlen s.pc &&& epcMask s.cfg ∧ (t.stval = 0 ∨ t.stval = cut s.cfg.sxlen s.pc))) ∧
    (s.delegated 3 = true → s.sdtOn = true → t.priv = .machine ∧ t.mach.mcause = 16 ∧ t.mach.mtval2 = 3) ∧
    (s.delegated 3 = false → t.priv = .machine ∧ t.mach.mcause = 3 ∧ t.mach.mepc = s.pc) ∧
    t = { s with pc := t.pc, priv := t.priv, sstatus := t.sstatus, elp := t.elp, sepc := t.sepc, scause := t.scause,
                 stval := t.stval, mach := t.mach, ms := { s.ms with draws := t.ms.draws } }

/-! ### ADDI, LW, SW -/

/-- ADDI completes for every operand: `rd` takes the sum modulo 2^XLEN (`x0` stays 0), every other register, every CSR and
all of memory stay, and `pc` moves on by four. In the narrower mode of UXLEN=32 on SXLEN=64 the upper half of the source is
ignored and the result is sign-extended to 64 bits in the register (R20, R32, R331). -/
def Obligations.AddiResult : Prop :=
  ∀ (rd rs1 : RegId) (imm : BitVec 12) (s : State), ∃ t, exec (.addi rd rs1 imm) s = .next t ∧
    s.registersAfter t rd (s.reg rs1 + imm.signExtend 64) ∧
    t = { s with regs := t.regs, pc := cut s.cfg.sxlen (s.pc + 4) } ∧
    (s.xlen = .rv32 → s.cfg.sxlen = .rv64 → rd ≠ 0 → rs1 ≠ 0 →
      t.regs[rd.toNat]'(rd.isLt) =
        ((s.regs[rs1.toNat]'(rs1.isLt)).setWidth 32 + imm.signExtend 32).signExtend 64)

/-- LW without translation completes: `rd` takes the sign-extended word of the four bytes at the address in the byte order
of its effective privilege, which is that of MPP under MPRV; every other register, every CSR, every byte of memory and the ATC
stay (R121, R124, R140, R141, R327, R332). So does a misaligned LW where misaligned accesses are split, each byte from its own
address (R127; bytes as the pieces are the model's choice, log entry 18). R121 and R124 give the byte order of U-mode and S-mode;
that an access with effective privilege M has the order of a parameter is PRESUMED (log entry 22). The record of attributes is log
entry 16. -/
def Obligations.LwUntranslated : Prop :=
  ∀ (rd rs1 : RegId) (imm : BitVec 12) (s : State) (p : Priv) (big : Bool),
    p = (if s.inputs.mprv then s.mach.mpp else s.priv) →
    big = (match p with
      | .user => if s.cfg.ubeWritable then s.sstatus.ube else s.cfg.sBigEndian
      | .supervisor => s.cfg.sBigEndian
      | .machine => s.cfg.mBigEndian) →
    (p = .machine ∨ s.satp.mode = .bare) →
    (∀ pa : Nat, pa = (s.narrow p (s.effectiveAddress rs1 imm)).toNat →
      pa % 4 = 0 → pmaCheck s.cfg pa 4 .load p = .ok →
      (∀ k, k < 4 → compatible (lookupAt .unseen s.ms.types (pa + k)) (attributesOf s.cfg pa 4 .pma) = true) →
      ∃ t, exec (.lw rd rs1 imm) s = .next t ∧
        s.registersAfter t rd
          ((if big then
              wordOfBytes (Memory.read s.ms.mem (pa + 3)) (Memory.read s.ms.mem (pa + 2)) (Memory.read s.ms.mem (pa + 1))
                (Memory.read s.ms.mem pa)
            else
              wordOfBytes (Memory.read s.ms.mem pa) (Memory.read s.ms.mem (pa + 1)) (Memory.read s.ms.mem (pa + 2))
                (Memory.read s.ms.mem (pa + 3))).signExtend 64) ∧
        t = { s with regs := t.regs, pc := cut s.cfg.sxlen (s.pc + 4), ms := { s.ms with types := t.ms.types } }) ∧
    (∀ (up : Bool) (pa : Nat → Nat), s.cfg.misaligned = .split up →
      (∀ k, pa k = (s.narrow p (s.effectiveAddress rs1 imm + BitVec.ofNat 64 k)).toNat) → pa 0 % 4 ≠ 0 →
      (∀ k, k < 4 → pmaCheck s.cfg (pa k) 1 .load p = .ok ∧
        compatible (lookupAt .unseen s.ms.types (pa k)) (attributesOf s.cfg (pa k) 1 .pma) = true) →
      ∃ t, exec (.lw rd rs1 imm) s = .next t ∧
        s.registersAfter t rd
          ((if big then
              wordOfBytes (Memory.read s.ms.mem (pa 3)) (Memory.read s.ms.mem (pa 2)) (Memory.read s.ms.mem (pa 1))
                (Memory.read s.ms.mem (pa 0))
            else
              wordOfBytes (Memory.read s.ms.mem (pa 0)) (Memory.read s.ms.mem (pa 1)) (Memory.read s.ms.mem (pa 2))
                (Memory.read s.ms.mem (pa 3))).signExtend 64) ∧
        t = { s with regs := t.regs, pc := cut s.cfg.sxlen (s.pc + 4), ms := { s.ms with types := t.ms.types } })

/-- SW without translation completes: the four bytes at the address take the low 32 bits of `rs2` in the byte order of its
effective privilege, which is that of MPP under MPRV; every other byte, every register, every CSR and the ATC stay (R121, R124,
R140, R141, R327, R333). So does a misaligned SW where misaligned accesses are split, each byte to its own address (R127; bytes
as the pieces are the model's choice, log entry 18). R121 and R124 give the byte order of U-mode and S-mode; that an access with
effective privilege M has the order of a parameter is PRESUMED (log entry 22). The record of attributes is log entry 16. -/
def Obligations.SwUntranslated : Prop :=
  ∀ (rs2 rs1 : RegId) (imm : BitVec 12) (s : State) (p : Priv) (big : Bool),
    p = (if s.inputs.mprv then s.mach.mpp else s.priv) →
    big = (match p with
      | .user => if s.cfg.ubeWritable then s.sstatus.ube else s.cfg.sBigEndian
      | .supervisor => s.cfg.sBigEndian
      | .machine => s.cfg.mBigEndian) →
    (p = .machine ∨ s.satp.mode = .bare) →
    (∀ pa : Nat, pa = (s.narrow p (s.effectiveAddress rs1 imm)).toNat →
      pa % 4 = 0 → pmaCheck s.cfg pa 4 .store p = .ok →
      (∀ k, k < 4 → compatible (lookupAt .unseen s.ms.types (pa + k)) (attributesOf s.cfg pa 4 .pma) = true) →
      ∃ t, exec (.sw rs2 rs1 imm) s = .next t ∧
        (∀ k, k < 4 → Memory.read t.ms.mem (pa + k) =
          (s.reg rs2).extractLsb' (if big then 8 * (3 - k) else 8 * k) 8) ∧
        (∀ a, (a < pa ∨ pa + 4 ≤ a) → Memory.read t.ms.mem a = Memory.read s.ms.mem a) ∧
        t = { s with pc := cut s.cfg.sxlen (s.pc + 4), ms := { s.ms with mem := t.ms.mem, types := t.ms.types } }) ∧
    (∀ (up : Bool) (pa : Nat → Nat), s.cfg.misaligned = .split up →
      (∀ k, pa k = (s.narrow p (s.effectiveAddress rs1 imm + BitVec.ofNat 64 k)).toNat) → pa 0 % 4 ≠ 0 →
      (∀ k, k < 4 → pmaCheck s.cfg (pa k) 1 .store p = .ok ∧
        compatible (lookupAt .unseen s.ms.types (pa k)) (attributesOf s.cfg (pa k) 1 .pma) = true) →
      ∃ t, exec (.sw rs2 rs1 imm) s = .next t ∧
        (∀ k, k < 4 → Memory.read t.ms.mem (pa k) =
          (s.reg rs2).extractLsb' (if big then 8 * (3 - k) else 8 * k) 8) ∧
        (∀ a, (∀ k, k < 4 → a ≠ pa k) → Memory.read t.ms.mem a = Memory.read s.ms.mem a) ∧
        t = { s with pc := cut s.cfg.sxlen (s.pc + 4), ms := { s.ms with mem := t.ms.mem, types := t.ms.types } })

/-- LW in general completes where its aligned access reaches a physical address: the word is read there after the
translation's own PTE update, and nothing is written but the PTE that update names (R168, R178, R327, R332). A misaligned LW
that is split completes where every byte is reached: each byte is the one at the address where its own piece reaches, after the
pieces before it, `rd` takes the bytes in address order, and nothing is written but the PTEs that the pieces' updates name
(R127; log entry 18). R121 and R124 give the byte order of U-mode and S-mode; that an access with effective privilege M has the
order of a parameter is PRESUMED (log entry 22). -/
def Obligations.LwTranslated : Prop :=
  ∀ (rd rs1 : RegId) (imm : BitVec 12) (s : State) (p : Priv) (big : Bool),
    p = (if s.inputs.mprv then s.mach.mpp else s.priv) →
    big = (match p with
      | .user => if s.cfg.ubeWritable then s.sstatus.ube else s.cfg.sBigEndian
      | .supervisor => s.cfg.sBigEndian
      | .machine => s.cfg.mBigEndian) →
    (∀ (c : WalkCtx) (pa : Nat) (m : MemSys), c = s.walkCtx (s.effectiveAddress rs1 imm) .load p → c.va.toNat % 4 = 0 →
      reach c false 4 s.ms = .ok pa m →
      ∃ t, exec (.lw rd rs1 imm) s = .next t ∧
        s.registersAfter t rd
          ((if big then
              wordOfBytes (Memory.read m.mem (pa + 3)) (Memory.read m.mem (pa + 2)) (Memory.read m.mem (pa + 1))
                (Memory.read m.mem pa)
            else
              wordOfBytes (Memory.read m.mem pa) (Memory.read m.mem (pa + 1)) (Memory.read m.mem (pa + 2))
                (Memory.read m.mem (pa + 3))).signExtend 64) ∧
        (∀ a, ¬inStoredPte c s.ms a → Memory.read t.ms.mem a = Memory.read s.ms.mem a) ∧
        t = { s with regs := t.regs, pc := cut s.cfg.sxlen (s.pc + 4), ms := m }) ∧
    (∀ (l : List WalkCtx) (up : Bool) (bs : List Byte) (m : MemSys),
      (s.narrow p (s.effectiveAddress rs1 imm)).toNat % 4 ≠ 0 → s.cfg.misaligned = .split up →
      l = inOrder up ((List.range 4).map (fun k => s.walkCtx (s.effectiveAddress rs1 imm + BitVec.ofNat 64 k) .load p)) →
      loadPieces l s.ms = .ok bs m →
      (∀ (l1 l2 : List WalkCtx) (c : WalkCtx), l = l1 ++ c :: l2 →
        ∃ bs1 m1 pa m2, loadPieces l1 s.ms = .ok bs1 m1 ∧ reach c true 1 m1 = .ok pa m2 ∧
          bs[l1.length]? = some (Memory.read m2.mem pa)) ∧
      ∃ b0 b1 b2 b3 t, inOrder up bs = [b0, b1, b2, b3] ∧ exec (.lw rd rs1 imm) s = .next t ∧
        s.registersAfter t rd ((if big then wordOfBytes b3 b2 b1 b0 else wordOfBytes b0 b1 b2 b3).signExtend 64) ∧
        (∀ a, ¬loadPiecesWrite l s.ms a → Memory.read t.ms.mem a = Memory.read s.ms.mem a) ∧
        t = { s with regs := t.regs, pc := cut s.cfg.sxlen (s.pc + 4), ms := m })

/-- SW in general completes where its aligned access reaches a physical address: the four bytes there take the low 32 bits of
`rs2`, and no other byte changes but those of the PTE that the translation updates (R168, R178, R327, R333). A misaligned SW
that is split completes where every byte is reached: the byte at the address where a piece reaches, after the pieces before it,
takes the piece's byte of `rs2` where no later piece writes there, and no byte changes but those and the PTEs that the pieces'
updates name (R127; log entry 18). R121 and R124 give the byte order of U-mode and S-mode; that an access with effective privilege
M has the order of a parameter is PRESUMED (log entry 22). -/
def Obligations.SwTranslated : Prop :=
  ∀ (rs2 rs1 : RegId) (imm : BitVec 12) (s : State) (p : Priv) (big : Bool),
    p = (if s.inputs.mprv then s.mach.mpp else s.priv) →
    big = (match p with
      | .user => if s.cfg.ubeWritable then s.sstatus.ube else s.cfg.sBigEndian
      | .supervisor => s.cfg.sBigEndian
      | .machine => s.cfg.mBigEndian) →
    (∀ (c : WalkCtx) (pa : Nat) (m : MemSys), c = s.walkCtx (s.effectiveAddress rs1 imm) .store p → c.va.toNat % 4 = 0 →
      reach c false 4 s.ms = .ok pa m →
      ∃ t, exec (.sw rs2 rs1 imm) s = .next t ∧
        (∀ k, k < 4 → Memory.read t.ms.mem (pa + k) =
          (s.reg rs2).extractLsb' (if big then 8 * (3 - k) else 8 * k) 8) ∧
        (∀ a, (a < pa ∨ pa + 4 ≤ a) → ¬inStoredPte c s.ms a → Memory.read t.ms.mem a = Memory.read s.ms.mem a) ∧
        t = { s with pc := cut s.cfg.sxlen (s.pc + 4), ms := { m with mem := t.ms.mem } }) ∧
    (∀ (l : List (WalkCtx × Byte)) (up : Bool) (m : MemSys),
      (s.narrow p (s.effectiveAddress rs1 imm)).toNat % 4 ≠ 0 → s.cfg.misaligned = .split up →
      l = inOrder up ((List.range 4).map (fun k =>
        (s.walkCtx (s.effectiveAddress rs1 imm + BitVec.ofNat 64 k) .store p,
          (s.reg rs2).extractLsb' (if big then 8 * (3 - k) else 8 * k) 8))) →
      storePieces l s.ms = .ok () m →
      exec (.sw rs2 rs1 imm) s = .next { s with pc := cut s.cfg.sxlen (s.pc + 4), ms := m } ∧
      (∀ (l1 l2 : List (WalkCtx × Byte)) (c : WalkCtx) (b : Byte), l = l1 ++ (c, b) :: l2 →
        ∃ m1 pa m2, storePieces l1 s.ms = .ok () m1 ∧ reach c true 1 m1 = .ok pa m2 ∧
          (¬storePiecesWrite l2 { m2 with mem := Memory.writeBytes m2.mem pa [b] } pa → Memory.read m.mem pa = b)) ∧
      (∀ a, ¬storePiecesWrite l s.ms a → Memory.read m.mem a = Memory.read s.ms.mem a))

/-- However LW or SW ends in a next state, aligned or in pieces, no byte changes but those that `loadWrites` or `storeWrites`
names. Either it completes, and only `rd`, `pc` and the memory system change, or it takes an exception of its own access kind
and nothing changes but the memory system and what that exception changes (R127, R168, R231). That misaligned accesses are
split into bytes is log entry 18. -/
def Obligations.LoadStoreFrame : Prop :=
  (∀ (rd rs1 : RegId) (imm : BitVec 12) (s t : State), exec (.lw rd rs1 imm) s = .next t →
    (∀ a, ¬s.loadWrites (s.effectiveAddress rs1 imm) a → Memory.read t.ms.mem a = Memory.read s.ms.mem a) ∧
    ((∃ v, s.registersAfter t rd v ∧ t = { s with regs := t.regs, pc := cut s.cfg.sxlen (s.pc + 4), ms := t.ms }) ∨
      ∃ m cause info, t = { s with ms := m }.takeException cause info ∧
        cause ∈ [Cause.loadMisaligned, Cause.loadAccess, Cause.loadPage])) ∧
  (∀ (rs2 rs1 : RegId) (imm : BitVec 12) (s t : State), exec (.sw rs2 rs1 imm) s = .next t →
    (∀ a, ¬s.storeWrites (s.effectiveAddress rs1 imm) ((s.reg rs2).setWidth 32) a →
      Memory.read t.ms.mem a = Memory.read s.ms.mem a) ∧
    (t = { s with pc := cut s.cfg.sxlen (s.pc + 4), ms := t.ms } ∨
      ∃ m cause info, t = { s with ms := m }.takeException cause info ∧
        cause ∈ [Cause.storeMisaligned, Cause.storeAccess, Cause.storePage]))

/-- An aligned LW or SW whose translation or check raises takes that exception, of its own access kind and with the faulting
address; where misaligned accesses trap, an address that is no multiple of four raises code 4 or 6 with that address,
whatever its page allows (R127, R158, R327; that alignment comes first is the model's reading, log entry 32). Where they are
split, the exception is that of the first portion that fails, with that portion's own address, and the memory system as the
portions before it and its own translation left it (R83, R127; log entry 18). The bytes that a split SW stored before are in the
byte order of its effective privilege, that of privilege M PRESUMED (R121, R124; log entry 22). -/
def Obligations.FaultingAccessTraps : Prop :=
  (∀ (r rs1 : RegId) (imm : BitVec 12) (s : State) (p : Priv) (va : Word),
    p = (if s.inputs.mprv then s.mach.mpp else s.priv) →
    va = s.narrow p (s.effectiveAddress rs1 imm) → va.toNat % 4 ≠ 0 → s.cfg.misaligned = .trap →
    exec (.lw r rs1 imm) s = .next (s.takeException .loadMisaligned va) ∧
    exec (.sw r rs1 imm) s = .next (s.takeException .storeMisaligned va)) ∧
  (∀ (rd rs1 : RegId) (imm : BitVec 12) (s : State) (p : Priv) (c : WalkCtx) (cause : Cause) (info : Word) (m : MemSys),
    p = (if s.inputs.mprv then s.mach.mpp else s.priv) →
    c = s.walkCtx (s.effectiveAddress rs1 imm) .load p → c.va.toNat % 4 = 0 →
    reach c false 4 s.ms = .exc cause info m →
    exec (.lw rd rs1 imm) s = .next ({ s with ms := m }.takeException cause info) ∧
      (cause = .loadPage ∨ cause = .loadAccess) ∧ info = c.va) ∧
  (∀ (rs2 rs1 : RegId) (imm : BitVec 12) (s : State) (p : Priv) (c : WalkCtx) (cause : Cause) (info : Word) (m : MemSys),
    p = (if s.inputs.mprv then s.mach.mpp else s.priv) →
    c = s.walkCtx (s.effectiveAddress rs1 imm) .store p → c.va.toNat % 4 = 0 →
    reach c false 4 s.ms = .exc cause info m →
    exec (.sw rs2 rs1 imm) s = .next ({ s with ms := m }.takeException cause info) ∧
      (cause = .storePage ∨ cause = .storeAccess) ∧ info = c.va) ∧
  (∀ (rd rs1 : RegId) (imm : BitVec 12) (s : State) (p : Priv) (l : List WalkCtx) (up : Bool) (cause : Cause) (info : Word)
      (m : MemSys),
    p = (if s.inputs.mprv then s.mach.mpp else s.priv) →
    (s.narrow p (s.effectiveAddress rs1 imm)).toNat % 4 ≠ 0 → s.cfg.misaligned = .split up →
    l = inOrder up ((List.range 4).map (fun k => s.walkCtx (s.effectiveAddress rs1 imm + BitVec.ofNat 64 k) .load p)) →
    (loadPieces l s.ms = .exc cause info m ↔
      ∃ l1 c l2 bs1 m1, l = l1 ++ c :: l2 ∧ loadPieces l1 s.ms = .ok bs1 m1 ∧ reach c true 1 m1 = .exc cause info m) ∧
    ∀ (l1 l2 : List WalkCtx) (c : WalkCtx) (bs1 : List Byte) (m1 : MemSys), l = l1 ++ c :: l2 →
      loadPieces l1 s.ms = .ok bs1 m1 → reach c true 1 m1 = .exc cause info m →
      exec (.lw rd rs1 imm) s = .next ({ s with ms := m }.takeException cause info) ∧ info = c.va ∧
        cause ∈ [Cause.loadMisaligned, Cause.loadAccess, Cause.loadPage]) ∧
  (∀ (rs2 rs1 : RegId) (imm : BitVec 12) (s : State) (p : Priv) (big : Bool) (l : List (WalkCtx × Byte)) (up : Bool)
      (cause : Cause) (info : Word) (m : MemSys),
    p = (if s.inputs.mprv then s.mach.mpp else s.priv) →
    big = (match p with
      | .user => if s.cfg.ubeWritable then s.sstatus.ube else s.cfg.sBigEndian
      | .supervisor => s.cfg.sBigEndian
      | .machine => s.cfg.mBigEndian) →
    (s.narrow p (s.effectiveAddress rs1 imm)).toNat % 4 ≠ 0 → s.cfg.misaligned = .split up →
    l = inOrder up ((List.range 4).map (fun k =>
      (s.walkCtx (s.effectiveAddress rs1 imm + BitVec.ofNat 64 k) .store p,
        (s.reg rs2).extractLsb' (if big then 8 * (3 - k) else 8 * k) 8))) →
    (storePieces l s.ms = .exc cause info m ↔
      ∃ l1 c b l2 m1, l = l1 ++ (c, b) :: l2 ∧ storePieces l1 s.ms = .ok () m1 ∧ reach c true 1 m1 = .exc cause info m) ∧
    ∀ (l1 l2 : List (WalkCtx × Byte)) (c : WalkCtx) (b : Byte) (m1 : MemSys), l = l1 ++ (c, b) :: l2 →
      storePieces l1 s.ms = .ok () m1 → reach c true 1 m1 = .exc cause info m →
      exec (.sw rs2 rs1 imm) s = .next ({ s with ms := m }.takeException cause info) ∧ info = c.va ∧
        cause ∈ [Cause.storeMisaligned, Cause.storeAccess, Cause.storePage])

/-- Where LW and SW stop: device memory, unless PBMT=NC makes its page main memory, since its behaviour is outside the spec (R136;
that such an access stops the model is its own choice, log entry 17), and a location last accessed with other attributes without the
fence sequence, which is what two PBMT aliases of a page come to (R210, R211; that this stops the model is U32 of the spec's list,
log entry 16), and a walk that stops. The first clause says where reaching a piece stops, the next two what an aligned access
and the pieces of a split one make of it, the last what it comes to without translation. That a piece of a page with PBMT=IO may
raise first is log entry 19. The bytes of a split SW are in the byte order of its effective privilege, that of privilege M
PRESUMED (R121, R124; log entry 22). -/
def Obligations.LoadStoreStops : Prop :=
  (∀ (c : WalkCtx) (isPiece : Bool) (n : Nat) (ms : MemSys) (x : Stop), reach c isPiece n ms = .stop x ↔
    translate c ms = .stop x ∨
    ∃ pa mt m, translate c ms = .ok (pa, mt) m ∧
      (x = .refusal .deviceAccess ∧ pmaCheck c.cfg pa n c.acc c.epriv = .device ∧ mt ≠ .nc ∨
        x = .fault .incoherentTypes ∧
          (pmaCheck c.cfg pa n c.acc c.epriv = .ok ∨ pmaCheck c.cfg pa n c.acc c.epriv = .device ∧ mt = .nc) ∧
          (isPiece = false ∨ mt ≠ .io ∨ c.cfg.ioMisaligned = .perform) ∧ c.cfg.ext.svpbmt = true ∧
          ∃ k, k < n ∧ compatible (lookupAt .unseen m.types (pa + k)) (attributesOf c.cfg pa n mt) = false)) ∧
  (∀ (r rs1 : RegId) (imm : BitVec 12) (s : State) (p : Priv) (x : Stop),
    p = (if s.inputs.mprv then s.mach.mpp else s.priv) →
    (s.narrow p (s.effectiveAddress rs1 imm)).toNat % 4 = 0 →
    (reach (s.walkCtx (s.effectiveAddress rs1 imm) .load p) false 4 s.ms = .stop x → exec (.lw r rs1 imm) s = x.outcome) ∧
    (reach (s.walkCtx (s.effectiveAddress rs1 imm) .store p) false 4 s.ms = .stop x → exec (.sw r rs1 imm) s = x.outcome)) ∧
  (∀ (r rs1 : RegId) (imm : BitVec 12) (s : State) (p : Priv) (big up : Bool) (x : Stop),
    p = (if s.inputs.mprv then s.mach.mpp else s.priv) →
    big = (match p with
      | .user => if s.cfg.ubeWritable then s.sstatus.ube else s.cfg.sBigEndian
      | .supervisor => s.cfg.sBigEndian
      | .machine => s.cfg.mBigEndian) →
    (s.narrow p (s.effectiveAddress rs1 imm)).toNat % 4 ≠ 0 → s.cfg.misaligned = .split up →
    (∀ (l1 l2 : List WalkCtx) (c : WalkCtx) (bs1 : List Byte) (m1 : MemSys),
      inOrder up ((List.range 4).map (fun k => s.walkCtx (s.effectiveAddress rs1 imm + BitVec.ofNat 64 k) .load p)) =
        l1 ++ c :: l2 →
      loadPieces l1 s.ms = .ok bs1 m1 → reach c true 1 m1 = .stop x → exec (.lw r rs1 imm) s = x.outcome) ∧
    (∀ (l1 l2 : List (WalkCtx × Byte)) (c : WalkCtx) (b : Byte) (m1 : MemSys),
      inOrder up ((List.range 4).map (fun k => (s.walkCtx (s.effectiveAddress rs1 imm + BitVec.ofNat 64 k) .store p,
        (s.reg r).extractLsb' (if big then 8 * (3 - k) else 8 * k) 8))) = l1 ++ (c, b) :: l2 →
      storePieces l1 s.ms = .ok () m1 → reach c true 1 m1 = .stop x → exec (.sw r rs1 imm) s = x.outcome)) ∧
  ∀ (r rs1 : RegId) (imm : BitVec 12) (s : State) (p : Priv) (pa : Nat),
    p = (if s.inputs.mprv then s.mach.mpp else s.priv) → (p = .machine ∨ s.satp.mode = .bare) →
    pa = (s.narrow p (s.effectiveAddress rs1 imm)).toNat → pa % 4 = 0 →
    (pmaCheck s.cfg pa 4 .load p = .device → exec (.lw r rs1 imm) s = .refused .deviceAccess) ∧
    (pmaCheck s.cfg pa 4 .store p = .device → exec (.sw r rs1 imm) s = .refused .deviceAccess) ∧
    (s.cfg.ext.svpbmt = true →
      (∃ k, k < 4 ∧ compatible (lookupAt .unseen s.ms.types (pa + k)) (attributesOf s.cfg pa 4 .pma) = false) →
      (pmaCheck s.cfg pa 4 .load p = .ok → exec (.lw r rs1 imm) s = .fault .incoherentTypes) ∧
      (pmaCheck s.cfg pa 4 .store p = .ok → exec (.sw r rs1 imm) s = .fault .incoherentTypes))

/-! ### CSR instructions -/

/-- CSRRW and CSRRWI on an accessible CSR: `rd` takes the value read before the write, the CSR takes the operand by its
write rule, and other registers, CSRs and memory stay. Every CSR but `satp` takes every value; where the write of `satp` has no
meaning, the instruction stops (R300 to R302, R305, R308). -/
def Obligations.CsrSwapResult : Prop :=
  ∀ (rd : RegId) (num : BitVec 12) (src : BitVec 5) (s r : State) (c : Csr), s.csrCheck num true = .ok c →
    r = (if rd = 0 then s else (s.readCsr c).2) →
    ∀ (i : Instr) (v : Word), (i, v) ∈ [(Instr.csrrw rd num src, s.reg src), (Instr.csrrwi rd num src, src.setWidth 64)] →
      (c ≠ .satp → ∃ t u, exec i s = .next t ∧ r.writeCsr c v = .ok u ∧ s.csrWritten t u rd c) ∧
      (∀ u, r.writeCsr c v = .ok u → ∃ t, exec i s = .next t ∧ s.csrWritten t u rd c) ∧
      (∀ x, r.writeCsr c v = .error x → exec i s = x.outcome)

/-- CSRRS, CSRRC, CSRRSI and CSRRCI with a nonzero source field on an accessible CSR: `rd` takes the old value, the CSR the old
value with the operand's bits set or cleared, and other registers, CSRs and memory stay. Every CSR but `satp` takes every
value; where the write of `satp` has no meaning, the instruction stops (R300, R301, R303, R304, R306, R307). -/
def Obligations.CsrSetClearResult : Prop :=
  ∀ (rd : RegId) (num : BitVec 12) (src : BitVec 5) (s : State) (c : Csr) (old : Word), src ≠ 0 →
    s.csrCheck num true = .ok c → old = (s.readCsr c).1 →
    ∀ (i : Instr) (v : Word),
      (i, v) ∈ [(Instr.csrrs rd num src, old ||| s.reg src), (Instr.csrrc rd num src, old &&& ~~~s.reg src),
        (Instr.csrrsi rd num src, old ||| src.setWidth 64), (Instr.csrrci rd num src, old &&& ~~~(src.setWidth 64))] →
      (c ≠ .satp → ∃ t u, exec i s = .next t ∧ (s.readCsr c).2.writeCsr c v = .ok u ∧ s.csrWritten t u rd c) ∧
      (∀ u, (s.readCsr c).2.writeCsr c v = .ok u → ∃ t, exec i s = .next t ∧ s.csrWritten t u rd c) ∧
      (∀ x, (s.readCsr c).2.writeCsr c v = .error x → exec i s = x.outcome)

/-- CSRRS, CSRRC, CSRRSI and CSRRCI with source field zero only read: the CSR is not written, no interrupt condition is
re-evaluated, and a read-only CSR is allowed (R300, R301, R303, R313). What a read gives: `stvec`, `sscratch` and `stval` as they
stand, `sepc` with bit 1 masked while IALIGN is 32 (R72), `scounteren`, `sip` and `sie` in their implemented bits (R57, R62, R67),
`scause` its Interrupt bit and code (R77), `senvcfg` its fields where their extensions are there (R90, R93), `satp` MODE, ASID and PPN
(R99, R100), `srmcfg` RCID and MCID (R110); what `sstatus` reads is O38. -/
def Obligations.CsrPureRead : Prop :=
  (∀ (rd : RegId) (num : BitVec 12) (s : State) (c : Csr), s.csrCheck num false = .ok c →
    ∀ i ∈ [Instr.csrrs rd num 0, Instr.csrrc rd num 0, Instr.csrrsi rd num 0, Instr.csrrci rd num 0],
      ∃ t, exec i s = .next t ∧ s.registersAfter t rd (s.readCsr c).1 ∧
        t = { (s.readCsr c).2 with regs := t.regs, pc := cut s.cfg.sxlen (s.pc + 4) } ∧
        s.supervisorAlike t ∧ t.recheck = s.recheck ∧ s.memoryAlike t) ∧
  ∀ (num : BitVec 12) (s : State) (c : Csr) (w : Word), s.csrCheck num false = .ok c → w = (s.readCsr c).1 →
    (num = 0x100 → c = .sstatus ∧ w = s.readSstatus) ∧
    (num = 0x105 → w = s.stvec) ∧ (num = 0x140 → w = s.sscratch) ∧ (num = 0x143 → w = s.stval) ∧
    (num = 0x141 → w = s.sepc &&& (if s.align16 then ~~~1#64 else ~~~3#64)) ∧
    (num = 0x106 → w = (s.scounteren &&& s.cfg.scounterenMask).setWidth 64) ∧
    (num = 0x144 → w = s.sip &&& sipBits s.cfg) ∧ (num = 0x104 → w = s.sie &&& sieWritable s.cfg) ∧
    (num = 0x142 → w.getLsbD (s.cfg.sxlen.bits - 1) = s.scause.interrupt ∧
      (∀ k, k < s.cfg.sxlen.bits - 1 → w.getLsbD k = s.scause.code.getLsbD k) ∧
      ∀ k, s.cfg.sxlen.bits ≤ k → w.getLsbD k = false) ∧
    (num = 0x10A → w.getLsbD 0 = (!(s.cfg.fiomReadOnly && !paged s.cfg) && s.senvcfg.fiom) ∧
      w.getLsbD 2 = (s.cfg.ext.zicfilp && s.senvcfg.lpe) ∧ w.getLsbD 3 = (s.cfg.ext.zicfiss && s.senvcfg.sse) ∧
      w.extractLsb' 4 2 = (if s.cfg.ext.zicbom then s.senvcfg.cbie else 0) ∧
      w.getLsbD 6 = (s.cfg.ext.zicbom && s.senvcfg.cbcfe) ∧ w.getLsbD 7 = (s.cfg.ext.zicboz && s.senvcfg.cbze) ∧
      w.extractLsb' 32 2 = (if s.cfg.sxlen = .rv64 ∧ s.cfg.ext.ssnpm = true then s.senvcfg.pmm else 0) ∧
      w &&& ~~~0x3000000FD#64 = 0) ∧
    (num = 0x180 →
      (s.cfg.sxlen = .rv64 → ∀ n, (s.satp.mode, n) ∈ [(Scheme.bare, 0#4), (.sv39, 8), (.sv48, 9), (.sv57, 10)] →
        w = n ++ s.satp.asid ++ s.satp.ppn) ∧
      (s.cfg.sxlen = .rv32 → ∀ n, (s.satp.mode, n) ∈ [(Scheme.bare, 0#1), (.sv32, 1)] →
        w = (n ++ s.satp.asid.setWidth 9 ++ s.satp.ppn.setWidth 22).setWidth 64)) ∧
    (num = 0x181 → w.extractLsb' 0 12 = s.srmcfg.rcid ∧ w.extractLsb' 16 12 = s.srmcfg.mcid ∧ w &&& ~~~0xFFF0FFF#64 = 0)

/-- Where a CSR instruction raises the illegal-instruction exception: a number above its mode, an unimplemented number, a write
of a read-only number, `satp` in S-mode with TVM, `srmcfg` below M-mode with the Smstateen bit clear, a counter in S-mode with
its `mcounteren` bit clear (R300, R309 to R311). That EVERY number outside the spec's list counts as unimplemented, and so is
illegal, is the model's choice, no rule of the spec: log entry 6 (PRESUMED, unsafe); it takes in the CSRs of F and V, on a hart
with F or V too. Where it stops: a machine-level number in M-mode, outside the spec (R6; log entry 6 as well). Both hold at a `pc`
that is not aligned too, the illegal instruction by R348, the stop by log entry 38. -/
def Obligations.CsrIllegalAccess : Prop :=
  ∀ (rd : RegId) (num : BitVec 12) (src : BitVec 5) (s : State), 32 ≤ s.cfg.ilen →
    ∀ (i : Instr) (isWrite : Bool),
      (i, isWrite) ∈ [(Instr.csrrw rd num src, true), (Instr.csrrwi rd num src, true), (Instr.csrrs rd num src, decide (src ≠ 0)),
        (Instr.csrrc rd num src, decide (src ≠ 0)), (Instr.csrrsi rd num src, decide (src ≠ 0)), (Instr.csrrci rd num src, decide (src ≠ 0))] →
      ((s.priv = .user ∧ num.extractLsb' 8 2 ≠ 0 ∨ s.priv = .supervisor ∧ 2 ≤ (num.extractLsb' 8 2).toNat ∨
          isWrite = true ∧ num.extractLsb' 10 2 = 3 ∨
          (num ∉ [0x100, 0x104, 0x105, 0x106, 0x10A, 0x140, 0x141, 0x142, 0x143, 0x144, 0x180, 0x181] ∧
            num.extractLsb' 5 7 ≠ 0b1100000 ∧ (num.extractLsb' 5 7 ≠ 0b1100100 ∨ s.cfg.sxlen = .rv64) ∧
            (s.priv ≠ .machine ∨ num.extractLsb' 8 2 ≠ 3)) ∨
          (num.extractLsb' 5 7 = 0b1100000 ∨ num.extractLsb' 5 7 = 0b1100100) ∧ s.priv = .supervisor ∧
            s.inputs.mcounteren.getLsbD (num.extractLsb' 0 5).toNat = false ∨
          num = 0x180 ∧ s.priv = .supervisor ∧ s.inputs.tvm = true ∨
          num = 0x181 ∧ s.cfg.ext.smstateen = true ∧ s.inputs.mstateen55 = false ∧ s.priv ≠ .machine ∨
          num = 0x181 ∧ s.cfg.ext.ssqosid = false) →
        exec i s = .next (s.takeException .illegal ((encode i).setWidth 64)) ∧ s.execute i = exec i s) ∧
      (s.priv = .machine → num.extractLsb' 8 2 = 3 → (isWrite = false ∨ num.extractLsb' 10 2 ≠ 3) →
        exec i s = .refused (.machineCsr num) ∧ s.execute i = exec i s)

/-- Writing `satp`: an unsupported MODE changes no field; Bare with a nonzero rest is UNSPECIFIED and stops; else MODE, the
implemented ASID bits and the implemented PPN bits take the written ones, and the ATC stays (R102 to R104, R108). That Bare with
a nonzero rest and the custom encodings stop the model is D16 and U3 of the spec (log entry 15). -/
def Obligations.SatpWrite : Prop :=
  ∀ (rs1 : RegId) (s : State) (w : Word), s.csrCheck 0x180 true = .ok .satp → w = s.reg rs1 →
    (s.cfg.sxlen = .rv64 →
      (w.extractLsb' 60 4 ∉ [0, 8, 9, 10] ∨ w.extractLsb' 60 4 = 8 ∧ s.cfg.sv39 = false ∨
          w.extractLsb' 60 4 = 9 ∧ s.cfg.sv48 = false ∨ w.extractLsb' 60 4 = 10 ∧ s.cfg.sv57 = false →
        exec (.csrrw 0 0x180 rs1) s = .next { s with pc := s.pc + 4 }) ∧
      (w.extractLsb' 60 4 = 0 → w.extractLsb' 0 60 ≠ 0 → exec (.csrrw 0 0x180 rs1) s = .fault .satpBareNonzero) ∧
      (∀ sch, (w = 0 ∧ sch = Scheme.bare ∨ w.extractLsb' 60 4 = 8 ∧ s.cfg.sv39 = true ∧ sch = .sv39 ∨
          w.extractLsb' 60 4 = 9 ∧ s.cfg.sv48 = true ∧ sch = .sv48 ∨ w.extractLsb' 60 4 = 10 ∧ s.cfg.sv57 = true ∧ sch = .sv57) →
        exec (.csrrw 0 0x180 rs1) s = .next { s with
          pc := s.pc + 4
          satp := { mode := sch, asid := w.extractLsb' 44 16 &&& BitVec.ofNat 16 (2 ^ s.cfg.asidLen - 1),
                    ppn := w.extractLsb' 0 44 &&& BitVec.ofNat 44 (2 ^ s.cfg.ppnLen - 1) } })) ∧
    (s.cfg.sxlen = .rv32 →
      (w.getLsbD 31 = true → s.cfg.sv32 = false →
        exec (.csrrw 0 0x180 rs1) s = .next { s with pc := cut .rv32 (s.pc + 4) }) ∧
      (w.getLsbD 31 = false → w.extractLsb' 0 31 ≠ 0 →
        exec (.csrrw 0 0x180 rs1) s =
          if w.extractLsb' 29 2 = 3 then .refused .customSatp else .fault .satpBareNonzero) ∧
      (∀ sch, (w = 0 ∧ sch = Scheme.bare ∨ w.getLsbD 31 = true ∧ s.cfg.sv32 = true ∧ sch = .sv32) →
        exec (.csrrw 0 0x180 rs1) s = .next { s with
          pc := cut .rv32 (s.pc + 4)
          satp := { mode := sch, asid := (w.extractLsb' 22 9).setWidth 16 &&& BitVec.ofNat 16 (2 ^ s.cfg.asidLen - 1),
                    ppn := (w.extractLsb' 0 22).setWidth 44 &&& BitVec.ofNat 44 (2 ^ s.cfg.ppnLen - 1) } }))

/-- What `sstatus` reads: each field at its place, UBE, SUM, SPELP, SDT, FS, VS, XS and UXL as their own rules let them read, SD
where a context field is Dirty, and zero elsewhere. Writing it: SIE can be set only where SDT is written 0, each field takes its
bit by its own rule, and nothing else of the state changes but `pc` and the re-evaluation of interrupts (R25, R26, R31, R35 to
R38, R41 to R43). That an illegal UXL leaves the field is the model's choice (log entry 21), and that FS, VS and XS hold every
written value is its reading (log entry 25). -/
def Obligations.SstatusReadAndWrite : Prop :=
  (∀ (s : State) (w : Word), w = s.readSstatus →
    w.getLsbD 1 = s.sstatus.sie ∧ w.getLsbD 5 = s.sstatus.spie ∧
    w.getLsbD 6 = (if s.cfg.ubeWritable then s.sstatus.ube else s.cfg.sBigEndian) ∧ w.getLsbD 8 = s.sstatus.spp ∧
    w.extractLsb' 9 2 = (if s.cfg.ext.v then s.sstatus.vs else 0) ∧
    w.extractLsb' 13 2 = (if s.cfg.ext.f then s.sstatus.fs else 0) ∧
    w.extractLsb' 15 2 = (if s.cfg.ext.x then s.sstatus.xs else 0) ∧
    w.getLsbD 18 = ((s.cfg.sv32 || s.cfg.sv39 || s.cfg.sv48 || s.cfg.sv57) && s.sstatus.sum) ∧
    w.getLsbD 19 = s.sstatus.mxr ∧ w.getLsbD 23 = (s.cfg.ext.zicfilp && s.sstatus.spelp) ∧
    w.getLsbD 24 = (s.cfg.ext.ssdbltrp && s.sstatus.sdt) ∧
    (s.cfg.sxlen = .rv64 → w.extractLsb' 32 2 =
      match s.cfg.uxl with
      | .same => 2
      | .narrow => 1
      | .writable => s.sstatus.uxl) ∧
    w.getLsbD (s.cfg.sxlen.bits - 1) =
      decide (w.extractLsb' 9 2 = 3 ∨ w.extractLsb' 13 2 = 3 ∨ w.extractLsb' 15 2 = 3) ∧
    w &&& ~~~(match s.cfg.sxlen with | .rv32 => 0x818DE762#64 | .rv64 => 0x80000003018DE762#64) = 0) ∧
  ∀ (rs1 : RegId) (s : State) (w : Word), s.priv ≠ .user → w = s.reg rs1 →
    ∃ t, exec (.csrrw 0 0x100 rs1) s = .next t ∧
      t.sstatus.sie = (w.getLsbD 1 && !(s.cfg.ext.ssdbltrp && w.getLsbD 24)) ∧
      t.sstatus.sdt = (s.cfg.ext.ssdbltrp && w.getLsbD 24) ∧
      t.sstatus.spie = w.getLsbD 5 ∧ t.sstatus.spp = w.getLsbD 8 ∧ t.sstatus.mxr = w.getLsbD 19 ∧
      t.sstatus.spelp = (s.cfg.ext.zicfilp && w.getLsbD 23) ∧
      t.readSstatus.getLsbD 18 = ((s.cfg.sv32 || s.cfg.sv39 || s.cfg.sv48 || s.cfg.sv57) && w.getLsbD 18) ∧
      t.readSstatus.getLsbD 6 = (if s.cfg.ubeWritable then w.getLsbD 6 else s.cfg.sBigEndian) ∧
      t.readSstatus.extractLsb' 13 2 = (if s.cfg.ext.f then w.extractLsb' 13 2 else 0) ∧
      t.readSstatus.extractLsb' 9 2 = (if s.cfg.ext.v then w.extractLsb' 9 2 else 0) ∧
      t.readSstatus.extractLsb' 15 2 = (if s.cfg.ext.x then w.extractLsb' 15 2 else 0) ∧
      (s.cfg.sxlen = .rv64 → s.cfg.uxl = .writable → t.readSstatus.extractLsb' 32 2 =
        (if w.extractLsb' 32 2 = 1 ∨ w.extractLsb' 32 2 = 2 then w.extractLsb' 32 2 else s.readSstatus.extractLsb' 32 2)) ∧
      (s.cfg.uxl ≠ .writable → t.readSstatus.extractLsb' 32 2 = s.readSstatus.extractLsb' 32 2) ∧
      t = { s with sstatus := t.sstatus, pc := cut s.cfg.sxlen (s.pc + 4), recheck := true }

/-- SEIP and STIP are read-only in `sip` and driven by the environment where implemented; with SEIE and STIE they make the
external and the timer interrupt takeable (R58, R59). -/
def Obligations.SeipAndStipBelongToTheEnvironment : Prop :=
  ∀ (s : State) (n : Nat) (b : Bool) (a : EnvAction), (n = 9 ∧ a = .setSei b ∨ n = 5 ∧ a = .setSti b) →
    (∀ w : Word, (s.writeSip w).readSip.getLsbD n = s.readSip.getLsbD n) ∧
    (s.act a).readSip.getLsbD n = ((if n = 9 then s.cfg.implSei else s.cfg.implSti) && b) ∧
    s.takeable n = (s.interruptsEnabled && s.readSip.getLsbD n && s.readSie.getLsbD n) ∧
    ((if n = 9 then s.cfg.implSei else s.cfg.implSti) = true → ∀ w : Word, (s.writeSie w).readSie.getLsbD n = w.getLsbD n)

/-- A bit of `sie` is writable where its interrupt can become pending; a bit that is not writable reads zero and stays so
(R57). -/
def Obligations.SieWritability : Prop :=
  (∀ (s : State) (i : Nat), s.readSip.getLsbD i = true → (sieWritable s.cfg).getLsbD i = true) ∧
  (∀ (rs1 : RegId) (s : State), s.priv ≠ .user → ∃ t, exec (.csrrw 0 0x104 rs1) s = .next t ∧
    t = { s with sie := t.sie, pc := cut s.cfg.sxlen (s.pc + 4), recheck := true } ∧
    ∀ i, t.readSie.getLsbD i = ((sieWritable s.cfg).getLsbD i && (s.reg rs1).getLsbD i)) ∧
  (∀ (s : State) (i : Nat), (sieWritable s.cfg).getLsbD i = false → s.readSie.getLsbD i = false)

/-- A write of `sip` changes exactly the bits of SIP_WRITABLE: SSIP where software interrupts are implemented, LCOFIP with
Sscofpmf, and from bit 16 up, within SXLEN, the bits of implemented platform interrupts that the platform makes writable; no
other bit is writable, STIP and SEIP among them. A bit that is not implemented is not writable (R56, R60 to R62). -/
def Obligations.SipWrite : Prop :=
  ∀ (rs1 : RegId) (s : State), s.priv ≠ .user → ∃ t, exec (.csrrw 0 0x144 rs1) s = .next t ∧
    (∀ i, t.sip.getLsbD i = if (sipWritable s.cfg).getLsbD i then (s.reg rs1).getLsbD i else s.sip.getLsbD i) ∧
    (sipWritable s.cfg).getLsbD 1 = s.cfg.implSsi ∧ (sipWritable s.cfg).getLsbD 13 = s.cfg.ext.sscofpmf ∧
    (∀ i, 16 ≤ i → (sipWritable s.cfg).getLsbD i =
      (decide (i < s.cfg.sxlen.bits) && s.cfg.platformIrqs.getLsbD i && s.cfg.sipPlatform.getLsbD i)) ∧
    (∀ i, (sipWritable s.cfg).getLsbD i = true → (sipBits s.cfg).getLsbD i = true ∧ (i = 1 ∨ i = 13 ∨ 16 ≤ i)) ∧
    t = { s with sip := t.sip, pc := cut s.cfg.sxlen (s.pc + 4), recheck := true }

/-- On a hart that does not always have IALIGN 32, every read of `sepc`, SRET's too, gives it with bit 1 masked while IALIGN is 32 and
as it is while IALIGN is 16; bit 1 stays writable (R72). -/
def Obligations.SepcMaskedRead : Prop :=
  ∀ (s : State) (m : Word), s.cfg.ialign ≠ .fixed32 → s.priv ≠ .user → m = (if s.align16 then ~~~1#64 else ~~~3#64) →
    (∀ (rd : RegId) (src : BitVec 5), rd ≠ 0 →
      ∀ i ∈ [Instr.csrrw rd 0x141 src, Instr.csrrs rd 0x141 src, Instr.csrrc rd 0x141 src, Instr.csrrwi rd 0x141 src,
          Instr.csrrsi rd 0x141 src, Instr.csrrci rd 0x141 src],
        ∃ t, exec i s = .next t ∧ t.reg rd = cut s.cfg.sxlen (s.sepc &&& m)) ∧
    (s.sretPermitted = true → ∃ t, exec .sret s = .next t ∧ t.pc = s.sepc &&& m) ∧
    (∀ rs1 : RegId, vaValid s.satp.mode (cut s.cfg.sxlen (s.reg rs1)) = true →
      ∃ t, exec (.csrrw 0 0x141 rs1) s = .next t ∧ t.sepc.getLsbD 1 = (s.reg rs1).getLsbD 1 ∧ t.sepc.getLsbD 0 = false)

/-- The other CSRs hold what is written to them by their own rules: `sscratch` all bits, `stvec` BASE masked and MODE where
supported, `scounteren` and `srmcfg` their implemented bits, `sepc` and `stval` every valid address, `scause` every code it
can hold, `senvcfg` its fields, zero without their extensions (R45 to R48, R67, R68, R73, R74, R79, R88, R91, R93, R110). `stval` also holds every value below 2^N, N
the smaller of SXLEN and ILEN, where faulting instruction bits are reported (R88). FIOM is writable but where the hart has Bare
alone and makes it read-only zero (R92). That with their extensions CBCFE and CBZE take every value and CBIE every value but the
reserved one, and never that one, is the model's choice, since R93 leaves the fields to these extensions (log entry 24). -/
def Obligations.OtherCsrWrites : Prop :=
  ∀ (rs1 : RegId) (s : State) (w pc : Word), s.priv ≠ .user → w = s.reg rs1 → pc = cut s.cfg.sxlen (s.pc + 4) →
    exec (.csrrw 0 0x140 rs1) s = .next { s with sscratch := w, pc := pc } ∧
    (∃ t, exec (.csrrw 0 0x105 rs1) s = .next t ∧ t = { s with stvec := t.stvec, pc := pc } ∧
      t.stvec &&& ~~~3#64 = w &&& s.cfg.stvecBaseMask &&& ~~~3#64 ∧
      t.stvec &&& 3#64 =
        if w &&& 3 = 0 ∧ s.cfg.stvecDirect = true ∨ w &&& 3 = 1 ∧ s.cfg.stvecVectored = true then w &&& 3 else s.stvec &&& 3) ∧
    exec (.csrrw 0 0x106 rs1) s = .next { s with scounteren := w.setWidth 32 &&& s.cfg.scounterenMask, pc := pc } ∧
    (vaValid s.satp.mode w = true →
      exec (.csrrw 0 0x141 rs1) s =
        .next { s with sepc := w &&& (if s.cfg.ialign = .fixed32 then ~~~3#64 else ~~~1#64), pc := pc }) ∧
    (vaValid s.satp.mode w = true ∨ tvalPolicy s.cfg 2 ≠ .zero ∧ w.toNat < 2 ^ min s.cfg.sxlen.bits s.cfg.ilen →
      exec (.csrrw 0 0x143 rs1) s = .next { s with stval := w, pc := pc }) ∧
    (∃ t, exec (.csrrw 0 0x142 rs1) s = .next t ∧ t = { s with scause := t.scause, pc := pc } ∧
      t.scause.interrupt = w.getLsbD (s.cfg.sxlen.bits - 1) ∧
      (s.cfg.scauseCodeBits < s.cfg.sxlen.bits →
        ((w &&& lowBits (s.cfg.sxlen.bits - 1)).toNat < 2 ^ s.cfg.scauseCodeBits →
          t.scause.code = w &&& lowBits (s.cfg.sxlen.bits - 1)) ∧
        t.scause.code.toNat < 2 ^ s.cfg.scauseCodeBits)) ∧
    (∃ t, exec (.csrrw 0 0x10A rs1) s = .next t ∧ t = { s with senvcfg := t.senvcfg, pc := pc } ∧
      (s.cfg.fiomReadOnly = false ∨ paged s.cfg = true → t.fiomOn = w.getLsbD 0) ∧
      t.senvcfg.lpe = (s.cfg.ext.zicfilp && w.getLsbD 2) ∧ t.senvcfg.sse = (s.cfg.ext.zicfiss && w.getLsbD 3) ∧
      t.senvcfg.cbcfe = (s.cfg.ext.zicbom && w.getLsbD 6) ∧ t.senvcfg.cbze = (s.cfg.ext.zicboz && w.getLsbD 7) ∧
      (s.cfg.ext.zicbom = true → w.extractLsb' 4 2 ≠ 2 → t.senvcfg.cbie = w.extractLsb' 4 2) ∧
      (s.cfg.ext.zicbom = true → t.senvcfg.cbie ≠ 2) ∧ (s.cfg.ext.zicbom = false → t.senvcfg.cbie = 0) ∧
      (s.cfg.ext.ssnpm = false → t.senvcfg.pmm = 0)) ∧
    (s.cfg.ext.ssqosid = true → (s.cfg.ext.smstateen = false ∨ s.inputs.mstateen55 = true ∨ s.priv = .machine) →
      exec (.csrrw 0 0x181 rs1) s = .next { s with
        srmcfg := { rcid := w.extractLsb' 0 12 &&& BitVec.ofNat 12 (2 ^ s.cfg.rcidLen - 1),
                    mcid := w.extractLsb' 16 12 &&& BitVec.ofNat 12 (2 ^ s.cfg.mcidLen - 1) }
        pc := pc })

/-- A counter, and with SXLEN=32 its upper half, is readable in U-mode exactly where its bit is set in both `scounteren` and
`mcounteren`, else the read is an illegal instruction; writing `scounteren` does not depend on `mcounteren` (R66, R310). What `rd`
takes is the counter's value, never less than the last one (R380), and that it is a free value is the model's choice (log entry
14). -/
def Obligations.CounterAccessFromUserMode : Prop :=
  (∀ (rd : RegId) (n : BitVec 5) (s : State) (num : BitVec 12) (v : Word), s.priv = .user → 32 ≤ s.cfg.ilen →
    (num = 0b1100000#7 ++ n ∧ v = cut s.cfg.sxlen (s.counterNow n) ∨
      num = 0b1100100#7 ++ n ∧ s.cfg.sxlen = .rv32 ∧ v = s.counterNow n >>> 32) →
    ∀ i ∈ [Instr.csrrs rd num 0, Instr.csrrc rd num 0, Instr.csrrsi rd num 0, Instr.csrrci rd num 0],
      ((s.scounterenOn.getLsbD n.toNat = true ∧ s.inputs.mcounteren.getLsbD n.toNat = true) →
        ∃ t, exec i s = .next t ∧ t.priv = .user ∧ s.registersAfter t rd v) ∧
      ((s.scounterenOn.getLsbD n.toNat = false ∨ s.inputs.mcounteren.getLsbD n.toNat = false) →
        exec i s = .next (s.takeException .illegal ((encode i).setWidth 64)))) ∧
  (∀ (rs1 : RegId) (s : State) (m : MachineInputs), s.priv ≠ .user → m = { s.inputs with mcounteren := m.mcounteren } →
    ∃ t u, exec (.csrrw 0 0x106 rs1) s = .next t ∧ exec (.csrrw 0 0x106 rs1) { s with inputs := m } = .next u ∧
      t.scounteren = u.scounteren)

/-- A counter read never gives less than the value last read or set, and keeps what it gave for the next read (R380; that the
value is a free one is the model's form, log entry 14). -/
def Obligations.CountersNeverDecrease : Prop :=
  ∀ (s : State) (n : BitVec 5),
    (s.counters[n.toNat]'(n.isLt)).toNat ≤ (s.counterNow n).toNat ∧
    ((s.countRead n).counters[n.toNat]'(n.isLt)) = s.counterNow n ∧
    (∀ k : BitVec 5, k ≠ n → (s.countRead n).counters[k.toNat]'(k.isLt) = s.counters[k.toNat]'(k.isLt)) ∧
    (s.counterNow n).toNat ≤ ((s.countRead n).counterNow n).toNat

/-! ### SFENCE.VMA, Svinval, FENCE -/

/-- SFENCE.VMA where it is legal and its address is valid completes: of the entries, exactly those stay that neither it nor a
pending SINVAL.VMA selects; the four operand cases say which it selects. Every walk under way gets these requests among its
fences and changes in nothing else; no entry is added, PendingInval is empty, and nothing else but `pc` changes (R262 to R264,
R266, R286). That no further entry is removed here is the model's choice (log entry 33). -/
def Obligations.SfenceVmaResult : Prop :=
  ∀ (rs1 rs2 : RegId) (s : State) (q : FenceRequest), s.fencePermitted = true →
    (s.cfg.sfenceIllegalBare = false ∨ paged s.cfg = true) → (rs1 = 0 ∨ vaValid s.satp.mode (s.reg rs1) = true) →
    q = { va := if rs1 = 0 then none else some (s.reg rs1),
          asid := if rs2 = 0 then none else some (asidOperand s.cfg (s.reg rs2)) } →
    ∃ t, exec (.sfenceVma rs1 rs2) s = .next t ∧
      (∀ e, e ∈ t.ms.atc ↔ e ∈ s.ms.atc ∧ (∀ p ∈ s.pendingInval, p.hits e = false) ∧
        ¬((rs1 = 0 ∨ vpnFrom e.scheme e.level (s.reg rs1) = e.vpn ∧ (pteV e.pte = false ∨ pteR e.pte ∨ pteW e.pte ∨ pteX e.pte)) ∧
          (rs2 = 0 ∨ e.asid = asidOperand s.cfg (s.reg rs2) ∧ e.isGlobal = false))) ∧
      (rs1 = 0 → rs2 = 0 → t.ms.atc = []) ∧
      t = { s with
        pc := cut s.cfg.sxlen (s.pc + 4)
        pendingInval := []
        walks := s.walks.map (fun w => { w with fences := q :: (s.pendingInval.reverse ++ w.fences) })
        ms := { s.ms with atc := t.ms.atc } }

/-- With an address operand that is no valid virtual address, SFENCE.VMA and SINVAL.VMA raise nothing and select no entry of
their own (R275; for SINVAL.VMA R282 and R292, which the spec marks as its inference). SFENCE.VMA first retires every pending
request, as R286 says (that this holds for an invalid address too is log entry 42; that no further entry is removed is log entry
33): with none pending it moves `pc` only, as SINVAL.VMA does. -/
def Obligations.FenceOfInvalidAddress : Prop :=
  ∀ (rs1 rs2 : RegId) (s : State), s.fencePermitted = true → (s.cfg.sfenceIllegalBare = false ∨ paged s.cfg = true) →
    rs1 ≠ 0 → vaValid s.satp.mode (s.reg rs1) = false →
    (∃ t, exec (.sfenceVma rs1 rs2) s = .next t ∧
      (∀ e, e ∈ t.ms.atc ↔ e ∈ s.ms.atc ∧ ∀ q ∈ s.pendingInval, q.hits e = false) ∧
      t = { s with
        pc := cut s.cfg.sxlen (s.pc + 4)
        pendingInval := []
        walks := s.walks.map (fun w => { w with fences := s.pendingInval.reverse ++ w.fences })
        ms := { s.ms with atc := t.ms.atc } }) ∧
    (s.pendingInval = [] → exec (.sfenceVma rs1 rs2) s = .next { s with pc := cut s.cfg.sxlen (s.pc + 4) }) ∧
    (s.cfg.ext.svinval = true → exec (.sinvalVma rs1 rs2) s = .next { s with pc := cut s.cfg.sxlen (s.pc + 4) })

/-- Where SRET, SFENCE.VMA and Svinval raise the illegal-instruction exception, with their own bits as trap value: all of them
in U-mode, SFENCE.VMA and SINVAL.VMA in S-mode with TVM, SRET in S-mode with TSR, Svinval's where it is absent, SFENCE.VMA and
SINVAL.VMA on a hart with Bare alone that so chooses (R253, R274, R276, R280, R289; that SINVAL.VMA follows SFENCE.VMA in the
last case is log entry 41). They do so at a `pc` that is not aligned too (R348). -/
def Obligations.PrivilegedInstructionsTrap : Prop :=
  ∀ (rs1 rs2 : RegId) (s : State), 32 ≤ s.cfg.ilen →
    (s.priv = .user ∨ s.priv = .supervisor ∧ s.inputs.tsr = true →
      exec .sret s = .next (s.takeException .illegal 0x10200073) ∧ s.execute .sret = exec .sret s) ∧
    (s.priv = .user ∨ s.priv = .supervisor ∧ s.inputs.tvm = true ∨ s.cfg.sfenceIllegalBare = true ∧ paged s.cfg = false →
      exec (.sfenceVma rs1 rs2) s = .next (s.takeException .illegal ((encode (.sfenceVma rs1 rs2)).setWidth 64)) ∧
      s.execute (.sfenceVma rs1 rs2) = exec (.sfenceVma rs1 rs2) s) ∧
    (s.cfg.ext.svinval = false ∨ s.priv = .user ∨ s.priv = .supervisor ∧ s.inputs.tvm = true ∨
        s.cfg.sfenceIllegalBare = true ∧ paged s.cfg = false →
      exec (.sinvalVma rs1 rs2) s = .next (s.takeException .illegal ((encode (.sinvalVma rs1 rs2)).setWidth 64)) ∧
      s.execute (.sinvalVma rs1 rs2) = exec (.sinvalVma rs1 rs2) s) ∧
    (s.cfg.ext.svinval = false ∨ s.priv = .user →
      exec .sfenceWInval s = .next (s.takeException .illegal 0x18000073) ∧
      exec .sfenceInvalIr s = .next (s.takeException .illegal 0x18100073) ∧
      ∀ i ∈ [Instr.sfenceWInval, Instr.sfenceInvalIr], s.execute i = exec i s)

/-- HINVAL.VVMA and HINVAL.GVMA raise the illegal-instruction exception in every mode, the hypervisor extension being absent
(R287, R288), at a `pc` that is not aligned too (R348). -/
def Obligations.HinvalIsIllegal : Prop :=
  ∀ (rs1 rs2 : RegId) (s : State), 32 ≤ s.cfg.ilen →
    exec (.hinvalVvma rs1 rs2) s =
      .next (s.takeException .illegal (0x26000073#64 ||| rs2.setWidth 64 <<< 20 ||| rs1.setWidth 64 <<< 15)) ∧
    exec (.hinvalGvma rs1 rs2) s =
      .next (s.takeException .illegal (0x66000073#64 ||| rs2.setWidth 64 <<< 20 ||| rs1.setWidth 64 <<< 15)) ∧
    ∀ i ∈ [Instr.hinvalVvma rs1 rs2, Instr.hinvalGvma rs1 rs2], s.execute i = exec i s

/-- SINVAL.VMA where it is legal and its address is valid only records its request: no ATC entry goes, PendingInval has the
request and what it had, and nothing else but `pc` changes (R281 to R283). On a simple implementation it does what SFENCE.VMA
does, and leaves PendingInval empty (R281, R290). -/
def Obligations.SinvalVmaRecords : Prop :=
  ∀ (rs1 rs2 : RegId) (s : State), s.cfg.ext.svinval = true → s.fencePermitted = true →
    (s.cfg.sfenceIllegalBare = false ∨ paged s.cfg = true) → (rs1 = 0 ∨ vaValid s.satp.mode (s.reg rs1) = true) →
    (s.cfg.svinvalEager = false → ∃ t, exec (.sinvalVma rs1 rs2) s = .next t ∧
      (∀ q, q ∈ t.pendingInval ↔ q ∈ s.pendingInval ∨
        q = { va := if rs1 = 0 then none else some (s.reg rs1),
              asid := if rs2 = 0 then none else some (asidOperand s.cfg (s.reg rs2)) }) ∧
      t = { s with pc := cut s.cfg.sxlen (s.pc + 4), pendingInval := t.pendingInval }) ∧
    (s.cfg.svinvalEager = true → ∃ t, exec (.sinvalVma rs1 rs2) s = .next t ∧
      exec (.sfenceVma rs1 rs2) s = .next t ∧ t.pendingInval = [])

/-- SFENCE.W.INVAL above U-mode moves `pc` only; SFENCE.INVAL.IR above U-mode removes what every pending request selects, puts
these requests among the fences of every walk under way, and empties PendingInval, whatever TVM is; with none pending it moves
`pc` only (R266, R284, R285, R289, R290). That SFENCE.INVAL.IR removes no further entry is the model's choice (log entry 33). -/
def Obligations.SfenceInvalResults : Prop :=
  ∀ s : State, s.cfg.ext.svinval = true → s.priv ≠ .user →
    exec .sfenceWInval s = .next { s with pc := cut s.cfg.sxlen (s.pc + 4) } ∧
    (s.pendingInval = [] → exec .sfenceInvalIr s = .next { s with pc := cut s.cfg.sxlen (s.pc + 4) }) ∧
    ∃ t, exec .sfenceInvalIr s = .next t ∧
      (∀ e, e ∈ t.ms.atc ↔ e ∈ s.ms.atc ∧ ∀ q ∈ s.pendingInval, q.hits e = false) ∧
      t = { s with
        pc := cut s.cfg.sxlen (s.pc + 4)
        pendingInval := []
        walks := s.walks.map (fun w => { w with fences := s.pendingInval.reverse ++ w.fences })
        ms := { s.ms with atc := t.ms.atc } }

/-- SFENCE.W.INVAL, SINVAL.VMA, SFENCE.INVAL.IR in a row end as SFENCE.VMA with the same operands does, but for `pc`: the same
ATC, the same pending requests, in-flight walks bound by the same fences, everything else the same (R286). Two
clauses are the model's choice: that it is so for an invalid address operand too, where SFENCE.VMA retires the pending requests
although R275 gives it no effect (DEDUCED, unsafe: log entry 42), and that the two ATCs are equal, since each side removes exactly
its set and no further entry (log entry 33). -/
def Obligations.SvinvalSequenceIsSfenceVma : Prop :=
  ∀ (rs1 rs2 : RegId) (s a b c d : State), s.fencePermitted = true → s.cfg.ext.svinval = true →
    exec .sfenceWInval s = .next a → exec (.sinvalVma rs1 rs2) a = .next b → exec .sfenceInvalIr b = .next c →
    exec (.sfenceVma rs1 rs2) s = .next d → (s.cfg.sfenceIllegalBare = false ∨ paged s.cfg = true) →
    c = { d with pc := cut s.cfg.sxlen (cut s.cfg.sxlen (cut s.cfg.sxlen (s.pc + 4) + 4) + 4), walks := c.walks } ∧
    c.walks.map (fun w => { w with fences := [] }) = d.walks.map (fun w => { w with fences := [] }) ∧
    (∀ (n : Nat) (w v : InflightWalk), c.walks[n]? = some w → d.walks[n]? = some v →
      ∀ q, q ∈ w.fences ↔ q ∈ v.fences)

/-- FENCE completes in every mode with every operand and changes no register, CSR or byte (R323). What it and CBO.FLUSH mark in
the record of attributes, the three stages of the sequence of R211, is the model's own (log entries 16, 44): a fence of all
accesses against all is the first stage and, after a flush, the last; a flush after a fence is the second, for every location of
its block. An access with other attributes than the last one goes on after any stage where both are non-cacheable, and after the
last stage always (R211). CBO.FLUSH takes a store's exception where a load at its address raises. -/
def Obligations.FenceResult : Prop :=
  (∀ (fm pred succ : BitVec 4) (rs1 rd : RegId) (s : State), ∃ t, exec (.fence fm pred succ rs1 rd) s = .next t ∧
    t = { s with pc := cut s.cfg.sxlen (s.pc + 4), ms := { s.ms with types := t.ms.types } } ∧
    (∀ a, lookupAt .unseen t.ms.types a =
      match lookupAt .unseen s.ms.types a with
      | .unseen => .unseen
      | .seen last since => .seen last
        (if s.fenceSet pred = 15 ∧ s.fenceSet succ = 15 then
          (if since = .nothing then .fenced else if since = .flushed then .synced else since) else since))) ∧
  (∀ (rs1 : RegId) (s : State) (p : Priv) (c : WalkCtx), p = (if s.inputs.mprv then s.mach.mpp else s.priv) →
    c = s.walkCtx (s.reg rs1) .load p →
    (∀ (pa : Nat) (mt : MemType) (m : MemSys), locate c 1 s.ms = .ok (pa, mt) m →
      ∃ t, s.flushBlock rs1 = .next t ∧
        t = { s with pc := cut s.cfg.sxlen (s.pc + 4), ms := { m with types := t.ms.types } } ∧
        (∀ a, ¬inStoredPte c s.ms a → Memory.read t.ms.mem a = Memory.read s.ms.mem a) ∧
        ∀ a, lookupAt .unseen t.ms.types a =
          match lookupAt .unseen m.types a with
          | .unseen => .unseen
          | .seen last since => .seen last
            (if a / s.cfg.cacheBlock = pa / s.cfg.cacheBlock ∧ since = .fenced then .flushed else since)) ∧
    (∀ (cause : Cause) (info : Word) (m : MemSys), locate c 1 s.ms = .exc cause info m →
      info = c.va ∧ ∃ e, (cause, e) ∈ [(Cause.loadPage, Cause.storePage), (.loadAccess, .storeAccess)] ∧
        s.flushBlock rs1 = .next ({ s with ms := m }.takeException e info)) ∧
    (∀ x, locate c 1 s.ms = .stop x → s.flushBlock rs1 = x.outcome)) ∧
  ∀ (before now : Attributes) (since : Since), compatible (.seen before since) now = true ↔
    before = now ∨ before.cacheable = false ∧ now.cacheable = false ∧ since ≠ .nothing ∨ since = .synced

/-- FENCE under FIOM: in U-mode with FIOM set, I implies R and O implies W in both sets; in any other mode, or with FIOM clear,
the sets are as written (R324). -/
def Obligations.FenceUnderFiom : Prop :=
  ∀ (s : State) (b : BitVec 4),
    (s.fenceSet b).getLsbD 3 = b.getLsbD 3 ∧ (s.fenceSet b).getLsbD 2 = b.getLsbD 2 ∧
    (s.priv = .user → s.fiomOn = true →
      (s.fenceSet b).getLsbD 1 = (b.getLsbD 1 || b.getLsbD 3) ∧ (s.fenceSet b).getLsbD 0 = (b.getLsbD 0 || b.getLsbD 2)) ∧
    ((s.priv ≠ .user ∨ s.fiomOn = false) → s.fenceSet b = b)

/-! ### Address translation -/

/-- A virtual address is valid exactly when its bits from the top usable one up are equal; translation of an invalid one
raises the page fault of its access kind, with that address, and reads and changes nothing (R145 to R147, R152, R158). -/
def Obligations.NonCanonicalAddressFaults : Prop :=
  ∀ (c : WalkCtx) (n : Nat) (ms : MemSys), (c.scheme, n) ∈ [(Scheme.sv39, 39), (.sv48, 48), (.sv57, 57)] →
    (vaValid c.scheme c.va = true ↔ ∀ k, n - 1 ≤ k → k < 64 → c.va.getLsbD k = c.va.getLsbD (n - 1)) ∧
    (vaValid c.scheme c.va = false →
      translate c ms = .exc (match c.acc with | .fetch => .instrPage | .load => .loadPage | .store => .storePage) c.va ms)

/-- A translation that succeeds under a page-based scheme ended at a leaf that its walk came to over pointers from the root, in
memory or in a matching entry of the cache: the physical address is that leaf's, and the leaf allows the access: U-mode only
with U=1, S-mode not on U=1 but by SUM and never for a fetch, R or MXR and X for a load, W for a store, X for a fetch; where
hardware does not set A and D they are set. A translation that raises does so with its own address: for an address that is not
valid, or at a PTE that its walk came to and that steps 3 to 7 refuse, or where a PTE's own check denies the read (R148 to
R158, R165 to R171). Which entries match is log entry 8, and that the read of a PTE is checked as a load of S-mode is log entry
40. An access takes the scheme, the ASID and the root from `satp`, no scheme in M-mode, its address at the width of its mode, SUM
and MXR from `sstatus`, and the A/D scheme from ADUE where Svadu is there (R34, R35, R107, R140, R151, R182; that M-mode has the
width of S-mode is log entry 21). -/
def Obligations.TranslationSound : Prop :=
  (∀ (s : State) (va : Word) (acc : Access) (p : Priv), s.walkCtx va acc p =
    { cfg := s.cfg
      scheme := if p = .machine then .bare else s.satp.mode
      asid := s.satp.asid
      root := s.satp.ppn.toNat
      va := if s.cfg.sxlen = .rv32 ∨ p = .user ∧ (s.cfg.uxl = .narrow ∨ s.cfg.uxl = .writable ∧ s.sstatus.uxl = 1) then
        (va.setWidth 32).setWidth 64 else va
      acc := acc
      epriv := p
      sum := (s.cfg.sv32 || s.cfg.sv39 || s.cfg.sv48 || s.cfg.sv57) && s.sstatus.sum
      mxr := s.sstatus.mxr
      hwAd := if s.cfg.ext.svadu then s.inputs.adue else s.cfg.hwAd }) ∧
  ∀ (c : WalkCtx) (ms : MemSys), c.scheme ≠ .bare →
    (∀ (ms' : MemSys) (pa : Nat) (mt : MemType), translate c ms = .ok (pa, mt) ms' →
      vaValid c.scheme c.va = true ∧ pa % 4096 = c.va.toNat % 4096 ∧
      ∃ (i base : Nat) (pte : Word) (u : Bool),
        walkReaches c ms (c.scheme.levels - 1) (c.root * 4096) i base ∧ pteSource c ms i (pteAddress c i base) pte ∧
        levelResult c i (pteAddress c i base) pte = .leaf pa mt u ∧ pa = leafAddress c.scheme i pte c.va ∧
        pteV pte = true ∧ (pteW pte = true → pteR pte = true) ∧
        (c.epriv = .user → pteU pte = true) ∧
        (c.epriv = .supervisor → pteU pte = true → c.acc ≠ .fetch ∧ c.sum = true) ∧
        (c.acc = .fetch → pteX pte = true) ∧ (c.acc = .store → pteW pte = true) ∧
        (c.acc = .load → pteR pte = true ∨ c.mxr = true ∧ pteX pte = true) ∧
        (c.hwAd = false → pteA pte = true ∧ (c.acc = .store → pteD pte = true))) ∧
    (∀ (cause : Cause) (info : Word) (ms' : MemSys), translate c ms = .exc cause info ms' →
      info = c.va ∧
      (vaValid c.scheme c.va = false ∧ cause = pageFaultOf c.acc ∨
        ∃ i base : Nat, walkReaches c ms (c.scheme.levels - 1) (c.root * 4096) i base ∧
          (cause = accessFaultOf c.acc ∧ pmaCheck c.cfg (pteAddress c i base) c.scheme.pteBytes .load .supervisor = .denied ∨
            ∃ pte, pteSource c ms i (pteAddress c i base) pte ∧
              (cause = pageFaultOf c.acc ∧ levelResult c i (pteAddress c i base) pte = .pageFault ∨
                cause = accessFaultOf c.acc ∧ levelResult c i (pteAddress c i base) pte = .accessFault))))

/-- One level of the walk, under every scheme, where every matching entry of the cache holds what memory holds. An invalid or
reserved PTE, a pointer at level 0, a leaf without permission, a misaligned superpage, and A or D clear where software sets them
raise the page fault; a pointer goes on to the table it names; a leaf gives the address of its page, superpage or NAPOT range
and the memory type of its PBMT, with A, and D for a store, set in memory where they were clear; a PTE whose read or update its
check denies raises the access fault (R153 to R158, R165 to R169, R180, R201, R205, R206, R208). A page table in device memory
stops the model (U35, log entry 17), and so does one accessed with other attributes before (U32, log entry 16). That the read of a
PTE is checked as a load of S-mode, and what its update is checked for, is log entry 40. With a valid
address a translation is the walk from the top level at the root (R150 to R152). -/
def Obligations.WalkOneLevel : Prop :=
  (∀ (c : WalkCtx) (ms : MemSys), c.scheme ≠ .bare → vaValid c.scheme c.va = true →
    translate c ms = walkFrom c (c.scheme.levels - 1) (c.root * 4096) false ms) ∧
  ∀ (c : WalkCtx) (i base addr : Nat) (g isLeaf update : Bool) (ms : MemSys) (p : Word) (bad : Prop) (now : Attributes),
    c.scheme ≠ .bare →
    addr = base + c.va.toNat / 2 ^ (12 + c.scheme.vpnBits * i) % 2 ^ c.scheme.vpnBits * c.scheme.pteBytes →
    p = pteAt c.cfg c.scheme ms.mem addr → isLeaf = (pteR p || pteX p) →
    update = (!pteA p || (c.acc == .store && !pteD p)) → now = attributesOf c.cfg addr c.scheme.pteBytes .pma →
    (bad ↔
      pteV p = false ∨ pteR p = false ∧ pteW p = true ∨
      isLeaf = false ∧ (i = 0 ∨ pteD p = true ∨ pteA p = true ∨ pteU p = true) ∨
      c.scheme ≠ .sv32 ∧
        (p.extractLsb' 54 7 ≠ 0 ∨ p.getLsbD 63 = true ∧ (c.cfg.ext.svnapot = false ∨ i ≠ 0 ∨ p.extractLsb' 10 4 ≠ 0b1000) ∨
          p.extractLsb' 61 2 ≠ 0 ∧ (c.cfg.ext.svpbmt = false ∨ isLeaf = false ∨ p.extractLsb' 61 2 = 3)) ∨
      isLeaf = true ∧
        (c.epriv = .user ∧ pteU p = false ∨ c.epriv = .supervisor ∧ pteU p = true ∧ (c.acc = .fetch ∨ c.sum = false) ∨
          c.acc = .fetch ∧ pteX p = false ∨ c.acc = .store ∧ pteW p = false ∨
          c.acc = .load ∧ pteR p = false ∧ c.mxr = false ∨
          p.toNat / 2 ^ 10 % 2 ^ c.scheme.ppnBits % 2 ^ (c.scheme.vpnBits * i) ≠ 0 ∨ c.hwAd = false ∧ update = true)) →
    (pmaCheck c.cfg addr c.scheme.pteBytes .load .supervisor = .device →
      walkFrom c i base g ms = .stop (.refusal .pageTableInDevice)) ∧
    (pmaCheck c.cfg addr c.scheme.pteBytes .load .supervisor = .denied → (∀ e ∈ ms.atc, ¬entryMatches c i addr e) →
      ∃ m, walkFrom c i base g ms = .exc (accessFaultOf c.acc) c.va m ∧ m.mem = ms.mem) ∧
    (pmaCheck c.cfg addr c.scheme.pteBytes .load .supervisor = .ok → (∀ e ∈ ms.atc, entryMatches c i addr e → e.pte = p) →
      (c.cfg.ext.svpbmt = true →
        (∃ k, k < c.scheme.pteBytes ∧ compatible (lookupAt .unseen ms.types (addr + k)) now = false) →
        walkFrom c i base g ms = .stop (.fault .incoherentTypes)) ∧
      ((c.cfg.ext.svpbmt = false ∨
          ∀ k, k < c.scheme.pteBytes → compatible (lookupAt .unseen ms.types (addr + k)) now = true) →
        (bad → ∃ m, walkFrom c i base g ms = .exc (pageFaultOf c.acc) c.va m ∧ m.mem = ms.mem) ∧
        (¬bad → isLeaf = false → ∃ (j : Nat) (m : MemSys), i = j + 1 ∧
          walkFrom c i base g ms = walkFrom c j (p.toNat / 2 ^ 10 % 2 ^ c.scheme.ppnBits * 4096) (g || pteG p) m ∧
          m.mem = ms.mem ∧ m.draws = ms.draws ∧
          (∀ e ∈ m.atc, e ∈ ms.atc ∨ e.pteAddr = addr ∧ e.pte = p ∧ e.level = i) ∧
          ∀ a, lookupAt .unseen m.types a =
            if c.cfg.ext.svpbmt = true ∧ addr ≤ a ∧ a < addr + c.scheme.pteBytes then .seen now .nothing
            else lookupAt .unseen ms.types a) ∧
        (¬bad → isLeaf = true → update = true → pteStoreOk c.cfg addr c.scheme.pteBytes = false →
          ∃ m, walkFrom c i base g ms = .exc (accessFaultOf c.acc) c.va m ∧ m.mem = ms.mem) ∧
        (¬bad → isLeaf = true → (update = false ∨ pteStoreOk c.cfg addr c.scheme.pteBytes = true) →
          ∀ (ppn pa : Nat) (mt : MemType),
            ppn = (if c.scheme ≠ .sv32 ∧ p.getLsbD 63 = true then
                p.toNat / 2 ^ 10 % 2 ^ c.scheme.ppnBits / 16 * 16 + c.va.toNat / 2 ^ 12 % 16
              else p.toNat / 2 ^ 10 % 2 ^ c.scheme.ppnBits) →
            pa = (ppn / 2 ^ (c.scheme.vpnBits * i) * 2 ^ (c.scheme.vpnBits * i) +
              c.va.toNat / 2 ^ 12 % 2 ^ (c.scheme.vpnBits * i)) * 4096 + c.va.toNat % 4096 →
            mt = (if c.scheme ≠ .sv32 ∧ p.extractLsb' 61 2 = 1 then .nc
              else if c.scheme ≠ .sv32 ∧ p.extractLsb' 61 2 = 2 then .io else .pma) →
            ∃ m, walkFrom c i base g ms = .ok (pa, mt) m ∧
              (update = false → m.mem = ms.mem) ∧
              (update = true →
                pteAt c.cfg c.scheme m.mem addr = p ||| 0x40 ||| (if c.acc = .store then 0x80 else 0) ∧
                ∀ a, (a < addr ∨ addr + c.scheme.pteBytes ≤ a) → Memory.read m.mem a = Memory.read ms.mem a))))

/-- The Sv39 walk of three levels, where the ATC holds nothing of this address space: two pointers and a leaf in memory give
the page the leaf names and the offset of the address, and memory is not written (R150 to R155, R166 to R169, R171). That each
read of a PTE is checked as a load of S-mode is log entry 40. -/
def Obligations.Sv39WalkOfThreeLevels : Prop :=
  ∀ (c : WalkCtx) (ms : MemSys) (a2 a1 a0 : Nat) (p2 p1 p0 : Word),
    c.scheme = .sv39 → vaValid .sv39 c.va = true → c.hwAd = false →
    (∀ e ∈ ms.atc, e.asid ≠ c.asid ∧ e.isGlobal = false) →
    a2 = c.root * 4096 + c.va.toNat / 2 ^ 30 % 512 * 8 →
    a1 = p2.toNat / 2 ^ 10 % 2 ^ 44 * 4096 + c.va.toNat / 2 ^ 21 % 512 * 8 →
    a0 = p1.toNat / 2 ^ 10 % 2 ^ 44 * 4096 + c.va.toNat / 2 ^ 12 % 512 * 8 →
    (∀ x ∈ [(a2, p2), (a1, p1), (a0, p0)],
      pmaCheck c.cfg x.1 8 .load .supervisor = .ok ∧ pteAt c.cfg .sv39 ms.mem x.1 = x.2 ∧
      ∀ k, k < 8 → compatible (lookupAt .unseen ms.types (x.1 + k)) (attributesOf c.cfg x.1 8 .pma) = true) →
    (∀ p ∈ [p2, p1], p &&& 0xFFC00000000000DF#64 = 1) →
    p0 &&& 0xFFC0000000000041#64 = 0x41 → (pteW p0 = true → pteR p0 = true) → (pteR p0 = true ∨ pteX p0 = true) →
    permOk c p0 = true → (c.acc = .store → pteD p0 = true) →
    ∃ ms', translate c ms = .ok (p0.toNat / 2 ^ 10 % 2 ^ 44 * 4096 + c.va.toNat % 4096, .pma) ms' ∧ ms'.mem = ms.mem

/-- A translation that updates a PTE sets A in it, and D for a store, and changes no other bit of it and no other byte of
memory (R131, R168). -/
def Obligations.TranslationSetsOnlyAAndD : Prop :=
  ∀ (c : WalkCtx) (ms ms' : MemSys) (r : Nat × MemType), translate c ms = .ok r ms' →
    (∀ a, ¬inStoredPte c ms a → Memory.read ms'.mem a = Memory.read ms.mem a) ∧
    (∀ p, translationStores c ms = some p →
      pteAt c.cfg c.scheme ms'.mem p =
        pteAt c.cfg c.scheme ms.mem p ||| 0x40 ||| (if c.acc = .store then 0x80 else 0)) ∧
    (c.hwAd = false → ms'.mem = ms.mem)

/-! ### The other agents -/

/-- While the hart is in S-mode or U-mode, an action of another agent changes nothing but `sip`, counters, memory, the ATC,
the record of attributes and the walks under way (R385, an inference the spec marks as derived). A speculative walk, in any
mode, raises nothing and sets no D: the only change it makes to memory is the A bit of the PTE it reads; and it makes no entry
that a fence executed since it began would have removed (R173, R176, R266), and a use of an invalid entry that is stale is
counted, within the bound of Svvptc (R213; the count is log entry 20). The turn stops the model exactly at the first action
that advances a speculative walk whose next read would be of a page table in device memory (R421, U35, log entry 17), or whose
access to its PTE, a read from memory or an update, would break R211 (U32, log entry 16). That the read of a PTE is checked as a
load of S-mode is log entry 40. -/
def Obligations.EnvironmentReach : Prop :=
  (∀ (s : State) (a : EnvAction), s.priv ≠ .machine →
    s.act a = { s with sip := (s.act a).sip, counters := (s.act a).counters, walks := (s.act a).walks,
                       ms := { (s.act a).ms with draws := s.ms.draws } }) ∧
  (∀ (s : State) (n : Nat) (k : Option Nat) (t : State), t = s.act (.advanceWalk n k) →
    (s.walks[n]? = none → t = s) ∧
    ∀ (w : InflightWalk) (c : WalkCtx) (addr flags : Nat), s.walks[n]? = some w → c = s.walkCtxOf w →
      addr = pteAddress c w.level w.base → flags = (if s.cfg.sBigEndian then addr + c.scheme.pteBytes - 1 else addr) →
      (∀ a, a ≠ flags → Memory.read t.ms.mem a = Memory.read s.ms.mem a) ∧
      (Memory.read t.ms.mem flags = Memory.read s.ms.mem flags ∨
        Memory.read t.ms.mem flags = Memory.read s.ms.mem flags ||| 0x40#8) ∧
      (∀ e ∈ t.ms.atc, e ∈ s.ms.atc ∨
        (∃ e' ∈ s.ms.atc, e = { e' with staleReads := e'.staleReads + 1 } ∧ pteV e'.pte = false ∧
          (s.cfg.ext.svvptc = true → e'.staleReads < Config.svvptcBound)) ∨
        ∀ q ∈ w.fences, q.hits e = false) ∧
      (t.walks = s.walks.eraseIdx n ∨
        ∃ b l g, t.walks = s.walks.set n { w with base := b, level := l, isGlobal := g }) ∧
      t = { s with walks := t.walks, ms := { t.ms with draws := s.ms.draws } }) ∧
  (∀ (s : State) (x : Stop),
    (s.environmentStop = some x ↔ ∃ (pre post : List EnvAction) (rest : List (List EnvAction)) (n : Nat) (k : Option Nat)
        (e : State) (w : InflightWalk),
      s.inbox = (pre ++ .advanceWalk n k :: post) :: rest ∧ { s with inbox := rest }.batchStop pre = none ∧
      e = pre.foldl State.act { s with inbox := rest } ∧ e.walks[n]? = some w ∧ e.walkOnce w k = .error x) ∧
    (s.environmentStop = some x → s.immediateInterrupt = none → step s = x.outcome)) ∧
  (∀ (s : State) (w : InflightWalk) (k : Option Nat) (x : Stop) (c : WalkCtx) (addr : Nat), c = s.walkCtxOf w →
    addr = pteAddress c w.level w.base →
    (s.walkOnce w k = .error x ↔
      x = .refusal .pageTableInDevice ∧ pmaCheck c.cfg addr c.scheme.pteBytes .load .supervisor = .device ∨
      x = .fault .incoherentTypes ∧ c.cfg.ext.svpbmt = true ∧
        (∃ j, j < c.scheme.pteBytes ∧
          compatible (lookupAt .unseen s.ms.types (addr + j)) (attributesOf c.cfg addr c.scheme.pteBytes .pma) = false) ∧
        ∃ memPte pte atc es, readPte c s.ms.mem addr = some memPte ∧
          speculativeSource c w addr memPte s.ms.atc k = some (pte, atc, es) ∧
          (∀ q ∈ w.fences, q.hits (newEntry c w.level addr w.isGlobal pte) = false) ∧
          (k = none ∨ (levelResult c w.level addr pte).updates = true)))
end

