-- ==== Sys2Proof/Laws/Memory.lean ====
section
/-! SUPPORT. The laws of sparse data by address and of physical memory: what a read gives after a write, and that every
operation keeps the canonical form. -/

namespace Sys2Proof.Machine

variable {α : Type}

/-! ### Lookups -/

theorem lookupAt_eraseAt_other (d : α) (m : List (Nat × α)) {a b : Nat} (h : b ≠ a) :
    lookupAt d (eraseAt m a) b = lookupAt d m b := by
  induction m with
  | nil => rfl
  | cons c m ih =>
    obtain ⟨k, v⟩ := c
    by_cases hk : k = a
    · subst hk
      simpa [eraseAt, lookupAt, h.symm] using ih
    · by_cases hb : k = b
      · simp [eraseAt, lookupAt, hb, h]
      · simpa [eraseAt, lookupAt, hk, hb] using ih

theorem lookupAt_eraseAt_same (d : α) (m : List (Nat × α)) (a : Nat) : lookupAt d (eraseAt m a) a = d := by
  induction m with
  | nil => rfl
  | cons c m ih =>
    obtain ⟨k, v⟩ := c
    by_cases hk : k = a
    · simpa [eraseAt, lookupAt, hk] using ih
    · simpa [eraseAt, lookupAt, hk] using ih

theorem lookupAt_insertAt_other (d v : α) (m : List (Nat × α)) {a b : Nat} (h : b ≠ a) :
    lookupAt d (insertAt a v m) b = lookupAt d m b := by
  induction m with
  | nil => simp [insertAt, lookupAt, h.symm]
  | cons c m ih =>
    obtain ⟨k, w⟩ := c
    by_cases hk : a < k
    · simp [insertAt, hk, lookupAt, h.symm]
    · by_cases hb : k = b
      · subst hb
        simp [insertAt, hk, lookupAt]
      · simpa [insertAt, hk, lookupAt, hb] using ih

theorem lookupAt_insertAt_same (d v : α) (m : List (Nat × α)) (a : Nat) (h : ∀ c ∈ m, c.1 ≠ a) :
    lookupAt d (insertAt a v m) a = v := by
  induction m with
  | nil => simp [insertAt, lookupAt]
  | cons c m ih =>
    obtain ⟨k, w⟩ := c
    have hk : k ≠ a := h (k, w) (by simp)
    by_cases hl : a < k
    · simp [insertAt, hl, lookupAt]
    · simpa [insertAt, hl, lookupAt, hk] using ih (fun c hc => h c (by simp [hc]))

theorem eraseAt_keys (m : List (Nat × α)) (a : Nat) : ∀ c ∈ eraseAt m a, c.1 ≠ a := by
  intro c hc
  simpa [eraseAt] using (List.mem_filter.mp hc).2

/-- A read where a write was gives the value written. -/
theorem lookupAt_updateAt_same [DecidableEq α] (d : α) (m : List (Nat × α)) (a : Nat) (v : α) :
    lookupAt d (updateAt d m a v) a = v := by
  unfold updateAt
  split
  · rename_i h; rw [lookupAt_eraseAt_same, h]
  · exact lookupAt_insertAt_same d v _ a (eraseAt_keys m a)

/-- A read elsewhere is as before. -/
theorem lookupAt_updateAt_other [DecidableEq α] (d : α) (m : List (Nat × α)) {a b : Nat} (v : α) (h : b ≠ a) :
    lookupAt d (updateAt d m a v) b = lookupAt d m b := by
  unfold updateAt
  split
  · exact lookupAt_eraseAt_other d m h
  · rw [lookupAt_insertAt_other d v _ h, lookupAt_eraseAt_other d m h]

/-! ### The canonical form -/

theorem canonical_iff [DecidableEq α] (d : α) (m : List (Nat × α)) :
    canonical d m = true ↔ m.Pairwise (fun c e => c.1 < e.1) ∧ ∀ c ∈ m, c.2 ≠ d := by
  simp [canonical]

theorem insertAt_mem (a : Nat) (v : α) (m : List (Nat × α)) (c : Nat × α) :
    c ∈ insertAt a v m ↔ c = (a, v) ∨ c ∈ m := by
  induction m with
  | nil => simp [insertAt]
  | cons e m ih =>
    obtain ⟨k, w⟩ := e
    by_cases hk : a < k
    · simp [insertAt, hk]
    · simp only [insertAt, hk, if_false, List.mem_cons, ih]
      tauto

theorem insertAt_pairwise (a : Nat) (v : α) (m : List (Nat × α)) (h : m.Pairwise (fun c e => c.1 < e.1))
    (hk : ∀ c ∈ m, c.1 ≠ a) : (insertAt a v m).Pairwise (fun c e => c.1 < e.1) := by
  induction m with
  | nil => simp [insertAt]
  | cons e m ih =>
    obtain ⟨k, w⟩ := e
    rw [List.pairwise_cons] at h
    have hka : k ≠ a := hk (k, w) (by simp)
    by_cases hl : a < k
    · simp only [insertAt, hl, if_true, List.pairwise_cons]
      refine ⟨?_, h.1, h.2⟩
      intro c hc
      rcases List.mem_cons.mp hc with rfl | hc
      · exact hl
      · exact lt_trans hl (h.1 c hc)
    · simp only [insertAt, hl, if_false, List.pairwise_cons]
      refine ⟨?_, ih h.2 (fun c hc => hk c (by simp [hc]))⟩
      intro c hc
      rcases (insertAt_mem a v m c).mp hc with rfl | hc
      · exact lt_of_le_of_ne (not_lt.mp hl) hka
      · exact h.1 c hc

theorem canonical_nil [DecidableEq α] (d : α) : canonical d ([] : List (Nat × α)) = true := rfl

/-- A write keeps the canonical form. -/
theorem canonical_updateAt [DecidableEq α] (d : α) (m : List (Nat × α)) (a : Nat) (v : α) (h : canonical d m = true) :
    canonical d (updateAt d m a v) = true := by
  rw [canonical_iff] at h ⊢
  have he : (eraseAt m a).Pairwise (fun c e => c.1 < e.1) ∧ ∀ c ∈ eraseAt m a, c.2 ≠ d :=
    ⟨h.1.filter _, fun c hc => h.2 c (List.mem_filter.mp hc).1⟩
  unfold updateAt
  split
  · exact he
  · rename_i hv
    refine ⟨insertAt_pairwise a v _ he.1 (eraseAt_keys m a), fun c hc => ?_⟩
    rcases (insertAt_mem a v _ c).mp hc with rfl | hc
    · exact hv
    · exact he.2 c hc

/-- Two canonical lists that read alike are equal. -/
theorem canonical_ext [DecidableEq α] (d : α) : ∀ (m n : List (Nat × α)), canonical d m = true → canonical d n = true →
    (∀ a, lookupAt d m a = lookupAt d n a) → m = n := by
  have absent : ∀ (l : List (Nat × α)) (k : Nat), (∀ c ∈ l, k < c.1) → lookupAt d l k = d := by
    intro l k h
    induction l with
    | nil => rfl
    | cons c l ih =>
      obtain ⟨j, v⟩ := c
      have hj : j ≠ k := ne_of_gt (h (j, v) (by simp))
      simpa [lookupAt, hj] using ih (fun c hc => h c (by simp [hc]))
  intro m
  induction m with
  | nil =>
    intro n _ hn h
    cases n with
    | nil => rfl
    | cons c n =>
      obtain ⟨k, v⟩ := c
      rw [canonical_iff] at hn
      exact absurd (by simpa [lookupAt] using (h k).symm) (hn.2 (k, v) (by simp))
  | cons c m ih =>
    obtain ⟨k, v⟩ := c
    intro n hm hn h
    rw [canonical_iff, List.pairwise_cons] at hm
    cases n with
    | nil => exact absurd (by simpa [lookupAt] using h k) (hm.2 (k, v) (by simp))
    | cons e n =>
      obtain ⟨j, w⟩ := e
      rw [canonical_iff, List.pairwise_cons] at hn
      have hv : v ≠ d := hm.2 (k, v) (by simp)
      have hw : w ≠ d := hn.2 (j, w) (by simp)
      have hkj : k = j := by
        rcases lt_trichotomy k j with hlt | heq | hgt
        · have := h k
          rw [show lookupAt d ((k, v) :: m) k = v by simp [lookupAt],
            absent ((j, w) :: n) k (by
              intro c hc
              rcases List.mem_cons.mp hc with rfl | hc
              · exact hlt
              · exact lt_trans hlt (hn.1.1 c hc))] at this
          exact absurd this hv
        · exact heq
        · have := h j
          rw [show lookupAt d ((j, w) :: n) j = w by simp [lookupAt],
            absent ((k, v) :: m) j (by
              intro c hc
              rcases List.mem_cons.mp hc with rfl | hc
              · exact hgt
              · exact lt_trans hgt (hm.1.1 c hc))] at this
          exact absurd this.symm hw
      subst hkj
      have hvw : v = w := by simpa [lookupAt] using h k
      subst hvw
      have : m = n := by
        refine ih n ?_ ?_ ?_
        · exact (canonical_iff d m).mpr ⟨hm.1.2, fun c hc => hm.2 c (by simp [hc])⟩
        · exact (canonical_iff d n).mpr ⟨hn.1.2, fun c hc => hn.2 c (by simp [hc])⟩
        · intro a
          by_cases ha : k = a
          · subst ha
            rw [absent m k hm.1.1, absent n k hn.1.1]
          · simpa [lookupAt, ha] using h a
      rw [this]

/-! ### Physical memory -/

@[simp] theorem Memory.read_write_same (m : List Host.Cell) (a : Nat) (b : Byte) :
    Memory.read (Memory.write m a b) a = b := lookupAt_updateAt_same _ m a b

theorem Memory.read_write_other (m : List Host.Cell) {a a' : Nat} (b : Byte) (h : a' ≠ a) :
    Memory.read (Memory.write m a b) a' = Memory.read m a' := lookupAt_updateAt_other _ m b h

theorem Memory.wf_nil : Memory.wf [] = true := rfl

theorem Memory.wf_write {m : List Host.Cell} (h : Memory.wf m = true) (a : Nat) (b : Byte) :
    Memory.wf (Memory.write m a b) = true := canonical_updateAt _ m a b h

theorem Memory.wf_writeBytes {m : List Host.Cell} (h : Memory.wf m = true) (a : Nat) (bs : List Byte) :
    Memory.wf (Memory.writeBytes m a bs) = true := by
  induction bs generalizing m a with
  | nil => exact h
  | cons b bs ih => exact ih (Memory.wf_write h a b) (a + 1)

/-- A write of bytes leaves every byte outside them. -/
theorem Memory.read_writeBytes_outside (m : List Host.Cell) (a : Nat) (bs : List Byte) (x : Nat)
    (h : x < a ∨ a + bs.length ≤ x) : Memory.read (Memory.writeBytes m a bs) x = Memory.read m x := by
  induction bs generalizing m a with
  | nil => rfl
  | cons b bs ih =>
    simp only [List.length_cons] at h
    rw [Memory.writeBytes, ih _ (a + 1) (by omega), Memory.read_write_other _ _ (by omega)]

/-- A write of bytes stores the `k`-th of them `k` places on. -/
theorem Memory.read_writeBytes_inside (m : List Host.Cell) (a : Nat) (bs : List Byte) (k : Nat) (h : k < bs.length) :
    Memory.read (Memory.writeBytes m a bs) (a + k) = bs[k] := by
  induction bs generalizing m a k with
  | nil => simp at h
  | cons b bs ih =>
    cases k with
    | zero => rw [Memory.writeBytes, Memory.read_writeBytes_outside _ _ _ _ (by omega)]; simp
    | succ k =>
      have := ih (Memory.write m a b) (a + 1) k (by simpa using h)
      rw [show a + 1 + k = a + (k + 1) by omega] at this
      simpa [Memory.writeBytes] using this

@[simp] theorem Memory.readBytes_length (m : List Host.Cell) (a n : Nat) : (Memory.readBytes m a n).length = n := by
  induction n generalizing a with
  | zero => rfl
  | succ n ih => simp [Memory.readBytes, ih]

/-- Reading the bytes written gives them back. -/
theorem Memory.readBytes_writeBytes (m : List Host.Cell) (a : Nat) (bs : List Byte) :
    Memory.readBytes (Memory.writeBytes m a bs) a bs.length = bs := by
  induction bs generalizing m a with
  | nil => rfl
  | cons b bs ih =>
    simp only [List.length_cons, Memory.readBytes, Memory.writeBytes]
    rw [Memory.read_writeBytes_outside _ _ _ _ (by omega), ih]
    simp

/-- Bytes read alike where memory reads alike. -/
theorem Memory.readBytes_congr (m m' : List Host.Cell) (a n : Nat)
    (h : ∀ x, a ≤ x → x < a + n → Memory.read m x = Memory.read m' x) : Memory.readBytes m a n = Memory.readBytes m' a n := by
  induction n generalizing a with
  | zero => rfl
  | succ n ih =>
    simp only [Memory.readBytes]
    rw [h a (by omega) (by omega), ih (a + 1) (fun x hx hx' => h x (by omega) (by omega))]

/-! ### Bytes of a value -/

@[simp] theorem littleBytes_length (n v : Nat) : (littleBytes n v).length = n := by
  induction n generalizing v with
  | zero => rfl
  | succ n ih => simp [littleBytes, ih]

@[simp] theorem splitBytes_length (big : Bool) (n v : Nat) : (splitBytes big n v).length = n := by
  cases big <;> simp [splitBytes]

theorem littleValue_littleBytes (n v : Nat) : littleValue (littleBytes n v) = v % 256 ^ n := by
  induction n generalizing v with
  | zero => simp [littleBytes, littleValue, Nat.mod_one]
  | succ n ih =>
    rw [littleBytes, littleValue, ih, BitVec.toNat_ofNat, pow_succ' 256 n, Nat.mod_mul (a := 256)]

/-- Joining the bytes a value was split into gives the value, cut to their width. -/
theorem joinBytes_splitBytes (big : Bool) (n v : Nat) : joinBytes big (splitBytes big n v) = v % 256 ^ n := by
  cases big <;> simp [joinBytes, splitBytes, littleValue_littleBytes]

end Sys2Proof.Machine
end

