-- ==== Sys2Proof/Laws/Translate.lean ====
section
/-! SUPPORT. What address translation can do to the memory system, said once: a level, a walk, a translation. -/

namespace Sys2Proof.Machine

/-- A property of the state that a result leaves, where it leaves one. -/
def resLeaves {σ α : Type} (P : σ → Prop) : Res σ α → Prop
  | .ok _ s => P s
  | .exc _ _ s => P s
  | .stop _ => True

/-! ### The record of attributes -/

theorem touchTypes_canonical (c : Config) (pa n : Nat) (mt : MemType) (t t' : List (Nat × Seen))
    (h : touchTypes c pa n mt t = some t') (hc : canonical Seen.unseen t = true) : canonical Seen.unseen t' = true := by
  have fold : ∀ (now : Attributes) (l : List Nat) (t : List (Nat × Seen)), canonical Seen.unseen t = true →
      canonical Seen.unseen (l.foldl (fun t a => updateAt .unseen t a (.seen now .nothing)) t) = true := by
    intro now l
    induction l with
    | nil => exact fun _ h => h
    | cons a l ih => exact fun t h => ih _ (canonical_updateAt _ _ _ _ h)
  unfold touchTypes at h
  dsimp only at h
  split at h
  · rw [← Option.some.inj h]; exact hc
  · split at h
    · rw [← Option.some.inj h]; exact fold _ _ _ hc
    · exact absurd h (by simp)

theorem followTypes_canonical (f : Nat → Since → Since) (t : List (Nat × Seen)) (h : canonical Seen.unseen t = true) :
    canonical Seen.unseen (followTypes f t) = true := by
  rw [canonical_iff] at h ⊢
  constructor
  · exact List.pairwise_map.mpr h.1
  · intro c hc
    obtain ⟨e, he, rfl⟩ := List.mem_map.mp hc
    have := h.2 e he
    rcases e with ⟨k, _ | ⟨mt, s⟩⟩
    · exact this
    · simp [Seen.follow]

/-- What the record says of a location afterwards. -/
theorem lookupAt_followTypes (f : Nat → Since → Since) (t : List (Nat × Seen)) (a : Nat) :
    lookupAt .unseen (followTypes f t) a = (lookupAt .unseen t a).follow (f a) := by
  induction t with
  | nil => rfl
  | cons c t ih =>
    obtain ⟨k, v⟩ := c
    simp only [followTypes, List.map_cons, lookupAt] at ih ⊢
    split
    · rename_i h; rw [h]
    · exact ih

theorem MemSys.touch_cases (ms ms' : MemSys) (c : Config) (pa n : Nat) (mt : MemType) (h : ms.touch c pa n mt = .ok ms') :
    ∃ types, touchTypes c pa n mt ms.types = some types ∧ ms' = { ms with types := types } := by
  unfold MemSys.touch at h
  split at h
  · rename_i types ht; exact ⟨types, ht, (Except.ok.inj h).symm⟩
  · cases h

/-- Both records stay in canonical form. -/
def recordsOk (m : MemSys) : Prop := Memory.wf m.mem = true ∧ canonical Seen.unseen m.types = true

theorem MemSys.touch_recordsOk (ms ms' : MemSys) (c : Config) (pa n : Nat) (mt : MemType)
    (h : ms.touch c pa n mt = .ok ms') (hr : recordsOk ms) : recordsOk ms' := by
  obtain ⟨types, ht, rfl⟩ := ms.touch_cases _ _ _ _ _ h
  exact ⟨hr.1, touchTypes_canonical _ _ _ _ _ _ ht hr.2⟩

/-! ### One level -/

/-- How a level ends: the record of attributes is as it was or has the PTE's access in it, and memory is as it was or has the
PTE marked (R168). -/
theorem finishLevel_leaves (c : WalkCtx) (addr : Nat) (isRead : Bool) (r r' : LevelResult) (pte : Word) (ms ms' : MemSys)
    (h : finishLevel c addr isRead r pte ms = .ok (r', ms')) :
    r' = r ∧
    (ms'.types = ms.types ∨ touchTypes c.cfg addr c.scheme.pteBytes .pma ms.types = some ms'.types) ∧
    (ms'.mem = ms.mem ∨ ∃ pa mt, r = .leaf pa mt true ∧
      ms'.mem = storePte c.cfg c.scheme ms.mem addr (markPte c.acc pte)) := by
  have upd : ∀ m : MemSys, (updatePte c addr r pte m).types = m.types ∧
      ((updatePte c addr r pte m).mem = m.mem ∨ ∃ pa mt, r = .leaf pa mt true ∧
        (updatePte c addr r pte m).mem = storePte c.cfg c.scheme m.mem addr (markPte c.acc pte)) := by
    intro m
    unfold updatePte
    split
    · exact ⟨rfl, Or.inr ⟨_, _, rfl, rfl⟩⟩
    · exact ⟨rfl, Or.inl rfl⟩
  unfold finishLevel at h
  split at h
  · rename_i m hm
    obtain ⟨rfl, rfl⟩ := Prod.mk.inj (Except.ok.inj h)
    have hu := upd m
    split at hm
    · obtain ⟨types, ht, rfl⟩ := ms.touch_cases _ _ _ _ _ hm
      exact ⟨rfl, Or.inr (by rw [hu.1]; exact ht), hu.2⟩
    · obtain rfl := Except.ok.inj hm
      exact ⟨rfl, Or.inl hu.1, hu.2⟩
  · cases h

/-- One level: only a leaf with something to set writes memory, and it writes the PTE it read, marked (R168); the record of
attributes is as it was or has the PTE's access in it. -/
theorem walkLevel_leaves (c : WalkCtx) (i base : Nat) (g : Bool) (ms ms' : MemSys) (r : LevelResult)
    (h : walkLevel c i base g ms = .ok (r, ms')) :
    (ms'.types = ms.types ∨ touchTypes c.cfg (pteAddress c i base) c.scheme.pteBytes .pma ms.types = some ms'.types) ∧
    (ms'.mem = ms.mem ∨ ∃ pa mt pte, r = .leaf pa mt true ∧
      ms'.mem = storePte c.cfg c.scheme ms.mem (pteAddress c i base) (markPte c.acc pte)) := by
  have fin : ∀ isRead (r0 : LevelResult) (pte : Word) (m : MemSys), m.types = ms.types → m.mem = ms.mem →
      finishLevel c (pteAddress c i base) isRead r0 pte m = .ok (r, ms') →
      (ms'.types = ms.types ∨ touchTypes c.cfg (pteAddress c i base) c.scheme.pteBytes .pma ms.types = some ms'.types) ∧
      (ms'.mem = ms.mem ∨ ∃ pa mt pte, r = .leaf pa mt true ∧
        ms'.mem = storePte c.cfg c.scheme ms.mem (pteAddress c i base) (markPte c.acc pte)) := by
    intro isRead r0 pte m ht hm hf
    obtain ⟨rfl, h1, h2⟩ := finishLevel_leaves _ _ _ _ _ _ _ _ hf
    rw [ht] at h1
    rw [hm] at h2
    exact ⟨h1, h2.imp id (fun ⟨pa, mt, h⟩ => ⟨pa, mt, pte, h⟩)⟩
  unfold walkLevel at h
  dsimp only at h
  split at h
  · cases h
  · split at h
    · exact fin _ _ _ _ (by rfl) (by rfl) h
    · exact fin _ _ _ _ (by rfl) (by rfl) h
    · obtain ⟨rfl, rfl⟩ := Prod.mk.inj (Except.ok.inj h)
      exact ⟨Or.inl rfl, Or.inl rfl⟩

/-- A result of a level that is no updating leaf leaves memory as it was. -/
theorem walkLevel_mem_same (c : WalkCtx) (i base : Nat) (g : Bool) (ms ms' : MemSys) (r : LevelResult)
    (h : walkLevel c i base g ms = .ok (r, ms')) (hr : ∀ pa mt, r ≠ .leaf pa mt true) : ms'.mem = ms.mem := by
  rcases (walkLevel_leaves c i base g ms ms' r h).2 with h' | ⟨pa, mt, _, hr', _⟩
  · exact h'
  · exact absurd hr' (hr pa mt)

/-- Every level comes from some PTE, by steps 3 to 8, or from a denied read (R153). -/
theorem walkLevel_result (c : WalkCtx) (i base : Nat) (g : Bool) (ms ms' : MemSys) (r : LevelResult)
    (h : walkLevel c i base g ms = .ok (r, ms')) :
    r = .accessFault ∨ ∃ pte, r = levelResult c i (pteAddress c i base) pte := by
  unfold walkLevel at h
  dsimp only at h
  split at h
  · cases h
  · split at h
    · exact Or.inr ⟨_, (finishLevel_leaves _ _ _ _ _ _ _ _ h).1⟩
    · exact Or.inr ⟨_, (finishLevel_leaves _ _ _ _ _ _ _ _ h).1⟩
    · exact Or.inl (Prod.mk.inj (Except.ok.inj h)).1.symm

/-- A level keeps both records in canonical form. -/
theorem walkLevel_recordsOk (c : WalkCtx) (i base : Nat) (g : Bool) (ms ms' : MemSys) (r : LevelResult)
    (h : walkLevel c i base g ms = .ok (r, ms')) (hr : recordsOk ms) : recordsOk ms' := by
  obtain ⟨ht, hm⟩ := walkLevel_leaves _ _ _ _ _ _ _ h
  refine ⟨?_, ?_⟩
  · rcases hm with he | ⟨_, _, _, _, he⟩
    · rw [he]; exact hr.1
    · rw [he]; exact Memory.wf_writeBytes hr.1 _ _
  · rcases ht with he | he
    · rw [he]; exact hr.2
    · exact touchTypes_canonical _ _ _ _ _ _ he hr.2

/-! ### A walk -/

/-- What every level keeps, a walk keeps. -/
theorem walkFrom_leaves (c : WalkCtx) (P : MemSys → Prop)
    (step : ∀ i base g ms ms' r, walkLevel c i base g ms = .ok (r, ms') → P ms → P ms') :
    ∀ i base g ms, P ms → resLeaves P (walkFrom c i base g ms) := by
  intro i
  induction i with
  | zero =>
    intro base g ms hp
    rw [walkFrom]
    cases h : walkLevel c 0 base g ms with
    | error e => trivial
    | ok r =>
      obtain ⟨r, ms'⟩ := r
      have := step _ _ _ _ _ _ h hp
      cases r <;> exact this
  | succ i ih =>
    intro base g ms hp
    rw [walkFrom]
    cases h : walkLevel c (i + 1) base g ms with
    | error e => trivial
    | ok r =>
      obtain ⟨r, ms'⟩ := r
      have := step _ _ _ _ _ _ h hp
      cases r with
      | descend b g' => exact ih b (g || g') ms' this
      | _ => exact this

/-- What every level keeps, a translation keeps. -/
theorem translate_leaves (c : WalkCtx) (P : MemSys → Prop)
    (step : ∀ i base g ms ms' r, walkLevel c i base g ms = .ok (r, ms') → P ms → P ms') (ms : MemSys) (hp : P ms) :
    resLeaves P (translate c ms) := by
  unfold translate
  split
  · exact hp
  · split
    · exact walkFrom_leaves c P step _ _ _ _ hp
    · exact hp

/-- A translation keeps both records in canonical form. -/
theorem translate_recordsOk (c : WalkCtx) (ms : MemSys) (h : recordsOk ms) : resLeaves recordsOk (translate c ms) :=
  translate_leaves c _ (fun _ _ _ _ _ _ hw hp => walkLevel_recordsOk _ _ _ _ _ _ _ hw hp) ms h

/-- The bytes of a PTE, as many as its scheme has. -/
theorem storePte_outside (c : WalkCtx) (m : List Host.Cell) (addr : Nat) (pte : Word) (a : Nat)
    (h : ¬(addr ≤ a ∧ a < addr + c.scheme.pteBytes)) :
    Memory.read (storePte c.cfg c.scheme m addr pte) a = Memory.read m a :=
  Memory.read_writeBytes_outside _ _ _ _ (by rw [splitBytes_length]; omega)

/-- A walk writes no byte but those of the PTE that `walkStores` names. -/
theorem walkFrom_mem (c : WalkCtx) (a : Nat) : ∀ i base g ms,
    (¬∃ p, walkStores c i base g ms = some p ∧ p ≤ a ∧ a < p + c.scheme.pteBytes) →
    resLeaves (fun m => Memory.read m.mem a = Memory.read ms.mem a) (walkFrom c i base g ms) := by
  have leaf : ∀ i base g ms ms' r, walkLevel c i base g ms = .ok (r, ms') →
      (∀ pa mt, r = .leaf pa mt true → ¬(pteAddress c i base ≤ a ∧ a < pteAddress c i base + c.scheme.pteBytes)) →
      Memory.read ms'.mem a = Memory.read ms.mem a := by
    intro i base g ms ms' r h hn
    rcases (walkLevel_leaves _ _ _ _ _ _ _ h).2 with he | ⟨pa, mt, pte, hr, he⟩
    · rw [he]
    · rw [he]; exact storePte_outside c _ _ _ a (hn pa mt hr)
  intro i
  induction i with
  | zero =>
    intro base g ms hn
    rw [walkFrom]
    unfold walkStores at hn
    cases h : walkLevel c 0 base g ms with
    | error e => trivial
    | ok r =>
      obtain ⟨r, ms'⟩ := r
      rw [h] at hn
      cases r with
      | leaf pa mt u =>
        refine leaf _ _ _ _ _ _ h (fun pa' mt' hr => ?_)
        obtain ⟨rfl, rfl, rfl⟩ := LevelResult.leaf.inj hr
        exact fun hb => hn ⟨_, rfl, hb.1, hb.2⟩
      | _ => exact leaf _ _ _ _ _ _ h (by simp)
  | succ i ih =>
    intro base g ms hn
    rw [walkFrom]
    unfold walkStores at hn
    cases h : walkLevel c (i + 1) base g ms with
    | error e => trivial
    | ok r =>
      obtain ⟨r, ms'⟩ := r
      rw [h] at hn
      cases r with
      | leaf pa mt u =>
        refine leaf _ _ _ _ _ _ h (fun pa' mt' hr => ?_)
        obtain ⟨rfl, rfl, rfl⟩ := LevelResult.leaf.inj hr
        exact fun hb => hn ⟨_, rfl, hb.1, hb.2⟩
      | descend b g' =>
        have hm := leaf _ _ _ _ _ _ h (by simp)
        have := ih b (g || g') ms' hn
        show resLeaves _ (walkFrom c i b (g || g') ms')
        rw [hm] at this
        exact this
      | _ => exact leaf _ _ _ _ _ _ h (by simp)

/-- A translation writes no byte but those of the PTE that `translationStores` names. -/
theorem translate_mem (c : WalkCtx) (ms : MemSys) (a : Nat) (hn : ¬inStoredPte c ms a) :
    resLeaves (fun m => Memory.read m.mem a = Memory.read ms.mem a) (translate c ms) := by
  unfold inStoredPte translationStores at hn
  unfold translate
  split
  · rfl
  · rename_i hs
    have hne : c.scheme ≠ .bare := by
      intro hb; exact hs hb
    rw [if_neg hne] at hn
    split
    · rename_i hv
      rw [if_pos hv] at hn
      exact walkFrom_mem c a _ _ _ _ hn
    · rfl

/-- Under Bare, and in M-mode, the address is the physical address and nothing changes (R140, R141). -/
theorem translate_bare (c : WalkCtx) (ms : MemSys) (h : c.scheme = .bare) :
    translate c ms = .ok (c.va.toNat, .pma) ms := by
  unfold translate
  rw [h]

/-! ### The access's own check -/

theorem checkAccess_leaves (c : WalkCtx) (n pa : Nat) (mt : MemType) (ms : MemSys) (P : MemSys → Prop) (h : P ms) :
    resLeaves P (checkAccess c n pa mt ms) := by
  unfold checkAccess
  split
  · exact h
  · exact h
  · split
    · exact h
    · trivial

/-- What a translation leaves, locating an access leaves. -/
theorem locate_leaves (c : WalkCtx) (n : Nat) (ms : MemSys) (P : MemSys → Prop) (h : resLeaves P (translate c ms)) :
    resLeaves P (locate c n ms) := by
  unfold locate
  split
  · rename_i heq; rw [heq] at h; exact checkAccess_leaves c n _ _ _ P h
  · rename_i heq; rw [heq] at h; exact h
  · trivial

end Sys2Proof.Machine
end

