-- ==== Sys2Proof/Laws/Access.lean ====
section
/-! SUPPORT. What loads, stores and fetches can do, said once. -/

namespace Sys2Proof.Machine

theorem resLeaves_mono {σ α : Type} {P Q : σ → Prop} (h : ∀ s, P s → Q s) {r : Res σ α} (hr : resLeaves P r) :
    resLeaves Q r := by
  cases r <;> first | exact h _ hr | trivial

/-! ### One piece -/

/-- Reaching a piece changes no byte but those of a PTE that the translation stores. -/
theorem reach_mem (c : WalkCtx) (isPiece : Bool) (n : Nat) (ms : MemSys) (a : Nat) (hn : ¬inStoredPte c ms a) :
    resLeaves (fun m => Memory.read m.mem a = Memory.read ms.mem a) (reach c isPiece n ms) := by
  have h := locate_leaves c n ms _ (translate_mem c ms a hn)
  unfold reach
  split
  · rename_i heq
    rw [heq] at h
    split
    · exact h
    · split
      · rename_i m' ht
        obtain ⟨_, _, rfl⟩ := MemSys.touch_cases _ _ _ _ _ _ ht
        exact h
      · trivial
  · rename_i heq; rw [heq] at h; exact h
  · trivial

theorem reach_recordsOk (c : WalkCtx) (isPiece : Bool) (n : Nat) (ms : MemSys) (h : recordsOk ms) :
    resLeaves recordsOk (reach c isPiece n ms) := by
  have hl := locate_leaves c n ms _ (translate_recordsOk c ms h)
  unfold reach
  split
  · rename_i heq
    rw [heq] at hl
    split
    · exact hl
    · split
      · rename_i ht; exact MemSys.touch_recordsOk _ _ _ _ _ _ ht hl
      · trivial
  · rename_i heq; rw [heq] at hl; exact hl
  · trivial

theorem loadPiece_recordsOk (c : WalkCtx) (isPiece : Bool) (n : Nat) (ms : MemSys) (h : recordsOk ms) :
    resLeaves recordsOk (loadPiece c isPiece n ms) := by
  have hl := reach_recordsOk c isPiece n ms h
  unfold loadPiece
  split <;> rename_i heq <;> rw [heq] at hl <;> exact hl

theorem storePiece_recordsOk (c : WalkCtx) (isPiece : Bool) (bs : List Byte) (ms : MemSys) (h : recordsOk ms) :
    resLeaves recordsOk (storePiece c isPiece bs ms) := by
  have hl := reach_recordsOk c isPiece bs.length ms h
  unfold storePiece
  split <;> rename_i heq <;> rw [heq] at hl
  · exact ⟨Memory.wf_writeBytes hl.1 _ _, hl.2⟩
  · exact hl
  · exact hl

/-! ### All pieces -/

theorem loadPieces_recordsOk : ∀ (cs : List WalkCtx) (ms : MemSys), recordsOk ms → resLeaves recordsOk (loadPieces cs ms) := by
  intro cs
  induction cs with
  | nil => exact fun _ h => h
  | cons c cs ih =>
    intro ms h
    have hp := loadPiece_recordsOk c true 1 ms h
    unfold loadPieces
    split <;> rename_i heq <;> rw [heq] at hp
    · have hr := ih _ hp
      split <;> rename_i heq' <;> rw [heq'] at hr <;> exact hr
    · exact hp
    · trivial

theorem storePieces_recordsOk : ∀ (cs : List (WalkCtx × Byte)) (ms : MemSys), recordsOk ms →
    resLeaves recordsOk (storePieces cs ms) := by
  intro cs
  induction cs with
  | nil => exact fun _ h => h
  | cons e cs ih =>
    obtain ⟨c, b⟩ := e
    intro ms h
    have hp := storePiece_recordsOk c true [b] ms h
    unfold storePieces
    split <;> rename_i heq <;> rw [heq] at hp
    · exact ih _ hp
    · exact hp
    · trivial

/-- Loading pieces changes no byte but those that their PTE updates name. -/
theorem loadPieces_mem (a : Nat) : ∀ (l : List WalkCtx) (ms : MemSys), ¬loadPiecesWrite l ms a →
    resLeaves (fun m => Memory.read m.mem a = Memory.read ms.mem a) (loadPieces l ms) := by
  intro l
  induction l with
  | nil => intro ms _; rfl
  | cons c l ih =>
    intro ms h
    unfold loadPiecesWrite at h
    rw [not_or] at h
    have h1 := reach_mem c true 1 ms a h.1
    unfold loadPieces
    have h2 := h.2
    cases hp : loadPiece c true 1 ms with
    | ok b ms' =>
      rw [hp] at h2
      have h3 := ih ms' h2
      have h4 : Memory.read ms'.mem a = Memory.read ms.mem a := by
        unfold loadPiece at hp
        split at hp
        · rename_i hr; cases hp; rw [hr] at h1; exact h1
        · cases hp
        · cases hp
      rw [h4] at h3
      dsimp only
      split <;> rename_i heq <;> rw [heq] at h3 <;> exact h3
    | exc x y ms' =>
      unfold loadPiece at hp
      split at hp
      · cases hp
      · rename_i hr; cases hp; rw [hr] at h1; exact h1
      · cases hp
    | stop t => trivial

/-- Storing pieces changes no byte but those that they and their PTE updates name. -/
theorem storePieces_mem (a : Nat) : ∀ (l : List (WalkCtx × Byte)) (ms : MemSys), ¬storePiecesWrite l ms a →
    resLeaves (fun m => Memory.read m.mem a = Memory.read ms.mem a) (storePieces l ms) := by
  intro l
  induction l with
  | nil => intro ms _; rfl
  | cons c l ih =>
    intro ms h
    obtain ⟨c, b⟩ := c
    unfold storePiecesWrite at h
    rw [not_or] at h
    have h1 := reach_mem c true 1 ms a h.1
    unfold storePieces storePiece
    have h2 := h.2
    cases hp : reach c true 1 ms with
    | ok pa ms' =>
      rw [hp] at h2 h1
      dsimp only at h2
      rw [not_or] at h2
      have h3 := ih _ h2.2
      dsimp only
      refine resLeaves_mono ?_ h3
      intro m hm
      rw [hm]
      show Memory.read (Memory.writeBytes ms'.mem pa [b]) a = _
      rw [Memory.read_writeBytes_outside _ _ _ _ (by simp; omega)]; exact h1
    | exc x y ms' =>
      rw [hp] at h1; exact h1
    | stop t => trivial

theorem State.loadBytes_recordsOk (s : State) (va : Word) (n : Nat) (h : recordsOk s.ms) :
    resLeaves recordsOk (s.loadBytes va n) := by
  unfold State.loadBytes
  dsimp only
  split
  · exact loadPiece_recordsOk _ _ _ _ h
  · split
    · exact h
    · rename_i up _
      have := loadPieces_recordsOk (inOrder up (s.pieces va n .load)) s.ms h
      split <;> rename_i heq <;> rw [heq] at this <;> exact this

theorem State.storeBytes_recordsOk (s : State) (va : Word) (bs : List Byte) (h : recordsOk s.ms) :
    resLeaves recordsOk (s.storeBytes va bs) := by
  unfold State.storeBytes
  dsimp only
  split
  · exact storePiece_recordsOk _ _ _ _ h
  · split
    · exact h
    · exact storePieces_recordsOk _ _ h

/-! ### On the state -/

theorem State.withMs_leaves {α : Type} (s : State) (r : Res MemSys α) (P : MemSys → Prop) (h : resLeaves P r) :
    resLeaves (fun t => ∃ m, t = { s with ms := m } ∧ P m) (s.withMs r) := by
  cases r
  · exact ⟨_, rfl, h⟩
  · exact ⟨_, rfl, h⟩
  · trivial

/-- A load changes the memory system only, and keeps its records. -/
theorem State.loadWord_leaves (s : State) (va : Word) (h : recordsOk s.ms) :
    resLeaves (fun t => ∃ m, t = { s with ms := m } ∧ recordsOk m) (s.loadWord va) := by
  have hl := s.withMs_leaves _ _ (s.loadBytes_recordsOk va 4 h)
  unfold State.loadWord
  split <;> rename_i heq <;> rw [heq] at hl <;> exact hl

/-- A store changes the memory system only, and keeps its records. -/
theorem State.storeWord_leaves (s : State) (va : Word) (v : BitVec 32) (h : recordsOk s.ms) :
    resLeaves (fun t => ∃ m, t = { s with ms := m } ∧ recordsOk m) (s.storeWord va v) :=
  s.withMs_leaves _ _ (s.storeBytes_recordsOk va _ h)

/-- A load changes the memory system only. -/
theorem State.loadWord_frame (s : State) (va : Word) : resLeaves (fun t => ∃ m, t = { s with ms := m }) (s.loadWord va) := by
  have hl := s.withMs_leaves (s.loadBytes va 4) (fun _ => True) (by cases s.loadBytes va 4 <;> trivial)
  unfold State.loadWord
  split <;> rename_i heq <;> rw [heq] at hl
  · obtain ⟨m, hm, _⟩ := hl; exact ⟨m, hm⟩
  · obtain ⟨m, hm, _⟩ := hl; exact ⟨m, hm⟩
  · trivial

/-- A store changes the memory system only. -/
theorem State.storeWord_frame (s : State) (va : Word) (v : BitVec 32) :
    resLeaves (fun t => ∃ m, t = { s with ms := m }) (s.storeWord va v) := by
  have hl := s.withMs_leaves (s.storeBytes va (splitBytes (s.bigEndian s.effectivePriv) 4 v.toNat)) (fun _ => True)
    (by cases s.storeBytes va (splitBytes (s.bigEndian s.effectivePriv) 4 v.toNat) <;> trivial)
  exact resLeaves_mono (fun t ht => ⟨ht.choose, ht.choose_spec.1⟩) hl

/-! ### Fetch -/

theorem State.fetchBytes_recordsOk (s : State) (va : Word) (n : Nat) (ms : MemSys) (h : recordsOk ms) :
    resLeaves recordsOk (s.fetchBytes va n ms) := by
  have hl := reach_recordsOk (s.walkCtx va .fetch s.priv) false n ms h
  unfold State.fetchBytes
  split <;> rename_i heq <;> rw [heq] at hl <;> exact hl

theorem State.fetchSecond_recordsOk (s : State) (low : Nat) (ms : MemSys) (h : recordsOk ms) :
    resLeaves recordsOk (s.fetchSecond low ms) := by
  have hl := s.fetchBytes_recordsOk (s.pc + 2) 2 ms h
  unfold State.fetchSecond
  split <;> rename_i heq <;> rw [heq] at hl <;> exact hl

theorem State.fetchWhole_recordsOk (s : State) (h : recordsOk s.ms) : resLeaves recordsOk s.fetchWhole := by
  have hl := s.fetchBytes_recordsOk s.pc 4 s.ms h
  unfold State.fetchWhole
  split <;> rename_i heq <;> rw [heq] at hl <;> exact hl

theorem State.fetchParcels_recordsOk (s : State) (h : recordsOk s.ms) : resLeaves recordsOk s.fetchParcels := by
  have hl := s.fetchBytes_recordsOk s.pc 2 s.ms h
  unfold State.fetchParcels
  split <;> rename_i heq <;> rw [heq] at hl
  · split
    · exact hl
    · exact s.fetchSecond_recordsOk _ _ hl
  · exact hl
  · exact hl

/-- A fetch changes the memory system only, and keeps its records. -/
theorem State.fetch_leaves (s : State) (h : recordsOk s.ms) :
    resLeaves (fun t => ∃ m, t = { s with ms := m } ∧ recordsOk m) s.fetch := by
  unfold State.fetch
  split
  · exact s.withMs_leaves _ _ (s.fetchWhole_recordsOk h)
  · exact s.withMs_leaves _ _ (s.fetchParcels_recordsOk h)

/-- A fetch changes the memory system only. -/
theorem State.fetch_frame (s : State) : resLeaves (fun t => ∃ m, t = { s with ms := m }) s.fetch := by
  have any : ∀ r : Res MemSys Fetched, resLeaves (fun _ => True) r := by intro r; cases r <;> trivial
  exact resLeaves_mono (fun t ht => ⟨ht.choose, ht.choose_spec.1⟩) (s.withMs_leaves _ _ (any _))

end Sys2Proof.Machine
end

