-- ==== Sys2Proof/Laws/State.lean ====
section
/-! SUPPORT. One lemma per field per update of the state, so that no later proof unfolds an update. -/

namespace Sys2Proof.Machine

/-! ### `advance` -/

@[simp] theorem State.advance_cfg (s : State) : s.advance.cfg = s.cfg := rfl
@[simp] theorem State.advance_regs (s : State) : s.advance.regs = s.regs := rfl
@[simp] theorem State.advance_priv (s : State) : s.advance.priv = s.priv := rfl
@[simp] theorem State.advance_sstatus (s : State) : s.advance.sstatus = s.sstatus := rfl
@[simp] theorem State.advance_stvec (s : State) : s.advance.stvec = s.stvec := rfl
@[simp] theorem State.advance_sip (s : State) : s.advance.sip = s.sip := rfl
@[simp] theorem State.advance_sie (s : State) : s.advance.sie = s.sie := rfl
@[simp] theorem State.advance_scounteren (s : State) : s.advance.scounteren = s.scounteren := rfl
@[simp] theorem State.advance_sscratch (s : State) : s.advance.sscratch = s.sscratch := rfl
@[simp] theorem State.advance_sepc (s : State) : s.advance.sepc = s.sepc := rfl
@[simp] theorem State.advance_scause (s : State) : s.advance.scause = s.scause := rfl
@[simp] theorem State.advance_stval (s : State) : s.advance.stval = s.stval := rfl
@[simp] theorem State.advance_senvcfg (s : State) : s.advance.senvcfg = s.senvcfg := rfl
@[simp] theorem State.advance_satp (s : State) : s.advance.satp = s.satp := rfl
@[simp] theorem State.advance_srmcfg (s : State) : s.advance.srmcfg = s.srmcfg := rfl
@[simp] theorem State.advance_counters (s : State) : s.advance.counters = s.counters := rfl
@[simp] theorem State.advance_elp (s : State) : s.advance.elp = s.elp := rfl
@[simp] theorem State.advance_reservation (s : State) : s.advance.reservation = s.reservation := rfl
@[simp] theorem State.advance_ms (s : State) : s.advance.ms = s.ms := rfl
@[simp] theorem State.advance_walks (s : State) : s.advance.walks = s.walks := rfl
@[simp] theorem State.advance_pendingInval (s : State) : s.advance.pendingInval = s.pendingInval := rfl
@[simp] theorem State.advance_mach (s : State) : s.advance.mach = s.mach := rfl
@[simp] theorem State.advance_inputs (s : State) : s.advance.inputs = s.inputs := rfl
@[simp] theorem State.advance_recheck (s : State) : s.advance.recheck = s.recheck := rfl
@[simp] theorem State.advance_inbox (s : State) : s.advance.inbox = s.inbox := rfl

/-! ### `setSepc` -/

@[simp] theorem State.setSepc_cfg (s : State) (v : Word) : (s.setSepc v).cfg = s.cfg := rfl
@[simp] theorem State.setSepc_regs (s : State) (v : Word) : (s.setSepc v).regs = s.regs := rfl
@[simp] theorem State.setSepc_pc (s : State) (v : Word) : (s.setSepc v).pc = s.pc := rfl
@[simp] theorem State.setSepc_priv (s : State) (v : Word) : (s.setSepc v).priv = s.priv := rfl
@[simp] theorem State.setSepc_sstatus (s : State) (v : Word) : (s.setSepc v).sstatus = s.sstatus := rfl
@[simp] theorem State.setSepc_stvec (s : State) (v : Word) : (s.setSepc v).stvec = s.stvec := rfl
@[simp] theorem State.setSepc_sip (s : State) (v : Word) : (s.setSepc v).sip = s.sip := rfl
@[simp] theorem State.setSepc_sie (s : State) (v : Word) : (s.setSepc v).sie = s.sie := rfl
@[simp] theorem State.setSepc_scounteren (s : State) (v : Word) : (s.setSepc v).scounteren = s.scounteren := rfl
@[simp] theorem State.setSepc_sscratch (s : State) (v : Word) : (s.setSepc v).sscratch = s.sscratch := rfl
@[simp] theorem State.setSepc_scause (s : State) (v : Word) : (s.setSepc v).scause = s.scause := rfl
@[simp] theorem State.setSepc_stval (s : State) (v : Word) : (s.setSepc v).stval = s.stval := rfl
@[simp] theorem State.setSepc_senvcfg (s : State) (v : Word) : (s.setSepc v).senvcfg = s.senvcfg := rfl
@[simp] theorem State.setSepc_satp (s : State) (v : Word) : (s.setSepc v).satp = s.satp := rfl
@[simp] theorem State.setSepc_srmcfg (s : State) (v : Word) : (s.setSepc v).srmcfg = s.srmcfg := rfl
@[simp] theorem State.setSepc_counters (s : State) (v : Word) : (s.setSepc v).counters = s.counters := rfl
@[simp] theorem State.setSepc_elp (s : State) (v : Word) : (s.setSepc v).elp = s.elp := rfl
@[simp] theorem State.setSepc_reservation (s : State) (v : Word) : (s.setSepc v).reservation = s.reservation := rfl
@[simp] theorem State.setSepc_ms (s : State) (v : Word) : (s.setSepc v).ms = s.ms := rfl
@[simp] theorem State.setSepc_walks (s : State) (v : Word) : (s.setSepc v).walks = s.walks := rfl
@[simp] theorem State.setSepc_pendingInval (s : State) (v : Word) : (s.setSepc v).pendingInval = s.pendingInval := rfl
@[simp] theorem State.setSepc_mach (s : State) (v : Word) : (s.setSepc v).mach = s.mach := rfl
@[simp] theorem State.setSepc_inputs (s : State) (v : Word) : (s.setSepc v).inputs = s.inputs := rfl
@[simp] theorem State.setSepc_recheck (s : State) (v : Word) : (s.setSepc v).recheck = s.recheck := rfl
@[simp] theorem State.setSepc_inbox (s : State) (v : Word) : (s.setSepc v).inbox = s.inbox := rfl

/-! ### `setStval` -/

@[simp] theorem State.setStval_cfg (s : State) (v : Word) : (s.setStval v).cfg = s.cfg := rfl
@[simp] theorem State.setStval_regs (s : State) (v : Word) : (s.setStval v).regs = s.regs := rfl
@[simp] theorem State.setStval_pc (s : State) (v : Word) : (s.setStval v).pc = s.pc := rfl
@[simp] theorem State.setStval_priv (s : State) (v : Word) : (s.setStval v).priv = s.priv := rfl
@[simp] theorem State.setStval_sstatus (s : State) (v : Word) : (s.setStval v).sstatus = s.sstatus := rfl
@[simp] theorem State.setStval_stvec (s : State) (v : Word) : (s.setStval v).stvec = s.stvec := rfl
@[simp] theorem State.setStval_sip (s : State) (v : Word) : (s.setStval v).sip = s.sip := rfl
@[simp] theorem State.setStval_sie (s : State) (v : Word) : (s.setStval v).sie = s.sie := rfl
@[simp] theorem State.setStval_scounteren (s : State) (v : Word) : (s.setStval v).scounteren = s.scounteren := rfl
@[simp] theorem State.setStval_sscratch (s : State) (v : Word) : (s.setStval v).sscratch = s.sscratch := rfl
@[simp] theorem State.setStval_sepc (s : State) (v : Word) : (s.setStval v).sepc = s.sepc := rfl
@[simp] theorem State.setStval_scause (s : State) (v : Word) : (s.setStval v).scause = s.scause := rfl
@[simp] theorem State.setStval_senvcfg (s : State) (v : Word) : (s.setStval v).senvcfg = s.senvcfg := rfl
@[simp] theorem State.setStval_satp (s : State) (v : Word) : (s.setStval v).satp = s.satp := rfl
@[simp] theorem State.setStval_srmcfg (s : State) (v : Word) : (s.setStval v).srmcfg = s.srmcfg := rfl
@[simp] theorem State.setStval_counters (s : State) (v : Word) : (s.setStval v).counters = s.counters := rfl
@[simp] theorem State.setStval_elp (s : State) (v : Word) : (s.setStval v).elp = s.elp := rfl
@[simp] theorem State.setStval_reservation (s : State) (v : Word) : (s.setStval v).reservation = s.reservation := rfl
@[simp] theorem State.setStval_ms (s : State) (v : Word) : (s.setStval v).ms = s.ms := rfl
@[simp] theorem State.setStval_walks (s : State) (v : Word) : (s.setStval v).walks = s.walks := rfl
@[simp] theorem State.setStval_pendingInval (s : State) (v : Word) : (s.setStval v).pendingInval = s.pendingInval := rfl
@[simp] theorem State.setStval_mach (s : State) (v : Word) : (s.setStval v).mach = s.mach := rfl
@[simp] theorem State.setStval_inputs (s : State) (v : Word) : (s.setStval v).inputs = s.inputs := rfl
@[simp] theorem State.setStval_recheck (s : State) (v : Word) : (s.setStval v).recheck = s.recheck := rfl
@[simp] theorem State.setStval_inbox (s : State) (v : Word) : (s.setStval v).inbox = s.inbox := rfl

/-! ### `fenceOne` -/

@[simp] theorem State.fenceOne_cfg (s : State) (q : FenceRequest) : (s.fenceOne q).cfg = s.cfg := rfl
@[simp] theorem State.fenceOne_regs (s : State) (q : FenceRequest) : (s.fenceOne q).regs = s.regs := rfl
@[simp] theorem State.fenceOne_pc (s : State) (q : FenceRequest) : (s.fenceOne q).pc = s.pc := rfl
@[simp] theorem State.fenceOne_priv (s : State) (q : FenceRequest) : (s.fenceOne q).priv = s.priv := rfl
@[simp] theorem State.fenceOne_sstatus (s : State) (q : FenceRequest) : (s.fenceOne q).sstatus = s.sstatus := rfl
@[simp] theorem State.fenceOne_stvec (s : State) (q : FenceRequest) : (s.fenceOne q).stvec = s.stvec := rfl
@[simp] theorem State.fenceOne_sip (s : State) (q : FenceRequest) : (s.fenceOne q).sip = s.sip := rfl
@[simp] theorem State.fenceOne_sie (s : State) (q : FenceRequest) : (s.fenceOne q).sie = s.sie := rfl
@[simp] theorem State.fenceOne_scounteren (s : State) (q : FenceRequest) : (s.fenceOne q).scounteren = s.scounteren := rfl
@[simp] theorem State.fenceOne_sscratch (s : State) (q : FenceRequest) : (s.fenceOne q).sscratch = s.sscratch := rfl
@[simp] theorem State.fenceOne_sepc (s : State) (q : FenceRequest) : (s.fenceOne q).sepc = s.sepc := rfl
@[simp] theorem State.fenceOne_scause (s : State) (q : FenceRequest) : (s.fenceOne q).scause = s.scause := rfl
@[simp] theorem State.fenceOne_stval (s : State) (q : FenceRequest) : (s.fenceOne q).stval = s.stval := rfl
@[simp] theorem State.fenceOne_senvcfg (s : State) (q : FenceRequest) : (s.fenceOne q).senvcfg = s.senvcfg := rfl
@[simp] theorem State.fenceOne_satp (s : State) (q : FenceRequest) : (s.fenceOne q).satp = s.satp := rfl
@[simp] theorem State.fenceOne_srmcfg (s : State) (q : FenceRequest) : (s.fenceOne q).srmcfg = s.srmcfg := rfl
@[simp] theorem State.fenceOne_counters (s : State) (q : FenceRequest) : (s.fenceOne q).counters = s.counters := rfl
@[simp] theorem State.fenceOne_elp (s : State) (q : FenceRequest) : (s.fenceOne q).elp = s.elp := rfl
@[simp] theorem State.fenceOne_reservation (s : State) (q : FenceRequest) : (s.fenceOne q).reservation = s.reservation := rfl
@[simp] theorem State.fenceOne_pendingInval (s : State) (q : FenceRequest) : (s.fenceOne q).pendingInval = s.pendingInval := rfl
@[simp] theorem State.fenceOne_mach (s : State) (q : FenceRequest) : (s.fenceOne q).mach = s.mach := rfl
@[simp] theorem State.fenceOne_inputs (s : State) (q : FenceRequest) : (s.fenceOne q).inputs = s.inputs := rfl
@[simp] theorem State.fenceOne_recheck (s : State) (q : FenceRequest) : (s.fenceOne q).recheck = s.recheck := rfl
@[simp] theorem State.fenceOne_inbox (s : State) (q : FenceRequest) : (s.fenceOne q).inbox = s.inbox := rfl

/-! ### `writeSstatus` -/

@[simp] theorem State.writeSstatus_cfg (s : State) (w : Word) : (s.writeSstatus w).cfg = s.cfg := rfl
@[simp] theorem State.writeSstatus_regs (s : State) (w : Word) : (s.writeSstatus w).regs = s.regs := rfl
@[simp] theorem State.writeSstatus_pc (s : State) (w : Word) : (s.writeSstatus w).pc = s.pc := rfl
@[simp] theorem State.writeSstatus_priv (s : State) (w : Word) : (s.writeSstatus w).priv = s.priv := rfl
@[simp] theorem State.writeSstatus_stvec (s : State) (w : Word) : (s.writeSstatus w).stvec = s.stvec := rfl
@[simp] theorem State.writeSstatus_sip (s : State) (w : Word) : (s.writeSstatus w).sip = s.sip := rfl
@[simp] theorem State.writeSstatus_sie (s : State) (w : Word) : (s.writeSstatus w).sie = s.sie := rfl
@[simp] theorem State.writeSstatus_scounteren (s : State) (w : Word) : (s.writeSstatus w).scounteren = s.scounteren := rfl
@[simp] theorem State.writeSstatus_sscratch (s : State) (w : Word) : (s.writeSstatus w).sscratch = s.sscratch := rfl
@[simp] theorem State.writeSstatus_sepc (s : State) (w : Word) : (s.writeSstatus w).sepc = s.sepc := rfl
@[simp] theorem State.writeSstatus_scause (s : State) (w : Word) : (s.writeSstatus w).scause = s.scause := rfl
@[simp] theorem State.writeSstatus_stval (s : State) (w : Word) : (s.writeSstatus w).stval = s.stval := rfl
@[simp] theorem State.writeSstatus_senvcfg (s : State) (w : Word) : (s.writeSstatus w).senvcfg = s.senvcfg := rfl
@[simp] theorem State.writeSstatus_satp (s : State) (w : Word) : (s.writeSstatus w).satp = s.satp := rfl
@[simp] theorem State.writeSstatus_srmcfg (s : State) (w : Word) : (s.writeSstatus w).srmcfg = s.srmcfg := rfl
@[simp] theorem State.writeSstatus_counters (s : State) (w : Word) : (s.writeSstatus w).counters = s.counters := rfl
@[simp] theorem State.writeSstatus_elp (s : State) (w : Word) : (s.writeSstatus w).elp = s.elp := rfl
@[simp] theorem State.writeSstatus_reservation (s : State) (w : Word) : (s.writeSstatus w).reservation = s.reservation := rfl
@[simp] theorem State.writeSstatus_ms (s : State) (w : Word) : (s.writeSstatus w).ms = s.ms := rfl
@[simp] theorem State.writeSstatus_walks (s : State) (w : Word) : (s.writeSstatus w).walks = s.walks := rfl
@[simp] theorem State.writeSstatus_pendingInval (s : State) (w : Word) : (s.writeSstatus w).pendingInval = s.pendingInval := rfl
@[simp] theorem State.writeSstatus_mach (s : State) (w : Word) : (s.writeSstatus w).mach = s.mach := rfl
@[simp] theorem State.writeSstatus_inputs (s : State) (w : Word) : (s.writeSstatus w).inputs = s.inputs := rfl
@[simp] theorem State.writeSstatus_recheck (s : State) (w : Word) : (s.writeSstatus w).recheck = s.recheck := rfl
@[simp] theorem State.writeSstatus_inbox (s : State) (w : Word) : (s.writeSstatus w).inbox = s.inbox := rfl

/-! ### `writeSie` -/

@[simp] theorem State.writeSie_cfg (s : State) (w : Word) : (s.writeSie w).cfg = s.cfg := rfl
@[simp] theorem State.writeSie_regs (s : State) (w : Word) : (s.writeSie w).regs = s.regs := rfl
@[simp] theorem State.writeSie_pc (s : State) (w : Word) : (s.writeSie w).pc = s.pc := rfl
@[simp] theorem State.writeSie_priv (s : State) (w : Word) : (s.writeSie w).priv = s.priv := rfl
@[simp] theorem State.writeSie_sstatus (s : State) (w : Word) : (s.writeSie w).sstatus = s.sstatus := rfl
@[simp] theorem State.writeSie_stvec (s : State) (w : Word) : (s.writeSie w).stvec = s.stvec := rfl
@[simp] theorem State.writeSie_sip (s : State) (w : Word) : (s.writeSie w).sip = s.sip := rfl
@[simp] theorem State.writeSie_scounteren (s : State) (w : Word) : (s.writeSie w).scounteren = s.scounteren := rfl
@[simp] theorem State.writeSie_sscratch (s : State) (w : Word) : (s.writeSie w).sscratch = s.sscratch := rfl
@[simp] theorem State.writeSie_sepc (s : State) (w : Word) : (s.writeSie w).sepc = s.sepc := rfl
@[simp] theorem State.writeSie_scause (s : State) (w : Word) : (s.writeSie w).scause = s.scause := rfl
@[simp] theorem State.writeSie_stval (s : State) (w : Word) : (s.writeSie w).stval = s.stval := rfl
@[simp] theorem State.writeSie_senvcfg (s : State) (w : Word) : (s.writeSie w).senvcfg = s.senvcfg := rfl
@[simp] theorem State.writeSie_satp (s : State) (w : Word) : (s.writeSie w).satp = s.satp := rfl
@[simp] theorem State.writeSie_srmcfg (s : State) (w : Word) : (s.writeSie w).srmcfg = s.srmcfg := rfl
@[simp] theorem State.writeSie_counters (s : State) (w : Word) : (s.writeSie w).counters = s.counters := rfl
@[simp] theorem State.writeSie_elp (s : State) (w : Word) : (s.writeSie w).elp = s.elp := rfl
@[simp] theorem State.writeSie_reservation (s : State) (w : Word) : (s.writeSie w).reservation = s.reservation := rfl
@[simp] theorem State.writeSie_ms (s : State) (w : Word) : (s.writeSie w).ms = s.ms := rfl
@[simp] theorem State.writeSie_walks (s : State) (w : Word) : (s.writeSie w).walks = s.walks := rfl
@[simp] theorem State.writeSie_pendingInval (s : State) (w : Word) : (s.writeSie w).pendingInval = s.pendingInval := rfl
@[simp] theorem State.writeSie_mach (s : State) (w : Word) : (s.writeSie w).mach = s.mach := rfl
@[simp] theorem State.writeSie_inputs (s : State) (w : Word) : (s.writeSie w).inputs = s.inputs := rfl
@[simp] theorem State.writeSie_recheck (s : State) (w : Word) : (s.writeSie w).recheck = s.recheck := rfl
@[simp] theorem State.writeSie_inbox (s : State) (w : Word) : (s.writeSie w).inbox = s.inbox := rfl

/-! ### `writeSip` -/

@[simp] theorem State.writeSip_cfg (s : State) (w : Word) : (s.writeSip w).cfg = s.cfg := rfl
@[simp] theorem State.writeSip_regs (s : State) (w : Word) : (s.writeSip w).regs = s.regs := rfl
@[simp] theorem State.writeSip_pc (s : State) (w : Word) : (s.writeSip w).pc = s.pc := rfl
@[simp] theorem State.writeSip_priv (s : State) (w : Word) : (s.writeSip w).priv = s.priv := rfl
@[simp] theorem State.writeSip_sstatus (s : State) (w : Word) : (s.writeSip w).sstatus = s.sstatus := rfl
@[simp] theorem State.writeSip_stvec (s : State) (w : Word) : (s.writeSip w).stvec = s.stvec := rfl
@[simp] theorem State.writeSip_sie (s : State) (w : Word) : (s.writeSip w).sie = s.sie := rfl
@[simp] theorem State.writeSip_scounteren (s : State) (w : Word) : (s.writeSip w).scounteren = s.scounteren := rfl
@[simp] theorem State.writeSip_sscratch (s : State) (w : Word) : (s.writeSip w).sscratch = s.sscratch := rfl
@[simp] theorem State.writeSip_sepc (s : State) (w : Word) : (s.writeSip w).sepc = s.sepc := rfl
@[simp] theorem State.writeSip_scause (s : State) (w : Word) : (s.writeSip w).scause = s.scause := rfl
@[simp] theorem State.writeSip_stval (s : State) (w : Word) : (s.writeSip w).stval = s.stval := rfl
@[simp] theorem State.writeSip_senvcfg (s : State) (w : Word) : (s.writeSip w).senvcfg = s.senvcfg := rfl
@[simp] theorem State.writeSip_satp (s : State) (w : Word) : (s.writeSip w).satp = s.satp := rfl
@[simp] theorem State.writeSip_srmcfg (s : State) (w : Word) : (s.writeSip w).srmcfg = s.srmcfg := rfl
@[simp] theorem State.writeSip_counters (s : State) (w : Word) : (s.writeSip w).counters = s.counters := rfl
@[simp] theorem State.writeSip_elp (s : State) (w : Word) : (s.writeSip w).elp = s.elp := rfl
@[simp] theorem State.writeSip_reservation (s : State) (w : Word) : (s.writeSip w).reservation = s.reservation := rfl
@[simp] theorem State.writeSip_ms (s : State) (w : Word) : (s.writeSip w).ms = s.ms := rfl
@[simp] theorem State.writeSip_walks (s : State) (w : Word) : (s.writeSip w).walks = s.walks := rfl
@[simp] theorem State.writeSip_pendingInval (s : State) (w : Word) : (s.writeSip w).pendingInval = s.pendingInval := rfl
@[simp] theorem State.writeSip_mach (s : State) (w : Word) : (s.writeSip w).mach = s.mach := rfl
@[simp] theorem State.writeSip_inputs (s : State) (w : Word) : (s.writeSip w).inputs = s.inputs := rfl
@[simp] theorem State.writeSip_recheck (s : State) (w : Word) : (s.writeSip w).recheck = s.recheck := rfl
@[simp] theorem State.writeSip_inbox (s : State) (w : Word) : (s.writeSip w).inbox = s.inbox := rfl

/-! ### `writeStvec` -/

@[simp] theorem State.writeStvec_cfg (s : State) (w : Word) : (s.writeStvec w).cfg = s.cfg := rfl
@[simp] theorem State.writeStvec_regs (s : State) (w : Word) : (s.writeStvec w).regs = s.regs := rfl
@[simp] theorem State.writeStvec_pc (s : State) (w : Word) : (s.writeStvec w).pc = s.pc := rfl
@[simp] theorem State.writeStvec_priv (s : State) (w : Word) : (s.writeStvec w).priv = s.priv := rfl
@[simp] theorem State.writeStvec_sstatus (s : State) (w : Word) : (s.writeStvec w).sstatus = s.sstatus := rfl
@[simp] theorem State.writeStvec_sip (s : State) (w : Word) : (s.writeStvec w).sip = s.sip := rfl
@[simp] theorem State.writeStvec_sie (s : State) (w : Word) : (s.writeStvec w).sie = s.sie := rfl
@[simp] theorem State.writeStvec_scounteren (s : State) (w : Word) : (s.writeStvec w).scounteren = s.scounteren := rfl
@[simp] theorem State.writeStvec_sscratch (s : State) (w : Word) : (s.writeStvec w).sscratch = s.sscratch := rfl
@[simp] theorem State.writeStvec_sepc (s : State) (w : Word) : (s.writeStvec w).sepc = s.sepc := rfl
@[simp] theorem State.writeStvec_scause (s : State) (w : Word) : (s.writeStvec w).scause = s.scause := rfl
@[simp] theorem State.writeStvec_stval (s : State) (w : Word) : (s.writeStvec w).stval = s.stval := rfl
@[simp] theorem State.writeStvec_senvcfg (s : State) (w : Word) : (s.writeStvec w).senvcfg = s.senvcfg := rfl
@[simp] theorem State.writeStvec_satp (s : State) (w : Word) : (s.writeStvec w).satp = s.satp := rfl
@[simp] theorem State.writeStvec_srmcfg (s : State) (w : Word) : (s.writeStvec w).srmcfg = s.srmcfg := rfl
@[simp] theorem State.writeStvec_counters (s : State) (w : Word) : (s.writeStvec w).counters = s.counters := rfl
@[simp] theorem State.writeStvec_elp (s : State) (w : Word) : (s.writeStvec w).elp = s.elp := rfl
@[simp] theorem State.writeStvec_reservation (s : State) (w : Word) : (s.writeStvec w).reservation = s.reservation := rfl
@[simp] theorem State.writeStvec_ms (s : State) (w : Word) : (s.writeStvec w).ms = s.ms := rfl
@[simp] theorem State.writeStvec_walks (s : State) (w : Word) : (s.writeStvec w).walks = s.walks := rfl
@[simp] theorem State.writeStvec_pendingInval (s : State) (w : Word) : (s.writeStvec w).pendingInval = s.pendingInval := rfl
@[simp] theorem State.writeStvec_mach (s : State) (w : Word) : (s.writeStvec w).mach = s.mach := rfl
@[simp] theorem State.writeStvec_inputs (s : State) (w : Word) : (s.writeStvec w).inputs = s.inputs := rfl
@[simp] theorem State.writeStvec_recheck (s : State) (w : Word) : (s.writeStvec w).recheck = s.recheck := rfl
@[simp] theorem State.writeStvec_inbox (s : State) (w : Word) : (s.writeStvec w).inbox = s.inbox := rfl

/-! ### `writeScause` -/

@[simp] theorem State.writeScause_cfg (s : State) (w : Word) : (s.writeScause w).cfg = s.cfg := rfl
@[simp] theorem State.writeScause_regs (s : State) (w : Word) : (s.writeScause w).regs = s.regs := rfl
@[simp] theorem State.writeScause_pc (s : State) (w : Word) : (s.writeScause w).pc = s.pc := rfl
@[simp] theorem State.writeScause_priv (s : State) (w : Word) : (s.writeScause w).priv = s.priv := rfl
@[simp] theorem State.writeScause_sstatus (s : State) (w : Word) : (s.writeScause w).sstatus = s.sstatus := rfl
@[simp] theorem State.writeScause_stvec (s : State) (w : Word) : (s.writeScause w).stvec = s.stvec := rfl
@[simp] theorem State.writeScause_sip (s : State) (w : Word) : (s.writeScause w).sip = s.sip := rfl
@[simp] theorem State.writeScause_sie (s : State) (w : Word) : (s.writeScause w).sie = s.sie := rfl
@[simp] theorem State.writeScause_scounteren (s : State) (w : Word) : (s.writeScause w).scounteren = s.scounteren := rfl
@[simp] theorem State.writeScause_sscratch (s : State) (w : Word) : (s.writeScause w).sscratch = s.sscratch := rfl
@[simp] theorem State.writeScause_sepc (s : State) (w : Word) : (s.writeScause w).sepc = s.sepc := rfl
@[simp] theorem State.writeScause_stval (s : State) (w : Word) : (s.writeScause w).stval = s.stval := rfl
@[simp] theorem State.writeScause_senvcfg (s : State) (w : Word) : (s.writeScause w).senvcfg = s.senvcfg := rfl
@[simp] theorem State.writeScause_satp (s : State) (w : Word) : (s.writeScause w).satp = s.satp := rfl
@[simp] theorem State.writeScause_srmcfg (s : State) (w : Word) : (s.writeScause w).srmcfg = s.srmcfg := rfl
@[simp] theorem State.writeScause_counters (s : State) (w : Word) : (s.writeScause w).counters = s.counters := rfl
@[simp] theorem State.writeScause_elp (s : State) (w : Word) : (s.writeScause w).elp = s.elp := rfl
@[simp] theorem State.writeScause_reservation (s : State) (w : Word) : (s.writeScause w).reservation = s.reservation := rfl
@[simp] theorem State.writeScause_ms (s : State) (w : Word) : (s.writeScause w).ms = s.ms := rfl
@[simp] theorem State.writeScause_walks (s : State) (w : Word) : (s.writeScause w).walks = s.walks := rfl
@[simp] theorem State.writeScause_pendingInval (s : State) (w : Word) : (s.writeScause w).pendingInval = s.pendingInval := rfl
@[simp] theorem State.writeScause_mach (s : State) (w : Word) : (s.writeScause w).mach = s.mach := rfl
@[simp] theorem State.writeScause_inputs (s : State) (w : Word) : (s.writeScause w).inputs = s.inputs := rfl
@[simp] theorem State.writeScause_recheck (s : State) (w : Word) : (s.writeScause w).recheck = s.recheck := rfl
@[simp] theorem State.writeScause_inbox (s : State) (w : Word) : (s.writeScause w).inbox = s.inbox := rfl

/-! ### `writeSenvcfg` -/

@[simp] theorem State.writeSenvcfg_cfg (s : State) (w : Word) : (s.writeSenvcfg w).cfg = s.cfg := rfl
@[simp] theorem State.writeSenvcfg_regs (s : State) (w : Word) : (s.writeSenvcfg w).regs = s.regs := rfl
@[simp] theorem State.writeSenvcfg_pc (s : State) (w : Word) : (s.writeSenvcfg w).pc = s.pc := rfl
@[simp] theorem State.writeSenvcfg_priv (s : State) (w : Word) : (s.writeSenvcfg w).priv = s.priv := rfl
@[simp] theorem State.writeSenvcfg_sstatus (s : State) (w : Word) : (s.writeSenvcfg w).sstatus = s.sstatus := rfl
@[simp] theorem State.writeSenvcfg_stvec (s : State) (w : Word) : (s.writeSenvcfg w).stvec = s.stvec := rfl
@[simp] theorem State.writeSenvcfg_sip (s : State) (w : Word) : (s.writeSenvcfg w).sip = s.sip := rfl
@[simp] theorem State.writeSenvcfg_sie (s : State) (w : Word) : (s.writeSenvcfg w).sie = s.sie := rfl
@[simp] theorem State.writeSenvcfg_scounteren (s : State) (w : Word) : (s.writeSenvcfg w).scounteren = s.scounteren := rfl
@[simp] theorem State.writeSenvcfg_sscratch (s : State) (w : Word) : (s.writeSenvcfg w).sscratch = s.sscratch := rfl
@[simp] theorem State.writeSenvcfg_sepc (s : State) (w : Word) : (s.writeSenvcfg w).sepc = s.sepc := rfl
@[simp] theorem State.writeSenvcfg_scause (s : State) (w : Word) : (s.writeSenvcfg w).scause = s.scause := rfl
@[simp] theorem State.writeSenvcfg_stval (s : State) (w : Word) : (s.writeSenvcfg w).stval = s.stval := rfl
@[simp] theorem State.writeSenvcfg_satp (s : State) (w : Word) : (s.writeSenvcfg w).satp = s.satp := rfl
@[simp] theorem State.writeSenvcfg_srmcfg (s : State) (w : Word) : (s.writeSenvcfg w).srmcfg = s.srmcfg := rfl
@[simp] theorem State.writeSenvcfg_counters (s : State) (w : Word) : (s.writeSenvcfg w).counters = s.counters := rfl
@[simp] theorem State.writeSenvcfg_elp (s : State) (w : Word) : (s.writeSenvcfg w).elp = s.elp := rfl
@[simp] theorem State.writeSenvcfg_reservation (s : State) (w : Word) : (s.writeSenvcfg w).reservation = s.reservation := rfl
@[simp] theorem State.writeSenvcfg_ms (s : State) (w : Word) : (s.writeSenvcfg w).ms = s.ms := rfl
@[simp] theorem State.writeSenvcfg_walks (s : State) (w : Word) : (s.writeSenvcfg w).walks = s.walks := rfl
@[simp] theorem State.writeSenvcfg_pendingInval (s : State) (w : Word) : (s.writeSenvcfg w).pendingInval = s.pendingInval := rfl
@[simp] theorem State.writeSenvcfg_mach (s : State) (w : Word) : (s.writeSenvcfg w).mach = s.mach := rfl
@[simp] theorem State.writeSenvcfg_inputs (s : State) (w : Word) : (s.writeSenvcfg w).inputs = s.inputs := rfl
@[simp] theorem State.writeSenvcfg_recheck (s : State) (w : Word) : (s.writeSenvcfg w).recheck = s.recheck := rfl
@[simp] theorem State.writeSenvcfg_inbox (s : State) (w : Word) : (s.writeSenvcfg w).inbox = s.inbox := rfl

/-! ### `writeSrmcfg` -/

@[simp] theorem State.writeSrmcfg_cfg (s : State) (w : Word) : (s.writeSrmcfg w).cfg = s.cfg := rfl
@[simp] theorem State.writeSrmcfg_regs (s : State) (w : Word) : (s.writeSrmcfg w).regs = s.regs := rfl
@[simp] theorem State.writeSrmcfg_pc (s : State) (w : Word) : (s.writeSrmcfg w).pc = s.pc := rfl
@[simp] theorem State.writeSrmcfg_priv (s : State) (w : Word) : (s.writeSrmcfg w).priv = s.priv := rfl
@[simp] theorem State.writeSrmcfg_sstatus (s : State) (w : Word) : (s.writeSrmcfg w).sstatus = s.sstatus := rfl
@[simp] theorem State.writeSrmcfg_stvec (s : State) (w : Word) : (s.writeSrmcfg w).stvec = s.stvec := rfl
@[simp] theorem State.writeSrmcfg_sip (s : State) (w : Word) : (s.writeSrmcfg w).sip = s.sip := rfl
@[simp] theorem State.writeSrmcfg_sie (s : State) (w : Word) : (s.writeSrmcfg w).sie = s.sie := rfl
@[simp] theorem State.writeSrmcfg_scounteren (s : State) (w : Word) : (s.writeSrmcfg w).scounteren = s.scounteren := rfl
@[simp] theorem State.writeSrmcfg_sscratch (s : State) (w : Word) : (s.writeSrmcfg w).sscratch = s.sscratch := rfl
@[simp] theorem State.writeSrmcfg_sepc (s : State) (w : Word) : (s.writeSrmcfg w).sepc = s.sepc := rfl
@[simp] theorem State.writeSrmcfg_scause (s : State) (w : Word) : (s.writeSrmcfg w).scause = s.scause := rfl
@[simp] theorem State.writeSrmcfg_stval (s : State) (w : Word) : (s.writeSrmcfg w).stval = s.stval := rfl
@[simp] theorem State.writeSrmcfg_senvcfg (s : State) (w : Word) : (s.writeSrmcfg w).senvcfg = s.senvcfg := rfl
@[simp] theorem State.writeSrmcfg_satp (s : State) (w : Word) : (s.writeSrmcfg w).satp = s.satp := rfl
@[simp] theorem State.writeSrmcfg_counters (s : State) (w : Word) : (s.writeSrmcfg w).counters = s.counters := rfl
@[simp] theorem State.writeSrmcfg_elp (s : State) (w : Word) : (s.writeSrmcfg w).elp = s.elp := rfl
@[simp] theorem State.writeSrmcfg_reservation (s : State) (w : Word) : (s.writeSrmcfg w).reservation = s.reservation := rfl
@[simp] theorem State.writeSrmcfg_ms (s : State) (w : Word) : (s.writeSrmcfg w).ms = s.ms := rfl
@[simp] theorem State.writeSrmcfg_walks (s : State) (w : Word) : (s.writeSrmcfg w).walks = s.walks := rfl
@[simp] theorem State.writeSrmcfg_pendingInval (s : State) (w : Word) : (s.writeSrmcfg w).pendingInval = s.pendingInval := rfl
@[simp] theorem State.writeSrmcfg_mach (s : State) (w : Word) : (s.writeSrmcfg w).mach = s.mach := rfl
@[simp] theorem State.writeSrmcfg_inputs (s : State) (w : Word) : (s.writeSrmcfg w).inputs = s.inputs := rfl
@[simp] theorem State.writeSrmcfg_recheck (s : State) (w : Word) : (s.writeSrmcfg w).recheck = s.recheck := rfl
@[simp] theorem State.writeSrmcfg_inbox (s : State) (w : Word) : (s.writeSrmcfg w).inbox = s.inbox := rfl

/-! ### `countRead` -/

@[simp] theorem State.countRead_cfg (s : State) (n : BitVec 5) : (s.countRead n).cfg = s.cfg := rfl
@[simp] theorem State.countRead_regs (s : State) (n : BitVec 5) : (s.countRead n).regs = s.regs := rfl
@[simp] theorem State.countRead_pc (s : State) (n : BitVec 5) : (s.countRead n).pc = s.pc := rfl
@[simp] theorem State.countRead_priv (s : State) (n : BitVec 5) : (s.countRead n).priv = s.priv := rfl
@[simp] theorem State.countRead_sstatus (s : State) (n : BitVec 5) : (s.countRead n).sstatus = s.sstatus := rfl
@[simp] theorem State.countRead_stvec (s : State) (n : BitVec 5) : (s.countRead n).stvec = s.stvec := rfl
@[simp] theorem State.countRead_sip (s : State) (n : BitVec 5) : (s.countRead n).sip = s.sip := rfl
@[simp] theorem State.countRead_sie (s : State) (n : BitVec 5) : (s.countRead n).sie = s.sie := rfl
@[simp] theorem State.countRead_scounteren (s : State) (n : BitVec 5) : (s.countRead n).scounteren = s.scounteren := rfl
@[simp] theorem State.countRead_sscratch (s : State) (n : BitVec 5) : (s.countRead n).sscratch = s.sscratch := rfl
@[simp] theorem State.countRead_sepc (s : State) (n : BitVec 5) : (s.countRead n).sepc = s.sepc := rfl
@[simp] theorem State.countRead_scause (s : State) (n : BitVec 5) : (s.countRead n).scause = s.scause := rfl
@[simp] theorem State.countRead_stval (s : State) (n : BitVec 5) : (s.countRead n).stval = s.stval := rfl
@[simp] theorem State.countRead_senvcfg (s : State) (n : BitVec 5) : (s.countRead n).senvcfg = s.senvcfg := rfl
@[simp] theorem State.countRead_satp (s : State) (n : BitVec 5) : (s.countRead n).satp = s.satp := rfl
@[simp] theorem State.countRead_srmcfg (s : State) (n : BitVec 5) : (s.countRead n).srmcfg = s.srmcfg := rfl
@[simp] theorem State.countRead_elp (s : State) (n : BitVec 5) : (s.countRead n).elp = s.elp := rfl
@[simp] theorem State.countRead_reservation (s : State) (n : BitVec 5) : (s.countRead n).reservation = s.reservation := rfl
@[simp] theorem State.countRead_walks (s : State) (n : BitVec 5) : (s.countRead n).walks = s.walks := rfl
@[simp] theorem State.countRead_pendingInval (s : State) (n : BitVec 5) : (s.countRead n).pendingInval = s.pendingInval := rfl
@[simp] theorem State.countRead_mach (s : State) (n : BitVec 5) : (s.countRead n).mach = s.mach := rfl
@[simp] theorem State.countRead_inputs (s : State) (n : BitVec 5) : (s.countRead n).inputs = s.inputs := rfl
@[simp] theorem State.countRead_recheck (s : State) (n : BitVec 5) : (s.countRead n).recheck = s.recheck := rfl
@[simp] theorem State.countRead_inbox (s : State) (n : BitVec 5) : (s.countRead n).inbox = s.inbox := rfl

/-! ### `returnFromTrap` -/

@[simp] theorem State.returnFromTrap_cfg (s : State) : s.returnFromTrap.cfg = s.cfg := rfl
@[simp] theorem State.returnFromTrap_regs (s : State) : s.returnFromTrap.regs = s.regs := rfl
@[simp] theorem State.returnFromTrap_stvec (s : State) : s.returnFromTrap.stvec = s.stvec := rfl
@[simp] theorem State.returnFromTrap_sip (s : State) : s.returnFromTrap.sip = s.sip := rfl
@[simp] theorem State.returnFromTrap_sie (s : State) : s.returnFromTrap.sie = s.sie := rfl
@[simp] theorem State.returnFromTrap_scounteren (s : State) : s.returnFromTrap.scounteren = s.scounteren := rfl
@[simp] theorem State.returnFromTrap_sscratch (s : State) : s.returnFromTrap.sscratch = s.sscratch := rfl
@[simp] theorem State.returnFromTrap_sepc (s : State) : s.returnFromTrap.sepc = s.sepc := rfl
@[simp] theorem State.returnFromTrap_scause (s : State) : s.returnFromTrap.scause = s.scause := rfl
@[simp] theorem State.returnFromTrap_stval (s : State) : s.returnFromTrap.stval = s.stval := rfl
@[simp] theorem State.returnFromTrap_senvcfg (s : State) : s.returnFromTrap.senvcfg = s.senvcfg := rfl
@[simp] theorem State.returnFromTrap_satp (s : State) : s.returnFromTrap.satp = s.satp := rfl
@[simp] theorem State.returnFromTrap_srmcfg (s : State) : s.returnFromTrap.srmcfg = s.srmcfg := rfl
@[simp] theorem State.returnFromTrap_counters (s : State) : s.returnFromTrap.counters = s.counters := rfl
@[simp] theorem State.returnFromTrap_reservation (s : State) : s.returnFromTrap.reservation = s.reservation := rfl
@[simp] theorem State.returnFromTrap_ms (s : State) : s.returnFromTrap.ms = s.ms := rfl
@[simp] theorem State.returnFromTrap_walks (s : State) : s.returnFromTrap.walks = s.walks := rfl
@[simp] theorem State.returnFromTrap_pendingInval (s : State) : s.returnFromTrap.pendingInval = s.pendingInval := rfl
@[simp] theorem State.returnFromTrap_mach (s : State) : s.returnFromTrap.mach = s.mach := rfl
@[simp] theorem State.returnFromTrap_inbox (s : State) : s.returnFromTrap.inbox = s.inbox := rfl

/-! ### `trapToM` -/

@[simp] theorem State.trapToM_cfg (s : State) (c : Nat) (m : Option Word) (t e : Word) : (s.trapToM c m t e).cfg = s.cfg := rfl
@[simp] theorem State.trapToM_regs (s : State) (c : Nat) (m : Option Word) (t e : Word) : (s.trapToM c m t e).regs = s.regs := rfl
@[simp] theorem State.trapToM_sstatus (s : State) (c : Nat) (m : Option Word) (t e : Word) : (s.trapToM c m t e).sstatus = s.sstatus := rfl
@[simp] theorem State.trapToM_stvec (s : State) (c : Nat) (m : Option Word) (t e : Word) : (s.trapToM c m t e).stvec = s.stvec := rfl
@[simp] theorem State.trapToM_sip (s : State) (c : Nat) (m : Option Word) (t e : Word) : (s.trapToM c m t e).sip = s.sip := rfl
@[simp] theorem State.trapToM_sie (s : State) (c : Nat) (m : Option Word) (t e : Word) : (s.trapToM c m t e).sie = s.sie := rfl
@[simp] theorem State.trapToM_scounteren (s : State) (c : Nat) (m : Option Word) (t e : Word) : (s.trapToM c m t e).scounteren = s.scounteren := rfl
@[simp] theorem State.trapToM_sscratch (s : State) (c : Nat) (m : Option Word) (t e : Word) : (s.trapToM c m t e).sscratch = s.sscratch := rfl
@[simp] theorem State.trapToM_sepc (s : State) (c : Nat) (m : Option Word) (t e : Word) : (s.trapToM c m t e).sepc = s.sepc := rfl
@[simp] theorem State.trapToM_scause (s : State) (c : Nat) (m : Option Word) (t e : Word) : (s.trapToM c m t e).scause = s.scause := rfl
@[simp] theorem State.trapToM_stval (s : State) (c : Nat) (m : Option Word) (t e : Word) : (s.trapToM c m t e).stval = s.stval := rfl
@[simp] theorem State.trapToM_senvcfg (s : State) (c : Nat) (m : Option Word) (t e : Word) : (s.trapToM c m t e).senvcfg = s.senvcfg := rfl
@[simp] theorem State.trapToM_satp (s : State) (c : Nat) (m : Option Word) (t e : Word) : (s.trapToM c m t e).satp = s.satp := rfl
@[simp] theorem State.trapToM_srmcfg (s : State) (c : Nat) (m : Option Word) (t e : Word) : (s.trapToM c m t e).srmcfg = s.srmcfg := rfl
@[simp] theorem State.trapToM_counters (s : State) (c : Nat) (m : Option Word) (t e : Word) : (s.trapToM c m t e).counters = s.counters := rfl
@[simp] theorem State.trapToM_elp (s : State) (c : Nat) (m : Option Word) (t e : Word) : (s.trapToM c m t e).elp = (s.elp && !s.cfg.ext.zicfilp) := rfl
@[simp] theorem State.trapToM_reservation (s : State) (c : Nat) (m : Option Word) (t e : Word) : (s.trapToM c m t e).reservation = s.reservation := rfl
@[simp] theorem State.trapToM_walks (s : State) (c : Nat) (m : Option Word) (t e : Word) : (s.trapToM c m t e).walks = s.walks := rfl
@[simp] theorem State.trapToM_pendingInval (s : State) (c : Nat) (m : Option Word) (t e : Word) : (s.trapToM c m t e).pendingInval = s.pendingInval := rfl
@[simp] theorem State.trapToM_inputs (s : State) (c : Nat) (m : Option Word) (t e : Word) : (s.trapToM c m t e).inputs = s.inputs := rfl
@[simp] theorem State.trapToM_recheck (s : State) (c : Nat) (m : Option Word) (t e : Word) : (s.trapToM c m t e).recheck = s.recheck := rfl
@[simp] theorem State.trapToM_inbox (s : State) (c : Nat) (m : Option Word) (t e : Word) : (s.trapToM c m t e).inbox = s.inbox := rfl

/-! ### `setReg` -/

@[simp] theorem State.setReg_cfg (s : State) (r : RegId) (v : Word) : (s.setReg r v).cfg = s.cfg := by
  unfold State.setReg; split <;> rfl
@[simp] theorem State.setReg_pc (s : State) (r : RegId) (v : Word) : (s.setReg r v).pc = s.pc := by
  unfold State.setReg; split <;> rfl
@[simp] theorem State.setReg_priv (s : State) (r : RegId) (v : Word) : (s.setReg r v).priv = s.priv := by
  unfold State.setReg; split <;> rfl
@[simp] theorem State.setReg_sstatus (s : State) (r : RegId) (v : Word) : (s.setReg r v).sstatus = s.sstatus := by
  unfold State.setReg; split <;> rfl
@[simp] theorem State.setReg_stvec (s : State) (r : RegId) (v : Word) : (s.setReg r v).stvec = s.stvec := by
  unfold State.setReg; split <;> rfl
@[simp] theorem State.setReg_sip (s : State) (r : RegId) (v : Word) : (s.setReg r v).sip = s.sip := by
  unfold State.setReg; split <;> rfl
@[simp] theorem State.setReg_sie (s : State) (r : RegId) (v : Word) : (s.setReg r v).sie = s.sie := by
  unfold State.setReg; split <;> rfl
@[simp] theorem State.setReg_scounteren (s : State) (r : RegId) (v : Word) : (s.setReg r v).scounteren = s.scounteren := by
  unfold State.setReg; split <;> rfl
@[simp] theorem State.setReg_sscratch (s : State) (r : RegId) (v : Word) : (s.setReg r v).sscratch = s.sscratch := by
  unfold State.setReg; split <;> rfl
@[simp] theorem State.setReg_sepc (s : State) (r : RegId) (v : Word) : (s.setReg r v).sepc = s.sepc := by
  unfold State.setReg; split <;> rfl
@[simp] theorem State.setReg_scause (s : State) (r : RegId) (v : Word) : (s.setReg r v).scause = s.scause := by
  unfold State.setReg; split <;> rfl
@[simp] theorem State.setReg_stval (s : State) (r : RegId) (v : Word) : (s.setReg r v).stval = s.stval := by
  unfold State.setReg; split <;> rfl
@[simp] theorem State.setReg_senvcfg (s : State) (r : RegId) (v : Word) : (s.setReg r v).senvcfg = s.senvcfg := by
  unfold State.setReg; split <;> rfl
@[simp] theorem State.setReg_satp (s : State) (r : RegId) (v : Word) : (s.setReg r v).satp = s.satp := by
  unfold State.setReg; split <;> rfl
@[simp] theorem State.setReg_srmcfg (s : State) (r : RegId) (v : Word) : (s.setReg r v).srmcfg = s.srmcfg := by
  unfold State.setReg; split <;> rfl
@[simp] theorem State.setReg_counters (s : State) (r : RegId) (v : Word) : (s.setReg r v).counters = s.counters := by
  unfold State.setReg; split <;> rfl
@[simp] theorem State.setReg_elp (s : State) (r : RegId) (v : Word) : (s.setReg r v).elp = s.elp := by
  unfold State.setReg; split <;> rfl
@[simp] theorem State.setReg_reservation (s : State) (r : RegId) (v : Word) : (s.setReg r v).reservation = s.reservation := by
  unfold State.setReg; split <;> rfl
@[simp] theorem State.setReg_ms (s : State) (r : RegId) (v : Word) : (s.setReg r v).ms = s.ms := by
  unfold State.setReg; split <;> rfl
@[simp] theorem State.setReg_walks (s : State) (r : RegId) (v : Word) : (s.setReg r v).walks = s.walks := by
  unfold State.setReg; split <;> rfl
@[simp] theorem State.setReg_pendingInval (s : State) (r : RegId) (v : Word) : (s.setReg r v).pendingInval = s.pendingInval := by
  unfold State.setReg; split <;> rfl
@[simp] theorem State.setReg_mach (s : State) (r : RegId) (v : Word) : (s.setReg r v).mach = s.mach := by
  unfold State.setReg; split <;> rfl
@[simp] theorem State.setReg_inputs (s : State) (r : RegId) (v : Word) : (s.setReg r v).inputs = s.inputs := by
  unfold State.setReg; split <;> rfl
@[simp] theorem State.setReg_recheck (s : State) (r : RegId) (v : Word) : (s.setReg r v).recheck = s.recheck := by
  unfold State.setReg; split <;> rfl
@[simp] theorem State.setReg_inbox (s : State) (r : RegId) (v : Word) : (s.setReg r v).inbox = s.inbox := by
  unfold State.setReg; split <;> rfl

/-! ### What the updates leave in the fields they change -/

@[simp] theorem State.advance_pc (s : State) : s.advance.pc = cut s.cfg.sxlen (s.pc + 4) := rfl
@[simp] theorem State.returnFromTrap_pc (s : State) : s.returnFromTrap.pc = s.readSepc := rfl
@[simp] theorem State.returnFromTrap_recheck (s : State) : s.returnFromTrap.recheck = true := rfl
@[simp] theorem State.trapToM_priv (s : State) (c : Nat) (m : Option Word) (t e : Word) :
    (s.trapToM c m t e).priv = .machine := rfl
@[simp] theorem State.trapToM_mpelp (s : State) (c : Nat) (m : Option Word) (t e : Word) :
    (s.trapToM c m t e).mach.mpelp = s.padMissing := rfl
@[simp] theorem State.trapToM_mem (s : State) (c : Nat) (m : Option Word) (t e : Word) :
    (s.trapToM c m t e).ms.mem = s.ms.mem := rfl
@[simp] theorem State.trapToM_types (s : State) (c : Nat) (m : Option Word) (t e : Word) :
    (s.trapToM c m t e).ms.types = s.ms.types := rfl
@[simp] theorem State.trapToM_atc (s : State) (c : Nat) (m : Option Word) (t e : Word) :
    (s.trapToM c m t e).ms.atc = s.ms.atc := rfl
@[simp] theorem State.countRead_mem (s : State) (n : BitVec 5) : (s.countRead n).ms.mem = s.ms.mem := rfl
@[simp] theorem State.countRead_types (s : State) (n : BitVec 5) : (s.countRead n).ms.types = s.ms.types := rfl
@[simp] theorem State.countRead_atc (s : State) (n : BitVec 5) : (s.countRead n).ms.atc = s.ms.atc := rfl
@[simp] theorem State.fenceOne_mem (s : State) (q : FenceRequest) : (s.fenceOne q).ms.mem = s.ms.mem := rfl
@[simp] theorem State.fenceOne_types (s : State) (q : FenceRequest) : (s.fenceOne q).ms.types = s.ms.types := rfl

/-! ### Integer registers -/

/-- The width of the mode depends on the configuration, the mode and UXL only. -/
theorem State.xlen_congr {s t : State} (hc : t.cfg = s.cfg) (hp : t.priv = s.priv) (hu : t.sstatus.uxl = s.sstatus.uxl) :
    t.xlen = s.xlen := by
  have h : t.uxl = s.uxl := by unfold State.uxl; rw [hc, hu]
  unfold State.xlen State.xlenOf State.uxlen
  rw [hc, hp, h]

/-- Register reads depend on the registers and the width of the mode only. -/
theorem State.reg_congr {s t : State} (hx : t.xlen = s.xlen) (hr : t.regs = s.regs) (r : RegId) : t.reg r = s.reg r := by
  simp only [State.reg, hx, hr]

@[simp] theorem State.reg_zero (s : State) : s.reg 0#5 = 0#64 := by simp [State.reg]

/-- A write to `x0` is discarded. -/
@[simp] theorem State.setReg_zero (s : State) (v : Word) : s.setReg 0#5 v = s := by simp [State.setReg]

@[simp] theorem State.setReg_xlen (s : State) (r : RegId) (v : Word) : (s.setReg r v).xlen = s.xlen :=
  State.xlen_congr (by simp) (by simp) (by simp)

@[simp] theorem State.advance_xlen (s : State) : s.advance.xlen = s.xlen := rfl

@[simp] theorem State.advance_reg (s : State) (r : RegId) : s.advance.reg r = s.reg r := rfl

@[simp] theorem cut_cut (x : Xlen) (v : Word) : cut x (cut x v) = cut x v := by
  cases x <;> simp [cut]

theorem setWidth_signExtend_word (w : BitVec 32) : (w.signExtend 64).setWidth 32 = w := by
  apply BitVec.eq_of_getLsbD_eq
  intro i hi
  have : i < 64 := by omega
  rw [BitVec.getLsbD_setWidth, BitVec.getLsbD_signExtend]
  simp [hi, this]

theorem setWidth_setWidth_word (w : BitVec 32) : (w.setWidth 64).setWidth 32 = w := by
  apply BitVec.eq_of_getLsbD_eq
  intro i hi
  simp [hi]

/-- What a register write stores reads back, at the width of the mode, as the value written. -/
theorem cut_fit (s : State) (v : Word) : cut s.xlen (s.fit v) = cut s.xlen v := by
  unfold State.fit
  cases hx : s.xlen with
  | rv64 => rfl
  | rv32 =>
    cases s.cfg.sxlen <;> simp only [cut, setWidth_setWidth_word, setWidth_signExtend_word]

/-- A register reads what was last written to it, at the width of the mode; `x0` reads 0. -/
theorem State.reg_setReg_same (s : State) (r : RegId) (v : Word) :
    (s.setReg r v).reg r = if r = 0 then 0 else cut s.xlen v := by
  by_cases h : r = 0
  · simp [h]
  · have hx : (s.setReg r v).xlen = s.xlen := by simp
    rw [State.reg, if_neg h, if_neg h, hx]
    simp only [State.setReg, if_neg h, Vector.getElem_set_self]
    exact cut_fit s v

/-- Writing one register leaves the others. -/
theorem State.reg_setReg_other (s : State) {r q : RegId} (v : Word) (h : q ≠ r) : (s.setReg r v).reg q = s.reg q := by
  by_cases hr : r = 0
  · simp [hr]
  · have hx : (s.setReg r v).xlen = s.xlen := by simp
    have hn : r.toNat ≠ q.toNat := fun e => h (BitVec.eq_of_toNat_eq e.symm)
    rw [State.reg, State.reg, hx]
    simp only [State.setReg, if_neg hr, Vector.getElem_set_ne _ _ hn]

end Sys2Proof.Machine
end

