-- ==== Sys2Proof/Laws/Trap.lean ====
section
/-! SUPPORT. What taking an exception or an interrupt and returning from one can do, said once. -/

namespace Sys2Proof.Machine

/-! ### Aligned addresses -/

theorem and_three_eq_zero_iff (x : Word) : x &&& 3#64 = 0 ↔ x.toNat % 4 = 0 := by
  have e : (x &&& 3#64).toNat = x.toNat % 4 := Nat.and_two_pow_sub_one_eq_mod x.toNat 2
  rw [← e]
  exact ⟨fun h => by rw [h]; rfl, fun h => BitVec.eq_of_toNat_eq h⟩

theorem and_one_eq_zero_iff (x : Word) : x &&& 1#64 = 0 ↔ x.toNat % 2 = 0 := by
  have e : (x &&& 1#64).toNat = x.toNat % 2 := Nat.and_two_pow_sub_one_eq_mod x.toNat 1
  rw [← e]
  exact ⟨fun h => by rw [h]; rfl, fun h => BitVec.eq_of_toNat_eq h⟩

theorem cut_toNat (x : Xlen) (v : Word) : (cut x v).toNat = v.toNat % 2 ^ x.bits := by
  cases x
  · have : v.toNat % 2 ^ 32 < 2 ^ 64 := by omega
    simp [cut, Xlen.bits]
    omega
  · have := v.isLt
    simp [cut, Xlen.bits]
    omega

theorem cut_toNat_mod_four (x : Xlen) (v : Word) : (cut x v).toNat % 4 = v.toNat % 4 := by
  rw [cut_toNat]; cases x <;> simp only [Xlen.bits] <;> omega

theorem cut_toNat_mod_two (x : Xlen) (v : Word) : (cut x v).toNat % 2 = v.toNat % 2 := by
  rw [cut_toNat]; cases x <;> simp only [Xlen.bits] <;> omega

theorem clear_three (x : Word) : (x &&& ~~~3#64) &&& 3#64 = 0 := by
  rw [BitVec.and_assoc]; simp

theorem clear_one (x : Word) : (x &&& ~~~1#64) &&& 1#64 = 0 := by
  rw [BitVec.and_assoc]; simp

/-- An address aligned to four bytes is aligned to IALIGN, whatever it is. -/
theorem aligned_of_four {c : Config} {x : Word} (h : x.toNat % 4 = 0) : x &&& alignMask c = 0 := by
  unfold alignMask
  split
  · exact (and_three_eq_zero_iff x).mpr h
  · exact (and_one_eq_zero_iff x).mpr (by omega)

theorem clear_three_toNat (x : Word) : (x &&& ~~~3#64).toNat % 4 = 0 := (and_three_eq_zero_iff _).mp (clear_three x)

/-! ### The shape of a trap -/

/-- Everything that no trap changes: what a trap may change is listed in the record (R346, R360, R367). -/
theorem State.trapToS_frame (s : State) (isI : Bool) (code : Nat) (tv epc : Word) :
    let t := s.trapToS isI code tv epc
    t = { s with
      pc := t.pc, priv := t.priv, sstatus := t.sstatus, elp := t.elp, sepc := t.sepc, scause := t.scause,
      stval := t.stval, mach := t.mach, ms := { s.ms with draws := t.ms.draws } } := by
  unfold State.trapToS
  split <;> rfl

theorem State.takeException_frame (s : State) (c : Cause) (info : Word) :
    let t := s.takeException c info
    t = { s with
      pc := t.pc, priv := t.priv, sstatus := t.sstatus, elp := t.elp, sepc := t.sepc, scause := t.scause,
      stval := t.stval, mach := t.mach, ms := { s.ms with draws := t.ms.draws } } := by
  unfold State.takeException
  dsimp only
  split
  · exact State.trapToS_frame { s with ms := { s.ms with draws := (trapValue s.cfg c info s.ms.draws).2 } } _ _ _ _
  · rfl

theorem State.takeInterrupt_frame (s : State) (code : Nat) :
    let t := s.takeInterrupt code
    t = { s with
      pc := t.pc, priv := t.priv, sstatus := t.sstatus, elp := t.elp, sepc := t.sepc, scause := t.scause,
      stval := t.stval, mach := t.mach, ms := { s.ms with draws := t.ms.draws } } :=
  State.trapToS_frame s true code 0 s.pc

/-- A trap taken in S-mode with SDT clear (R360). -/
theorem State.trapToS_taken (s : State) (isI : Bool) (code : Nat) (tv epc : Word) (h : s.sdtOn = false) :
    s.trapToS isI code tv epc =
      { s with
        sstatus := s.enterStatus
        elp := s.elp && !s.cfg.ext.zicfilp
        sepc := legalize Config.legalEpc s.satp.mode (cut s.cfg.sxlen epc) &&& epcMask s.cfg
        stval := legalStval s.cfg s.satp.mode (cut s.cfg.sxlen tv)
        scause := { interrupt := isI, code := BitVec.ofNat 64 code }
        priv := .supervisor
        pc := s.trapVector isI code } := by
  simp only [State.trapToS, h, Bool.false_eq_true, if_false]
  rfl

/-- A double trap (R367). -/
theorem State.trapToS_double (s : State) (isI : Bool) (code : Nat) (tv epc : Word) (h : s.sdtOn = true) :
    s.trapToS isI code tv epc = s.doubleTrap isI code tv epc := by
  simp only [State.trapToS, h, if_true]

/-- A trap that is not taken in S-mode changes nothing of the supervisor level but ELP, which Zicfilp clears (R346). -/
theorem State.trapToM_frame (s : State) (code : Nat) (m : Option Word) (tv epc : Word) :
    let t := s.trapToM code m tv epc
    t = { s with pc := t.pc, priv := .machine, elp := s.elp && !s.cfg.ext.zicfilp, mach := t.mach, ms := { s.ms with draws := t.ms.draws } } := rfl

/-- An exception raised in M-mode is taken in M-mode (R345). -/
theorem State.takeException_machine (s : State) (c : Cause) (info : Word) (h : s.delegated c.code = false) :
    (s.takeException c info).priv = .machine := by
  unfold State.takeException
  simp [h]

theorem State.delegated_machine (s : State) (code : Nat) (h : s.priv = .machine) : s.delegated code = false := by
  simp [State.delegated, h]

/-- A trap ends in S-mode or in M-mode. -/
theorem State.trapToS_priv (s : State) (isI : Bool) (code : Nat) (tv epc : Word) :
    (s.trapToS isI code tv epc).priv = .supervisor ∨ (s.trapToS isI code tv epc).priv = .machine := by
  unfold State.trapToS
  split
  · exact Or.inr rfl
  · exact Or.inl rfl

/-! ### What a trap does to the invariants -/

theorem State.trapVector_aligned (s : State) (isI : Bool) (code : Nat) : (s.trapVector isI code).toNat % 4 = 0 := by
  have hb := clear_three_toNat s.stvec
  unfold State.trapVector
  dsimp only
  split
  · rw [cut_toNat_mod_four, BitVec.toNat_add, BitVec.toNat_ofNat]
    omega
  · rw [cut_toNat_mod_four]
    exact hb

theorem State.trapToM_aligned (s : State) (code : Nat) (m : Option Word) (tv epc : Word) :
    (s.trapToM code m tv epc).pc.toNat % 4 = 0 := by
  show (cut s.cfg.sxlen (s.mach.mtvec &&& ~~~3#64)).toNat % 4 = 0
  rw [cut_toNat_mod_four]
  exact clear_three_toNat _

theorem State.trapToS_aligned (s : State) (isI : Bool) (code : Nat) (tv epc : Word) :
    (s.trapToS isI code tv epc).pc.toNat % 4 = 0 := by
  unfold State.trapToS
  split
  · exact State.trapToM_aligned s _ _ _ _
  · exact State.trapVector_aligned s isI code

theorem epcMask_aligned (c : Config) (x : Word) : (x &&& epcMask c) &&& alignMask c = 0 := by
  unfold epcMask alignMask
  split
  · exact clear_three x
  · exact clear_one x

/-- `sepc` after a trap keeps its low bits clear, if they were (R70, R74). -/
theorem State.trapToS_sepc (s : State) (isI : Bool) (code : Nat) (tv epc : Word) (h : s.sepc &&& alignMask s.cfg = 0) :
    (s.trapToS isI code tv epc).sepc &&& alignMask s.cfg = 0 := by
  unfold State.trapToS
  split
  · exact h
  · exact epcMask_aligned s.cfg _

end Sys2Proof.Machine
end

