-- ==== Sys2Proof/Laws/Csr.lean ====
section
/-! SUPPORT. What reading and writing a CSR can do, said once, and what it keeps. -/

namespace Sys2Proof.Machine

/-! ### Masks -/

theorem and_not_of_and {n : Nat} (w m : BitVec n) : (w &&& m) &&& ~~~m = 0 := by
  rw [BitVec.and_assoc]; simp

theorem or_and_not {n : Nat} {a b m : BitVec n} (ha : a &&& ~~~m = 0) (hb : b &&& ~~~m = 0) : (a ||| b) &&& ~~~m = 0 := by
  apply BitVec.eq_of_getLsbD_eq
  intro i hi
  have h1 := congrArg (fun x => x.getLsbD i) ha
  have h2 := congrArg (fun x => x.getLsbD i) hb
  simp only [BitVec.getLsbD_and, BitVec.getLsbD_or, BitVec.getLsbD_not, hi] at h1 h2 ⊢
  revert h1 h2
  cases a.getLsbD i <;> cases b.getLsbD i <;> cases m.getLsbD i <;> simp

theorem and_left_and_not {n : Nat} {a m : BitVec n} (b : BitVec n) (ha : a &&& ~~~m = 0) : (a &&& b) &&& ~~~m = 0 := by
  rw [BitVec.and_assoc, BitVec.and_comm b, ← BitVec.and_assoc, ha]; simp

theorem and_right_and_not {n : Nat} {b m : BitVec n} (a : BitVec n) (hb : b &&& ~~~m = 0) : (a &&& b) &&& ~~~m = 0 := by
  rw [BitVec.and_assoc, hb]; simp

/-- Only bits that exist are writable (R56, R62). -/
theorem sipWritable_exists (c : Config) : sipWritable c &&& ~~~(sipBits c) = 0 := by
  apply BitVec.eq_of_getLsbD_eq
  intro i hi
  simp only [sipWritable, sipBits, standardIrqs, BitVec.getLsbD_and, BitVec.getLsbD_or, BitVec.getLsbD_not, hi]
  cases (bitAt c.implSsi 1).getLsbD i <;> cases (bitAt c.ext.sscofpmf 13).getLsbD i <;>
    cases c.sipPlatform.getLsbD i <;> cases c.platformIrqs.getLsbD i <;> cases (platformBits c).getLsbD i <;> simp

/-! ### Bits of a CSR -/

theorem bitAt_getElem (b : Bool) (n k : Nat) (hk : k < 64) : (bitAt b n)[k] = (b && decide (k = n)) := by
  unfold bitAt
  cases b
  · simp
  · by_cases h : k < n
    · simp [h]; omega
    · by_cases h2 : k = n
      · subst h2; simp
      · simp [h, h2]; omega

theorem pairAt_getElem (v : BitVec 2) (n k : Nat) (hk : k < 64) : (pairAt v n)[k] = (decide (n ≤ k) && v.getLsbD (k - n)) := by
  unfold pairAt
  by_cases h : k < n
  · simp [h]
  · simp [h]; simp only [show n ≤ k by omega]; simp

theorem lowBits_getElem (n k : Nat) (hk : k < 64) : (lowBits n)[k] = decide (k < n) := by
  unfold lowBits
  rw [← BitVec.getLsbD_eq_getElem, BitVec.getLsbD_ofNat, Nat.testBit_two_pow_sub_one]
  simp [hk]

/-! ### The shape of a write -/

/-- A CSR write changes the CSRs that can be written, and nothing else. -/
theorem State.writeCsr_frame (s t : State) (c : Csr) (v : Word) (h : s.writeCsr c v = .ok t) :
    t = { s with
      sstatus := t.sstatus, sie := t.sie, stvec := t.stvec, scounteren := t.scounteren, senvcfg := t.senvcfg,
      sscratch := t.sscratch, sepc := t.sepc, scause := t.scause, stval := t.stval, sip := t.sip, satp := t.satp,
      srmcfg := t.srmcfg } := by
  cases c
  case satp =>
    simp only [State.writeCsr, State.writeSatp] at h
    split at h
    · cases h; rfl
    · split at h
      · cases h
      · cases h; rfl
  all_goals cases h; rfl

/-- Only a write of `satp` can stop (R102, R103). -/
theorem State.writeCsr_total (s : State) (c : Csr) (v : Word) (h : c ≠ .satp) : ∃ t, s.writeCsr c v = .ok t := by
  cases c
  case satp => exact absurd rfl h
  all_goals exact ⟨_, rfl⟩

/-- A CSR read changes the counters and the draws only. -/
theorem State.readCsr_frame (s : State) (c : Csr) :
    (s.readCsr c).2 =
      { s with counters := (s.readCsr c).2.counters, ms := { s.ms with draws := (s.readCsr c).2.ms.draws } } := by
  cases c <;> rfl

/-- The read and the write of a CSR instruction change CSRs, counters, draws and `recheck` only. -/
theorem State.csrReadWrite_frame (s t : State) (op : CsrOp) (c : Csr) (src v : Word) (isRead isWrite : Bool)
    (h : s.csrReadWrite op c src isRead isWrite = .ok (v, t)) :
    t = { s with
      sstatus := t.sstatus, sie := t.sie, stvec := t.stvec, scounteren := t.scounteren, senvcfg := t.senvcfg,
      sscratch := t.sscratch, sepc := t.sepc, scause := t.scause, stval := t.stval, sip := t.sip, satp := t.satp,
      srmcfg := t.srmcfg, counters := t.counters, recheck := t.recheck, ms := { s.ms with draws := t.ms.draws } } := by
  have hr : ∀ r : Word × State, r = (if isRead then s.readCsr c else (0, s)) →
      r.2 = { s with counters := r.2.counters, ms := { s.ms with draws := r.2.ms.draws } } := by
    intro r hr
    split at hr
    · rw [hr]; exact s.readCsr_frame c
    · rw [hr]
  unfold State.csrReadWrite at h
  dsimp only at h
  generalize hre : (if isRead = true then s.readCsr c else (0, s)) = r at h
  have hf := hr r hre.symm
  split at h
  · split at h
    · rename_i s' hc
      obtain ⟨-, rfl⟩ := Prod.mk.inj (Except.ok.inj h)
      unfold State.commitCsr at hc
      split at hc
      · rename_i u hw
        obtain rfl := Except.ok.inj hc
        have := State.writeCsr_frame _ _ _ _ hw
        rw [hf] at this
        rw [this]
      · cases hc
    · cases h
  · obtain ⟨-, rfl⟩ := Prod.mk.inj (Except.ok.inj h)
    rw [hf]

/-- How a CSR instruction reaches a next state: illegal, or checked, read and written (R300 to R307). -/
theorem csrInstr_next (i : Instr) (op : CsrOp) (rd : RegId) (num : BitVec 12) (src : Word) (isRead isWrite : Bool)
    (s t : State) (h : csrInstr i op rd num src isRead isWrite s = .next t) :
    (s.csrCheck num isWrite = .illegal ∧ raiseIllegal i s = .next t) ∨
    ∃ c v u, s.csrCheck num isWrite = .ok c ∧ s.csrReadWrite op c src isRead isWrite = .ok (v, u) ∧
      t = (u.setReg rd v).advance := by
  unfold csrInstr at h
  split at h
  · rename_i hc; exact Or.inl ⟨hc, h⟩
  · cases h
  · rename_i c hc
    split at h
    · rename_i v u hw
      cases h
      exact Or.inr ⟨c, v, u, hc, hw, rfl⟩
    · rename_i t' _
      cases t' <;> cases h

/-- A checked CSR instruction on any CSR but `satp` completes. -/
theorem csrInstr_completes (i : Instr) (op : CsrOp) (rd : RegId) (num : BitVec 12) (src : Word) (isRead isWrite : Bool)
    (s : State) (c : Csr) (hc : s.csrCheck num isWrite = .ok c) (hs : c ≠ .satp ∨ isWrite = false) :
    ∃ v u, s.csrReadWrite op c src isRead isWrite = .ok (v, u) ∧
      csrInstr i op rd num src isRead isWrite s = .next (u.setReg rd v).advance := by
  have key : ∃ v u, s.csrReadWrite op c src isRead isWrite = .ok (v, u) := by
    unfold State.csrReadWrite
    dsimp only
    generalize (if isRead = true then s.readCsr c else (0, s)) = r
    cases hw : isWrite with
    | false => exact ⟨r.1, r.2, by simp⟩
    | true =>
      have hne : c ≠ .satp := by
        rcases hs with h | h
        · exact h
        · rw [hw] at h; cases h
      obtain ⟨u, hu⟩ := State.writeCsr_total r.2 c (op.combine r.1 src) hne
      exact ⟨r.1, { u with recheck := u.recheck || interruptCsr c }, by simp [State.commitCsr, hu]⟩
  obtain ⟨v, u, hv⟩ := key
  refine ⟨v, u, hv, ?_⟩
  unfold csrInstr
  rw [hc]
  dsimp only
  rw [hv]

/-! ### What a write keeps -/

/-- An explicit write leaves SDT=1 only with SIE=0 (R38). -/
theorem State.writeCsr_doubleTrapSafe (s t : State) (c : Csr) (v : Word) (h : s.writeCsr c v = .ok t)
    (hs : s.DoubleTrapSafe) : t.DoubleTrapSafe := by
  by_cases hc : c = .sstatus
  · subst hc
    cases h
    intro hd
    simp only [State.sdtOn, State.writeSstatus] at hd ⊢
    revert hd
    cases s.cfg.ext.ssdbltrp <;> simp
    intro h24 _
    exact h24
  · have hf := State.writeCsr_frame s t c v h
    have hst : t.sstatus = s.sstatus := by
      cases c
      case sstatus => exact absurd rfl hc
      case satp =>
        simp only [State.writeCsr, State.writeSatp] at h
        split at h
        · cases h; rfl
        · split at h
          · cases h
          · cases h; rfl
      all_goals cases h; rfl
    have hcfg : t.cfg = s.cfg := by rw [hf]
    unfold State.DoubleTrapSafe State.sdtOn
    rw [hst, hcfg]
    exact hs

theorem stvecModeOk_two_bits {c : Config} {m : Word} (h : stvecModeOk c m = true) : m &&& 3#64 = m := by
  simp only [stvecModeOk, Bool.or_eq_true, Bool.and_eq_true, beq_iff_eq] at h
  rcases h with ⟨rfl, _⟩ | ⟨rfl, _⟩ <;> rfl

theorem or_mode (b m : Word) (hm : m &&& 3#64 = m) : ((b &&& ~~~3#64) ||| m) &&& 3#64 = m := by
  apply BitVec.eq_of_getLsbD_eq
  intro i hi
  have h := congrArg (fun x => x.getLsbD i) hm
  simp only [BitVec.getLsbD_and, BitVec.getLsbD_or, BitVec.getLsbD_not, hi] at h ⊢
  revert h
  cases b.getLsbD i <;> cases m.getLsbD i <;> cases (3#64).getLsbD i <;> simp

theorem State.writeStvec_vectorOk (s : State) (w : Word) (h : s.VectorOk) : (s.writeStvec w).VectorOk := by
  have key : ∀ m : Word, stvecModeOk s.cfg m = true →
      stvecModeOk s.cfg (((w &&& s.cfg.stvecBaseMask &&& sxMask s.cfg &&& ~~~3#64) ||| m) &&& 3#64) = true ∧
      ((w &&& s.cfg.stvecBaseMask &&& sxMask s.cfg &&& ~~~3#64) ||| m) &&& ~~~(s.cfg.stvecBaseMask ||| 3#64) = 0 := by
    intro m hm
    have hm3 := stvecModeOk_two_bits hm
    refine ⟨by rw [or_mode _ m hm3]; exact hm, ?_⟩
    rw [BitVec.not_or, ← BitVec.and_assoc]
    apply BitVec.eq_of_getLsbD_eq
    intro i hi
    have h := congrArg (fun x => x.getLsbD i) hm3
    simp only [BitVec.getLsbD_and, BitVec.getLsbD_or, BitVec.getLsbD_not, hi] at h ⊢
    revert h
    cases w.getLsbD i <;> cases s.cfg.stvecBaseMask.getLsbD i <;> cases m.getLsbD i <;> cases (3#64).getLsbD i <;> simp
  unfold State.VectorOk State.writeStvec
  dsimp only
  split
  · rename_i hm; exact key _ hm
  · exact key _ h.1

theorem satpRest_zero (c : Config) (sch : Scheme) (w : Word) (h : satpRest c w = 0) :
    (satpFields c sch w).asid = 0 ∧ (satpFields c sch w).ppn = 0 := by
  have e31 : (w &&& lowBits 31).toNat = w.toNat % 2 ^ 31 := Nat.and_two_pow_sub_one_eq_mod w.toNat 31
  have e60 : (w &&& lowBits 60).toNat = w.toNat % 2 ^ 60 := Nat.and_two_pow_sub_one_eq_mod w.toNat 60
  unfold satpRest at h
  unfold satpFields
  cases hx : c.sxlen <;> rw [hx] at h <;> simp only at h ⊢
  · rw [h] at e31
    have hz : w.toNat % 2 ^ 31 = 0 := e31.symm
    have h1 : w.extractLsb' 22 9 = 0 := by
      apply BitVec.eq_of_toNat_eq
      simp only [BitVec.extractLsb'_toNat, Nat.shiftRight_eq_div_pow]
      simp
      omega
    have h2 : w.extractLsb' 0 22 = 0 := by
      apply BitVec.eq_of_toNat_eq
      simp only [BitVec.extractLsb'_toNat, Nat.shiftRight_eq_div_pow]
      simp
      omega
    rw [h1, h2]
    simp
  · rw [h] at e60
    have hz : w.toNat % 2 ^ 60 = 0 := e60.symm
    have h1 : w.extractLsb' 44 16 = 0 := by
      apply BitVec.eq_of_toNat_eq
      simp only [BitVec.extractLsb'_toNat, Nat.shiftRight_eq_div_pow]
      simp
      omega
    have h2 : w.extractLsb' 0 44 = 0 := by
      apply BitVec.eq_of_toNat_eq
      simp only [BitVec.extractLsb'_toNat, Nat.shiftRight_eq_div_pow]
      simp
      omega
    rw [h1, h2]
    simp

theorem satpMode_supported (c : Config) (w : Word) (sch : Scheme) (h : satpMode c w = some sch) : supported c sch = true := by
  unfold satpMode at h
  exact (Option.filter_eq_some_iff.mp h).2

theorem State.writeSatp_satpOk (s t : State) (w : Word) (h : s.writeSatp w = .ok t) (hs : s.SatpOk) : t.SatpOk := by
  unfold State.writeSatp at h
  split at h
  · cases h; exact hs
  · rename_i sch hm
    split at h
    · cases h
    · rename_i hn
      cases h
      refine ⟨satpMode_supported _ _ _ hm, and_not_of_and _ _, and_not_of_and _ _, fun hb => ?_⟩
      have hb' : sch = .bare := hb
      exact satpRest_zero _ _ _ (by
        by_contra hr
        exact hn ⟨hb', hr⟩)

theorem State.writeSip_exists (s : State) (w : Word) (h : s.sip &&& ~~~(sipBits s.cfg) = 0) :
    (s.writeSip w).sip &&& ~~~(sipBits s.cfg) = 0 :=
  or_and_not (and_left_and_not _ h) (and_right_and_not _ (sipWritable_exists s.cfg))

theorem uxlWrite_legal (c : Config) (old new : BitVec 2) (h : old = 1 ∨ old = 2) :
    uxlWrite c old new = 1 ∨ uxlWrite c old new = 2 := by
  unfold uxlWrite
  split
  · split
    · assumption
    · exact h
  · exact h

theorem cbieWrite_legal (old new : BitVec 2) : cbieWrite old new ≠ 2 := by
  unfold cbieWrite
  split
  · assumption
  · split
    · assumption
    · decide

theorem scauseCode_fits (c : Config) (old new : Word) : scauseCode c old new &&& ~~~(lowBits c.scauseCodeBits) = 0 := by
  unfold scauseCode
  split
  · assumption
  · exact and_not_of_and _ _

/-- A CSR write above U-mode leaves every control register legal. -/
theorem State.writeCsr_controlOk (s t : State) (c : Csr) (v : Word) (h : s.writeCsr c v = .ok t)
    (hp : s.priv ≠ .user) (hs : s.ControlOk) : t.ControlOk := by
  obtain ⟨⟨ha, ha'⟩, hv, hsp, ⟨hw1, hw2, hw3, hw4, hw5, hw6, hw7, hw8, hw9⟩, hc, hpad⟩ := hs
  cases c
  case satp =>
    have hsp' := State.writeSatp_satpOk s t _ h hsp
    simp only [State.writeCsr, State.writeSatp] at h
    split at h
    · cases h; exact ⟨⟨ha, ha'⟩, hv, hsp, ⟨hw1, hw2, hw3, hw4, hw5, hw6, hw7, hw8, hw9⟩, hc, hpad⟩
    · split at h
      · cases h
      · cases h; exact ⟨⟨ha, ha'⟩, hv, hsp', ⟨hw1, hw2, hw3, hw4, hw5, hw6, hw7, hw8, hw9⟩, hc, hpad⟩
  case sstatus =>
    cases h
    refine ⟨⟨ha, ha'⟩, hv, hsp, ⟨?_, ?_, hw3, hw4, hw5, hw6, hw7, uxlWrite_legal _ _ _ hw8, hw9⟩, hc, hpad⟩
    · intro he
      show (s.cfg.ext.ssdbltrp && _) = false
      rw [show s.cfg.ext.ssdbltrp = false from he]; rfl
    · intro he
      show (s.cfg.ext.zicfilp && _) = false
      rw [show s.cfg.ext.zicfilp = false from he]; rfl
  case senvcfg =>
    cases h
    refine ⟨⟨ha, ha'⟩, hv, hsp, ⟨hw1, hw2, hw3, hw4, hw5, hw6, hw7, hw8, ?_⟩, hc, fun he => ?_, hpad.2⟩
    · show (if s.cfg.ext.zicbom then cbieWrite _ _ else 0) ≠ 2
      split
      · exact cbieWrite_legal _ _
      · decide
    · have := hpad.1 he
      show State.landingPads _ s.priv = true
      cases hpr : s.priv with
      | user => exact absurd hpr hp
      | supervisor => rw [hpr] at this; exact this
      | machine => rw [hpr] at this; exact this
  case scause =>
    cases h
    exact ⟨⟨ha, ha'⟩, hv, hsp, ⟨hw1, hw2, hw3, hw4, hw5, hw6, hw7, hw8, hw9⟩, fun _ => scauseCode_fits _ _ _, hpad⟩
  case sie =>
    cases h
    exact ⟨⟨ha, ha'⟩, hv, hsp, ⟨hw1, hw2, hw3, and_not_of_and _ _, hw5, hw6, hw7, hw8, hw9⟩, hc, hpad⟩
  case stvec =>
    cases h
    exact ⟨⟨ha, ha'⟩, s.writeStvec_vectorOk _ hv, hsp, ⟨hw1, hw2, hw3, hw4, hw5, hw6, hw7, hw8, hw9⟩, hc, hpad⟩
  case scounteren =>
    cases h
    exact ⟨⟨ha, ha'⟩, hv, hsp, ⟨hw1, hw2, and_not_of_and _ _, hw4, hw5, hw6, hw7, hw8, hw9⟩, hc, hpad⟩
  case sepc =>
    cases h
    exact ⟨⟨ha, epcMask_aligned _ _⟩, hv, hsp, ⟨hw1, hw2, hw3, hw4, hw5, hw6, hw7, hw8, hw9⟩, hc, hpad⟩
  case sip =>
    cases h
    exact ⟨⟨ha, ha'⟩, hv, hsp, ⟨hw1, hw2, hw3, hw4, s.writeSip_exists _ hw5, hw6, hw7, hw8, hw9⟩, hc, hpad⟩
  case srmcfg =>
    cases h
    exact ⟨⟨ha, ha'⟩, hv, hsp,
      ⟨hw1, hw2, hw3, hw4, hw5, and_not_of_and _ _, and_not_of_and _ _, hw8, hw9⟩, hc, hpad⟩
  all_goals cases h; exact ⟨⟨ha, ha'⟩, hv, hsp, ⟨hw1, hw2, hw3, hw4, hw5, hw6, hw7, hw8, hw9⟩, hc, hpad⟩

end Sys2Proof.Machine
end

