-- ==== Sys2Proof/Laws/Encoding.lean ====
section
/-! SUPPORT. The fields of an instruction word, read back from the words that the encoder builds. -/

namespace Sys2Proof

/-! ### Bits and bytes of a word -/

theorem wordField_bit (w : BitVec 32) (lo n k : Nat) (h : k < n) : (wordField w lo n).getLsbD k = w.getLsbD (lo + k) := by
  simp [wordField, h]

/-- Joining the four bytes of a word gives the word (R122). -/
theorem wordOfBytes_bytes (w : BitVec 32) :
    wordOfBytes (wordField w 0 8) (wordField w 8 8) (wordField w 16 8) (wordField w 24 8) = w := by
  apply BitVec.eq_of_getLsbD_eq
  intro k hk
  unfold wordOfBytes
  simp only [BitVec.getLsbD_append]
  split_ifs <;> (rw [wordField_bit _ _ _ _ (by omega)]; congr 1; omega)

theorem wordField_low (w : BitVec 32) (n : Nat) (h : n ≤ 8) :
    (wordField w 0 8).extractLsb' 0 n = w.extractLsb' 0 n := by
  apply BitVec.eq_of_getLsbD_eq
  intro k hk
  simp [wordField, hk, show k < 8 by omega]

/-- The instruction of a word: a row of R224, where the length bits are those of a 32-bit instruction (R220). -/
theorem Machine.instrOf_eq (w : BitVec 32) :
    Machine.instrOf w =
      if w.extractLsb' 0 2 ≠ 0b11#2 then none else if w.extractLsb' 0 5 = 0b11111#5 then none else decodeWord w := by
  unfold Machine.instrOf bytesOfWord decode
  dsimp only
  rw [wordOfBytes_bytes, wordField_low w 2 (by omega), wordField_low w 5 (by omega)]
  split_ifs
  · rfl
  · rfl
  · cases decodeWord w <;> rfl

/-! ### The words of formats R, I, I-csr and S -/

section
variable (f7 : BitVec 7) (rs2 rs1 : BitVec 5) (f3 : BitVec 3) (rd : BitVec 5) (op : BitVec 7)

theorem packWord_bit (k : Nat) :
    (packWord f7 rs2 rs1 f3 rd op).getLsbD k =
      if k < 7 then op.getLsbD k else if k < 12 then rd.getLsbD (k - 7) else if k < 15 then f3.getLsbD (k - 12)
      else if k < 20 then rs1.getLsbD (k - 15) else if k < 25 then rs2.getLsbD (k - 20) else f7.getLsbD (k - 25) := by
  unfold packWord
  simp only [BitVec.getLsbD_append]
  split_ifs <;> (first | omega | congr 1)

@[simp] theorem packWord_op : wordField (packWord f7 rs2 rs1 f3 rd op) 0 7 = op := by
  apply BitVec.eq_of_getLsbD_eq
  intro k hk
  rw [wordField_bit _ _ _ _ hk, packWord_bit]
  split_ifs <;> (first | omega | (congr 1; omega))

@[simp] theorem packWord_rd : wordField (packWord f7 rs2 rs1 f3 rd op) 7 5 = rd := by
  apply BitVec.eq_of_getLsbD_eq
  intro k hk
  rw [wordField_bit _ _ _ _ hk, packWord_bit]
  split_ifs <;> (first | omega | (congr 1; omega))

@[simp] theorem packWord_f3 : wordField (packWord f7 rs2 rs1 f3 rd op) 12 3 = f3 := by
  apply BitVec.eq_of_getLsbD_eq
  intro k hk
  rw [wordField_bit _ _ _ _ hk, packWord_bit]
  split_ifs <;> (first | omega | (congr 1; omega))

@[simp] theorem packWord_rs1 : wordField (packWord f7 rs2 rs1 f3 rd op) 15 5 = rs1 := by
  apply BitVec.eq_of_getLsbD_eq
  intro k hk
  rw [wordField_bit _ _ _ _ hk, packWord_bit]
  split_ifs <;> (first | omega | (congr 1; omega))

@[simp] theorem packWord_rs2 : wordField (packWord f7 rs2 rs1 f3 rd op) 20 5 = rs2 := by
  apply BitVec.eq_of_getLsbD_eq
  intro k hk
  rw [wordField_bit _ _ _ _ hk, packWord_bit]
  split_ifs <;> (first | omega | (congr 1; omega))

@[simp] theorem packWord_f7 : wordField (packWord f7 rs2 rs1 f3 rd op) 25 7 = f7 := by
  apply BitVec.eq_of_getLsbD_eq
  intro k hk
  rw [wordField_bit _ _ _ _ hk, packWord_bit]
  split_ifs <;> (first | omega | (congr 1; omega))

@[simp] theorem packWord_imm : wordField (packWord f7 rs2 rs1 f3 rd op) 20 12 = f7 ++ rs2 := by
  apply BitVec.eq_of_getLsbD_eq
  intro k hk
  rw [wordField_bit _ _ _ _ hk, packWord_bit, BitVec.getLsbD_append]
  split_ifs <;> (first | omega | (congr 1; omega))

end

@[simp] theorem halves_of_twelve (x : BitVec 12) : x.extractLsb' 5 7 ++ x.extractLsb' 0 5 = x := by
  apply BitVec.eq_of_getLsbD_eq
  intro k hk
  rw [BitVec.getLsbD_append]
  split_ifs with h
  · simp [h]
  · simp [show k - 5 < 7 by omega, show 5 + (k - 5) = k by omega]

end Sys2Proof
end

