-- ==== Sys2Proof/Laws/Environment.lean ====
section
/-! SUPPORT. What one action of another agent can do, said once. -/

namespace Sys2Proof.Machine

/-- The entries after a use that may be stale: those from before, or the entry used, invalid and counted once more (R213). -/
theorem countStale_mem (e x : AtcEntry) (memPte : Option Word) (atc : List AtcEntry) (h : x ∈ countStale e memPte atc) :
    x ∈ atc ∨ x = { e with staleReads := e.staleReads + 1 } ∧ e ∈ atc ∧ ∃ p, memPte = some p ∧ pteV e.pte = false ∧ pteV p = true := by
  unfold countStale at h
  split at h
  · rename_i p
    split at h
    · rename_i hv
      obtain ⟨y, hy, rfl⟩ := List.mem_map.mp h
      split
      · rename_i he
        subst he
        exact Or.inr ⟨rfl, hy, p, rfl, by simpa using hv⟩
      · exact Or.inl hy
    · exact Or.inl h
  · exact Or.inl h

/-- The cache after the read of a speculative walk: the entries from before, or an invalid entry that Svvptc still lets serve,
counted once more (R213). -/
theorem speculativeSource_cache (c : WalkCtx) (w : InflightWalk) (addr : Nat) (memPte : Option Word) (atc atc' es : List AtcEntry)
    (k : Option Nat) (pte : Word) (h : speculativeSource c w addr memPte atc k = some (pte, atc', es)) (x : AtcEntry)
    (hx : x ∈ atc') :
    x ∈ atc ∨ ∃ e ∈ atc, x = { e with staleReads := e.staleReads + 1 } ∧ pteV e.pte = false ∧
      (c.cfg.ext.svvptc = true → e.staleReads < Config.svvptcBound) := by
  unfold speculativeSource at h
  split at h
  · obtain ⟨e, he, heq⟩ := Option.map_eq_some_iff.mp h
    cases heq
    rcases countStale_mem e x memPte atc hx with h' | ⟨h', hm, p, rfl, hv, hp⟩
    · exact Or.inl h'
    · refine Or.inr ⟨e, hm, h', hv, fun hs => ?_⟩
      have hu := (List.mem_filter.mp (List.mem_of_getElem? he)).2
      simp only [AtcEntry.expired, hs, hv, hp] at hu
      simp only [Bool.and_eq_true, Bool.not_eq_true'] at hu
      simpa using hu.1.2
  · obtain ⟨p, _, heq⟩ := Option.map_eq_some_iff.mp h
    cases heq
    exact Or.inl hx

/-- A speculative walk keeps the records of the memory system. -/
theorem State.walkOnce_records (s : State) (w k) (m : MemSys) (o : Option InflightWalk) (hw : s.walkOnce w k = .ok (m, o))
    (h : recordsOk s.ms) : recordsOk m := by
  unfold State.walkOnce at hw
  dsimp only at hw
  split at hw
  · cases hw
  · split at hw
    · cases hw; exact h
    · split at hw
      · cases hw; exact h
      · split at hw
        · rename_i m' ht
          have hm : recordsOk m' := by
            split at ht
            · exact MemSys.touch_recordsOk _ _ _ _ _ _ ht h
            · cases ht; exact h
          cases hw
          unfold speculativeUpdate
          split
          · split
            · exact ⟨Memory.wf_writeBytes hm.1 _ _, hm.2⟩
            · exact hm
          · exact hm
        · cases hw

/-- A property that the effects of the other agents' actions keep, every action keeps. -/
theorem State.act_keeps (s : State) (a : EnvAction) (P : State → Prop) (hs : P s)
    (hsip : ∀ m v, P (s.driveSip m v))
    (hcnt : ∀ c, P { s with counters := c })
    (hms : ∀ m : MemSys, (recordsOk s.ms → recordsOk m) → P { s with ms := m })
    (hw : ∀ w, P { s with walks := w })
    (hmw : ∀ (m : MemSys) w, (recordsOk s.ms → recordsOk m) → P { s with ms := m, walks := w })
    (hinp : s.priv = .machine → ∀ m, P { s with inputs := m }) (hmach : ∀ m, P { s with mach := m })
    (hreg : ∀ r, P { s with regs := r }) (hcsr : s.priv = .machine → ∀ c v t, s.writeCsr c v = .ok t → P t)
    (hresv : s.priv = .machine → ∀ r, reservationOk s.cfg r = true → P { s with reservation := r })
    (hres : s.priv = .machine → ∀ p pc, P (s.seeResume p pc)) : P (s.act a) := by
  have see : ∀ t, (s.priv = .machine → P t) → P (s.bySee t) := by
    intro t ht
    unfold State.bySee
    split
    · rename_i hm; exact ht hm
    · exact hs
  cases a with
  | setSei b => exact hsip _ _
  | setSti b => exact hsip _ _
  | raiseSsi => exact hsip _ _
  | raiseLcofi => exact hsip _ _
  | setPlatform v => exact hsip _ _
  | setCounter n v => exact hcnt _
  | writeByte a b =>
    show P (s.writeByte a b)
    unfold State.writeByte
    split
    · exact hms _ (fun h => ⟨Memory.wf_write h.1 _ _, h.2⟩)
    · exact hs
  | beginWalk va acc =>
    show P (s.beginWalk va acc)
    unfold State.beginWalk
    dsimp only
    split
    · exact hs
    · exact hw _
  | advanceWalk n k =>
    show P (s.advanceWalk n k)
    unfold State.advanceWalk
    split
    · exact hs
    · split
      · rename_i he; exact hmw _ _ (State.walkOnce_records s _ _ _ _ he)
      · rename_i he; exact hmw _ _ (State.walkOnce_records s _ _ _ _ he)
      · exact hs
  | abandonWalk n => exact hw _
  | dropEntry n => exact hms _ (fun h => h)
  | performInval n =>
    show P (s.performInval n)
    unfold State.performInval
    split
    · exact hs
    · exact hms _ (fun h => h)
  | setInputs m => exact see _ (fun hp => hinp hp m)
  | setMachineRegs m => exact see _ (fun _ => hmach m)
  | seeReg r v =>
    refine see _ (fun _ => ?_)
    unfold State.setReg
    split
    · exact hs
    · exact hreg _
  | seeCsr c v =>
    refine see _ (fun hp => ?_)
    unfold State.seeCsr
    split
    · rename_i t ht; exact hcsr hp _ _ _ ht
    · exact hs
  | seeReserve r =>
    refine see _ (fun hp => ?_)
    unfold State.seeReserve
    split
    · rename_i hr; exact hresv hp r hr
    · exact hs
  | seeResume p pc => exact see _ (fun hp => hres hp p pc)

end Sys2Proof.Machine
end

