-- ==== Sys2Proof/Laws/Registers.lean ====
section
/-! SUPPORT. What writing a destination register can do, said once, and the CSR checks that pass. -/

namespace Sys2Proof.Machine

/-- Sign extension keeps the low half. -/
@[simp] theorem low_of_signExtend (v : BitVec 32) : (v.signExtend 64).setWidth 32 = v := by
  apply BitVec.eq_of_getLsbD_eq
  intro k hk
  simp only [BitVec.getLsbD_setWidth, BitVec.getLsbD_signExtend, hk, show k < 64 by omega, decide_true, Bool.true_and,
    if_true]

/-- What a register write stores reads back at the width of the mode (R32). -/
theorem State.cut_fit (s : State) (v : Word) : cut s.xlen (s.fit v) = cut s.xlen v := by
  unfold State.fit
  cases s.xlen
  · cases s.cfg.sxlen <;> simp only [cut]
    · rw [low_of_signExtend, show ∀ x : BitVec 32, (x.setWidth 64).setWidth 32 = x from fun x => by simp]
    · rw [low_of_signExtend]
  · rfl

@[simp] theorem State.xlen_regs (s : State) (r : Vector Word 32) (p : Word) :
    State.xlen { s with regs := r, pc := p } = s.xlen := rfl

/-- The registers after a write of `rd` and the move of `pc`, for a state that has the registers and the width of `s` (R20,
R32). -/
theorem State.registersAfter_of_setReg (s u : State) (rd : RegId) (v : Word) (hr : u.regs = s.regs) (hx : u.xlen = s.xlen)
    (hc : u.cfg.sxlen = s.cfg.sxlen) : s.registersAfter (u.setReg rd v).advance rd v := by
  by_cases h : rd = 0
  · refine ⟨by simp [h, State.reg], fun r _ => ?_, fun r _ => ?_, fun hn => absurd h hn⟩
    · simp only [State.setReg, h, if_true, State.advance, State.reg]
      show (if r = 0 then 0 else cut u.xlen _) = _
      simp only [hx, hr]
    · simp only [State.setReg, h, if_true, State.advance, hr]
  · simp only [State.registersAfter, State.setReg, h, if_false, State.advance]
    have hn : ∀ r : RegId, r ≠ rd → rd.toNat ≠ r.toNat := fun r hne he => hne (BitVec.eq_of_toNat_eq he.symm)
    refine ⟨?_, fun r hne => ?_, fun r hne => ?_, fun _ => ?_⟩
    · simp only [State.reg, h, if_false, Vector.getElem_set_self]
      show cut u.xlen (u.fit v) = _
      rw [State.cut_fit, hx]
    · simp only [State.reg]
      show (if r = 0 then 0 else cut u.xlen _) = _
      rw [hx, Vector.getElem_set_ne _ _ (hn r hne)]
      simp only [hr]
    · have : r ≠ rd := by
        rcases hne with hne | rfl
        · exact hne
        · exact fun he => h he.symm
      rw [Vector.getElem_set_ne _ _ (hn r this)]
      simp only [hr]
    · rw [Vector.getElem_set_self]
      unfold State.fit
      rw [hx, hc]
      cases s.xlen <;> cases s.cfg.sxlen <;> simp [cut]

/-- The CSRs that U-mode may name are read-only: the counters (R64, R310). -/
theorem csrOf_user (c : Config) (num : BitVec 12) (d : Csr) (h : csrOf c num = some d) (h8 : num.extractLsb' 8 2 = 0) :
    num.extractLsb' 10 2 = 3#2 := by
  have high : ∀ (b : BitVec 7), num.extractLsb' 5 7 = b → num.extractLsb' 10 2 = b.extractLsb' 5 2 := by
    rintro b rfl
    apply BitVec.eq_of_getLsbD_eq
    intro k hk
    simp only [BitVec.getLsbD_extractLsb', hk, show 5 + k < 7 by omega, decide_true, Bool.true_and]
    congr 1
    omega
  unfold csrOf at h
  by_cases ha : num.extractLsb' 5 7 = 0b1100000#7
  · exact (high _ ha).trans (by decide)
  by_cases hb : num.extractLsb' 5 7 = 0b1100100#7
  · exact (high _ hb).trans (by decide)
  have pick : ∀ {p : Prop} [Decidable p] {x e : Option Csr}, (if p then x else e) = some d → p ∨ e = some d := by
    intro p _ x e h
    by_cases hp : p
    · exact .inl hp
    · exact .inr (by rwa [if_neg hp] at h)
  rcases pick h with g | h
  · exact absurd (g ▸ h8) (by decide)
  rcases pick h with g | h
  · exact absurd (g ▸ h8) (by decide)
  rcases pick h with g | h
  · exact absurd (g ▸ h8) (by decide)
  rcases pick h with g | h
  · exact absurd (g ▸ h8) (by decide)
  rcases pick h with g | h
  · exact absurd (g ▸ h8) (by decide)
  rcases pick h with g | h
  · exact absurd (g ▸ h8) (by decide)
  rcases pick h with g | h
  · exact absurd (g ▸ h8) (by decide)
  rcases pick h with g | h
  · exact absurd (g ▸ h8) (by decide)
  rcases pick h with g | h
  · exact absurd (g ▸ h8) (by decide)
  rcases pick h with g | h
  · exact absurd (g ▸ h8) (by decide)
  rcases pick h with g | h
  · exact absurd (g ▸ h8) (by decide)
  rcases pick h with g | h
  · exact absurd (g ▸ h8) (by decide)
  rcases pick h with g | h
  · exact absurd g ha
  rcases pick h with g | h
  · exact absurd g hb
  · exact absurd h (by simp)

/-- A write of a CSR is never permitted in U-mode (R300). -/
theorem State.csrCheck_write (s : State) (num : BitVec 12) (c : Csr) (h : s.csrCheck num true = .ok c) : s.priv ≠ .user := by
  intro hp
  unfold State.csrCheck at h
  split at h
  · exact absurd h (by simp)
  rename_i h0
  split at h
  · exact absurd h (by simp)
  rename_i h1
  split at h
  · exact absurd h (by simp)
  split at h
  · rename_i d hd
    have hz : num.extractLsb' 8 2 = 0 := by
      apply BitVec.eq_of_toNat_eq
      simpa [hp, privNumber] using h0
    exact h1 (by simp [csrOf_user _ _ _ hd hz])
  · exact absurd h (by simp)

end Sys2Proof.Machine
end

