-- ==== Sys2Proof/Laws/Exec.lean ====
section
/-! SUPPORT. What every instruction keeps, from what its parts keep. -/

namespace Sys2Proof.Machine

/-- What retiring the pending requests does: an entry stays where none of them selects it, and every walk under way has them
among its fences, the last one first (R262, R266, R285). -/
theorem retirePending_eq (s : State) :
    s.retirePending = { s with
      ms := { s.ms with atc := s.ms.atc.filter (fun e => s.pendingInval.all (fun q => !q.hits e)) }
      walks := s.walks.map (fun w => { w with fences := s.pendingInval.reverse ++ w.fences })
      pendingInval := [] } := by
  have : ∀ (l : List FenceRequest) (s : State), l.foldl State.fenceOne s = { s with
      ms := { s.ms with atc := s.ms.atc.filter (fun e => l.all (fun q => !q.hits e)) }
      walks := s.walks.map (fun w => { w with fences := l.reverse ++ w.fences }) } := by
    intro l
    induction l with
    | nil => intro s; simp
    | cons q l ih =>
      intro s
      rw [List.foldl_cons, ih]
      simp [State.fenceOne, MemSys.invalidate, InflightWalk.fenced, Bool.and_comm, Function.comp_def]
  unfold State.retirePending
  rw [this]

/-- A property that traps, changes of the memory system that keep its records, register writes, `pc + 4`, fences, SRET,
counter reads and CSR writes keep, every instruction keeps. -/
theorem exec_keeps (P : State → Prop)
    (hexc : ∀ s c info, P s → P (s.takeException c info))
    (hms : ∀ (s : State) m, P s → (recordsOk s.ms → recordsOk m) → P { s with ms := m })
    (hregs : ∀ (s : State) r, P s → P { s with regs := r })
    (hpc : ∀ (s : State), P s → P s.advance)
    (hfence : ∀ (s : State) atc w p, P s →
      P { s with ms := { s.ms with atc := atc }, walks := w, pendingInval := p })
    (hret : ∀ s : State, P s → P s.returnFromTrap)
    (hrecheck : ∀ (s : State) b, P s → P { s with recheck := b })
    (hcount : ∀ (s : State) c d, P s → P { s with counters := c, ms := { s.ms with draws := d} })
    (hcsr : ∀ (s t : State) c v, P s → s.priv ≠ .user → s.writeCsr c v = .ok t → P t)
    (i : Instr) (s t : State) (hs : P s) (h : exec i s = .next t) : P t := by
  have hsr : ∀ (s : State) r v, P s → P (s.setReg r v) := by
    intro s r v h
    unfold State.setReg
    split
    · exact h
    · exact hregs _ _ h
  have ill : ∀ i s t, P s → raiseIllegal i s = .next t → P t := by
    intro i s t hs h
    cases h; exact hexc _ _ _ hs
  have hci : ∀ (i : Instr) op rd num src a b, csrInstr i op rd num src a b s = .next t → P t := by
    intro i op rd num src a b h
    rcases csrInstr_next _ _ _ _ _ _ _ _ _ h with ⟨_, h⟩ | ⟨c, v, u, hchk, hu, rfl⟩
    · exact ill _ _ _ hs h
    · apply hpc; apply hsr
      unfold State.csrReadWrite at hu
      dsimp only at hu
      have hr : P (if a = true then s.readCsr c else (0, s)).2 ∧ (if a = true then s.readCsr c else (0, s)).2.priv = s.priv := by
        split
        · rw [s.readCsr_frame c]; exact ⟨hcount _ _ _ hs, rfl⟩
        · exact ⟨hs, rfl⟩
      generalize (if a = true then s.readCsr c else (0, s)) = r at hu hr
      split at hu
      · rename_i hb
        subst hb
        split at hu
        · rename_i s' hc
          obtain ⟨-, rfl⟩ := Prod.mk.inj (Except.ok.inj hu)
          unfold State.commitCsr at hc
          split at hc
          · rename_i w hw
            cases hc
            exact hrecheck _ _ (hcsr _ _ _ _ hr.1 (hr.2 ▸ s.csrCheck_write _ _ hchk) hw)
          · cases hc
        · cases hu
      · cases hu; exact hr.1
  have retired : P s.retirePending := by
    rw [retirePending_eq]
    exact hfence _ _ _ _ hs
  have now : ∀ q, P (s.fenceNow q) := fun q => hfence _ _ _ _ retired
  cases i with
  | sret =>
    unfold exec execSret at h
    dsimp only at h
    split at h
    · cases h; exact hret _ hs
    · exact ill _ _ _ hs h
  | sfenceVma rs1 rs2 =>
    unfold exec execSfenceVma at h
    dsimp only at h
    split at h
    · exact ill _ _ _ hs h
    · split at h
      · cases h; exact hpc _ retired
      · cases h; exact hpc _ (now _)
  | sinvalVma rs1 rs2 =>
    unfold exec execSinvalVma at h
    dsimp only at h
    split at h
    · exact ill _ _ _ hs h
    · split at h
      · cases h; exact hpc _ hs
      · split at h
        · cases h; exact hpc _ (now _)
        · cases h; exact hpc _ (hfence s s.ms.atc s.walks _ hs)
  | sfenceWInval =>
    unfold exec execSfenceWInval at h
    dsimp only at h
    split at h
    · exact ill _ _ _ hs h
    · cases h; exact hpc _ hs
  | sfenceInvalIr =>
    unfold exec execSfenceInvalIr at h
    dsimp only at h
    split at h
    · exact ill _ _ _ hs h
    · cases h; exact hpc _ retired
  | hinvalVvma rs1 rs2 => exact ill _ _ _ hs h
  | hinvalGvma rs1 rs2 => exact ill _ _ _ hs h
  | csrrw rd csr rs1 => exact hci _ _ _ _ _ _ _ h
  | csrrs rd csr rs1 => exact hci _ _ _ _ _ _ _ h
  | csrrc rd csr rs1 => exact hci _ _ _ _ _ _ _ h
  | csrrwi rd csr rs1 => exact hci _ _ _ _ _ _ _ h
  | csrrsi rd csr rs1 => exact hci _ _ _ _ _ _ _ h
  | csrrci rd csr rs1 => exact hci _ _ _ _ _ _ _ h
  | ecall => cases h; exact hexc _ _ _ hs
  | ebreak => cases h; exact hexc _ _ _ hs
  | fence fm p su rs1 rd =>
    unfold exec execFence at h
    dsimp only at h
    split at h
    · cases h
      apply hpc
      exact hms _ _ hs (fun hr => ⟨hr.1, followTypes_canonical (fun _ => Since.afterFence) _ hr.2⟩)
    · cases h; exact hpc _ hs
  | addi rd rs1 imm => cases h; exact hpc _ (hsr _ _ _ hs)
  | lw rd rs1 imm =>
    unfold exec execLw at h
    dsimp only at h
    have hl := fun hr => s.loadWord_leaves (s.effectiveAddress rs1 imm) hr
    have hf := s.loadWord_frame (s.effectiveAddress rs1 imm)
    have key : ∀ u : State, (∃ m, u = { s with ms := m }) →
        (recordsOk s.ms → ∃ m, u = { s with ms := m } ∧ recordsOk m) → P u := by
      rintro u ⟨m, rfl⟩ hr
      refine hms _ _ hs (fun ho => ?_)
      obtain ⟨m', hm, hk⟩ := hr ho
      have : m = m' := congrArg State.ms hm
      rw [this]; exact hk
    split at h <;> rename_i heq <;> rw [heq] at hf hl
    · cases h; exact hpc _ (hsr _ _ _ (key _ hf hl))
    · cases h; exact hexc _ _ _ (key _ hf hl)
    · rename_i t' ; cases t' <;> cases h
  | sw rs2 rs1 imm =>
    unfold exec execSw at h
    dsimp only at h
    have hl := fun hr => s.storeWord_leaves (s.effectiveAddress rs1 imm) ((s.reg rs2).setWidth 32) hr
    have hf := s.storeWord_frame (s.effectiveAddress rs1 imm) ((s.reg rs2).setWidth 32)
    have key : ∀ u : State, (∃ m, u = { s with ms := m }) →
        (recordsOk s.ms → ∃ m, u = { s with ms := m } ∧ recordsOk m) → P u := by
      rintro u ⟨m, rfl⟩ hr
      refine hms _ _ hs (fun ho => ?_)
      obtain ⟨m', hm, hk⟩ := hr ho
      have : m = m' := congrArg State.ms hm
      rw [this]; exact hk
    split at h <;> rename_i heq <;> rw [heq] at hf hl
    · cases h; exact hpc _ (key _ hf hl)
    · cases h; exact hexc _ _ _ (key _ hf hl)
    · rename_i t' ; cases t' <;> cases h
end Sys2Proof.Machine
end

