-- ==== Sys2Proof/Laws/PerInstr.lean ====
section
/-! SUPPORT. The family of LAWS.json, a lemma for each constructor: every word the encoder builds has the fixed bits of its
row of spec/opcode_table.json, and the length bits of a 32-bit instruction (R220, R224). -/

namespace Sys2Proof.Laws.TableRow

open Sys2Proof.Machine

/-- The word of an instruction AND its row's mask is its row's match, and bits 4:0 say 32 bits (R220, R224). -/
def Statement (i : Instr) : Prop :=
  encode i &&& (tableRow i).1 = (tableRow i).2 ∧ (encode i).extractLsb' 0 2 = 0b11#2 ∧ (encode i).extractLsb' 0 5 ≠ 0b11111#5

/-- A packed word under a mask that keeps opcode and funct3 only. -/
theorem packed_opcode (f7 : BitVec 7) (rs2 rs1 : BitVec 5) (f3 : BitVec 3) (rd : BitVec 5) (op : BitVec 7) :
    packWord f7 rs2 rs1 f3 rd op &&& 0x0000707F = packWord 0 0 0 f3 0 op := by
  apply BitVec.eq_of_getLsbD_eq
  intro k hk
  rw [BitVec.getLsbD_and, packWord_bit, packWord_bit]
  interval_cases k <;> simp

/-- A packed word under a mask that keeps all but `rs2` and `rs1`. -/
theorem packed_privileged (f7 : BitVec 7) (rs2 rs1 : BitVec 5) (f3 : BitVec 3) (rd : BitVec 5) (op : BitVec 7) :
    packWord f7 rs2 rs1 f3 rd op &&& 0xFE007FFF = packWord f7 0 0 f3 rd op := by
  apply BitVec.eq_of_getLsbD_eq
  intro k hk
  rw [BitVec.getLsbD_and, packWord_bit, packWord_bit]
  interval_cases k <;> simp

/-- The low bits of a packed word are those of its opcode. -/
theorem packed_length (f7 : BitVec 7) (rs2 rs1 : BitVec 5) (f3 : BitVec 3) (rd : BitVec 5) (op : BitVec 7) (n : Nat)
    (h : n ≤ 7) : (packWord f7 rs2 rs1 f3 rd op).extractLsb' 0 n = op.extractLsb' 0 n := by
  apply BitVec.eq_of_getLsbD_eq
  intro k hk
  rw [BitVec.getLsbD_extractLsb', BitVec.getLsbD_extractLsb', Nat.zero_add, packWord_bit, if_pos (by omega)]

theorem sret : Statement .sret :=
  ⟨by decide, by decide, by decide⟩

theorem sfenceVma (rs1 : RegId) (rs2 : RegId) : Statement (.sfenceVma rs1 rs2) := by
  refine ⟨(packed_privileged _ _ _ _ _ _).trans rfl, ?_, ?_⟩
  · exact (packed_length _ _ _ _ _ _ 2 (by omega)).trans (by decide)
  · exact fun h => absurd ((packed_length _ _ _ _ _ _ 5 (by omega)).symm.trans h) (by decide)

theorem sinvalVma (rs1 : RegId) (rs2 : RegId) : Statement (.sinvalVma rs1 rs2) := by
  refine ⟨(packed_privileged _ _ _ _ _ _).trans rfl, ?_, ?_⟩
  · exact (packed_length _ _ _ _ _ _ 2 (by omega)).trans (by decide)
  · exact fun h => absurd ((packed_length _ _ _ _ _ _ 5 (by omega)).symm.trans h) (by decide)

theorem sfenceWInval : Statement .sfenceWInval :=
  ⟨by decide, by decide, by decide⟩

theorem sfenceInvalIr : Statement .sfenceInvalIr :=
  ⟨by decide, by decide, by decide⟩

theorem hinvalVvma (rs1 : RegId) (rs2 : RegId) : Statement (.hinvalVvma rs1 rs2) := by
  refine ⟨(packed_privileged _ _ _ _ _ _).trans rfl, ?_, ?_⟩
  · exact (packed_length _ _ _ _ _ _ 2 (by omega)).trans (by decide)
  · exact fun h => absurd ((packed_length _ _ _ _ _ _ 5 (by omega)).symm.trans h) (by decide)

theorem hinvalGvma (rs1 : RegId) (rs2 : RegId) : Statement (.hinvalGvma rs1 rs2) := by
  refine ⟨(packed_privileged _ _ _ _ _ _).trans rfl, ?_, ?_⟩
  · exact (packed_length _ _ _ _ _ _ 2 (by omega)).trans (by decide)
  · exact fun h => absurd ((packed_length _ _ _ _ _ _ 5 (by omega)).symm.trans h) (by decide)

theorem csrrw (rd : RegId) (csr : BitVec 12) (rs1 : RegId) : Statement (.csrrw rd csr rs1) := by
  refine ⟨(packed_opcode _ _ _ _ _ _).trans rfl, ?_, ?_⟩
  · exact (packed_length _ _ _ _ _ _ 2 (by omega)).trans (by decide)
  · exact fun h => absurd ((packed_length _ _ _ _ _ _ 5 (by omega)).symm.trans h) (by decide)

theorem csrrs (rd : RegId) (csr : BitVec 12) (rs1 : RegId) : Statement (.csrrs rd csr rs1) := by
  refine ⟨(packed_opcode _ _ _ _ _ _).trans rfl, ?_, ?_⟩
  · exact (packed_length _ _ _ _ _ _ 2 (by omega)).trans (by decide)
  · exact fun h => absurd ((packed_length _ _ _ _ _ _ 5 (by omega)).symm.trans h) (by decide)

theorem csrrc (rd : RegId) (csr : BitVec 12) (rs1 : RegId) : Statement (.csrrc rd csr rs1) := by
  refine ⟨(packed_opcode _ _ _ _ _ _).trans rfl, ?_, ?_⟩
  · exact (packed_length _ _ _ _ _ _ 2 (by omega)).trans (by decide)
  · exact fun h => absurd ((packed_length _ _ _ _ _ _ 5 (by omega)).symm.trans h) (by decide)

theorem csrrwi (rd : RegId) (csr : BitVec 12) (uimm : BitVec 5) : Statement (.csrrwi rd csr uimm) := by
  refine ⟨(packed_opcode _ _ _ _ _ _).trans rfl, ?_, ?_⟩
  · exact (packed_length _ _ _ _ _ _ 2 (by omega)).trans (by decide)
  · exact fun h => absurd ((packed_length _ _ _ _ _ _ 5 (by omega)).symm.trans h) (by decide)

theorem csrrsi (rd : RegId) (csr : BitVec 12) (uimm : BitVec 5) : Statement (.csrrsi rd csr uimm) := by
  refine ⟨(packed_opcode _ _ _ _ _ _).trans rfl, ?_, ?_⟩
  · exact (packed_length _ _ _ _ _ _ 2 (by omega)).trans (by decide)
  · exact fun h => absurd ((packed_length _ _ _ _ _ _ 5 (by omega)).symm.trans h) (by decide)

theorem csrrci (rd : RegId) (csr : BitVec 12) (uimm : BitVec 5) : Statement (.csrrci rd csr uimm) := by
  refine ⟨(packed_opcode _ _ _ _ _ _).trans rfl, ?_, ?_⟩
  · exact (packed_length _ _ _ _ _ _ 2 (by omega)).trans (by decide)
  · exact fun h => absurd ((packed_length _ _ _ _ _ _ 5 (by omega)).symm.trans h) (by decide)

theorem ecall : Statement .ecall :=
  ⟨by decide, by decide, by decide⟩

theorem ebreak : Statement .ebreak :=
  ⟨by decide, by decide, by decide⟩

theorem fence (fm : BitVec 4) (pred : BitVec 4) (succ : BitVec 4) (rs1 : RegId) (rd : RegId) : Statement (.fence fm pred succ rs1 rd) := by
  refine ⟨?_, ?_, ?_⟩
  · apply BitVec.eq_of_getLsbD_eq
    intro k hk
    simp only [encode, tableRow, BitVec.getLsbD_and, BitVec.getLsbD_append]
    interval_cases k <;> simp
  · simp only [encode]
    apply BitVec.eq_of_getLsbD_eq
    intro k hk
    rw [BitVec.getLsbD_extractLsb']
    simp only [BitVec.getLsbD_append]
    interval_cases k <;> simp
  · intro h
    have h4 := congrArg (fun x => x.getLsbD 4) h
    simp only [encode, BitVec.getLsbD_extractLsb', BitVec.getLsbD_append] at h4
    rw [if_pos (by decide)] at h4
    exact absurd h4 (by decide)

theorem addi (rd : RegId) (rs1 : RegId) (imm : BitVec 12) : Statement (.addi rd rs1 imm) := by
  refine ⟨(packed_opcode _ _ _ _ _ _).trans rfl, ?_, ?_⟩
  · exact (packed_length _ _ _ _ _ _ 2 (by omega)).trans (by decide)
  · exact fun h => absurd ((packed_length _ _ _ _ _ _ 5 (by omega)).symm.trans h) (by decide)

theorem lw (rd : RegId) (rs1 : RegId) (imm : BitVec 12) : Statement (.lw rd rs1 imm) := by
  refine ⟨(packed_opcode _ _ _ _ _ _).trans rfl, ?_, ?_⟩
  · exact (packed_length _ _ _ _ _ _ 2 (by omega)).trans (by decide)
  · exact fun h => absurd ((packed_length _ _ _ _ _ _ 5 (by omega)).symm.trans h) (by decide)

theorem sw (rs2 : RegId) (rs1 : RegId) (imm : BitVec 12) : Statement (.sw rs2 rs1 imm) := by
  refine ⟨(packed_opcode _ _ _ _ _ _).trans rfl, ?_, ?_⟩
  · exact (packed_length _ _ _ _ _ _ 2 (by omega)).trans (by decide)
  · exact fun h => absurd ((packed_length _ _ _ _ _ _ 5 (by omega)).symm.trans h) (by decide)

end Sys2Proof.Laws.TableRow
end

