-- ==== Sys2Proof/Laws/Step.lean ====
section
/-! SUPPORT. What one step can do, said once: an interrupt, an exception or the meaning of an instruction, after the other
agents' turn. -/

namespace Sys2Proof.Machine

/-- A property that one action of another agent keeps, a whole turn keeps; a turn drops its batch and clears `recheck`. -/
theorem State.environmentTurn_keeps (P : State → Prop) (hact : ∀ s a, P s → P (s.act a))
    (hclear : ∀ s, P s → P { s with recheck := false }) (hpop : ∀ (s : State) l, P s → P { s with inbox := l })
    (s : State) (h : P s) : P s.environmentTurn := by
  have fold : ∀ (l : List EnvAction) (s : State), P s → P (l.foldl State.act s) := by
    intro l
    induction l with
    | nil => exact fun _ h => h
    | cons a l ih => exact fun s h => ih _ (hact s a h)
  unfold State.environmentTurn
  split
  · exact hclear s h
  · exact hclear _ (fold _ _ (hpop s _ h))

/-- An instruction that runs only with `pc` aligned raises code 0 or runs. -/
theorem State.ifAligned_cases (s t : State) (o : Host.Outcome State Fault Refusal) (h : s.ifAligned o = .next t) :
    t = s.takeException .instrMisaligned s.pc ∨ o = .next t := by
  unfold State.ifAligned at h
  split at h
  · exact Or.inr h
  · cases h; exact Or.inl rfl

/-- A decoded instruction raises code 0 or runs. -/
theorem State.execute_cases (s t : State) (i : Instr) (h : s.execute i = .next t) :
    t = s.takeException .instrMisaligned s.pc ∨ exec i s = .next t := by
  unfold State.execute at h
  split at h
  · exact Or.inr h
  · exact s.ifAligned_cases t _ h

/-- With `pc` aligned a decoded instruction runs. -/
theorem State.execute_aligned (s : State) (i : Instr) (h : s.pcAligned = true) : s.execute i = exec i s := by
  unfold State.execute State.ifAligned
  rw [if_pos h, ite_self]

theorem csrInstr_barred (i : Instr) (op : CsrOp) (rd : RegId) (num : BitVec 12) (src : Word) (isRead isWrite : Bool) (s : State)
    (h : s.csrBarred num isWrite = true) :
    csrInstr i op rd num src isRead isWrite s = raiseIllegal i s ∨
      csrInstr i op rd num src isRead isWrite s = .refused (.machineCsr num) := by
  unfold State.csrBarred at h
  unfold csrInstr
  split at h
  · cases h
  · rename_i heq; rw [heq]; exact Or.inl rfl
  · rename_i heq; rw [heq]; exact Or.inr rfl

/-- A barred instruction raises the illegal-instruction exception, or is refused for its machine-level CSR. -/
theorem State.barred_exec (s : State) (i : Instr) (h : s.barred i = true) :
    exec i s = raiseIllegal i s ∨ ∃ num, exec i s = .refused (.machineCsr num) := by
  have csr : ∀ op rd num src a b, s.csrBarred num b = true → exec i s = csrInstr i op rd num src a b s →
      exec i s = raiseIllegal i s ∨ ∃ num, exec i s = .refused (.machineCsr num) := by
    intro op rd num src a b hb he
    rw [he]
    exact (csrInstr_barred i op rd num src a b s hb).imp id (fun h => ⟨num, h⟩)
  cases i with
  | sret => exact Or.inl (if_neg (by simpa [State.barred] using h))
  | sfenceVma rs1 rs2 => exact Or.inl (if_pos h)
  | sinvalVma rs1 rs2 => exact Or.inl (if_pos h)
  | sfenceWInval => exact Or.inl (if_pos h)
  | sfenceInvalIr => exact Or.inl (if_pos h)
  | hinvalVvma rs1 rs2 => exact Or.inl rfl
  | hinvalGvma rs1 rs2 => exact Or.inl rfl
  | csrrw rd num rs1 => exact csr _ _ _ _ _ _ h rfl
  | csrrs rd num rs1 => exact csr _ _ _ _ _ _ h rfl
  | csrrc rd num rs1 => exact csr _ _ _ _ _ _ h rfl
  | csrrwi rd num uimm => exact csr _ _ _ _ _ _ h rfl
  | csrrsi rd num uimm => exact csr _ _ _ _ _ _ h rfl
  | csrrci rd num uimm => exact csr _ _ _ _ _ _ h rfl
  | ecall => cases h
  | ebreak => cases h
  | fence fm pred succ rs1 rd => cases h
  | addi rd rs1 imm => cases h
  | lw rd rs1 imm => cases h
  | sw rs2 rs1 imm => cases h

/-- What a flush that goes on does: a change of the memory system that keeps its records, then `pc` + 4 or an exception. -/
theorem State.flushBlock_cases (u t : State) (rs1 : RegId) (h : u.flushBlock rs1 = .next t) :
    ∃ m, (recordsOk u.ms → recordsOk m) ∧
      ((∃ c info, t = { u with ms := m }.takeException c info) ∨ t = { u with ms := m }.advance) := by
  have hl : recordsOk u.ms → resLeaves recordsOk (locate (u.walkCtx (u.reg rs1) .load u.effectivePriv) 1 u.ms) :=
    fun hr => locate_leaves _ _ _ _ (translate_recordsOk _ _ hr)
  unfold State.flushBlock at h
  cases hc : locate (u.walkCtx (u.reg rs1) .load u.effectivePriv) 1 u.ms with
  | ok r m =>
    rw [hc] at h hl
    cases h
    exact ⟨{ m with types := flushTypes u.cfg.cacheBlock r.1 m.types },
      fun hr => ⟨(hl hr).1, followTypes_canonical
        (fun a since => if a / u.cfg.cacheBlock = r.1 / u.cfg.cacheBlock then since.afterFlush else since) _ (hl hr).2⟩,
      Or.inr rfl⟩
  | exc c info m =>
    rw [hc] at h hl
    cases h
    exact ⟨m, hl, Or.inl ⟨_, _, rfl⟩⟩
  | stop x =>
    rw [hc] at h
    cases x <;> cases h

/-- How a word that is no row ends in a next state: an exception, or LPAD or CBO.FLUSH. -/
theorem State.noInstruction_cases (u t : State) (len : Nat) (w : BitVec 32) (h : u.noInstruction len w = .next t) :
    ∃ m, (recordsOk u.ms → recordsOk m) ∧
      ((∃ c info, t = { u with ms := m }.takeException c info) ∨ t = { u with ms := m }.advance) := by
  have exc : ∀ c info, t = u.takeException c info → ∃ m, (recordsOk u.ms → recordsOk m) ∧
      ((∃ c info, t = { u with ms := m }.takeException c info) ∨ t = { u with ms := m }.advance) :=
    fun c info e => ⟨u.ms, id, Or.inl ⟨c, info, e⟩⟩
  unfold State.noInstruction at h
  split at h
  · unfold State.runLpad at h
    split at h
    · cases h
    · rcases u.ifAligned_cases t _ h with rfl | h'
      · exact exc _ _ rfl
      · cases h'; exact ⟨u.ms, id, Or.inr rfl⟩
  · split at h
    · cases h; exact exc _ _ rfl
    · split at h
      · unfold State.runFlush at h
        split at h
        · rcases u.ifAligned_cases t _ h with rfl | h'
          · exact exc _ _ rfl
          · exact u.flushBlock_cases t _ h'
        · cases h; exact exc _ _ rfl
      · split at h
        · cases h
        · cases h; exact exc _ _ rfl

/-- How a fetched instruction ends in a next state: an exception of its own, LPAD as a no-op, CBO.FLUSH, or the meaning of what
it decodes to. -/
theorem State.runNext_cases (e t : State) (h : e.runNext = .next t) :
    ∃ u m, u = { e with ms := m } ∧ (recordsOk e.ms → recordsOk m) ∧
      ((∃ c info, t = u.takeException c info) ∨ t = u.advance ∨ ∃ i, exec i u = .next t) := by
  have hf := e.fetch_frame
  have hl : recordsOk e.ms → resLeaves (fun t => ∃ m, t = { e with ms := m } ∧ recordsOk m) e.fetch := e.fetch_leaves
  have pack : ∀ u, (∃ m, u = { e with ms := m }) → (recordsOk e.ms → ∃ m, u = { e with ms := m } ∧ recordsOk m) →
      ∃ m, u = { e with ms := m } ∧ (recordsOk e.ms → recordsOk m) := by
    rintro u ⟨m, rfl⟩ hr
    refine ⟨m, rfl, fun ho => ?_⟩
    obtain ⟨m', hm, hk⟩ := hr ho
    have : m = m' := congrArg State.ms hm
    rw [this]
    exact hk
  have none_case : ∀ (u : State) m len w, u = { e with ms := m } → (recordsOk e.ms → recordsOk m) →
      u.noInstruction len w = .next t →
      ∃ u m, u = { e with ms := m } ∧ (recordsOk e.ms → recordsOk m) ∧
        ((∃ c info, t = u.takeException c info) ∨ t = u.advance ∨ ∃ i, exec i u = .next t) := by
    rintro u m len w rfl hk hn
    obtain ⟨m', hr, ht⟩ := State.noInstruction_cases _ t len w hn
    exact ⟨_, m', rfl, fun ho => hr (hk ho), ht.imp id Or.inl⟩
  unfold State.runNext at h
  split at h
  · rename_i w u heq
    rw [heq] at hf hl
    obtain ⟨m, hm, hk⟩ := pack u hf hl
    unfold State.runWord at h
    split at h
    · rename_i i _
      refine ⟨u, m, hm, hk, ?_⟩
      split at h
      · cases h; exact Or.inl ⟨_, _, rfl⟩
      · rcases u.execute_cases t i h with rfl | h'
        · exact Or.inl ⟨_, _, rfl⟩
        · exact Or.inr (Or.inr ⟨i, h'⟩)
    · exact none_case u m _ _ hm hk h
  · rename_i _ u heq
    rw [heq] at hf hl
    obtain ⟨m, hm, hk⟩ := pack u hf hl
    exact none_case u m _ _ hm hk h
  · rename_i c info u heq
    rw [heq] at hf hl
    obtain ⟨m, hm, hk⟩ := pack u hf hl
    cases h
    exact ⟨u, m, hm, hk, Or.inl ⟨c, info, rfl⟩⟩
  · rename_i t' _
    cases t' <;> cases h

/-- Everything a step that goes on can be. -/
theorem step_cases (s t : State) (h : step s = .next t) :
    (∃ code, s.selectInterrupt = some code ∧ t = { s with recheck := false }.takeInterrupt code) ∨
    (∃ code, s.environmentTurn.selectInterrupt = some code ∧ t = s.environmentTurn.takeInterrupt code) ∨
    ∃ u m, u = { s.environmentTurn with ms := m } ∧ (recordsOk s.environmentTurn.ms → recordsOk m) ∧
      ((∃ c info, t = u.takeException c info) ∨ t = u.advance ∨ ∃ i, exec i u = .next t) := by
  unfold step State.advanceHart at h
  split at h
  · rename_i code hi
    cases h
    refine Or.inl ⟨code, ?_, rfl⟩
    unfold State.immediateInterrupt at hi
    split at hi
    · exact hi
    · cases hi
  · split at h
    · rename_i x _; cases x <;> cases h
    · unfold State.proceed at h
      split at h
      · rename_i code hc; cases h; exact Or.inr (Or.inl ⟨code, hc, rfl⟩)
      · exact Or.inr (Or.inr (State.runNext_cases _ _ h))

/-- A property that the other agents, a change of the memory system that keeps its records, traps, `pc + 4` and instructions
keep, a step keeps. -/
theorem step_keeps (P : State → Prop)
    (hact : ∀ s a, P s → P (s.act a)) (hclear : ∀ s, P s → P { s with recheck := false })
    (hpop : ∀ (s : State) l, P s → P { s with inbox := l })
    (hms : ∀ (s : State) m, P s → (recordsOk s.ms → recordsOk m) → P { s with ms := m })
    (hint : ∀ s code, P s → s.selectInterrupt = some code → P (s.takeInterrupt code))
    (hexc : ∀ s c info, P s → P (s.takeException c info)) (hpc : ∀ s, P s → P s.advance)
    (hexec : ∀ i s t, P s → exec i s = .next t → P t) (s t : State) (hs : P s) (h : step s = .next t) : P t := by
  have he := State.environmentTurn_keeps P hact hclear hpop s hs
  rcases step_cases s t h with ⟨code, hc, rfl⟩ | ⟨code, hc, rfl⟩ | ⟨u, m, rfl, hm, ht⟩
  · exact hint _ _ (hclear s hs) hc
  · exact hint _ _ he hc
  · have hu := hms _ m he hm
    rcases ht with ⟨c, info, rfl⟩ | rfl | ⟨i, hi⟩
    · exact hexc _ _ _ hu
    · exact hpc _ hu
    · exact hexec _ _ _ hu hi

end Sys2Proof.Machine
end

