-- ==== Sys2Proof/Tests/Slice0.lean ====
section
/-! SUPPORT. The model's own tests: the refused configurations, the decoding of words written out from the spec's
encodings, single steps whose results the spec's vectors give, and witnesses that meet the statements' hypotheses. -/

namespace Sys2Proof.Tests

open Sys2Proof Sys2Proof.Machine

/-! ### Helpers -/

/-- What holds of the next state, where there is one. -/
def after {α : Type} (o : Host.Outcome State Fault Refusal) (f : State → α) : Option α :=
  match o with
  | .next t => some (f t)
  | .fault _ => none
  | .refused _ => none

/-- An outcome that stops, as plain data. -/
def stopOf (o : Host.Outcome State Fault Refusal) : Option Stop :=
  match o with
  | .next _ => none
  | .fault f => some (.fault f)
  | .refused r => some (.refusal r)

/-- Memory with an `n`-byte little-endian value in it. -/
def poke (m : List Host.Cell) (n a v : Nat) : List Host.Cell := Memory.writeBytes m a (littleBytes n v)

/-- The state after reset in S-mode at 0x8000_0010, in a configuration. -/
def sup (c : Config) : State := { resetState c with priv := .supervisor, pc := 0x80000010, stvec := 0x80000100 }

/-- The attributes of PBMT=NC. -/
def ncAttr : Attributes := { cacheable := false, io := false }

/-- The same in U-mode. -/
def usr (c : Config) : State := { sup c with priv := .user, pc := 0x1000 }

/-- A state whose next instruction word is given. -/
def fetching (s : State) (w : Nat) : State := s.withFetchWord 32 w

/-- A state with one register set. -/
def withReg (s : State) (r : RegId) (v : Word) : State := { s with regs := s.regs.set r.toNat v r.isLt }

/-- A state with `sstatus` written. -/
def withStatus (s : State) (v : Word) : State := s.writeSstatus v

/-- A state with memory. -/
def withMem (s : State) (m : List Host.Cell) : State := { s with ms := { s.ms with mem := m } }

/-- The reset configuration with Ssdbltrp. -/
def cfgDbl : Config := { resetConfig with ext := { resetConfig.ext with ssdbltrp := true } }

/-- A configuration with SXLEN=32 and Sv32. -/
def cfg32 : Config :=
  { resetConfig with
    sxlen := .rv32, sv32 := true, sv39 := false, sv48 := false, sv57 := false, asidLen := 9, ppnLen := 22, paLen := 34
    ext := { resetConfig.ext with svnapot := false, svpbmt := false }
    regions := [openRegion 0 (2 ^ 34)]
    foreign := baseIsaWords .rv32 }

/-- The reset configuration without Svadu, so that A and D are set by software (Svade). -/
def cfgSoftAd : Config := { resetConfig with hwAd := false, ext := { resetConfig.ext with svadu := false } }

/-! ### Well-formedness -/

theorem test_resetConfig_wf : resetConfig.wf = true := by decide
theorem test_cfg32_wf : cfg32.wf = true := by decide
theorem test_wf_refuses_sv32_with_rv64 : { resetConfig with sv32 := true }.wf = false := by decide
theorem test_wf_refuses_sv48_without_sv39 :
    { resetConfig with sv39 := false, ext := { resetConfig.ext with svnapot := false, svpbmt := false } }.modesOk = false := by
  decide
theorem test_wf_refuses_long_asid : { resetConfig with asidLen := 17 }.asidOk = false := by decide
theorem test_wf_refuses_long_ppn : { resetConfig with ppnLen := 45 }.ppnOk = false := by decide
theorem test_wf_refuses_long_pa : { resetConfig with paLen := 57 }.paOk = false := by decide
theorem test_wf_refuses_svnapot_without_sv39 : { cfg32 with ext := resetConfig.ext }.dependsOk = false := by decide
theorem test_wf_refuses_smstateen_without_priv114 :
    { resetConfig with ext := { resetConfig.ext with smstateen := true, ssqosid := true } }.dependsOk = false := by decide
theorem test_wf_refuses_rv32d_with_rv64 :
    { resetConfig with ext := { resetConfig.ext with rv32d := true } }.dependsOk = false := by decide
theorem test_wf_refuses_platform_bit_9 : { resetConfig with platformIrqs := 0x200 }.platformOk = false := by decide
theorem test_wf_refuses_irq_order : { resetConfig with irqOrder := [1, 9, 5, 13] }.irqOrderOk = false := by decide
theorem test_wf_refuses_no_stvec_mode :
    { resetConfig with stvecDirect := false, stvecVectored := false }.stvecOk = false := by decide
theorem test_wf_refuses_short_scause : { resetConfig with scauseCodeBits := 4 }.scauseOk = false := by decide
theorem test_wf_refuses_long_rcid : { resetConfig with rcidLen := 13 }.srmcfgOk = false := by decide
theorem test_wf_refuses_short_ilen : { resetConfig with ilen := 16 }.ilenOk = false := by decide
theorem test_wf_refuses_cache_block : [3, 8192].map (fun n => { resetConfig with cacheBlock := n }.blockOk) = [false, false] := by
  decide
theorem test_wf_refuses_uxl_with_rv32 : { cfg32 with uxl := .writable }.uxlOk = false := by decide
theorem test_wf_refuses_misaligned_reset : { resetConfig with resetVector := 2 }.resetOk = false := by decide
theorem test_wf_allows_halves : { resetConfig with ialign := .fixed16, resetVector := 2 }.resetOk = true := by decide

/-! ### Decoding: words of 95_test_vectors.md, part 2.1, read from the field layout of R222 to R224 -/

theorem test_decode_sret : instrOf 0x10200073 = some .sret := by decide
theorem test_decode_sfenceVma :
    [0x12000073, 0x12050073, 0x12B00073, 0x12B50073].map instrOf =
      [some (.sfenceVma 0 0), some (.sfenceVma 10 0), some (.sfenceVma 0 11), some (.sfenceVma 10 11)] := by decide
theorem test_decode_svinval :
    [0x16050073, 0x16B50073, 0x18000073, 0x18100073, 0x26B50073, 0x66B50073].map instrOf =
      [some (.sinvalVma 10 0), some (.sinvalVma 10 11), some .sfenceWInval, some .sfenceInvalIr, some (.hinvalVvma 10 11),
        some (.hinvalGvma 10 11)] := by decide
theorem test_decode_csr_registers :
    [0x140292F3, 0x10059573, 0x18051073, 0x14139073, 0xC0051073, 0x14202573, 0xC0102573, 0x1005A573, 0x1005B573, 0x1042B073].map
        instrOf =
      [some (.csrrw 5 0x140 5), some (.csrrw 10 0x100 11), some (.csrrw 0 0x180 10), some (.csrrw 0 0x141 7),
        some (.csrrw 0 0xC00 10), some (.csrrs 10 0x142 0), some (.csrrs 10 0xC01 0), some (.csrrs 10 0x100 11),
        some (.csrrc 10 0x100 11), some (.csrrc 0 0x104 5)] := by decide
theorem test_decode_csr_immediates :
    [0x140FD573, 0x10006573, 0x10016073, 0x100175F3].map instrOf =
      [some (.csrrwi 10 0x140 31), some (.csrrsi 10 0x100 0), some (.csrrsi 0 0x100 2), some (.csrrci 11 0x100 2)] := by
  decide
theorem test_decode_environment : [0x00000073, 0x00100073].map instrOf = [some .ecall, some .ebreak] := by decide
theorem test_decode_fence :
    [0x0FF0000F, 0x0330000F, 0x0480000F, 0x05A0000F].map instrOf =
      [some (.fence 0 15 15 0 0), some (.fence 0 3 3 0 0), some (.fence 0 4 8 0 0), some (.fence 0 5 10 0 0)] := by
  decide
theorem test_decode_base :
    [0x00450513, 0xFFF00293, 0x80050513, 0x00852583, 0x7FF52583, 0x00B52023, 0xFEB52E23, 0x7EB52FA3, 0x80B52023].map instrOf =
      [some (.addi 10 10 4), some (.addi 5 0 0xFFF), some (.addi 10 10 0x800), some (.lw 11 10 8), some (.lw 11 10 0x7FF),
        some (.sw 11 10 0), some (.sw 11 10 0xFFC), some (.sw 11 10 0x7FF), some (.sw 11 10 0x800)] := by decide
theorem test_decode_refuses :
    [0x102000F3, 0x10208073, 0x120000F3, 0x18200073, 0x18008073, 0x14000073].map instrOf = List.replicate 6 none := by
  decide
theorem test_decode_lengths :
    (decode [0x01, 0x00] = .error .sixteenBit) ∧ (decode [0x1F, 0, 0, 0] = .error .longer) ∧
      (decode [0x13] = .error .tooShort) := by decide
theorem test_table_word : decodeTableWord 32 0x10200073 = some .sret := by decide

/-! ### One step: ADDI, LW, SW (X1 to X9) -/

/-- X2: the sum wraps. -/
theorem test_addi_wraps :
    after (exec (.addi 10 10 1) (withReg (sup resetConfig) 10 (-1))) (fun t => (t.reg 10, t.pc)) = some (0, 0x80000014) := by
  decide
/-- X4: `x0` stays 0. -/
theorem test_addi_x0 : after (exec (.addi 0 10 4) (sup resetConfig)) (fun t => t.reg 0) = some 0 := by decide
/-- X6: sign extension. -/
theorem test_lw_sign :
    after (exec (.lw 11 10 8) (withMem (withReg (sup resetConfig) 10 0x80003000) (poke [] 4 0x80003008 0xDEADBEEF)))
      (fun t => t.reg 11) = some 0xFFFFFFFFDEADBEEF := by decide
/-- X8: the low word in little-endian order at a negative offset. -/
theorem test_sw_bytes :
    after (exec (.sw 11 10 0xFFC) (withReg (withReg (sup resetConfig) 10 0x80003000) 11 0x1122334455667788))
      (fun t => t.ms.mem) = some [(0x80002FFC, 0x88), (0x80002FFD, 0x77), (0x80002FFE, 0x66), (0x80002FFF, 0x55)] := by
  decide
/-! ### Sv32 (A1 to A22) and Sv39 (B1 to B17) -/

/-- The page tables of 2.7. -/
def tables32 : List Host.Cell :=
  [(0x80001004, 0x20000801), (0x80001008, 0x200004CF), (0x80001010, 0x20000841), (0x80001800, 0x200000CF),
    (0x80002000, 0x20000C07), (0x80002004, 0x20001017), (0x80002008, 0x20001449), (0x8000200C, 0x20001845),
    (0x80002010, 0x20001C43)].foldl (fun m p => poke m 4 p.1 p.2) []

/-- The page tables of 2.8. -/
def tables39 : List Host.Cell :=
  [(0x80010000, 0x20004401), (0x80010010, 0x200000CF), (0x80010018, 0x200004CF), (0x80011010, 0x20004801),
    (0x80011018, 0x80000000200820CF), (0x80011020, 0x2000000020004801), (0x80012000, 0x20004CC7),
    (0x80012008, 0x40000000200050C7), (0x80012010, 0x60000000200054C7), (0x80012018, 0x00400000200058C7),
    (0x80012028, 0x20005C01), (0x80012098, 0x800000002000A0C7), (0x80012100, 0x800000002000D0C7)].foldl
    (fun m p => poke m 8 p.1 p.2) []

/-- S-mode under Sv32 with the tables of 2.7. -/
def paged32 (c : Config) : State := { withMem (sup c) tables32 with satp := { mode := .sv32, asid := 0, ppn := 0x80001 } }

/-- S-mode under Sv39 with the tables of 2.8. -/
def paged39 (c : Config) : State := { withMem (sup c) tables39 with satp := { mode := .sv39, asid := 0, ppn := 0x80010 } }

/-- The physical address, or the exception's code, of a translation. -/
def reaches (s : State) (acc : Access) (va : Word) : Option (Nat ⊕ Nat) :=
  match translate (s.walkCtx va acc s.priv) s.ms with
  | .ok (pa, _) _ => some (.inl pa)
  | .exc c _ _ => some (.inr c.code)
  | .stop _ => none

/-- A1, A4 to A5, A7, A9 to A10, A12 to A16, A18 to A19. -/
theorem test_sv32_vectors :
    [(Access.load, 0x400008), (.fetch, 0x80000004), (.load, 0x803FFFFC), (.load, 0x401000), (.fetch, 0x401000),
        (.load, 0x402000), (.fetch, 0x402000), (.load, 0x403000), (.load, 0x800000), (.load, 0x1000000), (.load, 0x2000000),
        (.store, 0x404000), (.load, 0x404000)].map (fun p => reaches (paged32 cfg32) p.1 p.2) =
      [some (.inl 0x80003008), some (.inl 0x80000004), some (.inl 0x803FFFFC), some (.inr 13), some (.inr 12),
        some (.inr 13), some (.inl 0x80005000), some (.inr 13), some (.inr 13), some (.inr 13), some (.inr 13),
        some (.inr 15), some (.inl 0x80007000)] := by decide
/-- B1 to B7, B9 to B11, B13 to B17. -/
theorem test_sv39_vectors :
    [(Access.load, 0x400123), (.fetch, 0x80000004), (.load, 0xBFFFFFF8), (.load, 0x4000000000), (.load, 0xFFFFFF8000000000),
        (.load, 0xFFFFFFC000000000), (.load, 0x413ABC), (.load, 0x420000), (.load, 0x600000), (.load, 0x401000),
        (.load, 0x402000), (.load, 0x403000), (.load, 0x800000), (.load, 0x405000), (.load, 0xC0000000)].map
        (fun p => reaches (paged39 resetConfig) p.1 p.2) =
      [some (.inl 0x80013123), some (.inl 0x80000004), some (.inl 0xBFFFFFF8), some (.inr 13), some (.inr 13),
        some (.inr 13), some (.inl 0x80023ABC), some (.inr 13), some (.inr 13), some (.inl 0x80014000), some (.inr 13),
        some (.inr 13), some (.inr 13), some (.inr 13), some (.inr 13)] := by decide +kernel
/-- Program B, step 5 (A2): the store sets A and D in its PTE and lands in its page. -/
theorem test_sv32_store :
    after (exec (.sw 11 12 12) (withReg (withReg (paged32 cfg32) 12 0x400000) 11 0xDEADBEF0))
      (fun t => (littleValue (Memory.readBytes t.ms.mem 0x80002000 4), littleValue (Memory.readBytes t.ms.mem 0x8000300C 4))) =
      some (0x20000CC7, 0xDEADBEF0) := by decide
/-- X9: with A left to software the load faults and nothing of the register changes. -/
theorem test_lw_software_ad :
    after (exec (.lw 11 12 8) (withReg (paged32 { cfg32 with hwAd := false, ext := { cfg32.ext with svadu := false } }) 12 0x400000))
      (fun t => (t.scause.code, t.stval, t.sepc, t.ms.mem == tables32)) = some (13, 0x400008, 0x80000010, true) := by
  decide

/-! ### SRET, ECALL, EBREAK, interrupts (S1 to S8, T1 to T13) -/

/-- S3: to U-mode, SIE from SPIE. -/
theorem test_sret_to_user :
    after (exec .sret { withStatus (sup resetConfig) 0x002 with sepc := 0x10000 })
      (fun t => (t.priv, t.readSstatus &&& 0x11C0122, t.pc)) = some (.user, 0x020, 0x10000) := by decide
/-- S6: in U-mode an illegal instruction. -/
theorem test_sret_in_user :
    after (exec .sret (withStatus (usr resetConfig) 0x002))
      (fun t => (t.priv, t.scause.code, t.stval, t.sepc, t.readSstatus &&& 0x11C0122)) =
      some (.supervisor, 2, 0x10200073, 0x1000, 0x020) := by decide
/-- T2. -/
theorem test_ecall_user :
    after (exec .ecall (withStatus (usr resetConfig) 0x002))
      (fun t => (t.pc, t.sepc, t.scause.code, t.stval, t.readSstatus &&& 0x11C0122)) =
      some (0x80000100, 0x1000, 8, 0, 0x020) := by decide
/-- T11: with Ssdbltrp the trap sets SDT. -/
theorem test_ebreak_sets_sdt :
    after (exec .ebreak (withStatus (sup cfgDbl) 0x002)) (fun t => (t.sepc, t.scause.code, t.readSstatus &&& 0x11C0122)) =
      some (0x80000010, 3, 0x1000120) := by decide
/-- T10 with EBREAK as the trap: a double trap writes no supervisor CSR. -/
theorem test_ebreak_double_trap :
    after (exec .ebreak (withStatus (sup cfgDbl) 0x1000100))
      (fun t => (t.priv, t.mach.mcause, t.mach.mtval2, t.mach.mepc, t.sepc)) =
      some (.machine, 16, 3, 0x80000010, 0) := by decide
/-- T4: in U-mode an interrupt is taken whatever SIE is, to its vector. -/
theorem test_interrupt_vectored :
    after (step { usr resetConfig with sip := 0x200, sie := 0x200, stvec := 0x80000201 })
      (fun t => (t.pc, t.scause, t.sepc)) = some (0x80000224, { interrupt := true, code := 9 }, 0x1000) := by decide
/-- T6, T7: SEI before SSI before STI. -/
theorem test_interrupt_priority :
    ({ withStatus (sup resetConfig) 0x002 with sip := 0x222, sie := 0x222 }.selectInterrupt,
      { withStatus (sup resetConfig) 0x002 with sip := 0x222, sie := 0x022 }.selectInterrupt) = (some 9, some 1) := by
  decide

/-! ### CSR instructions (CS1 to CS27) -/

/-- CS1: the swap reads before it writes. -/
theorem test_csrrw_swaps :
    after (exec (.csrrw 5 0x140 5) (withReg { sup resetConfig with sscratch := 0x80002000 } 5 0x1111))
      (fun t => (t.reg 5, t.sscratch)) = some (0x80002000, 0x1111) := by decide
/-- CS19: `satp` takes Sv39. -/
theorem test_csrrw_satp :
    after (exec (.csrrw 0 0x180 10) (withReg (sup resetConfig) 10 0x8000000000080010)) (fun t => t.readSatp) =
      some 0x8000000000080010 := by decide
/-- CS2. -/
theorem test_csrrs_sum :
    after (exec (.csrrs 10 0x100 11) (withReg (withStatus (sup resetConfig) 0x022) 11 0x40000))
      (fun t => (t.reg 10 &&& 0x11C0122, t.readSstatus &&& 0x11C0122)) = some (0x022, 0x40022) := by decide
/-- CS7: a supervisor CSR in U-mode. -/
theorem test_csrrs_in_user :
    after (exec (.csrrs 10 0x142 0) (usr resetConfig)) (fun t => (t.scause.code, t.stval)) = some (2, 0x14202573) := by
  decide
/-- CS3. -/
theorem test_csrrc_sum :
    after (exec (.csrrc 10 0x100 11) (withReg (withStatus (sup resetConfig) 0x40022) 11 0x40002))
      (fun t => (t.reg 10 &&& 0x11C0122, t.readSstatus &&& 0x11C0122)) = some (0x40022, 0x020) := by decide
/-- CS6. -/
theorem test_csrrwi_sscratch :
    after (exec (.csrrwi 10 0x140 31) { sup resetConfig with sscratch := 7 }) (fun t => (t.reg 10, t.sscratch)) =
      some (7, 0x1F) := by decide
/-- CS10: SIE cannot be set while SDT is kept. -/
theorem test_csrrsi_sdt :
    after (exec (.csrrsi 0 0x100 2) (withStatus (sup cfgDbl) 0x1000000)) (fun t => t.readSstatus &&& 0x11C0122) =
      some 0x1000000 := by decide
/-- CS4. -/
theorem test_csrrci_sie :
    after (exec (.csrrci 11 0x100 2) (withStatus (sup resetConfig) 0x022))
      (fun t => (t.reg 11 &&& 0x11C0122, t.readSstatus &&& 0x11C0122)) = some (0x022, 0x020) := by decide

/-! ### SFENCE.VMA, Svinval, FENCE (F1 to F9, V1 to V9, FI1 to FI6) -/

/-- The entries e1 to e4 of R279. -/
def fenceAtc : List AtcEntry :=
  let e1 : AtcEntry :=
    { pteAddr := 0x80012000, pte := 0x20004CC7, level := 0, scheme := .sv39, vpn := 0x400, asid := 5, isGlobal := false,
      staleReads := 0 }
  [e1, { e1 with pteAddr := 0x80010000, pte := 0x20004401, level := 2, vpn := 0 }, { e1 with asid := 7 },
    { e1 with asid := 7, isGlobal := true }]

/-- Which of e1 to e4 are left. -/
def left (s : State) : List Bool := fenceAtc.map (fun e => s.ms.atc.contains e)

/-- S-mode with e1 to e4 in the ATC, `a0` and `a1` as in 2.5. -/
def fenceState : State :=
  let s := paged39 resetConfig
  withReg (withReg { s with ms := { s.ms with atc := fenceAtc } } 10 0x400123) 11 5

/-- F1, F2, F3, F4. -/
theorem test_sfenceVma_cases :
    [Instr.sfenceVma 10 11, .sfenceVma 10 0, .sfenceVma 0 11, .sfenceVma 0 0].map (fun i => after (exec i fenceState) left) =
      [some [false, true, true, true], some [false, true, false, false], some [false, false, true, true],
        some [false, false, false, false]] := by decide
/-- F7: in U-mode an illegal instruction, the ATC unchanged. -/
theorem test_sfenceVma_in_user :
    after (exec (.sfenceVma 10 11) { fenceState with priv := .user }) (fun t => (t.scause.code, t.ms.atc == fenceAtc)) =
      some (2, true) := by decide
/-- V2: the request is pending and the entry still there. -/
theorem test_sinvalVma_pends :
    after (exec (.sinvalVma 10 11) fenceState) (fun t => (t.pendingInval, t.ms.atc == fenceAtc)) =
      some ([{ va := some 0x400123, asid := some 5 }], true) := by decide
/-- V5: with TVM an illegal instruction. -/
theorem test_sinvalVma_tvm :
    after (exec (.sinvalVma 10 11) { fenceState with inputs := { fenceState.inputs with tvm := true } })
      (fun t => (t.scause.code, t.pendingInval)) = some (2, []) := by decide
/-- V6: SFENCE.W.INVAL runs with TVM. -/
theorem test_sfenceWInval_tvm :
    after (exec .sfenceWInval { fenceState with inputs := { fenceState.inputs with tvm := true } })
      (fun t => (t.priv, t.pc)) = some (.supervisor, 0x80000014) := by decide
/-- V1: the pending request takes effect. -/
theorem test_sfenceInvalIr_retires :
    after (exec .sfenceInvalIr { fenceState with pendingInval := [{ va := some 0x400123, asid := some 5 }] })
      (fun t => (left t, t.pendingInval)) = some ([false, true, true, true], []) := by decide
/-- V9. -/
theorem test_hinvalVvma_illegal :
    after (exec (.hinvalVvma 10 11) fenceState) (fun t => (t.scause.code, t.stval)) = some (2, 0x26B50073) := by decide
/-- V9. -/
theorem test_hinvalGvma_illegal :
    after (exec (.hinvalGvma 10 11) fenceState) (fun t => (t.scause.code, t.stval)) = some (2, 0x66B50073) := by decide
/-- FI1, FI3, FI5: the effective sets. -/
theorem test_fence_sets :
    let s : State := { usr resetConfig with senvcfg := { (usr resetConfig).senvcfg with fiom := true } }
    (s.fenceSet 4, s.fenceSet 8, s.fenceSet 1, { s with priv := .supervisor }.fenceSet 4) = (5, 10, 1, 4) := by decide
/-- E14: a full fence lets a location be accessed with another non-cacheable type. -/
theorem test_fence_orders_types :
    after (exec (.fence 0 15 15 0 0) { sup resetConfig with ms := { (sup resetConfig).ms with types := [(8, .seen ncAttr .nothing)] } })
      (fun t => (t.ms.types, t.pc)) = some ([(8, .seen ncAttr .fenced)], 0x80000014) := by decide
/-- R205, R206: PBMT=NC makes a page of an I/O region main memory. -/
theorem test_nc_overrides_io_region :
    let s : State := sup { resetConfig with regions := [{ openRegion 0 0x1000 with device := true }] }
    let c := s.walkCtx 8 .load .supervisor
    (checkAccess c 4 8 .nc s.ms, checkAccess c 4 8 .io s.ms, checkAccess c 4 8 .pma s.ms) =
      (.ok (8, .nc) s.ms, .stop (.refusal .deviceAccess), .stop (.refusal .deviceAccess)) := by decide
/-- R211: two non-cacheable accesses need the fence; for a cacheable one after them the fence alone does not do. -/
theorem test_compatible_attributes :
    let io : Attributes := { cacheable := false, io := true }
    let wb : Attributes := { cacheable := true, io := false }
    [compatible (.seen ncAttr .nothing) io, compatible (.seen ncAttr .fenced) io, compatible (.seen ncAttr .fenced) wb,
        compatible (.seen wb .nothing) wb] = [false, true, false, true] := by decide
/-- The configuration with Zicbom, and S-mode with 0x2000 in `x10` and a non-cacheable access to 0x2004 before. -/
def cfgFlush : Config := { resetConfig with ext := { resetConfig.ext with zicbom := true } }
def flushState : State :=
  { withReg (sup cfgFlush) 10 0x2000 with ms := { (sup cfgFlush).ms with types := [(0x2004, .seen ncAttr .nothing)] } }
/-- Three operations in a row, each from where the one before goes on. -/
def inARow (f g h : State → Host.Outcome State Fault Refusal) (s : State) : Option State :=
  match f s with
  | .next a => match g a with
    | .next b => after (h b) id
    | .fault _ => none
    | .refused _ => none
  | .fault _ => none
  | .refused _ => none
/-- R211: `fence iorw, iorw`, `cbo.flush` to an address of the location's block, `fence iorw, iorw` lets a cacheable access
follow a non-cacheable one; without the first fence the flush does not count. -/
theorem test_flush_sequence :
    let fence := exec (.fence 0 15 15 0 0)
    let flush := fun s : State => s.flushBlock 10
    let cacheable : Attributes := { cacheable := true, io := false }
    ((inARow fence flush fence flushState).map (fun t => compatible (lookupAt .unseen t.ms.types 0x2004) cacheable) = some true) ∧
      (inARow flush flush fence flushState).map (fun t => compatible (lookupAt .unseen t.ms.types 0x2004) cacheable) =
        some false := by decide
/-- R211: CBO.FLUSH (`x10`) in S-mode flushes its block and goes on; in U-mode with CBCFE clear it is illegal (log entry 44). -/
theorem test_flush_word :
    let f : State := { flushState with ms := { flushState.ms with types := [(0x2004, .seen ncAttr .fenced)] } }
    after (step (fetching f 0x0025200F)) (fun t => (lookupAt .unseen t.ms.types 0x2004, t.pc)) =
      some (.seen ncAttr .flushed, 0x80000014) ∧
    after (step (fetching (usr cfgFlush) 0x0025200F)) (fun t => (t.scause.code, t.stval)) = some (2, 0x0025200F) := by decide
/-- R186: the SEE can give the hart a reservation within one 4 KiB page and none that leaves it. -/
theorem test_reservation_in_one_page :
    let s := resetState { resetConfig with ext := { resetConfig.ext with a := true } }
    ((s.act (.seeReserve (some { addr := 0x1FF8, size := 8 }))).reservation,
        (s.act (.seeReserve (some { addr := 0x1FFC, size := 8 }))).reservation) = (some { addr := 0x1FF8, size := 8 }, none) := by
  decide
/-- R417: a fetch of a location last accessed under IO stops. -/
theorem test_fetch_alias_stops :
    stopOf (step { fetching (sup resetConfig) 0x13 with
      ms := { (fetching (sup resetConfig) 0x13).ms with types := [(0x80000012, .seen { cacheable := false, io := true } .fenced)] } }) =
      some (.fault .incoherentTypes) := by decide
/-- An invalid root entry of the Sv39 tables, which memory holds valid. -/
def staleEntry : AtcEntry :=
  { pteAddr := 0x80010000, pte := 0, level := 2, scheme := .sv39, vpn := 0, asid := 0, isGlobal := false, staleReads := 0 }
/-- R213: a speculative read that a stale entry with V=0 satisfies counts; one from memory does not. -/
theorem test_speculative_stale_counts :
    let s := (paged39 { resetConfig with ext := { resetConfig.ext with svvptc := false } }).act (.beginWalk 0x400123 .load)
    let u : State := { s with ms := { s.ms with atc := [staleEntry] } }
    ((u.act (.advanceWalk 0 (some 0))).ms.atc.map (·.staleReads), (u.act (.advanceWalk 0 (some 0))).walks,
      (u.act (.advanceWalk 0 none)).ms.atc.map (·.staleReads)) = ([1], [], [0, 0]) := by decide +kernel
/-- R421, U35: a speculative walk of a page table in device memory stops the step. -/
theorem test_speculative_device_table :
    let s := paged39 { resetConfig with regions := [{ openRegion 0x80010000 0x1000 with device := true }, openRegion 0 (2 ^ 56)] }
    stopOf (step { s with inbox := [[.beginWalk 0x400123 .load, .advanceWalk 0 none]] }) =
      some (.refusal .pageTableInDevice) := by decide
/-- R172, R202: a NAPOT PTE with V=0 reaches the 16 slots of its range. -/
theorem test_invalid_napot_slots :
    (createdEntries ((paged39 resetConfig).walkCtx 0x410000 .load .supervisor) 0 0x80012080 false 0x80000000200820C6).length =
      17 := by decide
/-- R290: a simple SINVAL.VMA acts at once. -/
theorem test_sinvalVma_eager :
    after (exec (.sinvalVma 10 11) { fenceState with cfg := { fenceState.cfg with svinvalEager := true } })
      (fun t => (left t, t.pendingInval)) = some ([false, true, true, true], []) := by decide

/-! ### Zicfilp and Zicfiss (R94, R95, R329, R330) -/

/-- The reset configuration with Zicfilp and Zicfiss. -/
def cfgPads : Config := { resetConfig with ext := { resetConfig.ext with zicfilp := true, zicfiss := true } }

/-- U-mode at a word, with ELP set. -/
def padState (w : Nat) : State := { fetching (usr cfgPads) w with elp := true }

/-- With LPE=0 LPAD is a no-op and a trap saves NO_LP_EXPECTED; with LPE=1 another instruction is a landing-pad fault. -/
theorem test_landing_pads :
    after (step (padState 0x00000017)) (fun t => (t.priv, t.pc)) = some (.user, 0x1004) ∧
    after (step (padState 0x00000073)) (fun t => (t.scause.code, t.sstatus.spelp, t.elp)) = some (8, false, false) ∧
    after (step { padState 0x00000013 with senvcfg := { (padState 0).senvcfg with lpe := true } })
      (fun t => (t.scause.code, t.stval, t.sstatus.spelp)) = some (18, 2, true) := by decide
/-- A trap into M-mode saves ELP, and the SEE's return restores it where landing pads are on. -/
theorem test_elp_through_machine_mode :
    let u : State := { padState 0 with senvcfg := { (padState 0).senvcfg with lpe := true } }
    let m := u.trapToM 8 none 0 0x1000
    (m.elp, m.mach.mpelp, (m.seeResume .user 0x1004).elp, (m.seeResume .supervisor 0x1004).elp) =
      (false, true, true, false) := by decide
/-- SSAMOSWAP.W in U-mode with SSE=0 and `menvcfg.SSE`=1; with both 0 it is outside the spec. -/
theorem test_ssamoswap :
    after (step { fetching (usr cfgPads) 0x48B5262F with inputs := { (usr cfgPads).inputs with menvcfgSse := true } })
      (fun t => (t.scause.code, t.stval)) = some (2, 0x48B5262F) ∧
    stopOf (step (fetching (usr cfgPads) 0x48B5262F)) = some (.refusal (.outsideSpec 0x48B5262F)) := by decide

/-! ### The order of R348, and words of named extensions -/

/-- A misaligned `pc`: a page fault of the fetch first, then illegal instruction, then code 0. -/
theorem test_misaligned_pc_comes_last :
    let odd : Nat → State := fetching { sup resetConfig with pc := 0x80000012 }
    [after (step { paged39 resetConfig with pc := 0x600002 }) (fun t => (t.scause.code, t.stval)),
      after (step (odd 0x0000002B)) (fun t => (t.scause.code, t.stval)),
      after (step { odd 0x10200073 with priv := .user }) (fun t => (t.scause.code, t.stval)),
      after (step (odd 0x00000073)) (fun t => (t.scause.code, t.stval))] =
      [some (12, 0x600002), some (2, 0x2B), some (2, 0x10200073), some (0, 0x80000012)] := by decide +kernel
/-- CBO.CLEAN (`x10`): outside the spec with Zicbom, an illegal instruction without (R93, R227). -/
theorem test_cbo_words :
    stopOf (step (fetching (sup { resetConfig with ext := { resetConfig.ext with zicbom := true } }) 0x0015200F)) =
      some (.refusal (.outsideSpec 0x0015200F)) ∧
    after (step (fetching (sup resetConfig) 0x0015200F)) (fun t => (t.scause.code, t.stval)) = some (2, 0x0015200F) := by
  decide

/-- R227: of opcode OP a word of the base ISA (ADD) stops the model, and a word of no extension is an illegal instruction, as MUL
is on a hart without M. -/
theorem test_undefined_words_of_op :
    stopOf (step (fetching (sup resetConfig) 0x00B50533)) = some (.refusal (.outsideSpec 0x00B50533)) ∧
    after (step (fetching (sup resetConfig) 0xFE000033)) (fun t => (t.scause.code, t.stval)) = some (2, 0xFE000033) ∧
    after (step (fetching (sup resetConfig) 0x02B50533)) (fun t => (t.scause.code, t.stval)) = some (2, 0x02B50533) := by
  decide +kernel
/-- R227 with F and without D: FADD.S is the extension's; FCVT.S.D, FADD.D and a reserved rounding mode are not. -/
theorem test_undefined_words_of_f :
    [0x00B57553, 0x40100053, 0x02B57553, 0x00B55553].map
        (foreignWord { resetConfig with ext := { resetConfig.ext with f := true } }) = [true, false, false, false] := by
  decide +kernel
/-- R227 with V: VADD.VV, VSETVLI and VLE8.V are the extension's; `funct6` 000001 of OPIVV, a masked VMV.X.S and `mew` = 1 are
not. -/
theorem test_undefined_words_of_v :
    [0x022180D7, 0x0C0572D7, 0x02050087, 0x06218057, 0x40002057, 0x12050087].map
        (foreignWord { resetConfig with ext := { resetConfig.ext with f := true, v := true } }) =
      [true, true, true, false, false, false] := by
  decide +kernel
/-- R227 with 32-bit registers: ADDW, LD and a shift by 32 are no words of the base ISA; SLLI by 31 is one. -/
theorem test_undefined_words_of_rv32 :
    [0x00B5053B, 0x00053503, 0x02051513, 0x01F51513].map (foreignWord cfg32) = [false, false, false, true] := by
  decide +kernel

/-! ### Witnesses: a state and operands that meet all the hypotheses of a statement, clause by clause -/

/-- An outcome that goes on has a next state. -/
theorem exists_next {o : Host.Outcome State Fault Refusal} (h : goesOn o = true) : ∃ t, o = .next t := by
  cases o with
  | next t => exact ⟨t, rfl⟩
  | fault f => exact absurd h (by simp [goesOn])
  | refused r => exact absurd h (by simp [goesOn])

/-- Whether an operation has a result. -/
def hasResult {σ α : Type} : Res σ α → Bool
  | .ok _ _ => true
  | .exc _ _ _ => false
  | .stop _ => false

theorem exists_result {σ α : Type} {r : Res σ α} (h : hasResult r = true) : ∃ a s, r = .ok a s := by
  cases r with
  | ok a s => exact ⟨a, s, rfl⟩
  | exc _ _ _ => exact absurd h (by simp [hasResult])
  | stop _ => exact absurd h (by simp [hasResult])

/-- Whether an operation raises. -/
def hasException {σ α : Type} : Res σ α → Bool
  | .ok _ _ => false
  | .exc _ _ _ => true
  | .stop _ => false

theorem exists_exception {σ α : Type} {r : Res σ α} (h : hasException r = true) : ∃ c i s, r = .exc c i s := by
  cases r with
  | ok _ _ => exact absurd h (by simp [hasException])
  | exc c i s => exact ⟨c, i, s, rfl⟩
  | stop _ => exact absurd h (by simp [hasException])

/-- The stop of an operation, where it has one. -/
def resStop {σ α : Type} : Res σ α → Option Stop
  | .ok _ _ => none
  | .exc _ _ _ => none
  | .stop t => some t

/-- Whether an operation has a result, and a check holds of what it leaves. -/
def okAnd {σ α : Type} (q : σ → Bool) : Res σ α → Bool
  | .ok _ s => q s
  | .exc _ _ _ => false
  | .stop _ => false

theorem exists_okAnd {σ α : Type} {q : σ → Bool} {r : Res σ α} (h : okAnd q r = true) : ∃ a s, r = .ok a s ∧ q s = true := by
  cases r with
  | ok a s => exact ⟨a, s, rfl, h⟩
  | exc _ _ _ => exact absurd h (by simp [okAnd])
  | stop _ => exact absurd h (by simp [okAnd])

theorem witness_EncodeOfDecode :
    decode ([0x93, 0x02, 0xF0, 0xFF] ++ [1]) = .ok (.addi 5 0 0xFFF, [1]) := by decide

/-- The word that a fetch brings. -/
def fetchedOf (s : State) : Option Fetched :=
  match s.fetch with
  | .ok f _ => some f
  | .exc _ _ _ => none
  | .stop _ => none

theorem exists_fetched {s : State} {f : Fetched} (h : fetchedOf s = some f) : ∃ u, s.fetch = .ok f u := by
  unfold fetchedOf at h
  split at h
  · rename_i g u hg; exact ⟨u, by rw [hg, Option.some.inj h]⟩
  · cases h
  · cases h

/-- What a fetch leaves but for the memory system is what it found. -/
theorem fetched_alike {s u : State} {f : Fetched} (h : s.fetch = .ok f u) :
    u.padMissing = s.padMissing ∧ u.cfg = s.cfg ∧ u.pc = s.pc ∧ u.align16 = s.align16 := by
  have hf := s.fetch_frame
  rw [h] at hf
  obtain ⟨m, rfl⟩ := hf
  exact ⟨rfl, rfl, rfl, rfl⟩

theorem witness_StepRunsTheDecodedInstruction :
    let s := fetching (sup resetConfig) 0xFFF00293
    (s.immediateInterrupt = none ∧ s.environmentStop = none ∧ s.environmentTurn.selectInterrupt = none ∧
      instrOf 0xFFF00293 = some (.addi 5 0 0xFFF) ∧ s.inbox = []) ∧
      ∃ u, s.environmentTurn.fetch = .ok (.word 0xFFF00293) u ∧ u.padMissing = false ∧
        u.pc.toNat % (if u.align16 then 2 else 4) = 0 := by
  obtain ⟨u, hu⟩ := exists_fetched (s := (fetching (sup resetConfig) 0xFFF00293).environmentTurn) (f := .word 0xFFF00293)
    (by decide)
  obtain ⟨hp, -, hc, ha⟩ := fetched_alike hu
  exact ⟨by decide, u, hu, hp.trans (by decide), by rw [hc, ha]; decide⟩

theorem witness_FetchIsLittleEndian :
    let s := fetching (sup resetConfig) 0xFFF00293
    s.align16 = false ∧ s.pc.toNat % 4 = 0 ∧ (s.priv = .machine ∨ s.satp.mode = .bare) ∧ 0x80000010 = (s.narrow s.priv s.pc).toNat ∧
      pmaCheck s.cfg 0x80000010 4 .fetch s.priv = .ok ∧
      ∀ k, k < 4 → compatible (lookupAt .unseen s.ms.types (0x80000010 + k)) (attributesOf s.cfg 0x80000010 4 .pma) = true := by
  decide

/-- The reset configuration with IALIGN=16. -/
def cfgHalves : Config := { resetConfig with ialign := .fixed16 }

/-- S-mode at a 2-aligned `pc` with a word there. -/
def halfState (w : Nat) : State := fetching { sup cfgHalves with pc := 0x80000012 } w

theorem witness_FetchIsLittleEndian_parcels :
    let s := halfState 0xFFF00293
    let u := halfState 0x00000001
    s.align16 = true ∧ (s.priv = .machine ∨ s.satp.mode = .bare) ∧ 0x80000012 = (s.narrow s.priv s.pc).toNat ∧
      pmaCheck s.cfg 0x80000012 2 .fetch s.priv = .ok ∧ pmaCheck s.cfg 0x80000014 2 .fetch s.priv = .ok ∧
      (∀ k, k < 2 → compatible (lookupAt .unseen s.ms.types (0x80000012 + k)) (attributesOf s.cfg 0x80000012 2 .pma) = true) ∧
      (∀ k, k < 2 → compatible (lookupAt .unseen s.ms.types (0x80000014 + k)) (attributesOf s.cfg 0x80000014 2 .pma) = true) ∧
      0x80000014 = (s.narrow s.priv (s.pc + 2)).toNat ∧
      (Memory.read s.ms.mem 0x80000013 ++ Memory.read s.ms.mem 0x80000012).extractLsb' 0 2 = 3#2 ∧
      (Memory.read u.ms.mem 0x80000013 ++ Memory.read u.ms.mem 0x80000012).extractLsb' 0 2 ≠ 3#2 := by decide

/-- A word at a `pc` that IALIGN=32 does not allow, as after an IALIGN switch of the SEE. -/
def oddState (w : Nat) : State := fetching { sup resetConfig with pc := 0x80000012 } w

theorem witness_FetchIsLittleEndian_misaligned :
    let s := oddState 0xFFF00293
    s.align16 = false ∧ s.pc.toNat % 4 ≠ 0 ∧ s.satp.mode = .bare ∧ pmaCheck s.cfg 0x80000012 2 .fetch s.priv = .ok ∧
      pmaCheck s.cfg 0x80000014 2 .fetch s.priv = .ok ∧ s.ms.types = [] ∧
      0x80000012 = (s.narrow s.priv s.pc).toNat ∧ 0x80000014 = (s.narrow s.priv (s.pc + 2)).toNat := by decide

theorem witness_FetchIsLittleEndian_translated :
    let s : State := { paged39 resetConfig with pc := 0x80000004 }
    (s.align16 = false ∧ s.pc.toNat % 4 = 0) ∧ ∃ pa m, reach (s.walkCtx s.pc .fetch s.priv) false 4 s.ms = .ok pa m :=
  ⟨by decide, exists_result (by decide +kernel)⟩

theorem witness_FetchAndDecodeExceptions_fetch :
    let s : State := { sup { resetConfig with regions := [openRegion 0x80000000 0x10] } with pc := 0x80000010 }
    (s.immediateInterrupt = none ∧ s.environmentStop = none ∧ s.environmentTurn.selectInterrupt = none) ∧
      ∃ c i m, s.environmentTurn.fetch = .exc c i m :=
  ⟨by decide, exists_exception (by decide)⟩

/-- Whether the second parcel of the instruction at `pc` raises. -/
def secondRaises (s : State) : Bool :=
  match s.fetchBytes s.pc 2 s.ms with
  | .ok low m => (low % 4 == 3 || !s.align16) && hasException (s.fetchBytes (s.pc + 2) 2 m)
  | .exc _ _ _ => false
  | .stop _ => false

/-- R84: an instruction whose second parcel lies in memory that denies the fetch. -/
theorem witness_FetchAndDecodeExceptions_second :
    let s := halfState 0x13
    let e : State := { s with cfg := { s.cfg with regions := [openRegion 0x80000000 0x14] } }
    e.immediateInterrupt = none ∧ e.environmentStop = none ∧ e.environmentTurn.selectInterrupt = none ∧
      e.environmentTurn.align16 = true ∧ secondRaises e.environmentTurn = true := by decide

theorem witness_FetchAndDecodeExceptions_second_misaligned :
    let s := oddState 0x13
    let e : State := { s with cfg := { s.cfg with regions := [openRegion 0x80000000 0x14] } }
    e.immediateInterrupt = none ∧ e.environmentStop = none ∧ e.environmentTurn.selectInterrupt = none ∧
      e.environmentTurn.align16 = false ∧ e.environmentTurn.pc.toNat % 4 ≠ 0 ∧ secondRaises e.environmentTurn = true := by
  decide

theorem witness_FetchAndDecodeExceptions_misaligned :
    let s := oddState 0x00000013
    let u := { oddState 0x10200073 with priv := .user }
    (s.immediateInterrupt = none ∧ s.environmentStop = none ∧ s.environmentTurn.selectInterrupt = none ∧
      fetchedOf s.environmentTurn = some (.word 0x13) ∧ instrOf 0x13 = some (.addi 0 0 0) ∧ s.padMissing = false ∧
      s.pc.toNat % (if s.align16 then 2 else 4) ≠ 0 ∧ s.barred (.addi 0 0 0) = false) ∧
      fetchedOf u.environmentTurn = some (.word 0x10200073) ∧ instrOf 0x10200073 = some .sret ∧ u.barred .sret = true := by
  decide

theorem noRow_custom (i : Instr) : 0x0000002B &&& (tableRow i).1 ≠ (tableRow i).2 := by
  cases i <;> simp [tableRow]

theorem witness_FetchAndDecodeExceptions_decode :
    let s := fetching (sup resetConfig) 0x0000002B
    (s.immediateInterrupt = none ∧ s.environmentStop = none ∧ s.environmentTurn.selectInterrupt = none ∧
        fetchedOf s.environmentTurn = some (.word 0x0000002B) ∧ s.environmentTurn.padMissing = false ∧
        32 ≤ s.environmentTurn.cfg.ilen ∧ foreignWord s.environmentTurn.cfg 0x0000002B = false ∧ s.cfg.ext.zicfilp = false) ∧
      ∀ i, 0x0000002B &&& (tableRow i).1 ≠ (tableRow i).2 := ⟨by decide, noRow_custom⟩

theorem witness_FetchAndDecodeExceptions_half :
    let s := halfState 0x00000001
    s.immediateInterrupt = none ∧ s.environmentStop = none ∧ s.environmentTurn.selectInterrupt = none ∧
      fetchedOf s.environmentTurn = some (.half 1) ∧ s.environmentTurn.padMissing = false ∧ 16 ≤ s.cfg.ilen ∧
      foreignWord s.cfg 1 = false := by decide

theorem noRow_lpad (i : Instr) : 0x00000017 &&& (tableRow i).1 ≠ (tableRow i).2 := by
  cases i <;> simp [tableRow]

theorem noRow_flush (i : Instr) : 0x0025200F &&& (tableRow i).1 ≠ (tableRow i).2 := by
  cases i <;> simp only [tableRow] <;> decide

/-- CBO.FLUSH enabled, not enabled, and at a `pc` that is not aligned. -/
theorem witness_FetchAndDecodeExceptions_flush :
    let s := fetching flushState 0x0025200F
    let u := fetching (usr cfgFlush) 0x0025200F
    let o : State := { oddState 0x0025200F with cfg := cfgFlush }
    (0x0025200F &&& 0xFFF07FFF#32 = 0x0020200F#32) ∧
    (s.immediateInterrupt = none ∧ s.environmentStop = none ∧ s.environmentTurn.selectInterrupt = none ∧
      fetchedOf s.environmentTurn = some (.word 0x0025200F) ∧ s.cfg.ext.zicbom = true ∧ s.padMissing = false ∧
      32 ≤ s.cfg.ilen ∧ s.priv = .supervisor ∧ s.inputs.menvcfgCbcfe = true ∧ s.pc.toNat % 4 = 0) ∧
    (fetchedOf u.environmentTurn = some (.word 0x0025200F) ∧ u.priv = .user ∧ u.senvcfg.cbcfe = false) ∧
      fetchedOf o.environmentTurn = some (.word 0x0025200F) ∧ o.inputs.menvcfgCbcfe = true ∧ o.priv ≠ .user ∧
        o.pc.toNat % (if o.align16 then 2 else 4) ≠ 0 := by decide

theorem noRow_ssamoswap (i : Instr) : 0x48B5262F &&& (tableRow i).1 ≠ (tableRow i).2 := by
  cases i <;> simp only [tableRow] <;> decide

theorem witness_FetchAndDecodeExceptions_extensions :
    let s := padState 0x00000017
    let u : State := { fetching (usr cfgPads) 0x48B5262F with inputs := { (usr cfgPads).inputs with menvcfgSse := true } }
    let v : State := { padState 0x00000013 with senvcfg := { (padState 0).senvcfg with lpe := true } }
    (fetchedOf s.environmentTurn = some (.word 0x17) ∧ s.cfg.ext.zicfilp = true ∧ s.priv = .user ∧ s.senvcfg.lpe = false) ∧
      (fetchedOf u.environmentTurn = some (.word 0x48B5262F) ∧ u.cfg.ext.zicfiss = true ∧ u.senvcfg.sse = false ∧
        u.inputs.menvcfgSse = true ∧ 0x48B5262F &&& 0xF800707F#32 = 0x4800202F#32 ∧ u.padMissing = false) ∧
      fetchedOf v.environmentTurn = some (.word 0x13) ∧ instrOf 0x13 = some (.addi 0 0 0) ∧ v.elp = true ∧
        v.landingPads v.priv = true := by decide

theorem witness_InterruptSelection :
    resetConfig.irqOrderOk = true ∧
      { withStatus (sup resetConfig) 2 with sip := 2, sie := 2 }.selectInterrupt = some 1 ∧
      { withStatus (sup resetConfig) 2 with sip := 0x20, sie := 0x20 }.selectInterrupt = some 5 ∧
      { withStatus (sup { resetConfig with ext := { resetConfig.ext with sscofpmf := true } }) 2 with
        sip := 0x2000, sie := 0x2000 }.selectInterrupt = some 13 := by decide

theorem witness_InterruptIsTakenBeforeFetch :
    let s := { usr resetConfig with sip := 0x20, sie := 0x20 }
    s.immediateInterrupt = none ∧ s.environmentStop = none ∧ s.environmentTurn.selectInterrupt = some 5 ∧ s.environmentTurn.sdtOn = false ∧
      vaValid s.satp.mode (cut s.cfg.sxlen s.pc) = true := by decide

theorem witness_InterruptRightAfterSretOrCsrWrite :
    let t := { usr resetConfig with sip := 0x20, sie := 0x20, recheck := true }
    (sup resetConfig).sretPermitted = true ∧ (sup resetConfig).csrCheck 0x104 true = .ok .sie ∧ interruptCsr .sie = true ∧
      (1 : BitVec 5) ≠ 0 ∧ t.recheck = true ∧ t.selectInterrupt = some 5 := by decide

theorem witness_StepKeeps :
    let s := fetching (sup cfgDbl) 0x00100073
    (s.MemoryOk ∧ s.DoubleTrapSafe ∧ s.ControlOk) ∧ ∃ t, step s = .next t :=
  ⟨by decide, exists_next (by decide +kernel)⟩

theorem witness_OnlySretLowersTheMode :
    Instr.ecall ≠ .sret ∧ (∃ t, exec .ecall (usr resetConfig) = .next t) ∧ (sup resetConfig).sretPermitted = true ∧
      ∃ t, exec .sret (sup resetConfig) = .next t :=
  ⟨by decide, exists_next (by decide), by decide, exists_next (by decide +kernel)⟩

theorem witness_UserModeIsolation :
    (usr resetConfig).priv = .user ∧
      after (exec (.sw 11 10 0) (withReg (usr resetConfig) 10 0x2000)) (fun t => t.priv) = some .user := by decide

theorem witness_ExceptionIntoSupervisor :
    (usr cfgDbl).delegated Cause.ecallU.code = true ∧ (usr cfgDbl).sdtOn = false ∧ cfgDbl.ext.ssdbltrp = true ∧
      Cause.ecallU ∈ [Cause.ecallU, Cause.ecallS, Cause.hardwareError] ∧
      vaValid (usr cfgDbl).satp.mode (cut cfgDbl.sxlen (usr cfgDbl).pc) = true := by decide

theorem witness_ExceptionIntoSupervisor_trapValue :
    let c : Config := { resetConfig with tval := [(2, .zero)] }
    Cause.illegal ∉ [Cause.ecallU, Cause.ecallS, Cause.ecallM, Cause.hardwareError, Cause.softwareCheck] ∧
      Cause.loadPage ∉ [Cause.ecallU, Cause.ecallS, Cause.ecallM, Cause.hardwareError, Cause.softwareCheck] ∧
      (usr c).delegated Cause.illegal.code = true ∧ (usr c).delegated Cause.loadPage.code = true ∧ (usr c).sdtOn = false ∧
      tvalPolicy c Cause.illegal.code = .zero ∧ tvalPolicy c Cause.loadPage.code = .informative ∧
      vaValid (usr c).satp.mode (cut c.sxlen 0x4000) = true := by decide

theorem witness_ExceptionIntoSupervisor_cases :
    let c : Config := { resetConfig with tval := [(2, .either)], ilen := 64 }
    (usr c).delegated Cause.softwareCheck.code = true ∧ (usr c).sdtOn = false ∧ tvalPolicy c Cause.illegal.code = .either ∧
      tvalPolicy c 2 ≠ .zero ∧ tvalPolicy c Cause.loadPage.code = .informative ∧
      vaValid (paged39 c).satp.mode (cut c.sxlen 0x10000000000) = false ∧
      (cut c.sxlen 0x10000000000).toNat < 2 ^ min c.sxlen.bits c.ilen ∧ (paged39 c).delegated Cause.loadPage.code = true := by
  decide

/-- S-mode with SDT set. -/
def sdtState : State := withStatus (sup cfgDbl) 0x1000100

theorem witness_DoubleTrap : sdtState.sdtOn = true ∧ 13 < 2 ^ 31 ∧ 2 ^ 31 - 1 < 2 ^ 31 := by decide

theorem witness_ExceptionIntoMachine :
    (resetState resetConfig).delegated Cause.breakpoint.code = false ∧ (sup resetConfig).delegated Cause.ecallS.code = false := by
  decide

theorem witness_SppRule_SpieRule :
    (usr resetConfig).sdtOn = false ∧ (withStatus (sup resetConfig) 0x100).sretPermitted = true ∧
      (withStatus (sup resetConfig) 0x100).sstatus.spp = true ∧ (sup resetConfig).sretPermitted = true ∧
      (sup resetConfig).sstatus.spp = false ∧ (sup resetConfig).priv ≠ .user := by decide

theorem witness_SretResult :
    ((sup resetConfig).priv = .supervisor ∧ (sup resetConfig).inputs.tsr = false) ∧ (resetState resetConfig).priv = .machine ∧
      resetConfig.ext.zicfilp = false ∧ cfgPads.ext.zicfilp = true := by decide

theorem witness_EcallResult :
    let d : State := { sdtState with inputs := { sdtState.inputs with delegS := BitVec.allOnes 64 } }
    8 = (match (usr resetConfig).priv with | .user => 8 | .supervisor => 9 | .machine => 11) ∧
      (usr resetConfig).delegated 8 = true ∧ (usr resetConfig).sdtOn = false ∧
      11 = (match (resetState resetConfig).priv with | .user => 8 | .supervisor => 9 | .machine => 11) ∧
      (resetState resetConfig).delegated 11 = false ∧
      9 = (match d.priv with | .user => 8 | .supervisor => 9 | .machine => 11) ∧ d.delegated 9 = true ∧ d.sdtOn = true := by
  decide

theorem witness_EbreakResult :
    (sup resetConfig).delegated 3 = true ∧ (sup resetConfig).sdtOn = false ∧
      vaValid (sup resetConfig).satp.mode (cut resetConfig.sxlen (sup resetConfig).pc) = true ∧
      sdtState.delegated 3 = true ∧ sdtState.sdtOn = true ∧ (resetState resetConfig).delegated 3 = false := by decide

/-- A configuration with UXLEN=32 under SXLEN=64. -/
def cfgNarrow : Config := { resetConfig with uxl := .narrow }

theorem witness_AddiResult :
    (usr cfgNarrow).xlen = .rv32 ∧ (usr cfgNarrow).cfg.sxlen = .rv64 ∧ (31 : RegId) ≠ 0 ∧ (1 : RegId) ≠ 0 := by decide

theorem witness_LwUntranslated_SwUntranslated :
    let s := withReg (sup resetConfig) 10 0x80003000
    s.satp.mode = .bare ∧ s.effectivePriv = (if s.inputs.mprv then s.mach.mpp else s.priv) ∧ 0x80003008 = (s.narrow s.effectivePriv (s.effectiveAddress 10 8)).toNat ∧
      0x80003008 % 4 = 0 ∧ pmaCheck s.cfg 0x80003008 4 .load s.effectivePriv = .ok ∧
      pmaCheck s.cfg 0x80003008 4 .store s.effectivePriv = .ok ∧
      (∀ k, k < 4 → compatible (lookupAt .unseen s.ms.types (0x80003008 + k)) (attributesOf s.cfg 0x80003008 4 .pma) = true) := by
  decide

/-- The same where misaligned accesses are split. -/
theorem witness_LwUntranslated_SwUntranslated_split :
    let s := withReg (sup { resetConfig with misaligned := .split false }) 10 0x80003000
    let pa : Nat → Nat := fun k => (s.narrow s.effectivePriv (s.effectiveAddress 10 1 + BitVec.ofNat 64 k)).toNat
    s.satp.mode = .bare ∧ s.effectivePriv = .supervisor ∧ s.cfg.misaligned = .split false ∧ pa 0 % 4 ≠ 0 ∧
      (∀ k, k < 4 → pmaCheck s.cfg (pa k) 1 .load s.effectivePriv = .ok ∧
        compatible (lookupAt .unseen s.ms.types (pa k)) (attributesOf s.cfg (pa k) 1 .pma) = true) ∧
      (∀ k, k < 4 → pmaCheck s.cfg (pa k) 1 .store s.effectivePriv = .ok) := by decide

/-- MPRV in M-mode with MPP at U-mode, big-endian by a writable UBE. -/
theorem witness_LwUntranslated_SwUntranslated_mprv :
    let r := resetState { resetConfig with ubeWritable := true }
    let s : State := { r with
      mach := { r.mach with mpp := .user }, inputs := { r.inputs with mprv := true }, sstatus := { r.sstatus with ube := true } }
    (if s.inputs.mprv then s.mach.mpp else s.priv) = .user ∧ s.priv = .machine ∧ s.satp.mode = .bare ∧
      (if s.cfg.ubeWritable then s.sstatus.ube else s.cfg.sBigEndian) = true ∧ pmaCheck s.cfg 0 4 .load .user = .ok ∧
      pmaCheck s.cfg 0 4 .store .user = .ok := by decide

/-- S-mode under Sv32 with an address of the page at 0x40_0000 in `x12`. -/
def loadState : State := withReg (paged32 cfg32) 12 0x400000

theorem witness_LwTranslated :
    (loadState.walkCtx (loadState.effectiveAddress 12 8) .load loadState.effectivePriv).va.toNat % 4 = 0 ∧
      ∃ pa m, reach (loadState.walkCtx (loadState.effectiveAddress 12 8) .load loadState.effectivePriv) false 4 loadState.ms =
        .ok pa m := ⟨by decide, exists_result (by decide +kernel)⟩

theorem witness_SwTranslated :
    (loadState.walkCtx (loadState.effectiveAddress 12 12) .store loadState.effectivePriv).va.toNat % 4 = 0 ∧
      ∃ pa m, reach (loadState.walkCtx (loadState.effectiveAddress 12 12) .store loadState.effectivePriv) false 4 loadState.ms =
        .ok pa m := ⟨by decide, exists_result (by decide +kernel)⟩

/-- The same state where misaligned accesses are done byte by byte. -/
def splitState : State :=
  withReg (paged32 { cfg32 with misaligned := .split true }) 12 0x400001

theorem witness_LoadStoreFrame :
    (∃ t, exec (.lw 11 12 8) loadState = .next t) ∧ (∃ t, exec (.lw 11 12 0) splitState = .next t) ∧
      (∃ t, exec (.sw 11 12 12) loadState = .next t) ∧ ∃ t, exec (.sw 11 12 0) splitState = .next t :=
  ⟨exists_next (by decide), exists_next (by decide +kernel), exists_next (by decide +kernel),
    exists_next (by decide +kernel)⟩

/-- The pieces of the SW at `x12` in a state, in address order, as little-endian bytes of `x11`. -/
def storeList (s : State) : List (WalkCtx × Byte) :=
  (List.range 4).map (fun k =>
    (s.walkCtx (s.effectiveAddress 12 0 + BitVec.ofNat 64 k) .store .supervisor, (s.reg 11).extractLsb' (8 * k) 8))

theorem witness_LwTranslated_SwTranslated_split :
    ((splitState.narrow .supervisor (splitState.effectiveAddress 12 0)).toNat % 4 ≠ 0 ∧
      splitState.cfg.misaligned = .split true ∧ splitState.effectivePriv = .supervisor ∧ splitState.cfg.sBigEndian = false) ∧
      (∃ bs m, loadPieces (inOrder true ((List.range 4).map (fun k =>
        splitState.walkCtx (splitState.effectiveAddress 12 0 + BitVec.ofNat 64 k) .load .supervisor))) splitState.ms =
        .ok bs m) ∧
      ∃ b m, storePieces (inOrder true (storeList splitState)) splitState.ms = .ok b m :=
  ⟨by decide, exists_result (by decide +kernel), exists_result (by decide +kernel)⟩

/-- A place of the list of pieces, the last one, after which no piece writes. -/
theorem witness_SwTranslated_place :
    (∃ l1 c b, inOrder true (storeList splitState) = l1 ++ (c, b) :: []) ∧ ∀ m a, ¬storePiecesWrite [] m a :=
  ⟨⟨(storeList splitState).take 3, _, _, rfl⟩, fun _ _ h => h⟩

/-- An address outside the PTE that a translation stores, and outside the pieces of a load without translation. -/
theorem witness_frame_hypotheses :
    (¬inStoredPte (loadState.walkCtx 0x40000C .store .supervisor) loadState.ms 0) ∧
      ∀ (l : List WalkCtx) (ms : MemSys) (a : Nat), (∀ c ∈ l, c.scheme = .bare) → ¬loadPiecesWrite l ms a := by
  refine ⟨?_, ?_⟩
  · rintro ⟨p, hp, h1, -⟩
    have h : translationStores (loadState.walkCtx 0x40000C .store .supervisor) loadState.ms = some 0x80002000 := by
      decide +kernel
    rw [h] at hp
    cases hp
    omega
  · intro l
    induction l with
    | nil => exact fun _ _ _ h => h
    | cons c cs ih =>
      intro ms a hl h
      rcases h with ⟨p, hp, -⟩ | h
      · simp [translationStores, hl c (by simp)] at hp
      · split at h
        · exact ih _ a (fun d hd => hl d (by simp [hd])) h
        · exact h
        · exact h

/-- Pieces whose second portion, on the next page, raises. -/
def splitFault : State := withReg splitState 12 0x400FFF

/-- The pieces of the LW at `x12` in a state, in address order. -/
def loadList (s : State) : List WalkCtx :=
  (List.range 4).map (fun k => s.walkCtx (s.effectiveAddress 12 0 + BitVec.ofNat 64 k) .load .supervisor)

theorem witness_FaultingAccessTraps_portion :
    let c := splitFault.walkCtx (splitFault.effectiveAddress 12 0 + 1) .load .supervisor
    ((splitFault.narrow .supervisor (splitFault.effectiveAddress 12 0)).toNat % 4 ≠ 0 ∧ splitFault.effectivePriv = .supervisor ∧
      splitFault.cfg.misaligned = .split true ∧
      inOrder true (loadList splitFault) = (loadList splitFault).take 1 ++ c :: (loadList splitFault).drop 2) ∧
    ∃ bs m, loadPieces ((loadList splitFault).take 1) splitFault.ms = .ok bs m ∧ ∃ e i n, reach c true 1 m = .exc e i n := by
  refine ⟨by decide, ?_⟩
  obtain ⟨bs, m, h, hq⟩ := exists_okAnd (r := loadPieces ((loadList splitFault).take 1) splitFault.ms)
    (q := fun m => hasException (reach (splitFault.walkCtx (splitFault.effectiveAddress 12 0 + 1) .load .supervisor) true 1 m))
    (by decide +kernel)
  exact ⟨bs, m, h, exists_exception hq⟩

theorem witness_FaultingAccessTraps_portion_store :
    let c := splitFault.walkCtx (splitFault.effectiveAddress 12 0 + 1) .store .supervisor
    (inOrder true (storeList splitFault) = (storeList splitFault).take 1 ++
      (c, (splitFault.reg 11).extractLsb' 8 8) :: (storeList splitFault).drop 2 ∧ splitFault.cfg.sBigEndian = false) ∧
    ∃ b m, storePieces ((storeList splitFault).take 1) splitFault.ms = .ok b m ∧ ∃ e i n, reach c true 1 m = .exc e i n := by
  refine ⟨by decide, ?_⟩
  obtain ⟨b, m, h, hq⟩ := exists_okAnd (r := storePieces ((storeList splitFault).take 1) splitFault.ms)
    (q := fun m => hasException (reach (splitFault.walkCtx (splitFault.effectiveAddress 12 0 + 1) .store .supervisor) true 1 m))
    (by decide +kernel)
  exact ⟨b, m, h, exists_exception hq⟩

theorem witness_FaultingAccessTraps_misaligned :
    0x80003001 = (sup resetConfig).narrow (sup resetConfig).effectivePriv
        ((withReg (sup resetConfig) 10 0x80003000).effectiveAddress 10 1) ∧
      (0x80003001 : Word).toNat % 4 ≠ 0 ∧ resetConfig.misaligned = .trap := by decide

theorem witness_FaultingAccessTraps_raised :
    let c := loadState.walkCtx (loadState.effectiveAddress 0 0) .load loadState.effectivePriv
    let d := loadState.walkCtx (loadState.effectiveAddress 0 0) .store loadState.effectivePriv
    (c.va.toNat % 4 = 0 ∧ ∃ e i m, reach c false 4 loadState.ms = .exc e i m) ∧
      d.va.toNat % 4 = 0 ∧ ∃ e i m, reach d false 4 loadState.ms = .exc e i m :=
  ⟨⟨by decide, exists_exception (by decide +kernel)⟩, by decide +kernel, exists_exception (by decide +kernel)⟩

/-- A configuration whose memory is a device from 0x1000 to 0x1FFF. -/
def cfgDevice : Config := { resetConfig with regions := [{ openRegion 0x1000 0x1000 with device := true }] }

theorem witness_LoadStoreStops_device :
    let s := withReg (sup cfgDevice) 10 0x1FFC
    s.satp.mode = .bare ∧ 0x1FFC = (s.narrow s.effectivePriv (s.effectiveAddress 10 0)).toNat ∧
      0x1FFC % 4 = 0 ∧ pmaCheck s.cfg 0x1FFC 4 .load s.effectivePriv = .device ∧
      pmaCheck s.cfg 0x1FFC 4 .store s.effectivePriv = .device := by decide

theorem witness_LoadStoreStops_types :
    let s : State := { withReg (sup resetConfig) 10 0x2000 with
      ms := { (sup resetConfig).ms with types := [(0x2003, .seen ncAttr .fenced)] } }
    s.satp.mode = .bare ∧ 0x2000 = (s.narrow s.effectivePriv (s.effectiveAddress 10 0)).toNat ∧
      0x2000 % 4 = 0 ∧ s.cfg.ext.svpbmt = true ∧
      (3 < 4 ∧ compatible (lookupAt .unseen s.ms.types (0x2000 + 3)) (attributesOf s.cfg 0x2000 4 .pma) = false) ∧
      pmaCheck s.cfg 0x2000 4 .load s.effectivePriv = .ok ∧ pmaCheck s.cfg 0x2000 4 .store s.effectivePriv = .ok := by
  decide

/-- A translated access that stops, for each reason: its page in device memory, another type before, its page table in device
memory. -/
theorem witness_LoadStoreStops_translated :
    let s := withReg (paged39 cfgSoftAd) 10 0x400120
    let d : State := { s with cfg := { cfgSoftAd with
      regions := [{ openRegion 0x80013000 0x1000 with device := true }, openRegion 0 (2 ^ 56)] } }
    let a : State := { s with ms := { s.ms with types := [(0x80013121, .seen ncAttr .nothing)] } }
    let w : State := { s with cfg := { cfgSoftAd with
      regions := [{ openRegion 0x80010000 0x1000 with device := true }, openRegion 0 (2 ^ 56)] } }
    (s.narrow s.effectivePriv (s.effectiveAddress 10 0)).toNat % 4 = 0 ∧
      [d, a, w].map (fun s => resStop (reach (s.walkCtx (s.effectiveAddress 10 0) .load .supervisor) false 4 s.ms)) =
        [some (.refusal .deviceAccess), some (.fault .incoherentTypes), some (.refusal .pageTableInDevice)] ∧
      [d, a, w].map (fun s => resStop (reach (s.walkCtx (s.effectiveAddress 10 0) .store .supervisor) false 4 s.ms)) =
        [some (.refusal .deviceAccess), some (.fault .incoherentTypes), some (.refusal .pageTableInDevice)] := by
  decide +kernel

/-- Pieces of which the second stops, in device memory. -/
def splitStop : State :=
  withReg (sup { resetConfig with
    misaligned := .split true, regions := [{ openRegion 0x1000 0x1000 with device := true }, openRegion 0 0x1000] }) 12 0xFFF

theorem witness_LoadStoreStops_piece :
    let c := fun acc => splitStop.walkCtx (splitStop.effectiveAddress 12 0 + 1) acc .supervisor
    ((splitStop.narrow .supervisor (splitStop.effectiveAddress 12 0)).toNat % 4 ≠ 0 ∧ splitStop.effectivePriv = .supervisor ∧
      splitStop.cfg.misaligned = .split true ∧
      inOrder true (loadList splitStop) = (loadList splitStop).take 1 ++ c .load :: (loadList splitStop).drop 2 ∧
      inOrder true (storeList splitStop) = (storeList splitStop).take 1 ++
        (c .store, (splitStop.reg 11).extractLsb' 8 8) :: (storeList splitStop).drop 2) ∧
    okAnd (fun m => resStop (reach (c .load) true 1 m) == some (.refusal .deviceAccess))
      (loadPieces ((loadList splitStop).take 1) splitStop.ms) = true ∧
    okAnd (fun m => resStop (reach (c .store) true 1 m) == some (.refusal .deviceAccess))
      (storePieces ((storeList splitStop).take 1) splitStop.ms) = true := by decide

theorem witness_CsrSwapResult_CsrSetClearResult :
    (sup resetConfig).csrCheck 0x140 true = .ok .sscratch ∧ Csr.sscratch ≠ .satp ∧ (31 : BitVec 5) ≠ 0 ∧
      (sup resetConfig).csrCheck 0x180 true = .ok .satp ∧
      (sup resetConfig).writeCsr .satp 0 = .ok (sup resetConfig) ∧
      (match (sup resetConfig).writeCsr .satp 1 with | .ok _ => false | .error x => x == .fault .satpBareNonzero) = true := by
  decide

theorem witness_CsrPureRead :
    (sup resetConfig).csrCheck 0x180 false = .ok .satp ∧ (sup resetConfig).csrCheck 0xC1F false = .ok (.counter 31) := by
  decide

/-- Every number whose read O35 gives is accessible somewhere. -/
theorem witness_CsrPureRead_numbers :
    let s := sup { resetConfig with ext := { resetConfig.ext with ssqosid := true } }
    (∀ p ∈ [(0x100, Csr.sstatus), (0x104, .sie), (0x105, .stvec), (0x106, .scounteren), (0x10A, .senvcfg), (0x140, .sscratch),
        (0x141, .sepc), (0x142, .scause), (0x143, .stval), (0x144, .sip), (0x180, .satp), (0x181, .srmcfg)],
      s.csrCheck p.1 false = .ok p.2) ∧
    (paged39 resetConfig).cfg.sxlen = .rv64 ∧ (paged39 resetConfig).satp.mode = .sv39 ∧ (paged32 cfg32).cfg.sxlen = .rv32 ∧
      (paged32 cfg32).satp.mode = .sv32 ∧ (paged32 cfg32).csrCheck 0x180 false = .ok .satp := by decide

theorem witness_CsrIllegalAccess :
    let v : State := { sup resetConfig with inputs := { (sup resetConfig).inputs with tvm := true } }
    let q : State :=
      { sup { resetConfig with ext := { resetConfig.ext with smstateen := true } } with
        inputs := { (sup resetConfig).inputs with mstateen55 := false } }
    32 ≤ resetConfig.ilen ∧ ((usr resetConfig).priv = .user ∧ (0x142 : BitVec 12).extractLsb' 8 2 ≠ 0) ∧
      ((0xC00 : BitVec 12).extractLsb' 10 2 = 3) ∧
      (v.priv = .supervisor ∧ v.inputs.tvm = true) ∧
      (q.cfg.ext.smstateen = true ∧ q.inputs.mstateen55 = false ∧ q.priv ≠ .machine) ∧
      resetConfig.ext.ssqosid = false ∧
      ((resetState resetConfig).priv = .machine ∧ (0x300 : BitVec 12).extractLsb' 8 2 = 3 ∧
        (0x300 : BitVec 12).extractLsb' 10 2 ≠ 3) ∧
      ((0xF11 : BitVec 12).extractLsb' 8 2 = 3) ∧
      ((sup resetConfig).priv = .supervisor ∧ 2 ≤ ((0x200 : BitVec 12).extractLsb' 8 2).toNat) ∧
      ((0xC80 : BitVec 12).extractLsb' 5 7 = 0b1100100 ∧ resetConfig.sxlen = .rv64) ∧
      ((0xC1F : BitVec 12).extractLsb' 5 7 = 0b1100000 ∧
        (0xFFFFFFFF >>> 1 : BitVec 32).getLsbD ((0xC1F : BitVec 12).extractLsb' 0 5).toNat = false) := by decide

theorem witness_CsrIllegalAccess_unimplemented :
    (0x107 : BitVec 12) ∉ [0x100, 0x104, 0x105, 0x106, 0x10A, 0x140, 0x141, 0x142, 0x143, 0x144, 0x180, 0x181] ∧
      (0x107 : BitVec 12).extractLsb' 5 7 ≠ 0b1100000 ∧ (0x107 : BitVec 12).extractLsb' 5 7 ≠ 0b1100100 ∧
      (0x107 : BitVec 12).extractLsb' 8 2 ≠ 3 := by decide

/-- A configuration with Sv39 alone. -/
def cfgSv39 : Config := { resetConfig with sv48 := false, sv57 := false }

theorem witness_SatpWrite :
    let s := withReg (sup cfgSv39) 10 0x9000000000080010
    let u := withReg (sup resetConfig) 10 0xB000000000000000
    let v := withReg (sup resetConfig) 10 1
    let x := withReg (sup resetConfig) 10 0xAFFFFFFFFFFFFFFF
    (s.csrCheck 0x180 true = .ok .satp ∧ s.cfg.sxlen = .rv64 ∧ s.cfg.sv32 = false ∧
      (s.reg 10).extractLsb' 60 4 = 9 ∧ s.cfg.sv48 = false) ∧
    (u.csrCheck 0x180 true = .ok .satp ∧ u.cfg.sxlen = .rv64 ∧ u.cfg.sv32 = false ∧
      (u.reg 10).extractLsb' 60 4 ∉ [(0 : BitVec 4), 8, 9, 10]) ∧
    (v.csrCheck 0x180 true = .ok .satp ∧ v.cfg.sxlen = .rv64 ∧ v.cfg.sv32 = false ∧
      (v.reg 10).extractLsb' 60 4 = 0 ∧ (v.reg 10).extractLsb' 0 60 ≠ 0) ∧
    (x.csrCheck 0x180 true = .ok .satp ∧ x.cfg.sxlen = .rv64 ∧ x.cfg.sv32 = false ∧
      (x.reg 10).extractLsb' 60 4 = 10 ∧ x.cfg.sv57 = true) := by decide

theorem witness_SatpWrite_modes :
    (withReg (sup resetConfig) 10 0).reg 10 = 0 ∧
      ((withReg (sup resetConfig) 10 0x8000000000080010).reg 10).extractLsb' 60 4 = 8 ∧ resetConfig.sv39 = true ∧
      ((withReg (sup resetConfig) 10 0x9000000000080010).reg 10).extractLsb' 60 4 = 9 ∧ resetConfig.sv48 = true := by
  decide

theorem witness_SatpWrite_rv32 :
    let s := withReg (sup { cfg32 with sv32 := false }) 10 0x80000000
    let u := withReg (sup cfg32) 10 0x5FFFFFFF
    let v := withReg (sup cfg32) 10 0x80080001
    let x := withReg (sup cfg32) 10 0x60000000
    (x.csrCheck 0x180 true = .ok .satp ∧ (x.reg 10).getLsbD 31 = false ∧ (x.reg 10).extractLsb' 0 31 ≠ 0 ∧
      (x.reg 10).extractLsb' 29 2 = 3) ∧
    (s.csrCheck 0x180 true = .ok .satp ∧ s.cfg.sxlen = .rv32 ∧ (s.reg 10).getLsbD 31 = true ∧ s.cfg.sv32 = false) ∧
    (u.csrCheck 0x180 true = .ok .satp ∧ (u.reg 10).getLsbD 31 = false ∧ (u.reg 10).extractLsb' 0 31 ≠ 0 ∧
      (u.reg 10).extractLsb' 29 2 ≠ 3) ∧
    (v.csrCheck 0x180 true = .ok .satp ∧ (v.reg 10).getLsbD 31 = true ∧ v.cfg.sv32 = true) := by decide

theorem witness_SstatusReadAndWrite :
    let s := sup { resetConfig with uxl := .writable }
    s.priv ≠ .user ∧ s.cfg.sxlen = .rv64 ∧ s.cfg.uxl = .writable ∧ resetConfig.uxl ≠ .writable := by decide

theorem witness_SeipAndStipBelongToTheEnvironment :
    (9 = 9 ∧ EnvAction.setSei true = .setSei true) ∧ (5 = 5 ∧ EnvAction.setSti true = .setSti true) ∧
      resetConfig.implSei = true ∧ resetConfig.implSti = true := by decide

theorem witness_SieWritability_SipWrite :
    { sup resetConfig with sip := 0x222 }.readSip.getLsbD 9 = true ∧ (sup resetConfig).priv ≠ .user ∧
      (sieWritable resetConfig).getLsbD 63 = false ∧ (sipWritable resetConfig).getLsbD 1 = true ∧
      (sipWritable resetConfig).getLsbD 9 = false := by decide

/-- Writable bits of `sip` at the ends of their ranges. -/
theorem witness_SipWrite_bits :
    let c : Config := { resetConfig with
      ext := { resetConfig.ext with sscofpmf := true }, platformIrqs := 0x8000000000010000, sipPlatform := 0x8000000000010000 }
    [1, 13, 16, 63].map (sipWritable c).getLsbD = [true, true, true, true] ∧
      [0, 5, 9, 12, 14, 15, 17, 62, 64].all (fun i => !(sipWritable c).getLsbD i) = true ∧ (sup c).priv ≠ .user := by decide

theorem witness_SepcMaskedRead :
    let s := withReg (sup { resetConfig with ialign := .switchable }) 10 0x10002
    s.cfg.ialign ≠ .fixed32 ∧ s.align16 = false ∧ s.priv ≠ .user ∧ s.sretPermitted = true ∧ (31 : RegId) ≠ 0 ∧
      vaValid s.satp.mode (cut s.cfg.sxlen (s.reg 10)) = true := by decide

theorem witness_OtherCsrWrites_stval :
    let s := withReg (paged39 { resetConfig with ilen := 64 }) 10 0x10000000000
    tvalPolicy s.cfg 2 ≠ .zero ∧ vaValid s.satp.mode (s.reg 10) = false ∧
      (s.reg 10).toNat < 2 ^ min s.cfg.sxlen.bits s.cfg.ilen := by decide

/-- FIOM is writable on a hart with a paged scheme, whatever it would make of Bare alone. -/
theorem witness_OtherCsrWrites_fiom :
    let c : Config := { resetConfig with fiomReadOnly := true }
    c.fiomReadOnly = true ∧ paged c = true ∧ (withReg (sup c) 10 1).priv ≠ .user ∧ (withReg (sup c) 10 1).reg 10 = 1 := by
  decide

theorem witness_OtherCsrWrites :
    let s := withReg (sup { resetConfig with ext := { resetConfig.ext with ssqosid := true, zicbom := true } }) 10 0x800000000000001F
    s.priv ≠ .user ∧ vaValid s.satp.mode (s.reg 10) = true ∧ s.cfg.scauseCodeBits < s.cfg.sxlen.bits ∧
      (s.reg 10 &&& lowBits (s.cfg.sxlen.bits - 1)).toNat < 2 ^ s.cfg.scauseCodeBits ∧ s.cfg.fiomReadOnly = false ∧
      s.cfg.ext.zicbom = true ∧ (s.reg 10).extractLsb' 4 2 ≠ 2 ∧ s.cfg.ext.ssqosid = true ∧ s.cfg.ext.smstateen = false := by
  decide

theorem witness_CounterAccessFromUserMode :
    let s : State := { usr resetConfig with scounteren := 0x80000000 }
    let m : MachineInputs := { (sup resetConfig).inputs with mcounteren := 0 }
    s.priv = .user ∧ 32 ≤ s.cfg.ilen ∧ s.scounterenOn.getLsbD 31 = true ∧ s.inputs.mcounteren.getLsbD 31 = true ∧
      s.scounterenOn.getLsbD 0 = false ∧ (sup resetConfig).priv ≠ .user ∧
      m = { (sup resetConfig).inputs with mcounteren := m.mcounteren } := by decide

theorem witness_CounterAccessFromUserMode_upper :
    (usr cfg32).cfg.sxlen = .rv32 ∧ (0b1100100#7 ++ 31#5 : BitVec 12) = 0xC9F := by decide

theorem witness_CountersNeverDecrease : (31 : BitVec 5) ≠ 0 := by decide

theorem witness_SfenceVmaResult_SinvalVmaRecords :
    fenceState.fencePermitted = true ∧ fenceState.cfg.sfenceIllegalBare = false ∧
      vaValid fenceState.satp.mode (fenceState.reg 10) = true ∧ fenceState.cfg.ext.svinval = true ∧
      fenceState.cfg.svinvalEager = false ∧ { resetConfig with svinvalEager := true }.svinvalEager = true := by decide

/-- `fenceState` with F2's request pending, and no valid address in `x10`. -/
def invalidFence : State :=
  { withReg fenceState 10 0x4000000000 with pendingInval := [{ va := some 0x400123, asid := none }] }

/-- R286: SFENCE.VMA first retires what pends, which goes as in F2, its own address being invalid too; SINVAL.VMA retires
nothing. -/
theorem test_fence_of_invalid_address :
    after (exec (.sfenceVma 10 11) invalidFence) (fun t => (t.pendingInval.length, left t)) =
        some (0, [false, true, false, false]) ∧
      after (exec (.sinvalVma 10 11) invalidFence) (fun t => (t.pendingInval.length, left t)) =
        some (1, [true, true, true, true]) := by decide

theorem witness_FenceOfInvalidAddress :
    let s := invalidFence
    s.fencePermitted = true ∧ (10 : RegId) ≠ 0 ∧ vaValid s.satp.mode (s.reg 10) = false ∧
      s.cfg.sfenceIllegalBare = false ∧ s.cfg.ext.svinval = true ∧ s.pendingInval ≠ [] ∧
      { s with pendingInval := [] }.fencePermitted = true := by decide

theorem witness_PrivilegedInstructionsTrap_HinvalIsIllegal :
    let s : State := { sup resetConfig with inputs := { (sup resetConfig).inputs with tvm := true, tsr := true } }
    32 ≤ resetConfig.ilen ∧ (usr resetConfig).priv = .user ∧
      (s.priv = .supervisor ∧ s.inputs.tsr = true ∧ s.inputs.tvm = true) ∧
      { resetConfig with ext := { resetConfig.ext with svinval := false } }.ext.svinval = false ∧
      { resetConfig with sfenceIllegalBare := true }.sfenceIllegalBare = true ∧
      paged { resetConfig with sv39 := false, sv48 := false, sv57 := false } = false := by decide

theorem witness_SfenceInvalResults :
    fenceState.cfg.ext.svinval = true ∧ fenceState.priv ≠ .user ∧ fenceState.pendingInval = [] := by decide

/-- The same with an invalid address and a request pending. -/
theorem witness_SvinvalSequenceIsSfenceVma_invalid :
    invalidFence.fencePermitted = true ∧ vaValid invalidFence.satp.mode (invalidFence.reg 10) = false ∧
      invalidFence.cfg.ext.svinval = true ∧ invalidFence.cfg.sfenceIllegalBare = false ∧
      ∃ c d, exec .sfenceWInval invalidFence = .next invalidFence.advance ∧
        exec (.sinvalVma 10 11) invalidFence.advance = .next invalidFence.advance.advance ∧
        exec .sfenceInvalIr invalidFence.advance.advance = .next c ∧ exec (.sfenceVma 10 11) invalidFence = .next d := by
  refine ⟨by decide, by decide, by decide, by decide, ?_⟩
  obtain ⟨c, hc⟩ := exists_next (o := exec .sfenceInvalIr invalidFence.advance.advance) (by decide)
  obtain ⟨d, hd⟩ := exists_next (o := exec (.sfenceVma 10 11) invalidFence) (by decide)
  exact ⟨c, d, rfl, rfl, hc, hd⟩

theorem witness_SvinvalSequenceIsSfenceVma :
    fenceState.fencePermitted = true ∧ vaValid fenceState.satp.mode (fenceState.reg 10) = true ∧
      fenceState.cfg.ext.svinval = true ∧ fenceState.cfg.sfenceIllegalBare = false ∧
      ∃ a b c d, exec .sfenceWInval fenceState = .next a ∧ exec (.sinvalVma 10 11) a = .next b ∧
        exec .sfenceInvalIr b = .next c ∧ exec (.sfenceVma 10 11) fenceState = .next d := by
  refine ⟨by decide, by decide +kernel, by decide +kernel, by decide +kernel, fenceState.advance,
    { fenceState.advance with
      pendingInval := addRequest (fenceState.advance.fenceRequest 10 11) fenceState.advance.pendingInval }.advance, ?_⟩
  obtain ⟨c, hc⟩ := exists_next (o := exec .sfenceInvalIr { fenceState.advance with
      pendingInval := addRequest (fenceState.advance.fenceRequest 10 11) fenceState.advance.pendingInval }.advance)
    (by decide)
  obtain ⟨d, hd⟩ := exists_next (o := exec (.sfenceVma 10 11) fenceState) (by decide)
  exact ⟨c, d, rfl, rfl, hc, hd⟩

theorem witness_FenceUnderFiom :
    let s : State := { usr resetConfig with senvcfg := { (usr resetConfig).senvcfg with fiom := true } }
    s.priv = .user ∧ s.fiomOn = true ∧ (sup resetConfig).priv ≠ .user ∧ (usr resetConfig).fiomOn = false := by decide

/-- A flush whose address is reached, one whose translation raises, and one in device memory. -/
theorem witness_FenceResult :
    let r := withReg (paged39 cfgSoftAd) 10 0x402000
    let d := withReg (sup { resetConfig with regions := [{ openRegion 0x1000 0x1000 with device := true }] }) 10 0x1FFC
    flushState.effectivePriv = (if flushState.inputs.mprv then flushState.mach.mpp else flushState.priv) ∧
      hasResult (locate (flushState.walkCtx (flushState.reg 10) .load flushState.effectivePriv) 1 flushState.ms) = true ∧
      hasException (locate (r.walkCtx (r.reg 10) .load r.effectivePriv) 1 r.ms) = true ∧
      resStop (locate (d.walkCtx (d.reg 10) .load d.effectivePriv) 1 d.ms) = some (.refusal .deviceAccess) := by decide +kernel

theorem witness_NonCanonicalAddressFaults :
    let c := (paged39 resetConfig).walkCtx 0x4000000000 .load .supervisor
    (c.scheme, 39) ∈ [(Scheme.sv39, 39), (.sv48, 48), (.sv57, 57)] ∧ vaValid c.scheme c.va = false ∧
      vaValid .sv39 0x3FFFFFFFFF = true ∧ vaValid .sv39 0xFFFFFFC000000000 = true ∧
      vaValid .sv48 0x800000000000 = false ∧ vaValid .sv57 0x100000000000000 = false := by decide

theorem witness_TranslationSound :
    let s := paged39 resetConfig
    s.walkCtx 0x400123 .load .supervisor |>.scheme ≠ .bare := by decide

theorem witness_TranslationSound_translates :
    ∃ r m, translate ((paged39 cfgSoftAd).walkCtx 0x400123 .load .supervisor) (paged39 cfgSoftAd).ms = .ok r m :=
  exists_result (by decide +kernel)

theorem witness_TranslationSound_raises :
    ∃ e i m, translate ((paged39 cfgSoftAd).walkCtx 0x402000 .load .supervisor) (paged39 cfgSoftAd).ms = .exc e i m :=
  exists_exception (by decide +kernel)

/-- One PTE of each kind that the walk tells apart: a pointer, a page, and (`_stops`) a table in denied and in device memory,
and one whose record of attributes stops the read. -/
theorem witness_WalkOneLevel :
    let s := paged39 resetConfig
    let c := s.walkCtx 0x400123 .load .supervisor
    (c.scheme ≠ .bare ∧ vaValid c.scheme c.va = true) ∧
      (0x80011010 = 0x80011000 + c.va.toNat / 2 ^ (12 + c.scheme.vpnBits * 1) % 2 ^ c.scheme.vpnBits * c.scheme.pteBytes ∧
        pteAt c.cfg c.scheme s.ms.mem 0x80011010 = 0x20004801 ∧ pteR 0x20004801 = false ∧ pteX 0x20004801 = false) ∧
      (pteAt c.cfg c.scheme s.ms.mem 0x80012000 = 0x20004CC7 ∧ pteR 0x20004CC7 = true ∧ pteA 0x20004CC7 = true) ∧
      s.ms.atc = [] := by decide +kernel

theorem witness_WalkOneLevel_read :
    let s := paged39 resetConfig
    let c := s.walkCtx 0x400123 .load .supervisor
    pmaCheck c.cfg 0x80012000 8 .load .supervisor = .ok ∧ pteStoreOk c.cfg 0x80012000 8 = true ∧
      ∀ k, k < 8 → compatible (lookupAt .unseen s.ms.types (0x80012000 + k)) (attributesOf c.cfg 0x80012000 8 .pma) = true := by
  decide

theorem witness_WalkOneLevel_stops :
    let c := (paged39 resetConfig).walkCtx 0x400123 .load .supervisor
    c.cfg.ext.svpbmt = true ∧
      compatible (lookupAt .unseen [(0x80012000, .seen ncAttr .fenced)] 0x80012000) (attributesOf c.cfg 0x80012000 8 .pma) = false ∧
      pmaCheck cfgDevice 0x1FF8 8 .load .supervisor = .device ∧ pmaCheck cfgDevice 0x80012000 8 .load .supervisor = .denied := by
  decide

/-- The PTEs that a level refuses, as O57 lists them. -/
def refusedPte (c : WalkCtx) (i : Nat) (p : Word) : Bool :=
  decide (pteV p = false ∨ pteR p = false ∧ pteW p = true ∨
  (pteR p || pteX p) = false ∧ (i = 0 ∨ pteD p = true ∨ pteA p = true ∨ pteU p = true) ∨
  c.scheme ≠ .sv32 ∧
    (p.extractLsb' 54 7 ≠ 0 ∨ p.getLsbD 63 = true ∧ (c.cfg.ext.svnapot = false ∨ i ≠ 0 ∨ p.extractLsb' 10 4 ≠ 0b1000) ∨
      p.extractLsb' 61 2 ≠ 0 ∧ (c.cfg.ext.svpbmt = false ∨ (pteR p || pteX p) = false ∨ p.extractLsb' 61 2 = 3)) ∨
  (pteR p || pteX p) = true ∧
    (c.epriv = .user ∧ pteU p = false ∨ c.epriv = .supervisor ∧ pteU p = true ∧ (c.acc = .fetch ∨ c.sum = false) ∨
      c.acc = .fetch ∧ pteX p = false ∨ c.acc = .store ∧ pteW p = false ∨
      c.acc = .load ∧ pteR p = false ∧ c.mxr = false ∨
      p.toNat / 2 ^ 10 % 2 ^ c.scheme.ppnBits % 2 ^ (c.scheme.vpnBits * i) ≠ 0 ∨
      c.hwAd = false ∧ (!pteA p || (c.acc == .store && !pteD p)) = true))

/-- A leaf whose A has to be set, in a region without page-table writes: the update is denied (R167, R180). -/
theorem witness_WalkOneLevel_updateDenied :
    let s : State := withMem (paged39 { resetConfig with regions := [{ openRegion 0 (2 ^ 56) with ptWrite := false }] })
      (poke tables39 8 0x80012000 0x20004C87)
    let c := s.walkCtx 0x400123 .load .supervisor
    (c.scheme ≠ .bare ∧ s.ms.atc = [] ∧ s.ms.types = [] ∧
      0x80012000 = 0x80012000 + c.va.toNat / 2 ^ (12 + c.scheme.vpnBits * 0) % 2 ^ c.scheme.vpnBits * c.scheme.pteBytes) ∧
    (pmaCheck c.cfg 0x80012000 c.scheme.pteBytes .load .supervisor = .ok ∧
      pteAt c.cfg c.scheme s.ms.mem 0x80012000 = 0x20004C87 ∧ (pteR 0x20004C87 || pteX 0x20004C87) = true ∧
      (!pteA 0x20004C87 || (c.acc == .store && !pteD 0x20004C87)) = true ∧ refusedPte c 0 0x20004C87 = false) ∧
    pteStoreOk c.cfg 0x80012000 c.scheme.pteBytes = false := by decide +kernel

/-- A 1 GiB page at level 2 (B2) and a NAPOT page at level 0 (B7), each its range's address (R169, R201). -/
theorem witness_WalkOneLevel_superpage_napot :
    let s := paged39 resetConfig
    let c := s.walkCtx 0x80000004 .load .supervisor
    let d := s.walkCtx 0x413ABC .load .supervisor
    (0x80010010 = c.root * 4096 + c.va.toNat / 2 ^ (12 + c.scheme.vpnBits * 2) % 2 ^ c.scheme.vpnBits * c.scheme.pteBytes ∧
      pteAt c.cfg c.scheme s.ms.mem 0x80010010 = 0x200000CF ∧
      pteR 0x200000CF = true ∧ (!pteA 0x200000CF || (c.acc == .store && !pteD 0x200000CF)) = false ∧
      pmaCheck c.cfg 0x80010010 c.scheme.pteBytes .load .supervisor = .ok) ∧
    (0x80012098 = 0x80012000 + d.va.toNat / 2 ^ (12 + d.scheme.vpnBits * 0) % 2 ^ d.scheme.vpnBits * d.scheme.pteBytes ∧
      pteAt d.cfg d.scheme s.ms.mem 0x80012098 = 0x800000002000A0C7 ∧
      (d.scheme ≠ .sv32 ∧ (0x800000002000A0C7 : Word).getLsbD 63 = true) ∧
      pmaCheck d.cfg 0x80012098 d.scheme.pteBytes .load .supervisor = .ok) ∧
    refusedPte c 2 0x200000CF = false ∧ refusedPte d 0 0x800000002000A0C7 = false ∧ s.ms.atc = [] ∧ s.ms.types = [] := by
  decide +kernel

theorem witness_TranslationSetsOnlyAAndD :
    (∃ r m, translate (loadState.walkCtx 0x40000C .store .supervisor) loadState.ms = .ok r m) ∧
      translationStores (loadState.walkCtx 0x40000C .store .supervisor) loadState.ms = some 0x80002000 :=
  ⟨exists_result (by decide), by decide +kernel⟩

theorem witness_Sv39WalkOfThreeLevels :
    let s := paged39 cfgSoftAd
    let c := s.walkCtx 0x400123 .load .supervisor
    c.scheme = .sv39 ∧ vaValid .sv39 c.va = true ∧ c.hwAd = false ∧ (∀ e ∈ s.ms.atc, e.asid ≠ c.asid ∧ e.isGlobal = false) ∧
      0x80010000 = c.root * 4096 + c.va.toNat / 2 ^ 30 % 512 * 8 ∧
      0x80011010 = (0x20004401 : Word).toNat / 2 ^ 10 % 2 ^ 44 * 4096 + c.va.toNat / 2 ^ 21 % 512 * 8 ∧
      0x80012000 = (0x20004801 : Word).toNat / 2 ^ 10 % 2 ^ 44 * 4096 + c.va.toNat / 2 ^ 12 % 512 * 8 ∧
      (∀ x ∈ [(0x80010000, (0x20004401 : Word)), (0x80011010, 0x20004801), (0x80012000, 0x20004CC7)],
        pmaCheck c.cfg x.1 8 .load .supervisor = .ok ∧ pteAt c.cfg .sv39 s.ms.mem x.1 = x.2 ∧
        ∀ k, k < 8 → compatible (lookupAt .unseen s.ms.types (x.1 + k)) (attributesOf c.cfg x.1 8 .pma) = true) ∧
      (0x20004401 : Word) &&& 0xFFC00000000000DF#64 = 1 ∧ (0x20004801 : Word) &&& 0xFFC00000000000DF#64 = 1 ∧
      (0x20004CC7 : Word) &&& 0xFFC0000000000041#64 = 0x41 ∧ pteR 0x20004CC7 = true ∧ permOk c 0x20004CC7 = true ∧
      c.acc = .load := by decide +kernel

theorem witness_EnvironmentReach :
    let s := (paged39 resetConfig).act (.beginWalk 0x400123 .load)
    let d := { (paged39 cfgDevice) with inbox := [[EnvAction.beginWalk 0x400123 .load, .advanceWalk 0 none]] }
    let e := { d with cfg := { cfgDevice with regions := [{ openRegion 0 (2 ^ 56) with device := true }] } }
    (sup resetConfig).priv ≠ .machine ∧ s.walks[0]?.isSome = true ∧ s.walks[1]? = none ∧
      e.environmentStop = some (.refusal .pageTableInDevice) ∧ e.immediateInterrupt = none := by decide

/-- A speculative walk whose next read stops the model, for each reason, and the batch of which it is the second action. -/
theorem witness_EnvironmentReach_stops :
    let s := (paged39 resetConfig).act (.beginWalk 0x400123 .load)
    let d : State := { s with cfg := { resetConfig with regions := [{ openRegion 0 (2 ^ 56) with device := true }] } }
    let a : State := { s with ms := { s.ms with types := [(0x80010003, .seen ncAttr .nothing)] } }
    let w : InflightWalk :=
      { va := 0x400123, acc := .load, epriv := .supervisor, scheme := .sv39, asid := 0, base := 0x80010000, level := 2,
        isGlobal := false, fences := [] }
    s.walks[0]? = some w ∧ d.actStop (.advanceWalk 0 none) = some (.refusal .pageTableInDevice) ∧
      a.actStop (.advanceWalk 0 none) = some (.fault .incoherentTypes) ∧
      (paged39 resetConfig).batchStop [.beginWalk 0x400123 .load] = none := by decide +kernel

end Sys2Proof.Tests
end

section
/-! PROOFS. Bits and masks of words, and the bits of `sip` and `sie` that a configuration has. -/

namespace Sys2Proof.Machine

/-! ### Bits by number -/

theorem bitAt_getLsbD (b : Bool) (n k : Nat) : (bitAt b n).getLsbD k = (b && decide (k = n) && decide (k < 64)) := by
  by_cases hk : k < 64
  · rw [BitVec.getLsbD_eq_getElem hk, bitAt_getElem b n k hk]; simp [hk]
  · simp [hk, BitVec.getLsbD_of_ge _ k (not_lt.mp hk)]

theorem pairAt_getLsbD (v : BitVec 2) (n k : Nat) :
    (pairAt v n).getLsbD k = (decide (n ≤ k) && v.getLsbD (k - n) && decide (k < 64)) := by
  by_cases hk : k < 64
  · rw [BitVec.getLsbD_eq_getElem hk, pairAt_getElem v n k hk]; simp [hk]
  · simp [hk, BitVec.getLsbD_of_ge _ k (not_lt.mp hk)]

theorem lowBits_getLsbD (n k : Nat) : (lowBits n).getLsbD k = (decide (k < n) && decide (k < 64)) := by
  by_cases hk : k < 64
  · rw [BitVec.getLsbD_eq_getElem hk, lowBits_getElem n k hk]; simp [hk]
  · simp [hk, BitVec.getLsbD_of_ge _ k (not_lt.mp hk)]

theorem Xlen.bits_le (x : Xlen) : x.bits ≤ 64 := by cases x <;> decide

theorem getLsbD_eq_false_of_lt {m n : Nat} {w : BitVec m} {k : Nat} (h : w.toNat < 2 ^ n) (hk : n ≤ k) : w.getLsbD k = false :=
  Nat.testBit_lt_two_pow (h.trans_le (Nat.pow_le_pow_right (by decide) hk))

/-- A word has no bit outside the low `n` exactly where it is below `2^n`. -/
theorem and_not_ofNat_iff {m : Nat} (n : Nat) (w : BitVec m) : w &&& ~~~(BitVec.ofNat m (2 ^ n - 1)) = 0 ↔ w.toNat < 2 ^ n := by
  constructor
  · intro h
    apply Nat.lt_pow_two_of_testBit
    intro k hk
    have hb : (w &&& ~~~(BitVec.ofNat m (2 ^ n - 1))).getLsbD k = false := by rw [h]; simp
    rw [BitVec.getLsbD_and, BitVec.getLsbD_not, BitVec.getLsbD_ofNat, Nat.testBit_two_pow_sub_one] at hb
    by_cases hkm : k < m
    · rw [← hb]; simp [hkm, show ¬k < n by omega, BitVec.getLsbD]
    · exact BitVec.getLsbD_of_ge w k (by omega)
  · intro h
    apply BitVec.eq_of_getLsbD_eq
    intro k hk
    by_cases hkn : k < n
    · rw [BitVec.getLsbD_and, BitVec.getLsbD_not, BitVec.getLsbD_ofNat, Nat.testBit_two_pow_sub_one]; simp [hkn, hk]
    · simp [getLsbD_eq_false_of_lt h (by omega : n ≤ k)]

theorem and_not_lowBits_iff (n : Nat) (w : Word) : w &&& ~~~(lowBits n) = 0 ↔ w.toNat < 2 ^ n := and_not_ofNat_iff n w

/-! ### Interrupt bits -/

theorem platformBits_getLsbD (c : Config) (k : Nat) :
    (platformBits c).getLsbD k = (decide (16 ≤ k) && decide (k < c.sxlen.bits)) := by
  have := Xlen.bits_le c.sxlen
  simp only [platformBits, sxMask, BitVec.getLsbD_and, BitVec.getLsbD_not, lowBits_getLsbD]
  by_cases h1 : k < c.sxlen.bits
  · by_cases h2 : k < 16
    · simp [h1, h2, show ¬16 ≤ k by omega, show k < 64 by omega]
    · simp [h1, h2, show 16 ≤ k by omega, show k < 64 by omega]
  · simp [h1]

/-- The bits of `sip` that exist: the four standard ones, and the platform's from 16 up (R54, R55, R61, R62). -/
theorem sipBits_getLsbD (c : Config) (k : Nat) :
    (sipBits c).getLsbD k = true ↔
      k = 1 ∧ c.implSsi = true ∨ k = 5 ∧ c.implSti = true ∨ k = 9 ∧ c.implSei = true ∨ k = 13 ∧ c.ext.sscofpmf = true ∨
        16 ≤ k ∧ k < c.sxlen.bits ∧ c.platformIrqs.getLsbD k = true := by
  simp only [sipBits, standardIrqs, BitVec.getLsbD_or, BitVec.getLsbD_and, bitAt_getLsbD, platformBits_getLsbD,
    Bool.or_eq_true, Bool.and_eq_true, decide_eq_true_eq]
  constructor
  · rintro ((((h | h) | h) | h) | h) <;> tauto
  · rintro (⟨rfl, h⟩ | ⟨rfl, h⟩ | ⟨rfl, h⟩ | ⟨rfl, h⟩ | h) <;> simp [h]

/-- The bits of `SIP_WRITABLE` (R56, R60 to R62). -/
theorem sipWritable_getLsbD (c : Config) (k : Nat) :
    (sipWritable c).getLsbD k = true ↔
      k = 1 ∧ c.implSsi = true ∨ k = 13 ∧ c.ext.sscofpmf = true ∨
        16 ≤ k ∧ k < c.sxlen.bits ∧ c.platformIrqs.getLsbD k = true ∧ c.sipPlatform.getLsbD k = true := by
  simp only [sipWritable, BitVec.getLsbD_or, BitVec.getLsbD_and, bitAt_getLsbD, platformBits_getLsbD, Bool.or_eq_true,
    Bool.and_eq_true, decide_eq_true_eq]
  constructor
  · rintro ((h | h) | h) <;> tauto
  · rintro (⟨rfl, h⟩ | ⟨rfl, h⟩ | h) <;> simp [h]

end Sys2Proof.Machine
end

section
/-! PROOFS. The invariants that every step keeps: the rule of SDT and SIE, the parameters, and the control registers. -/

namespace Sys2Proof.Machine

/-! ### SDT set implies SIE clear (R40) -/

/-- A trap into S-mode clears SIE; a double trap leaves `sstatus` (R361, R367). -/
theorem State.trapToS_doubleTrapSafe (s : State) (isI : Bool) (code : Nat) (tv epc : Word) (h : s.DoubleTrapSafe) :
    (s.trapToS isI code tv epc).DoubleTrapSafe := by
  cases hd : s.sdtOn with
  | true => rw [s.trapToS_double isI code tv epc hd]; exact h
  | false => rw [s.trapToS_taken isI code tv epc hd]; exact fun _ => rfl

theorem State.takeException_doubleTrapSafe (s : State) (c : Cause) (info : Word) (h : s.DoubleTrapSafe) :
    (s.takeException c info).DoubleTrapSafe := by
  unfold State.takeException
  dsimp only
  split
  · exact State.trapToS_doubleTrapSafe _ _ _ _ _ h
  · exact h

/-- SRET clears SDT (R252). -/
theorem State.returnFromTrap_doubleTrapSafe (s : State) : s.returnFromTrap.DoubleTrapSafe := by
  intro hd
  simp [State.sdtOn, State.returnFromTrap] at hd

theorem State.act_doubleTrapSafe (s : State) (a : EnvAction) (h : s.DoubleTrapSafe) : (s.act a).DoubleTrapSafe :=
  s.act_keeps a State.DoubleTrapSafe h (fun _ _ => h) (fun _ => h) (fun _ _ => h) (fun _ => h) (fun _ _ _ => h)
    (fun _ _ => h) (fun _ => h) (fun _ => h) (fun _ c v t hw => s.writeCsr_doubleTrapSafe t c v hw h) (fun _ _ _ => h)
    (fun _ _ _ => h)

theorem exec_doubleTrapSafe (i : Instr) (s t : State) (h : s.DoubleTrapSafe) (he : exec i s = .next t) : t.DoubleTrapSafe :=
  exec_keeps State.DoubleTrapSafe State.takeException_doubleTrapSafe (fun _ _ h _ => h) (fun _ _ h => h) (fun _ h => h)
    (fun _ _ _ _ h => h) (fun s _ => s.returnFromTrap_doubleTrapSafe) (fun _ _ h => h) (fun _ _ _ h => h)
    (fun s t c v h _ hw => s.writeCsr_doubleTrapSafe t c v hw h) i s t h he

/-- Settles O13: traps and SRET clear SIE or SDT, a write of `sstatus` clears SIE where it sets SDT, and nothing else touches
the two. -/
theorem stepKeepsDoubleTrapRule : Obligations.StepKeepsDoubleTrapRule := by
  unfold Obligations.StepKeepsDoubleTrapRule
  intro s t hs h
  exact step_keeps State.DoubleTrapSafe State.act_doubleTrapSafe (fun _ h => h) (fun _ _ h => h) (fun _ _ h _ => h)
    (fun s code h _ => s.trapToS_doubleTrapSafe true code 0 s.pc h) State.takeException_doubleTrapSafe (fun _ h => h)
    exec_doubleTrapSafe s t hs h

/-! ### The parameters (R7) -/

theorem State.takeException_cfg (s : State) (c : Cause) (info : Word) : (s.takeException c info).cfg = s.cfg := by
  rw [s.takeException_frame c info]

theorem State.takeInterrupt_cfg (s : State) (code : Nat) : (s.takeInterrupt code).cfg = s.cfg := by
  rw [s.takeInterrupt_frame code]

theorem State.writeCsr_cfg (s t : State) (c : Csr) (v : Word) (h : s.writeCsr c v = .ok t) : t.cfg = s.cfg := by
  rw [s.writeCsr_frame t c v h]

theorem State.act_cfg (s : State) (a : EnvAction) : (s.act a).cfg = s.cfg :=
  s.act_keeps a (fun t => t.cfg = s.cfg) rfl (fun _ _ => rfl) (fun _ => rfl) (fun _ _ => rfl) (fun _ => rfl) (fun _ _ _ => rfl)
    (fun _ _ => rfl) (fun _ => rfl) (fun _ => rfl) (fun _ c v t hw => s.writeCsr_cfg t c v hw) (fun _ _ _ => rfl)
    (fun _ _ _ => rfl)

theorem exec_cfg (i : Instr) (s t : State) (he : exec i s = .next t) : t.cfg = s.cfg :=
  exec_keeps (fun t => t.cfg = s.cfg) (fun u c info h => (u.takeException_cfg c info).trans h) (fun _ _ h _ => h)
    (fun _ _ h => h) (fun _ h => h) (fun _ _ _ _ h => h) (fun _ h => h) (fun _ _ h => h) (fun _ _ _ h => h)
    (fun u t c v h _ hw => (u.writeCsr_cfg t c v hw).trans h) i s t rfl he

/-- No step changes the implementation parameters. -/
theorem step_cfg (s t : State) (h : step s = .next t) : t.cfg = s.cfg :=
  step_keeps (fun t => t.cfg = s.cfg) (fun u a h => (u.act_cfg a).trans h) (fun _ h => h) (fun _ _ h => h) (fun _ _ h _ => h)
    (fun u code h _ => (u.takeInterrupt_cfg code).trans h) (fun u c info h => (u.takeException_cfg c info).trans h)
    (fun _ h => h) (fun i u t h he => (exec_cfg i u t he).trans h) s t rfl h

/-! ### The control registers -/

/-- What a trap leaves in ELP is NO_LP_EXPECTED: with Zicfilp it is cleared, without it no mode has landing pads on (R94). -/
theorem State.PadsOk.elp_after_trap {s : State} (h : s.PadsOk) : (s.elp && !s.cfg.ext.zicfilp) = false := by
  cases he : s.elp with
  | false => rfl
  | true =>
    have hl := h he
    cases hz : s.cfg.ext.zicfilp with
    | true => rfl
    | false => cases hp : s.priv <;> simp [State.landingPads, hp, hz] at hl

theorem State.trapToM_controlOk (s : State) (code : Nat) (m : Option Word) (tv epc : Word) (h : s.ControlOk) :
    (s.trapToM code m tv epc).ControlOk := by
  obtain ⟨⟨-, hsepc⟩, hvec, hsatp, hwarl, hcause, hpads, hresv⟩ := h
  refine ⟨⟨aligned_of_four (s.trapToM_aligned code m tv epc), hsepc⟩, hvec, hsatp, hwarl, hcause, fun he => ?_, hresv⟩
  exact absurd (he.symm.trans hpads.elp_after_trap) (by simp)

/-- `scause` can hold a code, where its field holds every implemented interrupt code (R78). -/
def codeFits (c : Config) (code : Nat) : Prop :=
  c.scauseOk = true → BitVec.ofNat 64 code &&& ~~~(lowBits c.scauseCodeBits) = 0

theorem State.trapToS_controlOk (s : State) (isI : Bool) (code : Nat) (tv epc : Word) (hc : codeFits s.cfg code)
    (h : s.ControlOk) : (s.trapToS isI code tv epc).ControlOk := by
  cases hd : s.sdtOn with
  | true => rw [s.trapToS_double isI code tv epc hd]; exact s.trapToM_controlOk _ _ _ _ h
  | false =>
    have hpc := aligned_of_four (c := s.cfg) (s.trapVector_aligned isI code)
    obtain ⟨-, hvec, hsatp, ⟨-, -, hcen, hsie, hsip, hrcid, hmcid, huxl, hcbie⟩, -, hpads, hresv⟩ := h
    rw [s.trapToS_taken isI code tv epc hd]
    refine ⟨⟨hpc, epcMask_aligned _ _⟩, hvec, hsatp, ⟨id, fun hz => ?_, hcen, hsie, hsip, hrcid, hmcid, huxl, hcbie⟩, hc,
      fun he => absurd (he.symm.trans hpads.elp_after_trap) (by simp), hresv⟩
    have hz' : s.cfg.ext.zicfilp = false := hz
    show s.padMissing = false
    cases hp : s.priv <;> simp [State.padMissing, State.landingPads, hp, hz']

/-- Every exception code is below 32, which the field always holds (R78). -/
theorem Cause.codeFits (cfg : Config) (c : Cause) : Machine.codeFits cfg c.code := by
  intro hok
  simp only [Config.scauseOk, Bool.and_eq_true, decide_eq_true_eq] at hok
  obtain ⟨⟨hbits, -⟩, -⟩ := hok
  have h5 : 2 ^ 5 ≤ 2 ^ cfg.scauseCodeBits := Nat.pow_le_pow_right (by decide) hbits
  have hcode : c.code < 2 ^ 5 := by cases c <;> decide
  rw [and_not_lowBits_iff, BitVec.toNat_ofNat]
  omega

/-- The code of an interrupt that exists is one that `scause` can hold (R78). -/
theorem codeFits_of_sipBits (cfg : Config) (i : Nat) (h : (sipBits cfg).getLsbD i = true) : codeFits cfg i := by
  intro hok
  simp only [Config.scauseOk, Bool.and_eq_true, decide_eq_true_eq, List.all_eq_true, List.mem_range, Bool.or_eq_true,
    Bool.not_eq_true'] at hok
  obtain ⟨⟨hbits, -⟩, hirq⟩ := hok
  have h5 : 2 ^ 5 ≤ 2 ^ cfg.scauseCodeBits := Nat.pow_le_pow_right (by decide) hbits
  have hx := Xlen.bits_le cfg.sxlen
  have hi : i < 2 ^ cfg.scauseCodeBits := by
    rcases (sipBits_getLsbD cfg i).mp h with ⟨rfl, -⟩ | ⟨rfl, -⟩ | ⟨rfl, -⟩ | ⟨rfl, -⟩ | ⟨-, hlt, hp⟩
    case inr.inr.inr.inr => exact (hirq i (by omega)).resolve_left (by simp [hp])
    all_goals omega
  rw [and_not_lowBits_iff, BitVec.toNat_ofNat]
  exact lt_of_le_of_lt (Nat.mod_le _ _) hi

/-- An interrupt that is selected is one that exists (R54, R350, R351). -/
theorem State.selectInterrupt_exists (s : State) (code : Nat) (h : s.selectInterrupt = some code) :
    (sipBits s.cfg).getLsbD code = true := by
  have ht : s.takeable code = true := List.find?_some h
  simp only [State.takeable, State.readSip, Bool.and_eq_true, BitVec.getLsbD_and] at ht
  obtain ⟨⟨-, -, hexists⟩, -⟩ := ht
  exact hexists

theorem State.takeInterrupt_controlOk (s : State) (code : Nat) (hc : s.selectInterrupt = some code) (h : s.ControlOk) :
    (s.takeInterrupt code).ControlOk :=
  s.trapToS_controlOk true code 0 s.pc (codeFits_of_sipBits _ _ (s.selectInterrupt_exists code hc)) h

theorem State.takeException_controlOk (s : State) (c : Cause) (info : Word) (h : s.ControlOk) :
    (s.takeException c info).ControlOk := by
  unfold State.takeException
  dsimp only
  split
  · exact State.trapToS_controlOk _ _ _ _ _ (Cause.codeFits _ c) h
  · exact State.trapToM_controlOk _ _ _ _ _ h

theorem and_and_eq_zero {n : Nat} {a m : BitVec n} (b : BitVec n) (h : a &&& m = 0) : (a &&& b) &&& m = 0 := by
  rw [BitVec.and_assoc, BitVec.and_comm b, ← BitVec.and_assoc, h]
  exact BitVec.zero_and

/-- SRET goes to a masked `sepc`, and takes SPELP over only where the new mode has landing pads on (R72, R252, R256). -/
theorem State.returnFromTrap_controlOk (s : State) (h : s.ControlOk) : s.returnFromTrap.ControlOk := by
  obtain ⟨⟨-, hsepc⟩, hvec, hsatp, ⟨-, -, hwarl⟩, hcause, hpads, hresv⟩ := h
  refine ⟨⟨and_and_eq_zero _ hsepc, hsepc⟩, hvec, hsatp, ⟨fun _ => rfl, fun _ => rfl, hwarl⟩, hcause, fun he => ?_, hresv⟩
  have he' : (if s.cfg.ext.zicfilp then s.landingPads (if s.sstatus.spp then .supervisor else .user) && s.spelpOn else s.elp)
      = true := he
  show s.landingPads (if s.sstatus.spp then .supervisor else .user) = true
  split at he'
  · exact (Bool.and_eq_true_iff.mp he').1
  · rename_i hz
    exact absurd hpads.elp_after_trap (by simp [he', hz])

/-- `pc` + 4 is as aligned as `pc` (R231). -/
theorem State.advance_aligned (s : State) (h : s.pc &&& alignMask s.cfg = 0) :
    s.advance.pc &&& alignMask s.advance.cfg = 0 := by
  show cut s.cfg.sxlen (s.pc + 4) &&& alignMask s.cfg = 0
  have h4 : (s.pc + 4).toNat % 4 = s.pc.toNat % 4 := by rw [BitVec.toNat_add]; show (_ + 4) % 2 ^ 64 % 4 = _; omega
  unfold alignMask at h ⊢
  split
  · rename_i hf
    rw [if_pos hf, and_three_eq_zero_iff] at h
    rwa [and_three_eq_zero_iff, cut_toNat_mod_four, h4]
  · rename_i hf
    rw [if_neg hf, and_one_eq_zero_iff] at h
    rw [and_one_eq_zero_iff, cut_toNat_mod_two]
    omega

theorem State.advance_controlOk (s : State) (h : s.ControlOk) : s.advance.ControlOk :=
  ⟨⟨s.advance_aligned h.1.1, h.1.2⟩, h.2⟩

theorem exec_controlOk (i : Instr) (s t : State) (h : s.ControlOk) (he : exec i s = .next t) : t.ControlOk :=
  exec_keeps State.ControlOk State.takeException_controlOk (fun _ _ h _ => h) (fun _ _ h => h) State.advance_controlOk
    (fun _ _ _ _ h => h) State.returnFromTrap_controlOk (fun _ _ h => h) (fun _ _ _ h => h)
    (fun s t c v h hp hw => s.writeCsr_controlOk t c v hw hp h) i s t h he

/-- The environment drives only the bits of `sip` that exist. -/
theorem State.driveSip_controlOk (s : State) (mask v : Word) (h : s.ControlOk) : (s.driveSip mask v).ControlOk := by
  obtain ⟨haddr, hvec, hsatp, ⟨hsdt, hspelp, hcen, hsie, hsip, hwarl⟩, hrest⟩ := h
  have hself : sipBits s.cfg &&& ~~~(sipBits s.cfg) = 0 := by simp
  exact ⟨haddr, hvec, hsatp, ⟨hsdt, hspelp, hcen, hsie,
    or_and_not (and_left_and_not _ hsip) (and_right_and_not _ (and_right_and_not _ hself)), hwarl⟩, hrest⟩

/-- In M-mode a legal state expects no landing pad, as that mode has them off. -/
theorem State.PadsOk.elp_machine {s : State} (h : s.PadsOk) (hp : s.priv = .machine) : s.elp = false := by
  cases he : s.elp with
  | false => rfl
  | true => exact absurd (h he) (by simp [State.landingPads, hp])

/-- The SEE enters a mode at an aligned address, with a landing pad expected only where the mode has them on. -/
theorem State.seeResume_controlOk (s : State) (p : Priv) (pc : Word) (hp : s.priv = .machine) (h : s.ControlOk) :
    (s.seeResume p pc).ControlOk := by
  obtain ⟨⟨-, hsepc⟩, hvec, hsatp, hwarl, hcause, hpads, hresv⟩ := h
  refine ⟨⟨?_, hsepc⟩, hvec, hsatp, hwarl, hcause, fun he => ?_, hresv⟩
  · show (cut s.cfg.sxlen pc &&& (if s.align16 then ~~~1#64 else ~~~3#64)) &&& alignMask s.cfg = 0
    cases ha : s.align16 with
    | false => exact aligned_of_four (clear_three_toNat _)
    | true =>
      have hi : s.cfg.ialign ≠ .fixed32 := by
        intro hf; simp [State.align16, hf] at ha
      rw [alignMask, if_neg hi]
      exact clear_one _
  · have he' : (if s.cfg.ext.zicfilp then s.landingPads p && s.mach.mpelp else s.elp) = true := he
    rw [hpads.elp_machine hp] at he'
    split at he'
    · exact (Bool.and_eq_true_iff.mp he').1
    · exact absurd he' (by simp)

theorem State.setInputs_controlOk (s : State) (m : MachineInputs) (hp : s.priv = .machine) (h : s.ControlOk) :
    ({ s with inputs := m } : State).ControlOk := by
  obtain ⟨haddr, hvec, hsatp, hwarl, hcause, hpads, hresv⟩ := h
  refine ⟨haddr, hvec, hsatp, hwarl, hcause, fun he => ?_, hresv⟩
  exact absurd (he.symm.trans (hpads.elp_machine hp)) (by simp)

theorem State.setReservation_controlOk (s : State) (r : Option Reservation) (hr : reservationOk s.cfg r = true)
    (h : s.ControlOk) : ({ s with reservation := r } : State).ControlOk := by
  obtain ⟨haddr, hvec, hsatp, hwarl, hcause, hpads, -⟩ := h
  exact ⟨haddr, hvec, hsatp, hwarl, hcause, hpads, hr⟩

theorem State.act_controlOk (s : State) (a : EnvAction) (h : s.ControlOk) : (s.act a).ControlOk :=
  s.act_keeps a State.ControlOk h (fun m v => s.driveSip_controlOk m v h) (fun _ => h) (fun _ _ => h) (fun _ => h)
    (fun _ _ _ => h) (fun hp m => s.setInputs_controlOk m hp h) (fun _ => h) (fun _ => h)
    (fun hp c v t hw => s.writeCsr_controlOk t c v hw (by rw [hp]; decide) h)
    (fun _ r hr => s.setReservation_controlOk r hr h)
    (fun hp p pc => s.seeResume_controlOk p pc hp h)

/-- Settles O14: every part of a step leaves the control registers legal: traps, SRET, the move of `pc`, writes of CSRs by
their rules, and the actions of the other agents. -/
theorem stepKeepsControlRegistersLegal : Obligations.StepKeepsControlRegistersLegal := by
  unfold Obligations.StepKeepsControlRegistersLegal
  intro s t h
  refine ⟨step_cfg s t h, fun hs => ?_⟩
  exact step_keeps State.ControlOk State.act_controlOk (fun _ h => h) (fun _ _ h => h) (fun _ _ h _ => h)
    (fun s code h hc => s.takeInterrupt_controlOk code hc h) State.takeException_controlOk State.advance_controlOk
    exec_controlOk s t hs h

end Sys2Proof.Machine
end

section
/-! PROOFS. The reset state satisfies the invariants (O11). -/

namespace Sys2Proof.Machine

theorem resetState_addressesOk (c : Config) (h : c.resetOk = true) : (resetState c).AddressesOk := by
  refine ⟨?_, BitVec.zero_and⟩
  show c.resetVector &&& alignMask c = 0
  simp only [Config.resetOk, Bool.and_eq_true, beq_iff_eq] at h
  obtain ⟨halign, -⟩ := h
  unfold Config.resetAlign at halign
  unfold alignMask
  cases hi : c.ialign <;> simp only [hi] at halign
  case fixed32 => exact (and_three_eq_zero_iff _).mpr halign
  case fixed16 => exact (and_one_eq_zero_iff _).mpr halign
  case switchable => exact (and_one_eq_zero_iff _).mpr (by omega)

theorem resetState_vectorOk (c : Config) (h : c.stvecOk = true) : (resetState c).VectorOk := by
  have hmode : ∀ m : Word, m = 0 ∨ m = 1 → m &&& ~~~(c.stvecBaseMask ||| 3#64) = 0 := by
    intro m hm
    rw [BitVec.not_or, BitVec.and_comm (~~~c.stvecBaseMask), ← BitVec.and_assoc]
    rcases hm with rfl | rfl <;> simp
  unfold State.VectorOk
  show stvecModeOk c ((if c.stvecDirect then 0 else 1) &&& 3) = true ∧
    (if c.stvecDirect then (0 : Word) else 1) &&& ~~~(c.stvecBaseMask ||| 3#64) = 0
  cases hd : c.stvecDirect with
  | true => exact ⟨by simp [stvecModeOk, hd], hmode 0 (.inl rfl)⟩
  | false =>
    have hv : c.stvecVectored = true := by simpa [Config.stvecOk, hd] using h
    exact ⟨by simp [stvecModeOk, hv], hmode 1 (.inr rfl)⟩

theorem resetState_controlOk (c : Config) (hreset : c.resetOk = true) (hstvec : c.stvecOk = true)
    (hsrmcfg : c.srmcfgOk = true) : (resetState c).ControlOk := by
  simp only [Config.srmcfgOk, Bool.and_eq_true, decide_eq_true_eq] at hsrmcfg
  obtain ⟨⟨-, hrcid⟩, hmcid⟩ := hsrmcfg
  have hcbie : (0 : BitVec 2) ≠ 2 := by decide
  refine ⟨resetState_addressesOk c hreset, resetState_vectorOk c hstvec,
    ⟨rfl, BitVec.zero_and, BitVec.zero_and, fun _ => ⟨rfl, rfl⟩⟩,
    ⟨fun _ => rfl, fun _ => rfl, BitVec.zero_and, BitVec.zero_and, BitVec.zero_and,
      (and_not_ofNat_iff c.rcidLen c.resetRcid).mpr hrcid, (and_not_ofNat_iff c.mcidLen c.resetMcid).mpr hmcid,
      .inr rfl, hcbie⟩, fun _ => BitVec.zero_and, fun he => absurd he Bool.false_ne_true, rfl⟩

end Sys2Proof.Machine

namespace Sys2Proof.Proofs

open Sys2Proof.Machine

/-- Settles O11: the reset values by definition, the invariants from the checks of a well-formed configuration. -/
theorem resetState : Obligations.ResetState := by
  unfold Obligations.ResetState
  intro c
  refine ⟨rfl, rfl, rfl, rfl, rfl, rfl, rfl, fun hwf => ⟨⟨rfl, rfl⟩, fun _ => rfl, ?_⟩⟩
  simp only [Config.wf, Bool.and_eq_true] at hwf
  obtain ⟨⟨⟨⟨⟨⟨⟨-, hstvec⟩, -⟩, hsrmcfg⟩, -⟩, -⟩, hreset⟩, -⟩ := hwf
  exact resetState_controlOk c hreset hstvec hsrmcfg

end Sys2Proof.Proofs
end

section
/-! PROOFS. What a CSR access does, said once: the checks that pass, and CSRRW with `rd` = `x0`, which only writes. -/

namespace Sys2Proof.Machine

/-! ### Values and checks -/

/-- Above U-mode a register reads as a value of the width that CSRs have (R20, R31). -/
theorem State.xlen_of_not_user (s : State) (hp : s.priv ≠ .user) : s.xlen = s.cfg.sxlen := by
  cases h : s.priv
  case user => exact absurd h hp
  all_goals simp [State.xlen, State.xlenOf, h]

theorem State.cut_reg (s : State) (r : RegId) (hp : s.priv ≠ .user) : cut s.cfg.sxlen (s.reg r) = s.reg r := by
  unfold State.reg
  rw [s.xlen_of_not_user hp]
  split
  · cases s.cfg.sxlen <;> rfl
  · exact cut_cut _ _

/-- A supervisor CSR passes its check above U-mode, where nothing closes it (R300). -/
theorem State.csrCheck_supervisor (s : State) (num : BitVec 12) (c : Csr) (isWrite : Bool) (hp : s.priv ≠ .user)
    (hcsr : csrOf s.cfg num = some c) (hopen : s.csrOpen c = true) (hlevel : num.extractLsb' 8 2 = 1)
    (hwrite : num.extractLsb' 10 2 ≠ 3) : s.csrCheck num isWrite = .ok c := by
  have hpriv : ¬privNumber s.priv < (1 : BitVec 2).toNat := by
    cases h : s.priv
    case user => exact absurd h hp
    all_goals simp [privNumber]
  unfold State.csrCheck
  rw [hlevel, if_neg hpriv, if_neg (by simpa using fun _ => hwrite), if_neg (by decide), hcsr]
  exact if_pos hopen

/-- The supervisor CSRs whose access depends on the mode alone (R24, R300). -/
theorem State.csrCheck_plain (s : State) (isWrite : Bool) (hp : s.priv ≠ .user) (num : BitVec 12) (c : Csr)
    (h : (num, c) ∈ [((0x100 : BitVec 12), Csr.sstatus), (0x104, .sie), (0x105, .stvec), (0x106, .scounteren), (0x10A, .senvcfg),
      (0x140, .sscratch), (0x141, .sepc), (0x142, .scause), (0x143, .stval), (0x144, .sip)]) :
    s.csrCheck num isWrite = .ok c := by
  simp only [List.mem_cons, Prod.mk.injEq, List.not_mem_nil, or_false] at h
  rcases h with ⟨rfl, rfl⟩ | ⟨rfl, rfl⟩ | ⟨rfl, rfl⟩ | ⟨rfl, rfl⟩ | ⟨rfl, rfl⟩ | ⟨rfl, rfl⟩ | ⟨rfl, rfl⟩ | ⟨rfl, rfl⟩ |
    ⟨rfl, rfl⟩ | ⟨rfl, rfl⟩ <;>
  exact s.csrCheck_supervisor _ _ isWrite hp rfl rfl (by decide) (by decide)

/-! ### CSRRW with `rd` = `x0` -/

/-- CSRRW with `rd` = `x0` only writes: the CSR by its write rule, `pc` + 4, and the re-evaluation of interrupts (R301, R302,
R352). -/
theorem exec_csrrw_x0 (s u : State) (num : BitVec 12) (rs1 : RegId) (c : Csr) (hc : s.csrCheck num true = .ok c)
    (hw : s.writeCsr c (s.reg rs1) = .ok u) :
    exec (.csrrw 0 num rs1) s =
      .next { u with pc := cut s.cfg.sxlen (s.pc + 4), recheck := s.recheck || interruptCsr c } := by
  have hf := s.writeCsr_frame u c _ hw
  show csrInstr (.csrrw 0 num rs1) .swap 0 num (s.reg rs1) (decide ((0 : RegId) ≠ 0)) true s = _
  simp only [csrInstr, hc, State.csrReadWrite, State.commitCsr, CsrOp.combine]
  simp only [ne_eq, not_true_eq_false, decide_false, Bool.false_eq_true, if_false, if_true, hw]
  rw [hf]
  simp [State.setReg, State.advance]

/-- Where the write has no meaning, CSRRW stops (R302). -/
theorem exec_csrrw_x0_stop (s : State) (num : BitVec 12) (rs1 : RegId) (c : Csr) (x : Stop) (hc : s.csrCheck num true = .ok c)
    (hw : s.writeCsr c (s.reg rs1) = .error x) : exec (.csrrw 0 num rs1) s = x.outcome := by
  show csrInstr (.csrrw 0 num rs1) .swap 0 num (s.reg rs1) (decide ((0 : RegId) ≠ 0)) true s = _
  simp only [csrInstr, hc, State.csrReadWrite, State.commitCsr, CsrOp.combine]
  simp only [ne_eq, not_true_eq_false, decide_false, Bool.false_eq_true, if_false, if_true, hw]

/-- CSRRW of `sstatus` above U-mode. -/
theorem exec_csrrw_sstatus (s : State) (rs1 : RegId) (hp : s.priv ≠ .user) :
    exec (.csrrw 0 0x100 rs1) s =
      .next { s.writeSstatus (s.reg rs1) with pc := cut s.cfg.sxlen (s.pc + 4), recheck := true } := by
  have hw : s.writeCsr .sstatus (s.reg rs1) = .ok (s.writeSstatus (s.reg rs1)) := by
    simp only [State.writeCsr, s.cut_reg rs1 hp]
  rw [exec_csrrw_x0 s _ 0x100 rs1 .sstatus (s.csrCheck_plain true hp _ _ (by simp)) hw]
  simp [interruptCsr]

end Sys2Proof.Machine
end

section
/-! PROOFS. The fields of `sstatus`, as it reads and as a write leaves them (O38). -/

namespace Sys2Proof.Machine

/-! ### Where the fields stand -/

theorem extractLsb'_two_eq {w : Word} {v : BitVec 2} {n : Nat} (h0 : w.getLsbD n = v.getLsbD 0)
    (h1 : w.getLsbD (n + 1) = v.getLsbD 1) : w.extractLsb' n 2 = v := by
  apply BitVec.eq_of_getLsbD_eq
  intro k hk
  rw [BitVec.getLsbD_extractLsb']
  interval_cases k
  · simpa using h0
  · simpa using h1

/-- The fields of `sstatus` below bit 31, which both widths have (R25). -/
def State.sstatusLow (s : State) : Word :=
  bitAt s.sstatus.sie 1 ||| bitAt s.sstatus.spie 5 ||| bitAt s.ubeOn 6 ||| bitAt s.sstatus.spp 8 |||
    pairAt s.vs 9 ||| pairAt s.fs 13 ||| pairAt s.xs 15 ||| bitAt s.sumOn 18 ||| bitAt s.sstatus.mxr 19 |||
    bitAt s.spelpOn 23 ||| bitAt s.sdtOn 24

theorem State.readSstatus_rv32 (s : State) (h : s.cfg.sxlen = .rv32) : s.readSstatus = s.sstatusLow ||| bitAt s.sd 31 := by
  simp only [State.readSstatus, h]; rfl

theorem State.readSstatus_rv64 (s : State) (h : s.cfg.sxlen = .rv64) :
    s.readSstatus = s.sstatusLow ||| (pairAt s.uxl 32 ||| bitAt s.sd 63) := by
  simp only [State.readSstatus, h]; rfl

/-- The bits of the fields below bit 31, by number. -/
theorem State.sstatusLow_getLsbD (s : State) (k : Nat) (hk : k < 64) :
    s.sstatusLow.getLsbD k =
      (s.sstatus.sie && decide (k = 1) || s.sstatus.spie && decide (k = 5) || s.ubeOn && decide (k = 6) ||
        s.sstatus.spp && decide (k = 8) || decide (9 ≤ k) && s.vs.getLsbD (k - 9) || decide (13 ≤ k) && s.fs.getLsbD (k - 13) ||
        decide (15 ≤ k) && s.xs.getLsbD (k - 15) || s.sumOn && decide (k = 18) || s.sstatus.mxr && decide (k = 19) ||
        s.spelpOn && decide (k = 23) || s.sdtOn && decide (k = 24)) := by
  simp only [State.sstatusLow, BitVec.getLsbD_or, bitAt_getLsbD, pairAt_getLsbD, hk, decide_true, Bool.and_true]

theorem State.readSstatus_getLsbD_low (s : State) (k : Nat) (hk : k < 31) : s.readSstatus.getLsbD k = s.sstatusLow.getLsbD k := by
  cases hx : s.cfg.sxlen
  · rw [s.readSstatus_rv32 hx, BitVec.getLsbD_or, bitAt_getLsbD]
    simp [show k ≠ 31 by omega]
  · rw [s.readSstatus_rv64 hx, BitVec.getLsbD_or, BitVec.getLsbD_or, bitAt_getLsbD, pairAt_getLsbD]
    simp [show k ≠ 63 by omega, show ¬32 ≤ k by omega]

/-! ### Each field -/

section
variable (s : State)

theorem State.readSstatus_sie : s.readSstatus.getLsbD 1 = s.sstatus.sie := by
  rw [s.readSstatus_getLsbD_low 1 (by decide), s.sstatusLow_getLsbD 1 (by decide)]; simp

theorem State.readSstatus_spie : s.readSstatus.getLsbD 5 = s.sstatus.spie := by
  rw [s.readSstatus_getLsbD_low 5 (by decide), s.sstatusLow_getLsbD 5 (by decide)]; simp

theorem State.readSstatus_ube : s.readSstatus.getLsbD 6 = s.ubeOn := by
  rw [s.readSstatus_getLsbD_low 6 (by decide), s.sstatusLow_getLsbD 6 (by decide)]; simp

theorem State.readSstatus_spp : s.readSstatus.getLsbD 8 = s.sstatus.spp := by
  rw [s.readSstatus_getLsbD_low 8 (by decide), s.sstatusLow_getLsbD 8 (by decide)]; simp

theorem State.readSstatus_sum : s.readSstatus.getLsbD 18 = s.sumOn := by
  rw [s.readSstatus_getLsbD_low 18 (by decide), s.sstatusLow_getLsbD 18 (by decide)]; simp

theorem State.readSstatus_mxr : s.readSstatus.getLsbD 19 = s.sstatus.mxr := by
  rw [s.readSstatus_getLsbD_low 19 (by decide), s.sstatusLow_getLsbD 19 (by decide)]; simp

theorem State.readSstatus_spelp : s.readSstatus.getLsbD 23 = s.spelpOn := by
  rw [s.readSstatus_getLsbD_low 23 (by decide), s.sstatusLow_getLsbD 23 (by decide)]; simp

theorem State.readSstatus_sdt : s.readSstatus.getLsbD 24 = s.sdtOn := by
  rw [s.readSstatus_getLsbD_low 24 (by decide), s.sstatusLow_getLsbD 24 (by decide)]; simp

theorem State.readSstatus_vs : s.readSstatus.extractLsb' 9 2 = s.vs := by
  apply extractLsb'_two_eq
  · rw [s.readSstatus_getLsbD_low 9 (by decide), s.sstatusLow_getLsbD 9 (by decide)]; simp
  · rw [s.readSstatus_getLsbD_low 10 (by decide), s.sstatusLow_getLsbD 10 (by decide)]; simp

theorem State.readSstatus_fs : s.readSstatus.extractLsb' 13 2 = s.fs := by
  apply extractLsb'_two_eq
  · rw [s.readSstatus_getLsbD_low 13 (by decide), s.sstatusLow_getLsbD 13 (by decide)]; simp
  · rw [s.readSstatus_getLsbD_low 14 (by decide), s.sstatusLow_getLsbD 14 (by decide)]; simp

theorem State.readSstatus_xs : s.readSstatus.extractLsb' 15 2 = s.xs := by
  apply extractLsb'_two_eq
  · rw [s.readSstatus_getLsbD_low 15 (by decide), s.sstatusLow_getLsbD 15 (by decide)]; simp
  · rw [s.readSstatus_getLsbD_low 16 (by decide), s.sstatusLow_getLsbD 16 (by decide)]; simp

/-- UXL stands at bit 32 where SXLEN is 64 (R25, R31). -/
theorem State.readSstatus_uxl (h : s.cfg.sxlen = .rv64) : s.readSstatus.extractLsb' 32 2 = s.uxl := by
  rw [s.readSstatus_rv64 h]
  apply extractLsb'_two_eq
  · rw [BitVec.getLsbD_or, BitVec.getLsbD_or, s.sstatusLow_getLsbD 32 (by decide), pairAt_getLsbD, bitAt_getLsbD]; simp
  · rw [BitVec.getLsbD_or, BitVec.getLsbD_or, s.sstatusLow_getLsbD 33 (by decide), pairAt_getLsbD, bitAt_getLsbD]; simp

/-- With SXLEN=32 there is no UXL field (R31). -/
theorem State.readSstatus_uxl_rv32 (h : s.cfg.sxlen = .rv32) : s.readSstatus.extractLsb' 32 2 = 0 := by
  rw [s.readSstatus_rv32 h]
  apply extractLsb'_two_eq
  · rw [BitVec.getLsbD_or, s.sstatusLow_getLsbD 32 (by decide), bitAt_getLsbD]; simp
  · rw [BitVec.getLsbD_or, s.sstatusLow_getLsbD 33 (by decide), bitAt_getLsbD]; simp

/-- SD is the top bit (R41). -/
theorem State.readSstatus_sd : s.readSstatus.getLsbD (s.cfg.sxlen.bits - 1) = s.sd := by
  cases hx : s.cfg.sxlen
  · rw [s.readSstatus_rv32 hx]
    show BitVec.getLsbD _ 31 = _
    rw [BitVec.getLsbD_or, s.sstatusLow_getLsbD 31 (by decide), bitAt_getLsbD]; simp
  · rw [s.readSstatus_rv64 hx]
    show BitVec.getLsbD _ 63 = _
    rw [BitVec.getLsbD_or, BitVec.getLsbD_or, s.sstatusLow_getLsbD 63 (by decide), pairAt_getLsbD, bitAt_getLsbD]; simp

end

/-! ### No other bit -/

/-- A bit that the mask has is within the mask. -/
theorem bitAt_within {m : Word} (b : Bool) {n : Nat} (h : m.getLsbD n = true) : bitAt b n &&& ~~~m = 0 := by
  apply BitVec.eq_of_getLsbD_eq
  intro k hk
  rw [BitVec.getLsbD_and, BitVec.getLsbD_not, bitAt_getLsbD]
  by_cases hkn : k = n
  · subst hkn; simp [h]
  · simp [hkn]

/-- A field at bit `n` whose bits the mask has is within the mask. -/
theorem field_within {m : Word} {l : Nat} (v : BitVec l) (n : Nat) (h : ∀ j < l, m.getLsbD (n + j) = true) :
    (v.setWidth 64 <<< n) &&& ~~~m = 0 := by
  apply BitVec.eq_of_getLsbD_eq
  intro k hk
  rw [BitVec.getLsbD_and, BitVec.getLsbD_not, BitVec.getLsbD_shiftLeft, BitVec.getLsbD_setWidth]
  by_cases hn : k < n
  · simp [hn]
  · by_cases hl : k - n < l
    · have := h (k - n) hl
      rw [show n + (k - n) = k by omega] at this
      simp [this]
    · simp [BitVec.getLsbD_of_ge v (k - n) (by omega)]

theorem pairAt_within {m : Word} (v : BitVec 2) {n : Nat} (h0 : m.getLsbD n = true) (h1 : m.getLsbD (n + 1) = true) :
    pairAt v n &&& ~~~m = 0 := by
  refine field_within v n (fun j hj => ?_)
  interval_cases j
  · exact h0
  · exact h1

/-- The fields below bit 31 are within every mask that has their bits. -/
theorem State.sstatusLow_within (s : State) {m : Word} (h : ∀ n ∈ [1, 5, 6, 8, 9, 10, 13, 14, 15, 16, 18, 19, 23, 24],
    m.getLsbD n = true) : s.sstatusLow &&& ~~~m = 0 := by
  unfold State.sstatusLow
  refine or_and_not (or_and_not (or_and_not (or_and_not (or_and_not (or_and_not (or_and_not (or_and_not (or_and_not
    (or_and_not ?sie ?spie) ?ube) ?spp) ?vs) ?fs) ?xs) ?sum) ?mxr) ?spelp) ?sdt
  case vs => exact pairAt_within _ (h 9 (by simp)) (h 10 (by simp))
  case fs => exact pairAt_within _ (h 13 (by simp)) (h 14 (by simp))
  case xs => exact pairAt_within _ (h 15 (by simp)) (h 16 (by simp))
  all_goals exact bitAt_within _ (h _ (by simp))

/-- `sstatus` reads zero outside its fields (R25, R43). -/
theorem State.readSstatus_within (s : State) :
    s.readSstatus &&& ~~~(match s.cfg.sxlen with | .rv32 => 0x818DE762#64 | .rv64 => 0x80000003018DE762#64) = 0 := by
  cases hx : s.cfg.sxlen
  · rw [s.readSstatus_rv32 hx]
    exact or_and_not (s.sstatusLow_within (by decide)) (bitAt_within _ (by decide))
  · rw [s.readSstatus_rv64 hx]
    exact or_and_not (s.sstatusLow_within (by decide))
      (or_and_not (pairAt_within _ (by decide) (by decide)) (bitAt_within _ (by decide)))

/-! ### The statement -/

/-- What `sstatus` reads, field by field (R25 to R43). -/
theorem State.readSstatus_fields (s : State) (w : Word) (h : w = s.readSstatus) :
    w.getLsbD 1 = s.sstatus.sie ∧ w.getLsbD 5 = s.sstatus.spie ∧
    w.getLsbD 6 = (if s.cfg.ubeWritable then s.sstatus.ube else s.cfg.sBigEndian) ∧ w.getLsbD 8 = s.sstatus.spp ∧
    w.extractLsb' 9 2 = (if s.cfg.ext.v then s.sstatus.vs else 0) ∧
    w.extractLsb' 13 2 = (if s.cfg.ext.f then s.sstatus.fs else 0) ∧
    w.extractLsb' 15 2 = (if s.cfg.ext.x then s.sstatus.xs else 0) ∧
    w.getLsbD 18 = ((s.cfg.sv32 || s.cfg.sv39 || s.cfg.sv48 || s.cfg.sv57) && s.sstatus.sum) ∧
    w.getLsbD 19 = s.sstatus.mxr ∧ w.getLsbD 23 = (s.cfg.ext.zicfilp && s.sstatus.spelp) ∧
    w.getLsbD 24 = (s.cfg.ext.ssdbltrp && s.sstatus.sdt) ∧ (s.cfg.sxlen = .rv64 → w.extractLsb' 32 2 = s.uxl) ∧
    w.getLsbD (s.cfg.sxlen.bits - 1) =
      decide (w.extractLsb' 9 2 = 3 ∨ w.extractLsb' 13 2 = 3 ∨ w.extractLsb' 15 2 = 3) := by
  subst h
  refine ⟨s.readSstatus_sie, s.readSstatus_spie, s.readSstatus_ube, s.readSstatus_spp, s.readSstatus_vs, s.readSstatus_fs,
    s.readSstatus_xs, s.readSstatus_sum, s.readSstatus_mxr, s.readSstatus_spelp, s.readSstatus_sdt, s.readSstatus_uxl, ?_⟩
  rw [s.readSstatus_sd, s.readSstatus_vs, s.readSstatus_fs, s.readSstatus_xs]
  simp only [State.sd, Bool.decide_or, Bool.or_left_comm, Bool.or_assoc]

/-- UXL after a write takes 1 and 2, where it is writable (R31). -/
theorem State.writeSstatus_uxl (s : State) (w : Word) (hx : s.cfg.sxlen = .rv64) (hu : s.cfg.uxl = .writable) :
    (s.writeSstatus w).uxl =
      if w.extractLsb' 32 2 = 1 ∨ w.extractLsb' 32 2 = 2 then w.extractLsb' 32 2 else s.uxl := by
  simp only [State.uxl, State.writeSstatus, uxlWrite, hx, hu]

/-- UXL is what the configuration fixes, where it is not writable (R31). -/
theorem State.uxl_of_fixed {s t : State} (hc : t.cfg = s.cfg) (hu : s.cfg.uxl ≠ .writable) : t.uxl = s.uxl := by
  unfold State.uxl
  rw [hc]
  cases h : s.cfg.uxl
  case writable => exact absurd h hu
  all_goals rfl

theorem context_context (b : Bool) (v : BitVec 2) : context b (context b v) = if b then v else 0 := by cases b <;> rfl

/-- What `sstatus` reads after a write, for the fields that read by a rule (R31, R35, R36, R41). -/
theorem State.writeSstatus_readback (s : State) (w : Word) (t : State) (hc : t.cfg = s.cfg)
    (ht : t.sstatus = (s.writeSstatus w).sstatus) :
    t.readSstatus.getLsbD 18 = ((s.cfg.sv32 || s.cfg.sv39 || s.cfg.sv48 || s.cfg.sv57) && w.getLsbD 18) ∧
    t.readSstatus.getLsbD 6 = (if s.cfg.ubeWritable then w.getLsbD 6 else s.cfg.sBigEndian) ∧
    t.readSstatus.extractLsb' 13 2 = (if s.cfg.ext.f then w.extractLsb' 13 2 else 0) ∧
    t.readSstatus.extractLsb' 9 2 = (if s.cfg.ext.v then w.extractLsb' 9 2 else 0) ∧
    t.readSstatus.extractLsb' 15 2 = (if s.cfg.ext.x then w.extractLsb' 15 2 else 0) ∧
    (s.cfg.sxlen = .rv64 → s.cfg.uxl = .writable → t.readSstatus.extractLsb' 32 2 =
      (if w.extractLsb' 32 2 = 1 ∨ w.extractLsb' 32 2 = 2 then w.extractLsb' 32 2 else s.readSstatus.extractLsb' 32 2)) ∧
    (s.cfg.uxl ≠ .writable → t.readSstatus.extractLsb' 32 2 = s.readSstatus.extractLsb' 32 2) := by
  rw [t.readSstatus_sum, t.readSstatus_ube, t.readSstatus_fs, t.readSstatus_vs, t.readSstatus_xs]
  simp only [State.sumOn, State.ubeOn, State.fs, State.vs, State.xs, hc, ht, State.writeSstatus]
  refine ⟨?sum, ?ube, context_context _ _, context_context _ _, context_context _ _, fun hx hu => ?writable, fun hu => ?fixed⟩
  case sum =>
    show (paged s.cfg && (paged s.cfg && w.getLsbD 18)) = (paged s.cfg && w.getLsbD 18)
    rw [← Bool.and_assoc, Bool.and_self]
  case ube => cases s.cfg.ubeWritable <;> rfl
  case writable =>
    have huxl : t.uxl = (s.writeSstatus w).uxl := by simp only [State.uxl, hc, ht, State.writeSstatus_cfg]
    rw [t.readSstatus_uxl (hc ▸ hx), s.readSstatus_uxl hx, huxl, s.writeSstatus_uxl w hx hu]
  case fixed =>
    cases hx : s.cfg.sxlen
    · rw [t.readSstatus_uxl_rv32 (hc ▸ hx), s.readSstatus_uxl_rv32 hx]
    · rw [t.readSstatus_uxl (hc ▸ hx), s.readSstatus_uxl hx, State.uxl_of_fixed hc hu]

/-- Settles O38: the fields as they read, and the write of CSRRW read back through them. -/
theorem sstatusReadAndWrite : Obligations.SstatusReadAndWrite := by
  unfold Obligations.SstatusReadAndWrite
  constructor
  · rintro s w rfl
    obtain ⟨h1, h5, h6, h8, h9, h13, h15, h18, h19, h23, h24, h32, hsd⟩ := s.readSstatus_fields _ rfl
    exact ⟨h1, h5, h6, h8, h9, h13, h15, h18, h19, h23, h24, h32, hsd, s.readSstatus_within⟩
  · rintro rs1 s w hp rfl
    obtain ⟨hsum, hube, hfs, hvs, hxs, hwritable, hfixed⟩ := s.writeSstatus_readback (s.reg rs1)
      { s.writeSstatus (s.reg rs1) with pc := cut s.cfg.sxlen (s.pc + 4), recheck := true } rfl rfl
    exact ⟨_, exec_csrrw_sstatus s rs1 hp, rfl, rfl, rfl, rfl, rfl, rfl, hsum, hube, hfs, hvs, hxs, hwritable, hfixed, rfl⟩

end Sys2Proof.Machine
end

section
/-! PROOFS. Taking an exception in S-mode and in M-mode, field by field; SPP, SPIE, EBREAK (O17, O20, O21, O24). -/

namespace Sys2Proof.Machine

/-! ### Legalised addresses -/

theorem legalize_valid (f : Nat → Word → Word) {sch : Scheme} {va : Word} (h : vaValid sch va = true) :
    legalize f sch va = va := if_pos h

theorem tvalHeld_iff (c : Config) (v : Word) :
    tvalHeld c v = true ↔ tvalPolicy c 2 ≠ .zero ∧ v.toNat < 2 ^ min c.sxlen.bits c.ilen := by
  simp [tvalHeld, Cause.code]

/-- `stval` holds a valid address, and a value that it holds whatever address it is (R88). -/
theorem legalStval_eq {c : Config} {sch : Scheme} {v : Word} (h : vaValid sch v = true ∨ tvalHeld c v = true) :
    legalStval c sch v = v := by
  unfold legalStval
  split
  · rfl
  · rename_i hn
    exact legalize_valid _ (h.resolve_right hn)

/-- A small address is valid under every scheme (R152). -/
theorem vaValid_small (sch : Scheme) {v : Word} (h : v.toNat < 2 ^ 31) : vaValid sch v = true := by
  have hshift : ∀ n, 31 ≤ n → v >>> n = 0 := by
    intro n hn
    apply BitVec.eq_of_toNat_eq
    rw [BitVec.toNat_ushiftRight, Nat.shiftRight_eq_div_pow]
    exact Nat.div_eq_of_lt (h.trans_le (Nat.pow_le_pow_right (by decide) hn))
  cases sch
  case bare => rfl
  case sv32 => rfl
  all_goals simp [vaValid, Scheme.vaBits, hshift]

theorem cut_small (x : Xlen) {v : Word} (h : v.toNat < 2 ^ 31) : cut x v = v := by
  apply BitVec.eq_of_toNat_eq
  rw [cut_toNat]
  cases x <;> simp only [Xlen.bits] <;> omega

/-- A small trap value stands in `stval` as it is (R86 to R88). -/
theorem legalStval_small (c : Config) (sch : Scheme) {v : Word} (h : v.toNat < 2 ^ 31) :
    legalStval c sch (cut c.sxlen v) = v := by
  rw [cut_small _ h]
  exact legalStval_eq (.inl (vaValid_small sch h))

/-! ### The trap value -/

/-- An exception whose trap value its policy chooses (R340, R365). -/
def Cause.byPolicy (c : Cause) : Prop :=
  c ∉ [Cause.ecallU, Cause.ecallS, Cause.ecallM, Cause.hardwareError, Cause.softwareCheck]

theorem trapValue_byPolicy (cfg : Config) (c : Cause) (info : Word) (d : Nat) (h : c.byPolicy) :
    trapValue cfg c info d =
      match tvalPolicy cfg c.code with
      | .informative => (info, d)
      | .zero => (0, d)
      | .either => (if Config.tvalPick d then info else 0, d + 1) := by
  cases c
  case ecallU | ecallS | ecallM | hardwareError | softwareCheck => exact absurd h (by simp [Cause.byPolicy])
  all_goals rfl

theorem trapValue_zero (cfg : Config) (c : Cause) (info : Word) (d : Nat)
    (h : c ∈ [Cause.ecallU, Cause.ecallS, Cause.hardwareError]) : trapValue cfg c info d = (0, d) := by
  simp only [List.mem_cons, List.not_mem_nil, or_false] at h
  rcases h with rfl | rfl | rfl <;> rfl

/-- Whatever the policy, the trap value is the exception's own or zero. -/
theorem trapValue_or_zero (cfg : Config) (c : Cause) (info : Word) (d : Nat) (h : c.byPolicy) :
    (trapValue cfg c info d).1 = 0 ∨ (trapValue cfg c info d).1 = info := by
  rw [trapValue_byPolicy cfg c info d h]
  cases tvalPolicy cfg c.code
  case informative => exact .inr rfl
  case zero => exact .inl rfl
  case either =>
    cases hp : Config.tvalPick d
    · exact .inl (by simp)
    · exact .inr (by simp)

/-! ### The three ways an exception is taken -/

/-- An exception goes to BASE in either vector mode (R364). -/
theorem State.trapVector_exception (s : State) (code : Nat) :
    s.trapVector false code = cut s.cfg.sxlen (s.stvec &&& ~~~3#64) := by
  simp [State.trapVector]

/-- An exception taken in S-mode (R360 to R366). -/
theorem State.takeException_supervisor (s : State) (c : Cause) (info : Word) (hd : s.delegated c.code = true)
    (hs : s.sdtOn = false) :
    s.takeException c info =
      { s with
        sstatus := s.enterStatus
        elp := s.elp && !s.cfg.ext.zicfilp
        sepc := legalize Config.legalEpc s.satp.mode (cut s.cfg.sxlen s.pc) &&& epcMask s.cfg
        stval := legalStval s.cfg s.satp.mode (cut s.cfg.sxlen (trapValue s.cfg c info s.ms.draws).1)
        scause := { interrupt := false, code := BitVec.ofNat 64 c.code }
        priv := .supervisor
        pc := cut s.cfg.sxlen (s.stvec &&& ~~~3#64)
        ms := { s.ms with draws := (trapValue s.cfg c info s.ms.draws).2 } } := by
  unfold State.takeException
  rw [if_pos hd]
  refine (State.trapToS_taken { s with ms := { s.ms with draws := (trapValue s.cfg c info s.ms.draws).2 } } _ _ _ _ hs).trans ?_
  rw [State.trapVector_exception]
  rfl

/-- A delegated exception with SDT set is a double trap (R367). -/
theorem State.takeException_double (s : State) (c : Cause) (info : Word) (hd : s.delegated c.code = true)
    (hs : s.sdtOn = true) :
    s.takeException c info =
      { s with ms := { s.ms with draws := (trapValue s.cfg c info s.ms.draws).2 } }.doubleTrap false c.code
        (trapValue s.cfg c info s.ms.draws).1 s.pc := by
  unfold State.takeException
  rw [if_pos hd]
  exact State.trapToS_double _ _ _ _ _ hs

/-- An exception that is not delegated is taken in M-mode (R345, R346). -/
theorem State.takeException_undelegated (s : State) (c : Cause) (info : Word) (hd : s.delegated c.code = false) :
    s.takeException c info =
      { s with ms := { s.ms with draws := (trapValue s.cfg c info s.ms.draws).2 } }.trapToM c.code none
        (trapValue s.cfg c info s.ms.draws).1 s.pc := by
  unfold State.takeException
  rw [if_neg (by simp [hd])]

/-- `sepc` after a trap taken in S-mode, where `pc` is a valid address (R73, R362). -/
theorem State.takeException_sepc (s : State) (c : Cause) (info : Word) (hd : s.delegated c.code = true)
    (hs : s.sdtOn = false) (hv : vaValid s.satp.mode (cut s.cfg.sxlen s.pc) = true) :
    (s.takeException c info).sepc = cut s.cfg.sxlen s.pc &&& epcMask s.cfg := by
  rw [s.takeException_supervisor c info hd hs]
  exact congrArg (· &&& epcMask s.cfg) (legalize_valid _ hv)

/-- `stval` after a trap taken in S-mode (R88, R365). -/
theorem State.takeException_stval (s : State) (c : Cause) (info : Word) (hd : s.delegated c.code = true)
    (hs : s.sdtOn = false) :
    (s.takeException c info).stval =
      legalStval s.cfg s.satp.mode (cut s.cfg.sxlen (trapValue s.cfg c info s.ms.draws).1) := by
  rw [s.takeException_supervisor c info hd hs]

theorem State.takeException_stval_zero (s : State) (c : Cause) (info : Word) (hd : s.delegated c.code = true)
    (hs : s.sdtOn = false) (h0 : (trapValue s.cfg c info s.ms.draws).1 = 0) : (s.takeException c info).stval = 0 := by
  rw [s.takeException_stval c info hd hs, h0]
  exact legalStval_small s.cfg _ (by decide)

theorem State.takeException_stval_info (s : State) (c : Cause) (info : Word) (hd : s.delegated c.code = true)
    (hs : s.sdtOn = false) (hi : (trapValue s.cfg c info s.ms.draws).1 = info)
    (hv : vaValid s.satp.mode (cut s.cfg.sxlen info) = true ∨ tvalHeld s.cfg (cut s.cfg.sxlen info) = true) :
    (s.takeException c info).stval = cut s.cfg.sxlen info := by
  rw [s.takeException_stval c info hd hs, hi]
  exact legalStval_eq hv

/-- Under every policy `stval` takes zero or the exception's own value, where that is a valid address. -/
theorem State.takeException_stval_or_zero (s : State) (c : Cause) (info : Word) (hd : s.delegated c.code = true)
    (hs : s.sdtOn = false) (hp : c.byPolicy) (hv : vaValid s.satp.mode (cut s.cfg.sxlen info) = true) :
    (s.takeException c info).stval = 0 ∨ (s.takeException c info).stval = cut s.cfg.sxlen info :=
  (trapValue_or_zero s.cfg c info s.ms.draws hp).imp (s.takeException_stval_zero c info hd hs)
    (fun h => s.takeException_stval_info c info hd hs h (.inl hv))

/-- `stval` by the policy of the exception's code (R81, R88). -/
theorem State.takeException_stval_policy (s : State) (c : Cause) (info : Word) (hd : s.delegated c.code = true)
    (hs : s.sdtOn = false) (hp : c.byPolicy) :
    (tvalPolicy s.cfg c.code = .zero → (s.takeException c info).stval = 0) ∧
    (tvalPolicy s.cfg c.code = .informative →
      (vaValid s.satp.mode (cut s.cfg.sxlen info) = true ∨
        tvalPolicy s.cfg 2 ≠ .zero ∧ (cut s.cfg.sxlen info).toNat < 2 ^ min s.cfg.sxlen.bits s.cfg.ilen) →
      (s.takeException c info).stval = cut s.cfg.sxlen info) ∧
    (tvalPolicy s.cfg c.code = .either → vaValid s.satp.mode (cut s.cfg.sxlen info) = true →
      (s.takeException c info).stval = 0 ∨ (s.takeException c info).stval = cut s.cfg.sxlen info) := by
  have hval := trapValue_byPolicy s.cfg c info s.ms.draws hp
  refine ⟨fun hz => ?_, fun hinf hv => ?_, fun _ hv => s.takeException_stval_or_zero c info hd hs hp hv⟩
  · exact s.takeException_stval_zero c info hd hs (by rw [hval, hz])
  · exact s.takeException_stval_info c info hd hs (by rw [hval, hinf]) (hv.imp id (tvalHeld_iff _ _).mpr)

/-- Settles O17: with the trap taken in S-mode every field is the record's; `sepc` and `stval` are legal addresses. -/
theorem exceptionIntoSupervisor : Obligations.ExceptionIntoSupervisor := by
  unfold Obligations.ExceptionIntoSupervisor
  rintro s t c info hd hs rfl
  have ht := s.takeException_supervisor c info hd hs
  refine ⟨by rw [ht], by rw [ht], by rw [ht]; rfl, by rw [ht]; rfl, by rw [ht]; rfl, fun he => by rw [ht]; exact he,
    by rw [ht]; rfl, by rw [ht], by rw [ht]; rfl, by rw [ht]; rfl, by rw [ht]; rfl, by rw [ht]; rfl, by rw [ht]; rfl,
    by rw [ht]; rfl, by rw [ht]; rfl, by rw [ht], s.takeException_sepc c info hd hs, fun hc => ?_,
    s.takeException_stval_policy c info hd hs, fun hc hi => ?_, by rw [ht]⟩
  · exact s.takeException_stval_zero c info hd hs (by rw [trapValue_zero _ _ _ _ hc])
  · subst hc
    have hsmall : info.toNat < 2 ^ 31 := by
      simp only [List.mem_cons, List.not_mem_nil, or_false] at hi
      rcases hi with rfl | rfl | rfl <;> decide
    rw [s.takeException_stval .softwareCheck info hd hs]
    exact legalStval_small s.cfg _ hsmall

/-! ### EBREAK -/

/-- The trap's cause in `mtval2` of a double trap, for a small code (R77, R367). -/
theorem causeWord_exception (c : Config) {code : Word} (h : code.toNat < 2 ^ 31) : causeWord c false code = code := by
  have hlow : code &&& lowBits (c.sxlen.bits - 1) = code := by
    apply BitVec.eq_of_toNat_eq
    rw [BitVec.toNat_and]
    cases hx : c.sxlen
    · exact Nat.and_two_pow_sub_one_of_lt_two_pow (n := 31) h
    · exact Nat.and_two_pow_sub_one_of_lt_two_pow (n := 63) (h.trans (by decide))
  simp only [causeWord, hlow, bitAt, Bool.false_eq_true, if_false, BitVec.or_zero]
  exact cut_small _ h

/-- Settles O24: the three ways the breakpoint exception is taken. -/
theorem ebreakResult : Obligations.EbreakResult := by
  unfold Obligations.EbreakResult
  intro s
  refine ⟨s.takeException .breakpoint s.pc, rfl, fun hd hs => ?_, fun hd hs => ?_, fun hd => ?_, s.takeException_frame _ _⟩
  · have ht := s.takeException_supervisor .breakpoint s.pc hd hs
    refine ⟨by rw [ht], by rw [ht]; rfl, by rw [ht], fun hv => ?_⟩
    exact ⟨s.takeException_sepc .breakpoint s.pc hd hs hv,
      s.takeException_stval_or_zero .breakpoint s.pc hd hs (by simp [Cause.byPolicy]) hv⟩
  · rw [s.takeException_double .breakpoint s.pc hd hs]
    exact ⟨rfl, rfl, causeWord_exception s.cfg (by decide)⟩
  · rw [s.takeException_undelegated .breakpoint s.pc hd]
    exact ⟨rfl, rfl, rfl⟩

/-! ### SPP and SPIE -/

theorem exec_sret (s : State) (h : s.sretPermitted = true) : exec .sret s = .next s.returnFromTrap := if_pos h

/-- Settles O20: the four places where SPP is written or read. -/
theorem sppRule : Obligations.SppRule := by
  unfold Obligations.SppRule
  refine ⟨fun s isI code tv epc hs => ?_, fun s hp => ?_, fun s => ?_, fun s rs1 hp => ?_⟩
  · rw [s.trapToS_taken isI code tv epc hs]; rfl
  · refine ⟨_, exec_sret s hp, rfl, fun h => ?_, fun h => ?_⟩ <;> simp [State.returnFromTrap, h]
  · exact s.readSstatus_spp
  · exact ⟨_, exec_csrrw_sstatus s rs1 hp, rfl⟩

/-- Settles O21: the four places where SPIE is written or read. -/
theorem spieRule : Obligations.SpieRule := by
  unfold Obligations.SpieRule
  refine ⟨fun s isI code tv epc hs => ?_, fun s hp => ?_, fun s => ?_, fun s rs1 hp => ?_⟩
  · rw [s.trapToS_taken isI code tv epc hs]; exact ⟨rfl, rfl⟩
  · exact ⟨_, exec_sret s hp, rfl, rfl⟩
  · exact s.readSstatus_spie
  · exact ⟨_, exec_csrrw_sstatus s rs1 hp, rfl⟩

end Sys2Proof.Machine
end

section
/-! PROOFS. `sip` and `sie`: which bits are writable and who drives them (O39, O40, O41). -/

namespace Sys2Proof.Machine

/-! ### Bits after a write -/

theorem State.writeSip_getLsbD (s : State) (w : Word) (i : Nat) :
    (s.writeSip w).sip.getLsbD i = if (sipWritable s.cfg).getLsbD i then w.getLsbD i else s.sip.getLsbD i := by
  show ((s.sip &&& ~~~(sipWritable s.cfg)) ||| (w &&& sipWritable s.cfg)).getLsbD i = _
  rw [BitVec.getLsbD_or, BitVec.getLsbD_and, BitVec.getLsbD_and, BitVec.getLsbD_not]
  by_cases hi : i < 64
  · cases (sipWritable s.cfg).getLsbD i <;> simp [hi]
  · simp [BitVec.getLsbD_of_ge _ i (not_lt.mp hi)]

theorem State.readSie_writeSie (s : State) (w : Word) (i : Nat) :
    (s.writeSie w).readSie.getLsbD i = ((sieWritable s.cfg).getLsbD i && w.getLsbD i) := by
  show ((w &&& sieWritable s.cfg) &&& sieWritable s.cfg).getLsbD i = _
  rw [BitVec.and_assoc, BitVec.and_self, BitVec.getLsbD_and, Bool.and_comm]

/-- A bit that the environment drives reads the value driven, where it exists (R58, R59). -/
theorem State.driveSip_getLsbD (s : State) (b : Bool) (n : Nat) (hn : n < 64) :
    (s.driveSip (bitAt true n) (bitAt b n)).readSip.getLsbD n = ((sipBits s.cfg).getLsbD n && b) := by
  show (((s.sip &&& ~~~(bitAt true n &&& sipBits s.cfg)) ||| (bitAt b n &&& (bitAt true n &&& sipBits s.cfg))) &&&
    sipBits s.cfg).getLsbD n = _
  simp only [BitVec.getLsbD_or, BitVec.getLsbD_and, BitVec.getLsbD_not, bitAt_getLsbD, hn, decide_true, Bool.true_and,
    Bool.and_true]
  cases (sipBits s.cfg).getLsbD n <;> simp

/-- Every interrupt that can become pending has its enable writable (R57). -/
theorem sieWritable_of_sipBits (c : Config) (i : Nat) (h : (sipBits c).getLsbD i = true) : (sieWritable c).getLsbD i = true := by
  rw [sieWritable, BitVec.getLsbD_or, h, Bool.true_or]

theorem sipBits_sei (c : Config) : (sipBits c).getLsbD 9 = c.implSei := by
  rw [Bool.eq_iff_iff, sipBits_getLsbD]; simp

theorem sipBits_sti (c : Config) : (sipBits c).getLsbD 5 = c.implSti := by
  rw [Bool.eq_iff_iff, sipBits_getLsbD]; simp

/-! ### The writes of CSRRW -/

theorem exec_csrrw_sie (s : State) (rs1 : RegId) (hp : s.priv ≠ .user) :
    exec (.csrrw 0 0x104 rs1) s =
      .next { s.writeSie (s.reg rs1) with pc := cut s.cfg.sxlen (s.pc + 4), recheck := true } := by
  have hw : s.writeCsr .sie (s.reg rs1) = .ok (s.writeSie (s.reg rs1)) := by
    simp only [State.writeCsr, s.cut_reg rs1 hp]
  rw [exec_csrrw_x0 s _ 0x104 rs1 .sie (s.csrCheck_plain true hp _ _ (by simp)) hw]
  simp [interruptCsr]

theorem exec_csrrw_sip (s : State) (rs1 : RegId) (hp : s.priv ≠ .user) :
    exec (.csrrw 0 0x144 rs1) s =
      .next { s.writeSip (s.reg rs1) with pc := cut s.cfg.sxlen (s.pc + 4), recheck := true } := by
  have hw : s.writeCsr .sip (s.reg rs1) = .ok (s.writeSip (s.reg rs1)) := by
    simp only [State.writeCsr, s.cut_reg rs1 hp]
  rw [exec_csrrw_x0 s _ 0x144 rs1 .sip (s.csrCheck_plain true hp _ _ (by simp)) hw]
  simp [interruptCsr]

/-! ### The statements -/

/-- One of SEIP and STIP, bit `n`, implemented where `impl` says so: a write of `sip` leaves it, the environment drives it, and
its enable is writable. -/
theorem State.environmentBit (s : State) (n : Nat) (b impl : Bool) (a : EnvAction) (hn : n < 16) (hn' : n ≠ 1 ∧ n ≠ 13)
    (himpl : (sipBits s.cfg).getLsbD n = impl) (ha : s.act a = s.driveSip (bitAt true n) (bitAt b n)) :
    (∀ w : Word, (s.writeSip w).readSip.getLsbD n = s.readSip.getLsbD n) ∧ (s.act a).readSip.getLsbD n = (impl && b) ∧
    s.takeable n = (s.interruptsEnabled && s.readSip.getLsbD n && s.readSie.getLsbD n) ∧
    (impl = true → ∀ w : Word, (s.writeSie w).readSie.getLsbD n = w.getLsbD n) := by
  have hro : (sipWritable s.cfg).getLsbD n = false := by
    rw [Bool.eq_false_iff, ne_eq, sipWritable_getLsbD]
    rintro (⟨h, -⟩ | ⟨h, -⟩ | ⟨h, -⟩)
    · exact hn'.1 h
    · exact hn'.2 h
    · omega
  refine ⟨fun w => ?_, ?_, rfl, fun hi w => ?_⟩
  · simp only [State.readSip, BitVec.getLsbD_and, State.writeSip_cfg, s.writeSip_getLsbD, hro, Bool.false_eq_true, if_false]
  · rw [ha, s.driveSip_getLsbD b n (by omega), himpl]
  · rw [s.readSie_writeSie, sieWritable_of_sipBits s.cfg n (himpl.trans hi), Bool.true_and]

/-- Settles O39, for each of the two bits. -/
theorem seipAndStipBelongToTheEnvironment : Obligations.SeipAndStipBelongToTheEnvironment := by
  unfold Obligations.SeipAndStipBelongToTheEnvironment
  rintro s n b a (⟨rfl, rfl⟩ | ⟨rfl, rfl⟩)
  · exact s.environmentBit 9 b _ _ (by decide) (by decide) (sipBits_sei s.cfg) rfl
  · exact s.environmentBit 5 b _ _ (by decide) (by decide) (sipBits_sti s.cfg) rfl

/-- Settles O40: a pending bit is one that exists, and `sie` holds and reads what SIE_WRITABLE has. -/
theorem sieWritability : Obligations.SieWritability := by
  unfold Obligations.SieWritability
  refine ⟨fun s i h => ?_, fun rs1 s hp => ?_, fun s i h => ?_⟩
  · rw [State.readSip, BitVec.getLsbD_and, Bool.and_eq_true] at h
    exact sieWritable_of_sipBits s.cfg i h.2
  · exact ⟨_, exec_csrrw_sie s rs1 hp, rfl, s.readSie_writeSie (s.reg rs1)⟩
  · rw [State.readSie, BitVec.getLsbD_and, h, Bool.and_false]

/-- Settles O41: SIP_WRITABLE bit by bit. -/
theorem sipWrite : Obligations.SipWrite := by
  unfold Obligations.SipWrite
  intro rs1 s hp
  refine ⟨_, exec_csrrw_sip s rs1 hp, s.writeSip_getLsbD (s.reg rs1), ?_, ?_, fun i hi => ?_, fun i hi => ?_, rfl⟩
  · rw [Bool.eq_iff_iff, sipWritable_getLsbD]; simp
  · rw [Bool.eq_iff_iff, sipWritable_getLsbD]; simp
  · rw [Bool.eq_iff_iff, sipWritable_getLsbD]
    simp [hi, show i ≠ 1 by omega, show i ≠ 13 by omega, and_assoc]
  · rw [sipBits_getLsbD]
    rcases (sipWritable_getLsbD s.cfg i).mp hi with ⟨rfl, h⟩ | ⟨rfl, h⟩ | ⟨h16, hlt, hp, -⟩
    · exact ⟨.inl ⟨rfl, h⟩, .inl rfl⟩
    · exact ⟨.inr (.inr (.inr (.inl ⟨rfl, h⟩))), .inr (.inl rfl)⟩
    · exact ⟨.inr (.inr (.inr (.inr ⟨h16, hlt, hp⟩))), .inr (.inr h16)⟩

end Sys2Proof.Machine
end

section
/-! PROOFS. CSR instructions that read: what they give and what they leave (O35, O42, O44), and the reads of `sepc`. -/

namespace Sys2Proof.Machine

/-! ### CSR instructions that read -/

theorem State.csrReadWrite_value (s u : State) (op : CsrOp) (c : Csr) (src v : Word) (isWrite : Bool)
    (h : s.csrReadWrite op c src true isWrite = .ok (v, u)) : v = (s.readCsr c).1 := by
  unfold State.csrReadWrite at h
  simp only [if_true] at h
  split at h
  · split at h
    · exact (Prod.mk.inj (Except.ok.inj h)).1.symm
    · cases h
  · exact (Prod.mk.inj (Except.ok.inj h)).1.symm

/-- A CSR instruction above U-mode that reads a CSR other than `satp` gives `rd` the value before (R301). -/
theorem csrInstr_reads (i : Instr) (op : CsrOp) (rd : RegId) (num : BitVec 12) (src : Word) (isRead isWrite : Bool) (s : State)
    (c : Csr) (hp : s.priv ≠ .user) (hc : s.csrCheck num isWrite = .ok c) (hs : c ≠ .satp) (hrd : rd ≠ 0)
    (hread : isRead = true) :
    ∃ t, csrInstr i op rd num src isRead isWrite s = .next t ∧ t.reg rd = cut s.cfg.sxlen (s.readCsr c).1 := by
  subst hread
  obtain ⟨v, u, hv, ht⟩ := csrInstr_completes i op rd num src true isWrite s c hc (.inl hs)
  have hf := s.csrReadWrite_frame u op c src v true isWrite hv
  have hpriv : u.priv = s.priv := by rw [hf]
  have hcfg : u.cfg = s.cfg := by rw [hf]
  refine ⟨_, ht, ?_⟩
  rw [State.advance_reg, State.reg_setReg_same, if_neg hrd, u.xlen_of_not_user (hpriv ▸ hp), hcfg,
    s.csrReadWrite_value u op c src v isWrite hv]

/-- CSRRS, CSRRC, CSRRSI and CSRRCI with source field zero read and do not write (R301, R303, R304). -/
theorem exec_zero_source (s : State) (rd : RegId) (num : BitVec 12) (i : Instr)
    (hi : i ∈ [Instr.csrrs rd num 0, Instr.csrrc rd num 0, Instr.csrrsi rd num 0, Instr.csrrci rd num 0]) :
    ∃ op src, exec i s = csrInstr i op rd num src true false s := by
  simp only [List.mem_cons, List.not_mem_nil, or_false] at hi
  rcases hi with rfl | rfl | rfl | rfl
  · exact ⟨.set, s.reg 0, rfl⟩
  · exact ⟨.clear, s.reg 0, rfl⟩
  · exact ⟨.set, immediateZero 0, rfl⟩
  · exact ⟨.clear, immediateZero 0, rfl⟩

theorem exec_csr_read (s : State) (rd : RegId) (num : BitVec 12) (c : Csr) (hc : s.csrCheck num false = .ok c) (i : Instr)
    (hi : i ∈ [Instr.csrrs rd num 0, Instr.csrrc rd num 0, Instr.csrrsi rd num 0, Instr.csrrci rd num 0]) :
    exec i s = .next (((s.readCsr c).2.setReg rd (s.readCsr c).1).advance) := by
  obtain ⟨op, src, he⟩ := exec_zero_source s rd num i hi
  simp only [he, csrInstr, hc, State.csrReadWrite, if_true, Bool.false_eq_true, if_false]

/-- The same instructions on a number that the check refuses are illegal (R300). -/
theorem exec_csr_read_illegal (s : State) (rd : RegId) (num : BitVec 12) (hc : s.csrCheck num false = .illegal) (i : Instr)
    (hi : i ∈ [Instr.csrrs rd num 0, Instr.csrrc rd num 0, Instr.csrrsi rd num 0, Instr.csrrci rd num 0]) :
    exec i s = raiseIllegal i s := by
  obtain ⟨op, src, he⟩ := exec_zero_source s rd num i hi
  simp only [he, csrInstr, hc]

/-- What a pure read leaves: everything but `rd`, `pc`, the counters and the draws (R301, R313). -/
theorem State.readCsr_leaves (s t : State) (rd : RegId) (c : Csr)
    (ht : t = ((s.readCsr c).2.setReg rd (s.readCsr c).1).advance) :
    s.registersAfter t rd (s.readCsr c).1 ∧ t = { (s.readCsr c).2 with regs := t.regs, pc := cut s.cfg.sxlen (s.pc + 4) } ∧
      s.supervisorAlike t ∧ t.recheck = s.recheck ∧ s.memoryAlike t := by
  obtain ⟨cs, d, hu⟩ : ∃ cs d, (s.readCsr c).2 = { s with counters := cs, ms := { s.ms with draws := d } } :=
    ⟨_, _, s.readCsr_frame c⟩
  rw [hu] at ht ⊢
  subst ht
  refine ⟨s.registersAfter_of_setReg _ rd _ rfl rfl rfl, ?_, ?_, ?_, ?_⟩
  · unfold State.setReg
    split <;> rfl
  all_goals simp [State.supervisorAlike, State.memoryAlike]

/-! ### `sepc` -/

/-- The reads of `sepc` by a CSR instruction above U-mode, masked while IALIGN is 32 (R72). -/
theorem exec_csr_sepc (s : State) (hp : s.priv ≠ .user) (rd : RegId) (src : BitVec 5) (hrd : rd ≠ 0) (i : Instr)
    (hi : i ∈ [Instr.csrrw rd 0x141 src, Instr.csrrs rd 0x141 src, Instr.csrrc rd 0x141 src, Instr.csrrwi rd 0x141 src,
      Instr.csrrsi rd 0x141 src, Instr.csrrci rd 0x141 src]) :
    ∃ t, exec i s = .next t ∧ t.reg rd = cut s.cfg.sxlen s.readSepc := by
  have key : ∀ op v isRead isWrite, isRead = true → exec i s = csrInstr i op rd 0x141 v isRead isWrite s →
      ∃ t, exec i s = .next t ∧ t.reg rd = cut s.cfg.sxlen s.readSepc := by
    intro op v isRead isWrite hread he
    rw [he]
    exact csrInstr_reads i op rd 0x141 v isRead isWrite s .sepc hp (s.csrCheck_plain isWrite hp 0x141 .sepc (by simp))
      (by simp) hrd hread
  have hdec : decide (rd ≠ 0) = true := decide_eq_true hrd
  simp only [List.mem_cons, List.not_mem_nil, or_false] at hi
  rcases hi with rfl | rfl | rfl | rfl | rfl | rfl
  · exact key _ _ _ _ hdec rfl
  · exact key _ _ _ _ rfl rfl
  · exact key _ _ _ _ rfl rfl
  · exact key _ _ _ _ hdec rfl
  · exact key _ _ _ _ rfl rfl
  · exact key _ _ _ _ rfl rfl

/-- A valid address written to `sepc` stands there with the low bits of IALIGN clear (R70, R74). -/
theorem exec_csrrw_sepc (s : State) (rs1 : RegId) (hp : s.priv ≠ .user) (hv : vaValid s.satp.mode (s.reg rs1) = true) :
    exec (.csrrw 0 0x141 rs1) s =
      .next { s with sepc := s.reg rs1 &&& epcMask s.cfg, pc := cut s.cfg.sxlen (s.pc + 4) } := by
  have hw : s.writeCsr .sepc (s.reg rs1) = .ok { s with sepc := s.reg rs1 &&& epcMask s.cfg } := by
    simp only [State.writeCsr, State.setSepc, s.cut_reg rs1 hp, legalize_valid _ hv]
  rw [exec_csrrw_x0 s _ 0x141 rs1 .sepc (s.csrCheck_plain true hp _ _ (by simp)) hw]
  simp [interruptCsr]

/-- Settles O42: `read_sepc()` is what every read goes through, and bit 1 is writable where IALIGN may be 16. -/
theorem sepcMaskedRead : Obligations.SepcMaskedRead := by
  unfold Obligations.SepcMaskedRead
  rintro s m hi hp rfl
  refine ⟨fun rd src hrd i hi => exec_csr_sepc s hp rd src hrd i hi, fun hs => ⟨_, exec_sret s hs, rfl⟩, fun rs1 hv => ?_⟩
  rw [s.cut_reg rs1 hp] at hv
  refine ⟨_, exec_csrrw_sepc s rs1 hp hv, ?_, ?_⟩
  · show (s.reg rs1 &&& epcMask s.cfg).getLsbD 1 = _
    rw [epcMask, if_neg hi]; simp
  · show (s.reg rs1 &&& epcMask s.cfg).getLsbD 0 = _
    rw [epcMask, if_neg hi]; simp

end Sys2Proof.Machine
end

section
/-! PROOFS. Writing `satp` (O37). -/

namespace Sys2Proof.Machine

theorem and_lowBits_eq_zero_iff (w : Word) (n : Nat) (hn : n ≤ 64) : w &&& lowBits n = 0 ↔ w.extractLsb' 0 n = 0 := by
  constructor
  · intro h
    apply BitVec.eq_of_getLsbD_eq
    intro k hk
    have hb : (w &&& lowBits n).getLsbD k = false := by rw [h]; simp
    rw [BitVec.getLsbD_and, lowBits_getLsbD] at hb
    rw [BitVec.getLsbD_extractLsb', Nat.zero_add]
    simpa [hk, show k < 64 by omega] using hb
  · intro h
    apply BitVec.eq_of_getLsbD_eq
    intro k hk
    have hb : (w.extractLsb' 0 n).getLsbD k = false := by rw [h]; simp
    rw [BitVec.getLsbD_extractLsb', Nat.zero_add] at hb
    rw [BitVec.getLsbD_and, lowBits_getLsbD]
    by_cases hkn : k < n
    · simpa [hkn, hk] using hb
    · simp [hkn]

/-! ### The written MODE -/

/-- The MODE that a write selects with SXLEN=64 (R101, R104). -/
theorem satpMode_rv64 (c : Config) (w : Word) (hx : c.sxlen = .rv64) :
    satpMode c w =
      if w.extractLsb' 60 4 = 0 then some .bare
      else if w.extractLsb' 60 4 = 8 then (if c.sv39 then some .sv39 else none)
      else if w.extractLsb' 60 4 = 9 then (if c.sv48 then some .sv48 else none)
      else if w.extractLsb' 60 4 = 10 then (if c.sv57 then some .sv57 else none)
      else none := by
  simp only [satpMode, hx]
  split_ifs <;> simp_all [Option.filter, supported]

/-- The MODE that a write selects with SXLEN=32 (R101, R104). -/
theorem satpMode_rv32 (c : Config) (w : Word) (hx : c.sxlen = .rv32) :
    satpMode c w = if w.getLsbD 31 then (if c.sv32 then some .sv32 else none) else some .bare := by
  simp only [satpMode, hx]
  split_ifs <;> simp_all [Option.filter, supported]

/-! ### The write by CSRRW -/

section
variable (s : State) (rs1 : RegId) (hc : s.csrCheck 0x180 true = .ok .satp)
include hc

/-- What CSRRW makes of the write of `satp`. -/
theorem exec_csrrw_satp (u : State) (hw : s.writeSatp (s.reg rs1) = .ok u) :
    exec (.csrrw 0 0x180 rs1) s = .next { u with pc := cut s.cfg.sxlen (s.pc + 4), recheck := s.recheck } := by
  have hw' : s.writeCsr .satp (s.reg rs1) = .ok u := by
    rw [← hw]; simp only [State.writeCsr, s.cut_reg rs1 (s.csrCheck_write _ _ hc)]
  rw [exec_csrrw_x0 s u 0x180 rs1 .satp hc hw']
  simp [interruptCsr]

/-- An unsupported MODE changes no field (R104). -/
theorem exec_csrrw_satp_unsupported (hm : satpMode s.cfg (s.reg rs1) = none) :
    exec (.csrrw 0 0x180 rs1) s = .next { s with pc := cut s.cfg.sxlen (s.pc + 4) } :=
  exec_csrrw_satp s rs1 hc s (by simp only [State.writeSatp, hm])

/-- Bare with a nonzero rest stops (R102, R103). -/
theorem exec_csrrw_satp_stop (hm : satpMode s.cfg (s.reg rs1) = some .bare) (hr : satpRest s.cfg (s.reg rs1) ≠ 0) :
    exec (.csrrw 0 0x180 rs1) s = (bareStop s.cfg (s.reg rs1)).outcome := by
  refine exec_csrrw_x0_stop s 0x180 rs1 .satp _ hc ?_
  simp only [State.writeCsr, s.cut_reg rs1 (s.csrCheck_write _ _ hc), State.writeSatp, hm]
  exact if_pos ⟨trivial, hr⟩

/-- Any other supported MODE takes the written fields (R104). -/
theorem exec_csrrw_satp_taken (sch : Scheme) (hm : satpMode s.cfg (s.reg rs1) = some sch)
    (hb : sch = .bare → satpRest s.cfg (s.reg rs1) = 0) :
    exec (.csrrw 0 0x180 rs1) s =
      .next { s with pc := cut s.cfg.sxlen (s.pc + 4), satp := satpFields s.cfg sch (s.reg rs1) } := by
  refine exec_csrrw_satp s rs1 hc { s with satp := satpFields s.cfg sch (s.reg rs1) } ?_
  simp only [State.writeSatp, hm]
  exact if_neg (fun h => h.2 (hb h.1))

end

/-- Settles O37, with SXLEN=64 and with SXLEN=32. -/
theorem satpWrite : Obligations.SatpWrite := by
  unfold Obligations.SatpWrite
  rintro rs1 s w hc rfl
  refine ⟨fun hx => ⟨fun hm => ?_, fun h0 hr => ?_, fun sch hs => ?_⟩, fun hx => ⟨fun h31 h32 => ?_, fun h31 hr => ?_, fun sch hs => ?_⟩⟩
  · have hnone : satpMode s.cfg (s.reg rs1) = none := by
      rw [satpMode_rv64 _ _ hx]
      rcases hm with hm | ⟨h, hf⟩ | ⟨h, hf⟩ | ⟨h, hf⟩
      · simp only [List.mem_cons, List.not_mem_nil, or_false, not_or] at hm
        obtain ⟨h0, h8, h9, h10⟩ := hm
        rw [if_neg h0, if_neg h8, if_neg h9, if_neg h10]
      all_goals simp [h, hf]
    rw [exec_csrrw_satp_unsupported s rs1 hc hnone, hx]
    rfl
  · rw [exec_csrrw_satp_stop s rs1 hc (by rw [satpMode_rv64 _ _ hx, if_pos h0])]
    · simp only [bareStop, hx]; rfl
    · simp only [satpRest, hx]
      rwa [ne_eq, and_lowBits_eq_zero_iff _ 60 (by decide)]
  · have hsome : satpMode s.cfg (s.reg rs1) = some sch := by
      rw [satpMode_rv64 _ _ hx]
      rcases hs with ⟨h, rfl⟩ | ⟨h, hv, rfl⟩ | ⟨h, hv, rfl⟩ | ⟨h, hv, rfl⟩
      · rw [h]; rfl
      all_goals simp [h, hv]
    rw [exec_csrrw_satp_taken s rs1 hc sch hsome, satpFields, hx]
    · rfl
    · rintro rfl
      rcases hs with ⟨h, -⟩ | ⟨-, -, h⟩ | ⟨-, -, h⟩ | ⟨-, -, h⟩
      · simp only [satpRest, h, hx]; rfl
      all_goals cases h
  · rw [exec_csrrw_satp_unsupported s rs1 hc (by rw [satpMode_rv32 _ _ hx, h31, h32]; rfl), hx]
  · rw [exec_csrrw_satp_stop s rs1 hc (by rw [satpMode_rv32 _ _ hx, h31]; rfl)]
    · simp only [bareStop, hx, true_and]
      split <;> rfl
    · simp only [satpRest, hx]
      rwa [ne_eq, and_lowBits_eq_zero_iff _ 31 (by decide)]
  · have hsome : satpMode s.cfg (s.reg rs1) = some sch := by
      rw [satpMode_rv32 _ _ hx]
      rcases hs with ⟨h, rfl⟩ | ⟨h, hv, rfl⟩
      · rw [h]; rfl
      · rw [h, hv]; rfl
    rw [exec_csrrw_satp_taken s rs1 hc sch hsome, satpFields, hx]
    · rintro rfl
      rcases hs with ⟨h, -⟩ | ⟨-, -, h⟩
      · simp only [satpRest, h, hx]; rfl
      · cases h

end Sys2Proof.Machine
end

section
/-! PROOFS. The writes of the other CSRs (O43). -/

namespace Sys2Proof.Machine

/-! ### CSRRW of a CSR on which no interrupt condition depends -/

/-- CSRRW with `rd` = `x0` of such a CSR: its write rule, and `pc` + 4 (R301, R302). -/
theorem exec_csrrw_quiet (s u : State) (num : BitVec 12) (rs1 : RegId) (c : Csr) (hc : s.csrCheck num true = .ok c)
    (hi : interruptCsr c = false) (hw : s.writeCsr c (s.reg rs1) = .ok u) :
    exec (.csrrw 0 num rs1) s = .next { u with pc := cut s.cfg.sxlen (s.pc + 4) } := by
  have hrecheck : u.recheck = s.recheck := by rw [s.writeCsr_frame u c _ hw]
  rw [exec_csrrw_x0 s u num rs1 c hc hw, hi, Bool.or_false, ← hrecheck]

section
variable (s : State) (rs1 : RegId) (hp : s.priv ≠ .user)
include hp

theorem exec_csrrw_sscratch :
    exec (.csrrw 0 0x140 rs1) s = .next { s with sscratch := s.reg rs1, pc := cut s.cfg.sxlen (s.pc + 4) } :=
  exec_csrrw_quiet s { s with sscratch := s.reg rs1 } 0x140 rs1 .sscratch (s.csrCheck_plain true hp _ _ (by simp)) rfl
    (by simp only [State.writeCsr, s.cut_reg rs1 hp])

theorem exec_csrrw_stvec :
    exec (.csrrw 0 0x105 rs1) s = .next { s.writeStvec (s.reg rs1) with pc := cut s.cfg.sxlen (s.pc + 4) } :=
  exec_csrrw_quiet s (s.writeStvec (s.reg rs1)) 0x105 rs1 .stvec (s.csrCheck_plain true hp _ _ (by simp)) rfl
    (by simp only [State.writeCsr, s.cut_reg rs1 hp])

theorem exec_csrrw_scounteren :
    exec (.csrrw 0 0x106 rs1) s = .next
      { s with scounteren := (s.reg rs1).setWidth 32 &&& s.cfg.scounterenMask, pc := cut s.cfg.sxlen (s.pc + 4) } :=
  exec_csrrw_quiet s { s with scounteren := (s.reg rs1).setWidth 32 &&& s.cfg.scounterenMask } 0x106 rs1 .scounteren
    (s.csrCheck_plain true hp _ _ (by simp)) rfl (by simp only [State.writeCsr, s.cut_reg rs1 hp])

/-- `stval` takes a value that it holds (R88). -/
theorem exec_csrrw_stval (hv : vaValid s.satp.mode (s.reg rs1) = true ∨ tvalHeld s.cfg (s.reg rs1) = true) :
    exec (.csrrw 0 0x143 rs1) s = .next { s with stval := s.reg rs1, pc := cut s.cfg.sxlen (s.pc + 4) } :=
  exec_csrrw_quiet s { s with stval := s.reg rs1 } 0x143 rs1 .stval (s.csrCheck_plain true hp _ _ (by simp)) rfl
    (by simp only [State.writeCsr, s.cut_reg rs1 hp, State.setStval, legalStval_eq hv])

theorem exec_csrrw_scause :
    exec (.csrrw 0 0x142 rs1) s = .next { s.writeScause (s.reg rs1) with pc := cut s.cfg.sxlen (s.pc + 4) } :=
  exec_csrrw_quiet s (s.writeScause (s.reg rs1)) 0x142 rs1 .scause (s.csrCheck_plain true hp _ _ (by simp)) rfl
    (by simp only [State.writeCsr, s.cut_reg rs1 hp])

theorem exec_csrrw_senvcfg :
    exec (.csrrw 0 0x10A rs1) s = .next { s.writeSenvcfg (s.reg rs1) with pc := cut s.cfg.sxlen (s.pc + 4) } :=
  exec_csrrw_quiet s (s.writeSenvcfg (s.reg rs1)) 0x10A rs1 .senvcfg (s.csrCheck_plain true hp _ _ (by simp)) rfl
    (by simp only [State.writeCsr, s.cut_reg rs1 hp])

/-- `srmcfg` is there with Ssqosid, and open in M-mode or where the Smstateen bit is not clear (R111, R311). -/
theorem exec_csrrw_srmcfg (hq : s.cfg.ext.ssqosid = true)
    (ho : s.cfg.ext.smstateen = false ∨ s.inputs.mstateen55 = true ∨ s.priv = .machine) :
    exec (.csrrw 0 0x181 rs1) s = .next { s.writeSrmcfg (s.reg rs1) with pc := cut s.cfg.sxlen (s.pc + 4) } := by
  have hcsr : csrOf s.cfg 0x181 = some .srmcfg := by simp [csrOf, hq]
  have hopen : s.csrOpen .srmcfg = true := by
    rcases ho with h | h | h <;> simp [State.csrOpen, h]
  exact exec_csrrw_quiet s (s.writeSrmcfg (s.reg rs1)) 0x181 rs1 .srmcfg
    (s.csrCheck_supervisor 0x181 .srmcfg true hp hcsr hopen (by decide) (by decide)) rfl
    (by simp only [State.writeCsr, s.cut_reg rs1 hp])

end

/-! ### What the write rules leave -/

/-- A value of SXLEN bits is within the SXLEN-bit mask. -/
theorem cut_and_sxMask (c : Config) (v : Word) : cut c.sxlen v &&& sxMask c = cut c.sxlen v := by
  apply BitVec.eq_of_toNat_eq
  have hlt : (cut c.sxlen v).toNat < 2 ^ c.sxlen.bits := by
    rw [cut_toNat]; exact Nat.mod_lt _ (Nat.two_pow_pos _)
  have hmask : (sxMask c).toNat = 2 ^ c.sxlen.bits - 1 := by
    cases h : c.sxlen <;> simp [sxMask, lowBits, h, Xlen.bits]
  rw [BitVec.toNat_and, hmask, Nat.and_two_pow_sub_one_eq_mod, Nat.mod_eq_of_lt hlt]

theorem or_and_not_three (b m : Word) (hm : m &&& 3#64 = m) : ((b &&& ~~~3#64) ||| m) &&& ~~~3#64 = b &&& ~~~3#64 := by
  apply BitVec.eq_of_getLsbD_eq
  intro i hi
  have h := congrArg (fun x => x.getLsbD i) hm
  simp only [BitVec.getLsbD_and, BitVec.getLsbD_or, BitVec.getLsbD_not, hi] at h ⊢
  revert h
  cases b.getLsbD i <;> cases m.getLsbD i <;> cases (3#64).getLsbD i <;> simp

/-- `stvec` after a write: BASE masked, MODE where it is supported (R46 to R48). -/
theorem State.writeStvec_fields (s : State) (w : Word) (hw : w &&& sxMask s.cfg = w) :
    (s.writeStvec w).stvec &&& ~~~3#64 = w &&& s.cfg.stvecBaseMask &&& ~~~3#64 ∧
    (s.writeStvec w).stvec &&& 3#64 =
      if w &&& 3 = 0 ∧ s.cfg.stvecDirect = true ∨ w &&& 3 = 1 ∧ s.cfg.stvecVectored = true then w &&& 3 else s.stvec &&& 3 := by
  have hok : stvecModeOk s.cfg (w &&& 3) = true ↔
      w &&& 3 = 0 ∧ s.cfg.stvecDirect = true ∨ w &&& 3 = 1 ∧ s.cfg.stvecVectored = true := by
    simp [stvecModeOk]
  have hbase : w &&& s.cfg.stvecBaseMask &&& sxMask s.cfg = w &&& s.cfg.stvecBaseMask := by
    rw [BitVec.and_assoc, BitVec.and_comm s.cfg.stvecBaseMask, ← BitVec.and_assoc, hw]
  have hmode : (if stvecModeOk s.cfg (w &&& 3) then w &&& 3 else s.stvec &&& 3) &&& 3#64 =
      if stvecModeOk s.cfg (w &&& 3) then w &&& 3 else s.stvec &&& 3 := by
    split <;> rw [BitVec.and_assoc] <;> rfl
  simp only [State.writeStvec, hbase]
  rw [or_and_not_three _ _ hmode, or_mode _ _ hmode]
  exact ⟨rfl, by simp only [hok]⟩

/-- `scause` after a write holds a code of its width, and every code that it can hold (R77, R79). -/
theorem State.writeScause_code (s : State) (w : Word) :
    ((w &&& lowBits (s.cfg.sxlen.bits - 1)).toNat < 2 ^ s.cfg.scauseCodeBits →
      (s.writeScause w).scause.code = w &&& lowBits (s.cfg.sxlen.bits - 1)) ∧
    (s.writeScause w).scause.code.toNat < 2 ^ s.cfg.scauseCodeBits :=
  ⟨fun h => if_pos ((and_not_lowBits_iff _ _).mpr h), (and_not_lowBits_iff _ _).mp (scauseCode_fits _ _ _)⟩

/-- `senvcfg` after a write, field by field (R91 to R93). -/
theorem State.writeSenvcfg_fields (s : State) (w : Word) :
    (s.cfg.fiomReadOnly = false ∨ paged s.cfg = true → (s.writeSenvcfg w).fiomOn = w.getLsbD 0) ∧
    (s.cfg.ext.zicbom = true → w.extractLsb' 4 2 ≠ 2 → (s.writeSenvcfg w).senvcfg.cbie = w.extractLsb' 4 2) ∧
    (s.cfg.ext.zicbom = true → (s.writeSenvcfg w).senvcfg.cbie ≠ 2) ∧
    (s.cfg.ext.zicbom = false → (s.writeSenvcfg w).senvcfg.cbie = 0) ∧
    (s.cfg.ext.ssnpm = false → (s.writeSenvcfg w).senvcfg.pmm = 0) := by
  refine ⟨fun h => ?_, fun hz h2 => ?_, fun hz => ?_, fun hz => ?_, fun hn => ?_⟩
  · rcases h with h | h <;> simp [State.fiomOn, State.writeSenvcfg, h]
  · simp only [State.writeSenvcfg, hz, if_true]
    exact if_pos h2
  · simp only [State.writeSenvcfg, hz, if_true]
    exact cbieWrite_legal _ _
  · simp [State.writeSenvcfg, hz]
  · cases hx : s.cfg.sxlen <;> simp [State.writeSenvcfg, hx, hn]

/-- Settles O43: each CSR by the equation of its CSRRW and the lemma about its write rule. -/
theorem otherCsrWrites : Obligations.OtherCsrWrites := by
  unfold Obligations.OtherCsrWrites
  rintro rs1 s w pc hp rfl rfl
  have hmask : s.reg rs1 &&& sxMask s.cfg = s.reg rs1 := by
    rw [← s.cut_reg rs1 hp]; exact cut_and_sxMask _ _
  obtain ⟨hfiom, hcbie, hcbie2, hcbie0, hpmm⟩ := s.writeSenvcfg_fields (s.reg rs1)
  refine ⟨exec_csrrw_sscratch s rs1 hp, ⟨_, exec_csrrw_stvec s rs1 hp, rfl, s.writeStvec_fields (s.reg rs1) hmask⟩,
    exec_csrrw_scounteren s rs1 hp, exec_csrrw_sepc s rs1 hp, fun hv => ?_,
    ⟨_, exec_csrrw_scause s rs1 hp, rfl, rfl, fun _ => s.writeScause_code (s.reg rs1)⟩,
    ⟨_, exec_csrrw_senvcfg s rs1 hp, rfl, hfiom, rfl, rfl, rfl, rfl, hcbie, hcbie2, hcbie0, hpmm⟩,
    exec_csrrw_srmcfg s rs1 hp⟩
  exact exec_csrrw_stval s rs1 hp (hv.imp id (tvalHeld_iff _ _).mpr)

end Sys2Proof.Machine
end

section
/-! PROOFS. What each supervisor CSR reads (O35), and the counters from U-mode (O44). -/

namespace Sys2Proof.Machine

/-! ### The check that passed -/

theorem State.csrCheck_ok (s : State) (num : BitVec 12) (isWrite : Bool) (c : Csr) (h : s.csrCheck num isWrite = .ok c) :
    csrOf s.cfg num = some c := by
  unfold State.csrCheck at h
  split at h
  · cases h
  split at h
  · cases h
  split at h
  · cases h
  split at h
  · rename_i d hd
    split at h
    · cases h; exact hd
    · cases h
  · cases h

/-! ### `scause` -/

theorem cut_getLsbD (x : Xlen) (v : Word) (k : Nat) : (cut x v).getLsbD k = (decide (k < x.bits) && v.getLsbD k) := by
  cases x
  · show ((v.setWidth 32).setWidth 64).getLsbD k = (decide (k < 32) && v.getLsbD k)
    rw [BitVec.getLsbD_setWidth, BitVec.getLsbD_setWidth]
    by_cases h : k < 32
    · simp [h, show k < 64 by omega]
    · simp [h]
  · show v.getLsbD k = (decide (k < 64) && v.getLsbD k)
    by_cases h : k < 64
    · simp [h]
    · simp [BitVec.getLsbD_of_ge v k (not_lt.mp h)]

/-- A cause as one word: the Interrupt bit on top, the code below it, nothing above (R77). -/
theorem causeWord_getLsbD (c : Config) (isI : Bool) (code : Word) (k : Nat) :
    (causeWord c isI code).getLsbD k =
      if k < c.sxlen.bits - 1 then code.getLsbD k else isI && decide (k = c.sxlen.bits - 1) := by
  have hb : 1 ≤ c.sxlen.bits ∧ c.sxlen.bits ≤ 64 := by cases c.sxlen <;> decide
  simp only [causeWord, cut_getLsbD, BitVec.getLsbD_or, BitVec.getLsbD_and, lowBits_getLsbD, bitAt_getLsbD]
  split
  · rename_i h
    simp [h, show k < c.sxlen.bits by omega, show k < 64 by omega, show k ≠ c.sxlen.bits - 1 by omega]
  · rename_i h
    by_cases hk : k = c.sxlen.bits - 1
    · simp [hk, show c.sxlen.bits - 1 < c.sxlen.bits by omega, show c.sxlen.bits - 1 < 64 by omega]
    · simp [h, hk]

/-! ### `senvcfg` -/

/-- The fields of `senvcfg` below bit 8, which both widths have (R90). -/
def State.senvcfgLow (s : State) : Word :=
  bitAt s.fiomOn 0 ||| bitAt (s.cfg.ext.zicfilp && s.senvcfg.lpe) 2 ||| bitAt (s.cfg.ext.zicfiss && s.senvcfg.sse) 3 |||
    pairAt (context s.cfg.ext.zicbom s.senvcfg.cbie) 4 ||| bitAt (s.cfg.ext.zicbom && s.senvcfg.cbcfe) 6 |||
    bitAt (s.cfg.ext.zicboz && s.senvcfg.cbze) 7

/-- PMM as it reads: a field of 64-bit registers only (R90, R93). -/
def State.pmmOn (s : State) : BitVec 2 := context (decide (s.cfg.sxlen = .rv64) && s.cfg.ext.ssnpm) s.senvcfg.pmm

theorem State.readSenvcfg_eq (s : State) : s.readSenvcfg = s.senvcfgLow ||| pairAt s.pmmOn 32 := by
  cases hx : s.cfg.sxlen <;> simp only [State.readSenvcfg, State.pmmOn, hx]
  · simp [State.senvcfgLow, context, pairAt]
  · simp [State.senvcfgLow]

/-- Bit `k` of what `senvcfg` reads (R90). -/
theorem State.readSenvcfg_getLsbD (s : State) (k : Nat) (hk : k < 64) :
    s.readSenvcfg.getLsbD k =
      (s.fiomOn && decide (k = 0) || s.cfg.ext.zicfilp && s.senvcfg.lpe && decide (k = 2) ||
        s.cfg.ext.zicfiss && s.senvcfg.sse && decide (k = 3) ||
        decide (4 ≤ k) && (context s.cfg.ext.zicbom s.senvcfg.cbie).getLsbD (k - 4) ||
        s.cfg.ext.zicbom && s.senvcfg.cbcfe && decide (k = 6) || s.cfg.ext.zicboz && s.senvcfg.cbze && decide (k = 7) ||
        decide (32 ≤ k) && s.pmmOn.getLsbD (k - 32)) := by
  simp only [s.readSenvcfg_eq, State.senvcfgLow, BitVec.getLsbD_or, bitAt_getLsbD, pairAt_getLsbD, hk, decide_true, Bool.and_true]

theorem State.readSenvcfg_fields (s : State) :
    s.readSenvcfg.getLsbD 0 = s.fiomOn ∧ s.readSenvcfg.getLsbD 2 = (s.cfg.ext.zicfilp && s.senvcfg.lpe) ∧
    s.readSenvcfg.getLsbD 3 = (s.cfg.ext.zicfiss && s.senvcfg.sse) ∧
    s.readSenvcfg.extractLsb' 4 2 = context s.cfg.ext.zicbom s.senvcfg.cbie ∧
    s.readSenvcfg.getLsbD 6 = (s.cfg.ext.zicbom && s.senvcfg.cbcfe) ∧
    s.readSenvcfg.getLsbD 7 = (s.cfg.ext.zicboz && s.senvcfg.cbze) ∧ s.readSenvcfg.extractLsb' 32 2 = s.pmmOn := by
  refine ⟨?_, ?_, ?_, extractLsb'_two_eq ?_ ?_, ?_, ?_, extractLsb'_two_eq ?_ ?_⟩ <;>
    rw [s.readSenvcfg_getLsbD _ (by decide)] <;> simp

/-- `senvcfg` reads zero outside its fields (R90). -/
theorem State.readSenvcfg_within (s : State) : s.readSenvcfg &&& ~~~0x3000000FD#64 = 0 := by
  rw [s.readSenvcfg_eq, State.senvcfgLow]
  exact or_and_not (or_and_not (or_and_not (or_and_not (or_and_not (or_and_not (bitAt_within _ (by decide))
    (bitAt_within _ (by decide))) (bitAt_within _ (by decide))) (pairAt_within _ (by decide) (by decide)))
    (bitAt_within _ (by decide))) (bitAt_within _ (by decide))) (pairAt_within _ (by decide) (by decide))

/-! ### `satp` and `srmcfg` -/

theorem append_fields_64 (n : BitVec 4) (a : BitVec 16) (p : BitVec 44) :
    n.setWidth 64 <<< 60 ||| a.setWidth 64 <<< 44 ||| p.setWidth 64 = n ++ a ++ p := by
  apply BitVec.eq_of_getLsbD_eq
  intro k hk
  simp only [BitVec.getLsbD_or, BitVec.getLsbD_shiftLeft, BitVec.getLsbD_setWidth, BitVec.getLsbD_append, hk, decide_true,
    Bool.true_and]
  by_cases h44 : k < 44
  · simp [h44, show k < 60 by omega]
  · by_cases h60 : k < 60
    · simp [h44, h60, show k - 44 < 16 by omega, show k - 44 < 64 by omega, BitVec.getLsbD_of_ge p k (by omega)]
    · simp [h44, h60, show ¬k - 44 < 16 by omega, BitVec.getLsbD_of_ge p k (by omega),
        BitVec.getLsbD_of_ge a (k - 44) (by omega), show k - 60 < 64 by omega, show k - 44 - 16 = k - 60 by omega]

theorem append_fields_32 (n : BitVec 1) (a : BitVec 16) (p : BitVec 44) :
    n.setWidth 64 <<< 31 ||| (a.setWidth 64 &&& lowBits 9) <<< 22 ||| (p.setWidth 64 &&& lowBits 22) =
      (n ++ a.setWidth 9 ++ p.setWidth 22).setWidth 64 := by
  apply BitVec.eq_of_getLsbD_eq
  intro k hk
  simp only [BitVec.getLsbD_or, BitVec.getLsbD_shiftLeft, BitVec.getLsbD_and, BitVec.getLsbD_setWidth, BitVec.getLsbD_append,
    lowBits_getLsbD, hk, decide_true, Bool.true_and]
  by_cases h22 : k < 22
  · simp [h22, show k < 31 by omega]
  · by_cases h31 : k < 31
    · simp [h22, h31, show k - 22 < 9 by omega, show k - 22 < 64 by omega]
    · simp [h22, h31, show ¬k - 22 < 9 by omega, show k - 31 < 64 by omega, show k - 22 - 9 = k - 31 by omega]

/-- `satp` reads MODE, ASID and PPN (R99, R100). -/
theorem State.readSatp_fields (s : State) :
    (s.cfg.sxlen = .rv64 → ∀ n, (s.satp.mode, n) ∈ [(Scheme.bare, 0#4), (.sv39, 8), (.sv48, 9), (.sv57, 10)] →
      s.readSatp = n ++ s.satp.asid ++ s.satp.ppn) ∧
    (s.cfg.sxlen = .rv32 → ∀ n, (s.satp.mode, n) ∈ [(Scheme.bare, 0#1), (.sv32, 1)] →
      s.readSatp = (n ++ s.satp.asid.setWidth 9 ++ s.satp.ppn.setWidth 22).setWidth 64) := by
  refine ⟨fun hx n hn => ?_, fun hx n hn => ?_⟩
  · have hcode : s.satp.mode.code = n.setWidth 64 := by
      simp only [List.mem_cons, Prod.mk.injEq, List.not_mem_nil, or_false] at hn
      rcases hn with ⟨hm, rfl⟩ | ⟨hm, rfl⟩ | ⟨hm, rfl⟩ | ⟨hm, rfl⟩ <;> rw [hm] <;> rfl
    simp only [State.readSatp, hx, hcode]
    exact append_fields_64 n s.satp.asid s.satp.ppn
  · have hcode : s.satp.mode.code = n.setWidth 64 := by
      simp only [List.mem_cons, Prod.mk.injEq, List.not_mem_nil, or_false] at hn
      rcases hn with ⟨hm, rfl⟩ | ⟨hm, rfl⟩ <;> rw [hm] <;> rfl
    simp only [State.readSatp, hx, hcode]
    exact append_fields_32 n s.satp.asid s.satp.ppn

/-- `srmcfg` reads RCID and MCID, and zero elsewhere (R110). -/
theorem State.readSrmcfg_fields (s : State) :
    s.readSrmcfg.extractLsb' 0 12 = s.srmcfg.rcid ∧ s.readSrmcfg.extractLsb' 16 12 = s.srmcfg.mcid ∧
      s.readSrmcfg &&& ~~~0xFFF0FFF#64 = 0 := by
  refine ⟨?_, ?_, or_and_not ?_ (field_within _ 16 (by decide))⟩
  · apply BitVec.eq_of_getLsbD_eq
    intro k hk
    simp [State.readSrmcfg, hk, show k < 64 by omega, show k < 16 by omega]
  · apply BitVec.eq_of_getLsbD_eq
    intro k hk
    simp [State.readSrmcfg, hk, show 16 + k < 64 by omega,
      BitVec.getLsbD_of_ge s.srmcfg.rcid (16 + k) (by omega)]
  · have := field_within (m := 0xFFF0FFF#64) s.srmcfg.rcid 0 (by decide)
    rwa [BitVec.shiftLeft_zero] at this

/-! ### The statements -/

/-- Settles O35: a pure read by what reading a CSR leaves, and what it gives by the CSR's number. -/
theorem csrPureRead : Obligations.CsrPureRead := by
  unfold Obligations.CsrPureRead
  refine ⟨fun rd num s c hc i hi => ⟨_, exec_csr_read s rd num c hc i hi, s.readCsr_leaves _ rd c rfl⟩, ?_⟩
  rintro num s c w hc rfl
  have hcsr := s.csrCheck_ok num false c hc
  have hread : ∀ n d, num = n → csrOf s.cfg n = some d → c = d := by
    rintro n d rfl hd
    exact Option.some.inj (hcsr.symm.trans hd)
  refine ⟨fun h => ?_, fun h => ?_, fun h => ?_, fun h => ?_, fun h => ?_, fun h => ?_, fun h => ?_, fun h => ?_, fun h => ?_,
    fun h => ?_, fun h => ?_, fun h => ?_⟩
  · obtain rfl := hread _ .sstatus h rfl; exact ⟨rfl, rfl⟩
  · obtain rfl := hread _ .stvec h rfl; rfl
  · obtain rfl := hread _ .sscratch h rfl; rfl
  · obtain rfl := hread _ .stval h rfl; rfl
  · obtain rfl := hread _ .sepc h rfl; rfl
  · obtain rfl := hread _ .scounteren h rfl; rfl
  · obtain rfl := hread _ .sip h rfl; rfl
  · obtain rfl := hread _ .sie h rfl; rfl
  · obtain rfl := hread _ .scause h rfl
    have hb : 1 ≤ s.cfg.sxlen.bits := by cases s.cfg.sxlen <;> decide
    refine ⟨?_, fun k hk => ?_, fun k hk => ?_⟩ <;> refine (causeWord_getLsbD _ _ _ _).trans ?_
    · simp
    · exact if_pos hk
    · rw [if_neg (by omega)]; simp [show k ≠ s.cfg.sxlen.bits - 1 by omega]
  · obtain rfl := hread _ .senvcfg h rfl
    obtain ⟨hfiom, hlpe, hsse, hcbie, hcbcfe, hcbze, hpmm⟩ := s.readSenvcfg_fields
    exact ⟨hfiom, hlpe, hsse, hcbie, hcbcfe, hcbze, hpmm.trans (by simp [State.pmmOn, context]), s.readSenvcfg_within⟩
  · obtain rfl := hread _ .satp h rfl; exact s.readSatp_fields
  · have hd : c = .srmcfg := by
      subst h
      have hq : (if s.cfg.ext.ssqosid then some Csr.srmcfg else none) = some c := hcsr
      split at hq
      · exact (Option.some.inj hq).symm
      · cases hq
    subst hd; exact s.readSrmcfg_fields

/-! ### The counters from U-mode (R310) -/

/-- The check of a counter's read in U-mode, for the number `num` of one that is there. -/
theorem State.csrCheck_counter_user (s : State) (num : BitVec 12) (n : BitVec 5) (c : Csr) (hp : s.priv = .user)
    (hcsr : csrOf s.cfg num = some c) (hlevel : num.extractLsb' 8 2 = 0) (hopen : s.csrOpen c = s.counterOpen n) :
    s.csrCheck num false =
      if s.scounterenOn.getLsbD n.toNat = true ∧ s.inputs.mcounteren.getLsbD n.toNat = true then .ok c else .illegal := by
  simp only [State.csrCheck, hlevel, hp, privNumber, hcsr, hopen, State.counterOpen]
  simp

theorem extract_append_high (b : BitVec 7) (n : BitVec 5) : (b ++ n).extractLsb' 5 7 = b := by
  apply BitVec.eq_of_getLsbD_eq
  intro k hk
  rw [BitVec.getLsbD_extractLsb', BitVec.getLsbD_append, if_neg (by omega)]
  simp [hk]

theorem extract_append_low (b : BitVec 7) (n : BitVec 5) : (b ++ n).extractLsb' 0 5 = n := by
  apply BitVec.eq_of_getLsbD_eq
  intro k hk
  rw [BitVec.getLsbD_extractLsb', BitVec.getLsbD_append, if_pos (by omega)]
  simp [hk]

theorem extract_append_level (b : BitVec 7) (n : BitVec 5) : (b ++ n).extractLsb' 8 2 = b.extractLsb' 3 2 := by
  apply BitVec.eq_of_getLsbD_eq
  intro k hk
  rw [BitVec.getLsbD_extractLsb', BitVec.getLsbD_append, if_neg (by omega), BitVec.getLsbD_extractLsb']
  congr 2
  omega

/-- No named CSR has a number whose high bits are those of the counters: the number is a counter's or no CSR's (R24, R310). -/
theorem csrOf_of_high (c : Config) (num : BitVec 12) (h : num.extractLsb' 5 7 = 0b1100000#7 ∨ num.extractLsb' 5 7 = 0b1100100#7) :
    csrOf c num =
      if num.extractLsb' 5 7 = 0b1100000#7 then some (.counter (num.extractLsb' 0 5))
      else if num.extractLsb' 5 7 = 0b1100100#7 then
        (if c.sxlen = .rv32 then some (.counterHigh (num.extractLsb' 0 5)) else none)
      else none := by
  have hne : ∀ k : BitVec 12, k.extractLsb' 5 7 ≠ 0b1100000#7 ∧ k.extractLsb' 5 7 ≠ 0b1100100#7 → num ≠ k := by
    rintro k ⟨h0, h1⟩ rfl
    exact h.elim h0 h1
  unfold csrOf
  rw [if_neg (hne _ (by decide)), if_neg (hne _ (by decide)), if_neg (hne _ (by decide)), if_neg (hne _ (by decide)),
    if_neg (hne _ (by decide)), if_neg (hne _ (by decide)), if_neg (hne _ (by decide)), if_neg (hne _ (by decide)),
    if_neg (hne _ (by decide)), if_neg (hne _ (by decide)), if_neg (hne _ (by decide)), if_neg (hne _ (by decide))]

theorem csrOf_counter (c : Config) (n : BitVec 5) : csrOf c (0b1100000#7 ++ n) = some (.counter n) := by
  rw [csrOf_of_high c _ (.inl (extract_append_high _ n)), if_pos (extract_append_high _ n), extract_append_low]

theorem csrOf_counterHigh (c : Config) (n : BitVec 5) (hx : c.sxlen = .rv32) :
    csrOf c (0b1100100#7 ++ n) = some (.counterHigh n) := by
  rw [csrOf_of_high c _ (.inr (extract_append_high _ n)), if_neg (by rw [extract_append_high]; decide),
    if_pos (extract_append_high _ n), if_pos hx, extract_append_low]

/-- Where ILEN and SXLEN hold all of it, an illegal instruction's word is the trap value (R85). -/
theorem instrBits_word (c : Config) (h : 32 ≤ c.ilen) (w : BitVec 32) : instrBits c 32 (w.setWidth 64) = w.setWidth 64 := by
  have hmin : min 32 (min c.ilen c.sxlen.bits) = 32 := by
    have : 32 ≤ c.sxlen.bits := by cases c.sxlen <;> decide
    omega
  rw [instrBits, hmin]
  apply BitVec.eq_of_getLsbD_eq
  intro k hk
  rw [BitVec.getLsbD_and, lowBits_getLsbD, BitVec.getLsbD_setWidth]
  by_cases h32 : k < 32
  · simp [h32, hk]
  · simp [BitVec.getLsbD_of_ge w k (by omega)]

theorem raiseIllegal_eq (s : State) (i : Instr) (h : 32 ≤ s.cfg.ilen) :
    raiseIllegal i s = .next (s.takeException .illegal ((encode i).setWidth 64)) := by
  rw [raiseIllegal, instrBits_word s.cfg h]

/-- Settles O44: the check of U-mode, then a pure read or the illegal-instruction exception. -/
theorem counterAccessFromUserMode : Obligations.CounterAccessFromUserMode := by
  unfold Obligations.CounterAccessFromUserMode
  refine ⟨fun rd n s num v hp hilen hnum i hi => ?_, fun rs1 s m hp hm => ?_⟩
  · obtain ⟨c, hcheck, hval⟩ : ∃ c, s.csrCheck num false =
        (if s.scounterenOn.getLsbD n.toNat = true ∧ s.inputs.mcounteren.getLsbD n.toNat = true then .ok c else .illegal) ∧
        (s.readCsr c).1 = v := by
      rcases hnum with ⟨rfl, rfl⟩ | ⟨rfl, hx, rfl⟩
      · exact ⟨_, s.csrCheck_counter_user _ n _ hp (csrOf_counter s.cfg n) (extract_append_level _ n) rfl, rfl⟩
      · exact ⟨_, s.csrCheck_counter_user _ n _ hp (csrOf_counterHigh s.cfg n hx) (extract_append_level _ n) rfl, rfl⟩
    refine ⟨fun h => ?_, fun h => ?_⟩
    · rw [if_pos h] at hcheck
      have ht := exec_csr_read s rd num c hcheck i hi
      obtain ⟨hregs, -⟩ := s.readCsr_leaves _ rd c rfl
      refine ⟨_, ht, ?_, hval ▸ hregs⟩
      rw [State.advance_priv, State.setReg_priv, s.readCsr_frame c]
      exact hp
    · have hn : ¬(s.scounterenOn.getLsbD n.toNat = true ∧ s.inputs.mcounteren.getLsbD n.toNat = true) := by
        rintro ⟨h1, h2⟩
        rcases h with h | h
        · exact Bool.false_ne_true (h.symm.trans h1)
        · exact Bool.false_ne_true (h.symm.trans h2)
      rw [if_neg hn] at hcheck
      rw [exec_csr_read_illegal s rd num hcheck i hi, raiseIllegal_eq s i hilen]
  · exact ⟨_, _, exec_csrrw_scounteren s rs1 hp, exec_csrrw_scounteren { s with inputs := m } rs1 hp, rfl⟩

end Sys2Proof.Machine
end

section
/-! PROOFS. The soundness of a translation (O56): where its PTEs come from, what its leaf allows, and why it raises. -/

namespace Sys2Proof.Machine

/-! ### What one level reads -/

/-- The entry that serves a step 2 read is one that matches it (R171). -/
theorem chooseSource_matches (c : WalkCtx) (i addr : Nat) (memPte : Option Word) (ms : MemSys) (e : AtcEntry)
    (h : (chooseSource c i addr memPte ms).1 = some e) : e ∈ ms.atc ∧ entryMatches c i addr e := by
  have hu : e ∈ usableEntries c i addr memPte ms.atc := by
    unfold chooseSource at h
    dsimp only at h
    split at h
    · cases h
    · exact List.mem_of_getElem? h
  obtain ⟨hmem, hok⟩ := List.mem_filter.mp hu
  refine ⟨hmem, ?_⟩
  simp only [AtcEntry.serves, AtcEntry.covers, Bool.and_eq_true, Bool.or_eq_true, beq_iff_eq] at hok
  obtain ⟨⟨⟨hasid, haddr⟩, -⟩, -⟩ := hok
  refine ⟨hasid, haddr.imp id ?_⟩
  rintro ⟨⟨hsch, hlevel⟩, hvpn⟩
  exact ⟨hsch, hlevel, by rw [← hvpn, hsch, hlevel]⟩

theorem readPte_cases (c : WalkCtx) (mem : List Host.Cell) (addr : Nat) (o : Option Word) (h : readPte c mem addr = some o) :
    pmaCheck c.cfg addr c.scheme.pteBytes .load .supervisor = .ok ∧ o = some (pteAt c.cfg c.scheme mem addr) ∨
    pmaCheck c.cfg addr c.scheme.pteBytes .load .supervisor = .denied ∧ o = none := by
  unfold readPte at h
  split at h
  · rename_i hp; exact .inl ⟨hp, (Option.some.inj h).symm⟩
  · rename_i hp; exact .inr ⟨hp, (Option.some.inj h).symm⟩
  · cases h

/-- The end of a level leaves the cache as it is. -/
theorem finishLevel_atc (c : WalkCtx) (addr : Nat) (isRead : Bool) (r r' : LevelResult) (pte : Word) (ms ms' : MemSys)
    (h : finishLevel c addr isRead r pte ms = .ok (r', ms')) : ms'.atc = ms.atc := by
  have hupd : ∀ m, (updatePte c addr r pte m).atc = m.atc := by
    intro m
    unfold updatePte
    split <;> rfl
  unfold finishLevel at h
  split at h
  · rename_i m hm
    obtain ⟨-, rfl⟩ := Prod.mk.inj (Except.ok.inj h)
    rw [hupd]
    split at hm
    · obtain ⟨types, -, rfl⟩ := ms.touch_cases _ _ _ _ _ hm; rfl
    · obtain rfl := Except.ok.inj hm; rfl
  · cases h

theorem addEntry_mem {atc : List AtcEntry} {e x : AtcEntry} (h : x ∈ addEntry atc e) : x = e ∨ x ∈ atc := by
  unfold addEntry at h
  split at h
  · exact .inr h
  · exact List.mem_cons.mp h

theorem foldl_addEntry_mem {es atc : List AtcEntry} {x : AtcEntry} (h : x ∈ es.foldl addEntry atc) : x ∈ es ∨ x ∈ atc := by
  induction es generalizing atc with
  | nil => exact .inr h
  | cons e es ih =>
    rcases ih h with h | h
    · exact .inl (List.mem_cons_of_mem _ h)
    · rcases addEntry_mem h with rfl | h
      · exact .inl List.mem_cons_self
      · exact .inr h

/-- What one level does: the read of its PTE is denied; or it has a PTE from one of its sources, the result is that of steps 3
to 8, and the cache has entries from before, counted uses of them, and those created for a PTE read from memory (R153, R171). -/
theorem walkLevel_cases (c : WalkCtx) (i base : Nat) (g : Bool) (ms ms' : MemSys) (r : LevelResult)
    (h : walkLevel c i base g ms = .ok (r, ms')) :
    pmaCheck c.cfg (pteAddress c i base) c.scheme.pteBytes .load .supervisor = .denied ∧ r = .accessFault ∨
    ∃ pte, pteSource c ms i (pteAddress c i base) pte ∧ r = levelResult c i (pteAddress c i base) pte ∧
      ∀ x ∈ ms'.atc, x ∈ ms.atc ∨ (∃ e ∈ ms.atc, x = { e with staleReads := e.staleReads + 1 }) ∨
        x ∈ createdEntries c i (pteAddress c i base) g pte ∧ pte = pteAt c.cfg c.scheme ms.mem (pteAddress c i base) ∧
          pmaCheck c.cfg (pteAddress c i base) c.scheme.pteBytes .load .supervisor = .ok := by
  unfold walkLevel at h
  dsimp only at h
  split at h
  · cases h
  · rename_i memPte hread
    split at h
    · rename_i e hsrc
      obtain ⟨hmem, hmatch⟩ := chooseSource_matches c i _ _ ms e hsrc
      refine .inr ⟨e.pte, .inr ⟨e, hmem, hmatch, rfl⟩, (finishLevel_leaves _ _ _ _ _ _ _ _ h).1, fun x hx => ?_⟩
      rw [finishLevel_atc _ _ _ _ _ _ _ _ h] at hx
      rcases countStale_mem e x _ _ hx with hx | ⟨hx, he, -⟩
      · exact .inl hx
      · exact .inr (.inl ⟨e, he, hx⟩)
    · rename_i p hsrc
      rcases readPte_cases _ _ _ _ hread with ⟨hok, hp⟩ | ⟨-, hp⟩
      · obtain rfl := Option.some.inj hp
        refine .inr ⟨_, .inl ⟨hok, rfl⟩, (finishLevel_leaves _ _ _ _ _ _ _ _ h).1, fun x hx => ?_⟩
        rw [finishLevel_atc _ _ _ _ _ _ _ _ h] at hx
        rcases foldl_addEntry_mem hx with hx | hx
        · exact .inr (.inr ⟨hx, rfl, hok⟩)
        · exact .inl hx
      · cases hp
    · rcases readPte_cases _ _ _ _ hread with ⟨-, hp⟩ | ⟨hdenied, -⟩
      · cases hp
      · exact .inl ⟨hdenied, (Prod.mk.inj (Except.ok.inj h)).1.symm⟩

/-! ### What the levels of a walk leave -/

/-- An entry that a walk made above level `i`: it holds what memory holds, for a read that passes its checks. -/
def madeAbove (c : WalkCtx) (mem : List Host.Cell) (i : Nat) (e : AtcEntry) : Prop :=
  i < e.level ∧ e.pte = pteAt c.cfg c.scheme mem e.pteAddr ∧
    pmaCheck c.cfg e.pteAddr c.scheme.pteBytes .load .supervisor = .ok

/-- The memory system on the way of a walk that began at `ms₀` and has come to level `i`: memory is as it was, and the cache
has the entries from before, whatever their count of stale reads, and entries that the walk made above. -/
def onTheWay (c : WalkCtx) (ms₀ : MemSys) (i : Nat) (ms : MemSys) : Prop :=
  ms.mem = ms₀.mem ∧
  ∀ e ∈ ms.atc, (∃ e₀ ∈ ms₀.atc, ∃ n, e = { e₀ with staleReads := n }) ∨ madeAbove c ms₀.mem i e

theorem onTheWay_refl (c : WalkCtx) (i : Nat) (ms : MemSys) : onTheWay c ms i ms :=
  ⟨rfl, fun e he => .inl ⟨e, he, e.staleReads, rfl⟩⟩

/-- A PTE that a level on the way reads is one that the read had from the start: an entry made above serves a lower level by
its address alone, and there memory gives the same PTE. -/
theorem onTheWay.source {c : WalkCtx} {ms₀ ms : MemSys} {i : Nat} (h : onTheWay c ms₀ i ms) {addr : Nat} {pte : Word}
    (hs : pteSource c ms i addr pte) : pteSource c ms₀ i addr pte := by
  obtain ⟨hmem, hatc⟩ := h
  rcases hs with ⟨hok, hp⟩ | ⟨e, he, hm, hp⟩
  · exact .inl ⟨hok, by rw [hp, hmem]⟩
  · rcases hatc e he with ⟨e₀, he₀, n, rfl⟩ | ⟨hlevel, hpte, hok⟩
    · exact .inr ⟨e₀, he₀, hm, hp⟩
    · obtain ⟨-, hm⟩ := hm
      rcases hm with rfl | ⟨-, hi, -⟩
      · exact .inl ⟨hok, hp.trans hpte⟩
      · omega

/-- Above level 0 a read creates one entry, for the address read (R112, R202). -/
theorem createdEntries_succ (c : WalkCtx) (i addr : Nat) (g : Bool) (pte : Word) :
    createdEntries c (i + 1) addr g pte = [newEntry c (i + 1) addr g pte] := by
  simp [createdEntries, napotOk]

/-- The level below a pointer is on the way too. -/
theorem onTheWay.descend {c : WalkCtx} {ms₀ ms ms' : MemSys} {i base next : Nat} {g g' : Bool}
    (h : onTheWay c ms₀ (i + 1) ms) (hw : walkLevel c (i + 1) base g ms = .ok (.descend next g', ms')) :
    onTheWay c ms₀ i ms' := by
  obtain ⟨hmem, hatc⟩ := h
  have hmem' : ms'.mem = ms.mem := walkLevel_mem_same _ _ _ _ _ _ _ hw (by simp)
  refine ⟨hmem'.trans hmem, fun x hx => ?_⟩
  rcases walkLevel_cases _ _ _ _ _ _ _ hw with ⟨-, hr⟩ | ⟨pte, -, -, hcache⟩
  · cases hr
  · have old : ∀ e ∈ ms.atc, ∀ n, (∃ e₀ ∈ ms₀.atc, ∃ k, { e with staleReads := n } = { e₀ with staleReads := k }) ∨
        madeAbove c ms₀.mem i { e with staleReads := n } := by
      intro e he n
      rcases hatc e he with ⟨e₀, he₀, k, rfl⟩ | ⟨hlevel, hrest⟩
      · exact .inl ⟨e₀, he₀, n, rfl⟩
      · exact .inr ⟨Nat.lt_of_succ_lt hlevel, hrest⟩
    rcases hcache x hx with hx | ⟨e, he, rfl⟩ | ⟨hx, hpte, hok⟩
    · exact old x hx x.staleReads
    · exact old e he _
    · rw [createdEntries_succ, List.mem_singleton] at hx
      subst hx
      exact .inr ⟨Nat.lt_succ_self i, by rw [← hmem]; exact hpte, hok⟩

/-! ### A walk -/

/-- The walk came to a leaf, from the table `base` at level `i`, that gives this address and memory type. -/
def reachesLeaf (c : WalkCtx) (ms : MemSys) (i base pa : Nat) (mt : MemType) : Prop :=
  ∃ (j base' : Nat) (pte : Word) (u : Bool), walkReaches c ms i base j base' ∧ pteSource c ms j (pteAddress c j base') pte ∧
    levelResult c j (pteAddress c j base') pte = .leaf pa mt u

/-- The walk came to a table, from the table `base` at level `i`, whose PTE may not be read, or is refused (R153 to R168). -/
def reachesFault (c : WalkCtx) (ms : MemSys) (i base : Nat) (cause : Cause) : Prop :=
  ∃ j base' : Nat, walkReaches c ms i base j base' ∧
    (cause = accessFaultOf c.acc ∧ pmaCheck c.cfg (pteAddress c j base') c.scheme.pteBytes .load .supervisor = .denied ∨
      ∃ pte, pteSource c ms j (pteAddress c j base') pte ∧
        (cause = pageFaultOf c.acc ∧ levelResult c j (pteAddress c j base') pte = .pageFault ∨
          cause = accessFaultOf c.acc ∧ levelResult c j (pteAddress c j base') pte = .accessFault))

/-- What a walk's result says of where it came. -/
def walkSound (c : WalkCtx) (ms : MemSys) (i base : Nat) : Res MemSys (Nat × MemType) → Prop
  | .ok (pa, mt) _ => reachesLeaf c ms i base pa mt
  | .exc cause info _ => info = c.va ∧ reachesFault c ms i base cause
  | .stop _ => True

theorem walkReaches_self (c : WalkCtx) (ms : MemSys) (i base : Nat) : walkReaches c ms i base i base := by
  cases i
  · exact ⟨rfl, rfl⟩
  · exact .inl ⟨rfl, rfl⟩

/-- Where a walk comes from below a pointer, it comes from the pointer's table. -/
theorem walkSound_descend {c : WalkCtx} {ms : MemSys} {i base next : Nat} {g : Bool} {pte : Word}
    (hs : pteSource c ms (i + 1) (pteAddress c (i + 1) base) pte)
    (hl : levelResult c (i + 1) (pteAddress c (i + 1) base) pte = .descend next g) (r : Res MemSys (Nat × MemType))
    (h : walkSound c ms i next r) : walkSound c ms (i + 1) base r := by
  have up : ∀ j base', walkReaches c ms i next j base' → walkReaches c ms (i + 1) base j base' :=
    fun j base' hr => .inr ⟨pte, next, g, hs, hl, hr⟩
  cases r with
  | ok p m =>
    obtain ⟨j, base', q, u, hr, hrest⟩ := h
    exact ⟨j, base', q, u, up j base' hr, hrest⟩
  | exc cause info m =>
    obtain ⟨hinfo, j, base', hr, hrest⟩ := h
    exact ⟨hinfo, j, base', up j base' hr, hrest⟩
  | stop t => trivial

/-- At level 0 a pointer is refused (R155). -/
theorem levelResult_zero_ne_descend (c : WalkCtx) (addr : Nat) (pte : Word) (next : Nat) (g : Bool) :
    levelResult c 0 addr pte ≠ .descend next g := by
  simp only [levelResult, if_true]
  split_ifs <;> simp

/-- What a level that ends the walk says, at the table where it stands. -/
theorem afterLevel_sound (c : WalkCtx) (ms₀ ms ms' : MemSys) (i base : Nat) (g : Bool) (r : LevelResult)
    (next : Nat → Bool → MemSys → Res MemSys (Nat × MemType)) (hway : onTheWay c ms₀ i ms)
    (hw : walkLevel c i base g ms = .ok (r, ms')) (hr : ∀ b g', r ≠ .descend b g') :
    walkSound c ms₀ i base (afterLevel c next (.ok (r, ms'))) := by
  have hself := walkReaches_self c ms₀ i base
  rcases walkLevel_cases _ _ _ _ _ _ _ hw with ⟨hdenied, rfl⟩ | ⟨pte, hs, hlevel, -⟩
  · exact ⟨rfl, i, base, hself, .inl ⟨rfl, hdenied⟩⟩
  · have hsrc := hway.source hs
    cases r with
    | pageFault => exact ⟨rfl, i, base, hself, .inr ⟨pte, hsrc, .inl ⟨rfl, hlevel.symm⟩⟩⟩
    | accessFault => exact ⟨rfl, i, base, hself, .inr ⟨pte, hsrc, .inr ⟨rfl, hlevel.symm⟩⟩⟩
    | leaf pa mt u => exact ⟨i, base, pte, u, hself, hsrc, hlevel.symm⟩
    | descend b g' => exact absurd rfl (hr b g')

/-- A walk ends at a leaf that it came to, or raises at a table that it came to. -/
theorem walkFrom_sound (c : WalkCtx) (ms₀ : MemSys) : ∀ (i base : Nat) (g : Bool) (ms : MemSys), onTheWay c ms₀ i ms →
    walkSound c ms₀ i base (walkFrom c i base g ms) := by
  intro i
  induction i with
  | zero =>
    intro base g ms hway
    rw [walkFrom]
    cases hw : walkLevel c 0 base g ms with
    | error t => trivial
    | ok p =>
      obtain ⟨r, ms'⟩ := p
      refine afterLevel_sound c ms₀ ms ms' 0 base g r _ hway hw (fun b g' hr => ?_)
      rcases walkLevel_result _ _ _ _ _ _ _ hw with h | ⟨pte, h⟩
      · exact absurd (hr.symm.trans h) (by simp)
      · exact levelResult_zero_ne_descend c _ pte b g' (h.symm.trans hr)
  | succ i ih =>
    intro base g ms hway
    rw [walkFrom]
    cases hw : walkLevel c (i + 1) base g ms with
    | error t => trivial
    | ok p =>
      obtain ⟨r, ms'⟩ := p
      by_cases hr : ∃ b g', r = .descend b g'
      · obtain ⟨b, g', rfl⟩ := hr
        rcases walkLevel_cases _ _ _ _ _ _ _ hw with ⟨-, hf⟩ | ⟨pte, hs, hlevel, -⟩
        · cases hf
        · exact walkSound_descend (hway.source hs) hlevel.symm _ (ih b (g || g') ms' (hway.descend hw))
      · exact afterLevel_sound c ms₀ ms ms' (i + 1) base g r _ hway hw (fun b g' h => hr ⟨b, g', h⟩)

/-! ### What a leaf allows -/

/-- A leaf's address is in the page of its PTE, at the offset of the virtual address (R169). -/
theorem leafAddress_offset (sch : Scheme) (i : Nat) (pte va : Word) : leafAddress sch i pte va % 4096 = va.toNat % 4096 := by
  unfold leafAddress
  omega

/-- A level that ends at a leaf (R154, R165 to R169). -/
theorem levelResult_leaf (c : WalkCtx) (i addr : Nat) (pte : Word) (pa : Nat) (mt : MemType) (u : Bool)
    (h : levelResult c i addr pte = .leaf pa mt u) :
    pa = leafAddress c.scheme i pte c.va ∧ pteV pte = true ∧ (pteW pte = true → pteR pte = true) ∧ permOk c pte = true ∧
      (c.hwAd = false → needsUpdate c.acc pte = false) := by
  unfold levelResult at h
  split at h
  · cases h
  rename_i hbad
  simp only [Bool.or_eq_true, Bool.not_eq_true', Bool.and_eq_true, not_or, not_and, Bool.not_eq_true] at hbad
  obtain ⟨⟨hv, hrw⟩, -⟩ := hbad
  split at h
  · split at h <;> cases h
  split at h
  · cases h
  rename_i hperm
  split at h
  · cases h
  have hbase : pteV pte = true ∧ (pteW pte = true → pteR pte = true) ∧ permOk c pte = true := by
    refine ⟨by simpa using hv, fun hw => ?_, by simpa using hperm⟩
    cases hR : pteR pte
    · exact absurd hw (by simp [hrw hR])
    · rfl
  obtain ⟨hV, hRW, hP⟩ := hbase
  split at h
  · split at h
    · cases h
    rename_i hhw
    split at h
    · cases h
    · cases h; exact ⟨rfl, hV, hRW, hP, fun hf => absurd hf (by simpa using hhw)⟩
  · rename_i hn
    cases h; exact ⟨rfl, hV, hRW, hP, fun _ => by simpa using hn⟩

/-- `perm_ok` by mode and by kind of access (R165). -/
theorem permOk_spec (c : WalkCtx) (pte : Word) (h : permOk c pte = true) :
    (c.epriv = .user → pteU pte = true) ∧
    (c.epriv = .supervisor → pteU pte = true → c.acc ≠ .fetch ∧ c.sum = true) ∧
    (c.acc = .fetch → pteX pte = true) ∧ (c.acc = .store → pteW pte = true) ∧
    (c.acc = .load → pteR pte = true ∨ c.mxr = true ∧ pteX pte = true) := by
  rw [permOk, Bool.and_eq_true] at h
  obtain ⟨hmode, hacc⟩ := h
  refine ⟨fun hp => ?_, fun hp hu => ?_, fun ha => ?_, fun ha => ?_, fun ha => ?_⟩
  · simpa only [hp] using hmode
  · simp only [hp, hu] at hmode
    simpa using hmode
  · simpa only [ha] using hacc
  · simpa only [ha] using hacc
  · simpa only [ha, Bool.or_eq_true, Bool.and_eq_true] using hacc

theorem needsUpdate_false (acc : Access) (pte : Word) (h : needsUpdate acc pte = false) :
    pteA pte = true ∧ (acc = .store → pteD pte = true) := by
  simp only [needsUpdate, Bool.or_eq_false_iff, Bool.not_eq_false', Bool.and_eq_false_iff] at h
  obtain ⟨ha, hd⟩ := h
  refine ⟨ha, fun hs => ?_⟩
  subst hs
  simpa using hd

/-! ### The context of an access, and the statement -/

/-- The address of an access, at the width of its mode (R31, R33). -/
theorem State.narrow_eq (s : State) (p : Priv) (va : Word) :
    s.narrow p va =
      if s.cfg.sxlen = .rv32 ∨ p = .user ∧ (s.cfg.uxl = .narrow ∨ s.cfg.uxl = .writable ∧ s.sstatus.uxl = 1) then
        (va.setWidth 32).setWidth 64 else va := by
  have hux : s.uxl = 1 ↔ s.cfg.uxl = .narrow ∨ s.cfg.uxl = .writable ∧ s.sstatus.uxl = 1 := by
    unfold State.uxl
    cases s.cfg.uxl <;> simp
  cases hx : s.cfg.sxlen
  case rv32 => cases p <;> simp [State.narrow, State.xlenOf, State.uxlen, hx, cut]
  case rv64 =>
    cases p
    case user =>
      by_cases hu : s.uxl = 1
      · rw [if_pos (.inr ⟨rfl, hux.mp hu⟩)]
        simp only [State.narrow, State.xlenOf, State.uxlen, hx, if_pos hu, cut]
      · rw [if_neg (by rintro (h | ⟨-, h⟩); exacts [Xlen.noConfusion h, hu (hux.mpr h)])]
        simp only [State.narrow, State.xlenOf, State.uxlen, hx, if_neg hu, cut]
    all_goals simp [State.narrow, State.xlenOf, hx, cut]

/-- Under a page-based scheme a valid address is walked from the root, an invalid one raises (R150 to R152). -/
theorem translate_paged (c : WalkCtx) (ms : MemSys) (h : c.scheme ≠ .bare) :
    translate c ms =
      if vaValid c.scheme c.va then walkFrom c (c.scheme.levels - 1) (c.root * 4096) false ms
      else .exc (pageFaultOf c.acc) c.va ms := by
  unfold translate
  split
  · rename_i hb; exact absurd hb h
  · rfl

/-- What a translation's result says of where its walk came. -/
theorem translate_sound (c : WalkCtx) (ms : MemSys) (h : c.scheme ≠ .bare) :
    (vaValid c.scheme c.va = true ∧ walkSound c ms (c.scheme.levels - 1) (c.root * 4096) (translate c ms)) ∨
      vaValid c.scheme c.va = false ∧ translate c ms = .exc (pageFaultOf c.acc) c.va ms := by
  rw [translate_paged c ms h]
  cases hv : vaValid c.scheme c.va
  · exact .inr ⟨rfl, by simp⟩
  · exact .inl ⟨rfl, by simpa using walkFrom_sound c ms _ _ false ms (onTheWay_refl c _ ms)⟩

/-- Settles O56: the soundness of the walk, with what its leaf allows. -/
theorem translationSound : Obligations.TranslationSound := by
  unfold Obligations.TranslationSound
  refine ⟨fun s va acc p => ?_, fun c ms hb => ⟨fun ms' pa mt ht => ?_, fun cause info ms' ht => ?_⟩⟩
  · rw [← s.narrow_eq]; rfl
  · rcases translate_sound c ms hb with ⟨hv, hsound⟩ | ⟨-, he⟩
    · rw [ht] at hsound
      obtain ⟨i, base, pte, u, hreach, hsrc, hlevel⟩ := hsound
      obtain ⟨hpa, hV, hRW, hperm, had⟩ := levelResult_leaf c i _ pte pa mt u hlevel
      obtain ⟨huser, hsup, hfetch, hstore, hload⟩ := permOk_spec c pte hperm
      refine ⟨hv, hpa ▸ leafAddress_offset _ _ _ _, i, base, pte, u, hreach, hsrc, hlevel, hpa, hV, hRW, huser, hsup, hfetch,
        hstore, hload, fun hf => needsUpdate_false _ _ (had hf)⟩
    · rw [ht] at he; cases he
  · rcases translate_sound c ms hb with ⟨-, hsound⟩ | ⟨hv, he⟩
    · rw [ht] at hsound
      exact ⟨hsound.1, .inr hsound.2⟩
    · rw [ht] at he
      cases he
      exact ⟨rfl, .inl ⟨hv, rfl⟩⟩

end Sys2Proof.Machine
end

section
/-! PROOFS. Loads and stores that raise (O31): the exceptions of a piece, the first piece that fails, and what LW and SW make of
it. -/

namespace Sys2Proof.Machine

/-! ### The exceptions of a piece -/

/-- A translation raises the page fault or the access fault of its access kind, with its own address (R158). -/
theorem translate_exc (c : WalkCtx) (ms m : MemSys) (cause : Cause) (info : Word) (h : translate c ms = .exc cause info m) :
    (cause = pageFaultOf c.acc ∨ cause = accessFaultOf c.acc) ∧ info = c.va := by
  by_cases hb : c.scheme = .bare
  · rw [translate_bare c ms hb] at h; cases h
  · rcases translate_sound c ms hb with ⟨-, hs⟩ | ⟨-, he⟩
    · rw [h] at hs
      obtain ⟨hinfo, i, base, -, ⟨hc, -⟩ | ⟨pte, -, ⟨hc, -⟩ | ⟨hc, -⟩⟩⟩ := hs
      · exact ⟨.inr hc, hinfo⟩
      · exact ⟨.inl hc, hinfo⟩
      · exact ⟨.inr hc, hinfo⟩
    · rw [h] at he
      cases he
      exact ⟨.inl rfl, rfl⟩

/-- Locating an access raises the same two, the access fault for its own check too (R158, R327). -/
theorem locate_exc (c : WalkCtx) (n : Nat) (ms m : MemSys) (cause : Cause) (info : Word) (h : locate c n ms = .exc cause info m) :
    (cause = pageFaultOf c.acc ∨ cause = accessFaultOf c.acc) ∧ info = c.va := by
  unfold locate at h
  split at h
  · unfold checkAccess at h
    split at h
    · cases h
    · cases h; exact ⟨.inr rfl, rfl⟩
    · split at h <;> cases h
  · rename_i ht
    cases h
    exact translate_exc c ms m cause info ht
  · cases h

/-- Reaching a piece raises these, and for a piece of a split access to a page with PBMT=IO what the configuration says
(R207); always with the piece's own address. -/
theorem reach_exc (c : WalkCtx) (isPiece : Bool) (n : Nat) (ms m : MemSys) (cause : Cause) (info : Word)
    (h : reach c isPiece n ms = .exc cause info m) :
    (cause = pageFaultOf c.acc ∨ cause = accessFaultOf c.acc ∨ isPiece = true ∧ ioMisalignedCause c.cfg c.acc = some cause) ∧
      info = c.va := by
  unfold reach at h
  split at h
  · split at h
    · rename_i hio
      cases h
      split at hio
      · rename_i hp
        exact ⟨.inr (.inr ⟨(Bool.and_eq_true_iff.mp hp).1, hio⟩), rfl⟩
      · cases hio
    · split at h <;> cases h
  · rename_i hl
    cases h
    obtain ⟨hc, hi⟩ := locate_exc c n ms m cause info hl
    exact ⟨hc.imp id .inl, hi⟩
  · cases h

theorem ioMisalignedCause_kind (c : Config) (acc : Access) (cause : Cause) (h : ioMisalignedCause c acc = some cause) :
    cause = accessFaultOf acc ∨ cause = (if acc = .store then .storeMisaligned else .loadMisaligned) := by
  unfold ioMisalignedCause at h
  split at h
  · cases h
  · exact .inr (Option.some.inj h).symm
  · exact .inl (Option.some.inj h).symm

/-- A piece of a load raises one of the three exceptions of loads. -/
theorem reach_exc_load (c : WalkCtx) (n : Nat) (ms m : MemSys) (cause : Cause) (info : Word) (ha : c.acc = .load)
    (h : reach c true n ms = .exc cause info m) :
    info = c.va ∧ cause ∈ [Cause.loadMisaligned, Cause.loadAccess, Cause.loadPage] := by
  obtain ⟨hc, hi⟩ := reach_exc c true n ms m cause info h
  refine ⟨hi, ?_⟩
  rw [ha] at hc
  rcases hc with rfl | rfl | ⟨-, hio⟩
  · simp [pageFaultOf]
  · simp [accessFaultOf]
  · rcases ioMisalignedCause_kind _ _ _ hio with rfl | rfl <;> simp [accessFaultOf]

/-- A piece of a store raises one of the three exceptions of stores. -/
theorem reach_exc_store (c : WalkCtx) (n : Nat) (ms m : MemSys) (cause : Cause) (info : Word) (ha : c.acc = .store)
    (h : reach c true n ms = .exc cause info m) :
    info = c.va ∧ cause ∈ [Cause.storeMisaligned, Cause.storeAccess, Cause.storePage] := by
  obtain ⟨hc, hi⟩ := reach_exc c true n ms m cause info h
  refine ⟨hi, ?_⟩
  rw [ha] at hc
  rcases hc with rfl | rfl | ⟨-, hio⟩
  · simp [pageFaultOf]
  · simp [accessFaultOf]
  · rcases ioMisalignedCause_kind _ _ _ hio with rfl | rfl <;> simp [accessFaultOf]

/-! ### The first piece that fails -/

theorem loadPiece_exc_iff (c : WalkCtx) (isPiece : Bool) (n : Nat) (ms m : MemSys) (cause : Cause) (info : Word) :
    loadPiece c isPiece n ms = .exc cause info m ↔ reach c isPiece n ms = .exc cause info m := by
  unfold loadPiece
  cases reach c isPiece n ms <;> simp

theorem storePiece_exc_iff (c : WalkCtx) (isPiece : Bool) (bs : List Byte) (ms m : MemSys) (cause : Cause) (info : Word) :
    storePiece c isPiece bs ms = .exc cause info m ↔ reach c isPiece bs.length ms = .exc cause info m := by
  unfold storePiece
  cases reach c isPiece bs.length ms <;> simp

section
variable (cause : Cause) (info : Word) (m : MemSys)

/-- The pieces of a load raise where the first one does, or the others after it. -/
theorem loadPieces_cons_exc (c : WalkCtx) (cs : List WalkCtx) (ms : MemSys) :
    loadPieces (c :: cs) ms = .exc cause info m ↔
      reach c true 1 ms = .exc cause info m ∨
        ∃ b ms', loadPiece c true 1 ms = .ok b ms' ∧ loadPieces cs ms' = .exc cause info m := by
  rw [← loadPiece_exc_iff, loadPieces]
  cases hp : loadPiece c true 1 ms with
  | ok b ms' => cases hl : loadPieces cs ms' <;> simp [hl]
  | exc x y z => simp
  | stop t => simp

theorem loadPieces_cons_ok (c : WalkCtx) (cs : List WalkCtx) (ms : MemSys) (bs : List Byte) :
    loadPieces (c :: cs) ms = .ok bs m ↔
      ∃ b ms' bs', loadPiece c true 1 ms = .ok b ms' ∧ loadPieces cs ms' = .ok bs' m ∧ b ++ bs' = bs := by
  rw [loadPieces]
  cases hp : loadPiece c true 1 ms with
  | ok b ms' => cases hl : loadPieces cs ms' <;> simp [hl, and_comm]
  | exc x y z => simp
  | stop t => simp

/-- The pieces of a load raise where the first one that fails raises, after those before it (R83, R127). -/
theorem loadPieces_exc_iff : ∀ (l : List WalkCtx) (ms : MemSys),
    loadPieces l ms = .exc cause info m ↔
      ∃ l1 c l2 bs1 m1, l = l1 ++ c :: l2 ∧ loadPieces l1 ms = .ok bs1 m1 ∧ reach c true 1 m1 = .exc cause info m := by
  intro l
  induction l with
  | nil => intro ms; simp [loadPieces]
  | cons c cs ih =>
    intro ms
    rw [loadPieces_cons_exc]
    constructor
    · rintro (hr | ⟨b, ms', hp, h⟩)
      · exact ⟨[], c, cs, [], ms, rfl, rfl, hr⟩
      · obtain ⟨l1, c', l2, bs1, m1, rfl, hok, hr⟩ := (ih ms').mp h
        exact ⟨c :: l1, c', l2, b ++ bs1, m1, rfl, (loadPieces_cons_ok m1 c l1 ms _).mpr ⟨b, ms', bs1, hp, hok, rfl⟩, hr⟩
    · rintro ⟨l1, c', l2, bs1, m1, hl, hok, hr⟩
      cases l1 with
      | nil =>
        obtain ⟨rfl, rfl⟩ := List.cons.inj hl
        cases hok
        exact .inl hr
      | cons d l1 =>
        obtain ⟨rfl, rfl⟩ := List.cons.inj hl
        obtain ⟨b, ms', bs', hp, hok', -⟩ := (loadPieces_cons_ok m1 _ l1 ms _).mp hok
        exact .inr ⟨b, ms', hp, (ih ms').mpr ⟨l1, c', l2, bs', m1, rfl, hok', hr⟩⟩

/-- The pieces of a store raise where the first one does, or the others after it. -/
theorem storePieces_cons_exc (c : WalkCtx) (b : Byte) (cs : List (WalkCtx × Byte)) (ms : MemSys) :
    storePieces ((c, b) :: cs) ms = .exc cause info m ↔
      reach c true 1 ms = .exc cause info m ∨
        ∃ ms', storePiece c true [b] ms = .ok () ms' ∧ storePieces cs ms' = .exc cause info m := by
  have hfirst := storePiece_exc_iff c true [b] ms m cause info
  rw [List.length_singleton] at hfirst
  rw [← hfirst, storePieces]
  cases hp : storePiece c true [b] ms <;> simp

theorem storePieces_cons_ok (c : WalkCtx) (b : Byte) (cs : List (WalkCtx × Byte)) (ms : MemSys) :
    storePieces ((c, b) :: cs) ms = .ok () m ↔
      ∃ ms', storePiece c true [b] ms = .ok () ms' ∧ storePieces cs ms' = .ok () m := by
  rw [storePieces]
  cases hp : storePiece c true [b] ms <;> simp

/-- The pieces of a store raise where the first one that fails raises, and those before it stay stored (R83, R127). -/
theorem storePieces_exc_iff : ∀ (l : List (WalkCtx × Byte)) (ms : MemSys),
    storePieces l ms = .exc cause info m ↔
      ∃ l1 c b l2 m1, l = l1 ++ (c, b) :: l2 ∧ storePieces l1 ms = .ok () m1 ∧ reach c true 1 m1 = .exc cause info m := by
  intro l
  induction l with
  | nil => intro ms; simp [storePieces]
  | cons e cs ih =>
    obtain ⟨c, b⟩ := e
    intro ms
    rw [storePieces_cons_exc]
    constructor
    · rintro (hr | ⟨ms', hp, h⟩)
      · exact ⟨[], c, b, cs, ms, rfl, rfl, hr⟩
      · obtain ⟨l1, c', b', l2, m1, rfl, hok, hr⟩ := (ih ms').mp h
        exact ⟨(c, b) :: l1, c', b', l2, m1, rfl, (storePieces_cons_ok m1 c b l1 ms).mpr ⟨ms', hp, hok⟩, hr⟩
    · rintro ⟨l1, c', b', l2, m1, hl, hok, hr⟩
      cases l1 with
      | nil =>
        obtain ⟨he, rfl⟩ := List.cons.inj hl
        obtain ⟨rfl, rfl⟩ := Prod.mk.inj he
        cases hok
        exact .inl hr
      | cons d l1 =>
        obtain ⟨rfl, rfl⟩ := List.cons.inj hl
        obtain ⟨ms', hp, hok'⟩ := (storePieces_cons_ok m1 c b l1 ms).mp hok
        exact .inr ⟨ms', hp, (ih ms').mpr ⟨l1, c', b', l2, m1, rfl, hok', hr⟩⟩

end

/-! ### LW and SW -/

/-- LW takes the exception that its load raises, the memory system kept as the load left it (R327, R332). -/
theorem exec_lw_exc (s : State) (rd rs1 : RegId) (imm : BitVec 12) (cause : Cause) (info : Word) (m : MemSys)
    (h : s.loadBytes (s.effectiveAddress rs1 imm) 4 = .exc cause info m) :
    exec (.lw rd rs1 imm) s = .next ({ s with ms := m }.takeException cause info) := by
  show execLw rd rs1 imm s = _
  simp only [execLw, State.loadWord, h, State.withMs]

/-- The bytes that SW stores, in the byte order of its effective privilege (R121, R333). -/
def State.storedBytes (s : State) (rs2 : RegId) : List Byte :=
  splitBytes (s.bigEndian s.effectivePriv) 4 ((s.reg rs2).setWidth 32).toNat

theorem State.storedBytes_length (s : State) (rs2 : RegId) : (s.storedBytes rs2).length = 4 := splitBytes_length _ _ _

/-- SW takes the exception that its store raises (R327, R333). -/
theorem exec_sw_exc (s : State) (rs2 rs1 : RegId) (imm : BitVec 12) (cause : Cause) (info : Word) (m : MemSys)
    (h : s.storeBytes (s.effectiveAddress rs1 imm) (s.storedBytes rs2) = .exc cause info m) :
    exec (.sw rs2 rs1 imm) s = .next ({ s with ms := m }.takeException cause info) := by
  have h' : s.storeBytes (s.effectiveAddress rs1 imm)
      (splitBytes (s.bigEndian s.effectivePriv) 4 ((s.reg rs2).setWidth 32).toNat) = .exc cause info m := h
  show execSw rs2 rs1 imm s = _
  simp only [execSw, State.storeWord, h', State.withMs]

section
variable (s : State) (va : Word) (bs : List Byte) (n : Nat)

theorem State.loadBytes_aligned (h : (s.narrow s.effectivePriv va).toNat % n = 0) :
    s.loadBytes va n = loadPiece (s.walkCtx va .load s.effectivePriv) false n s.ms := if_pos h

theorem State.loadBytes_trap (h : (s.narrow s.effectivePriv va).toNat % n ≠ 0) (hp : s.cfg.misaligned = .trap) :
    s.loadBytes va n = .exc .loadMisaligned (s.narrow s.effectivePriv va) s.ms := by
  refine (if_neg h).trans ?_
  rw [hp]; rfl

theorem State.loadBytes_split_exc (up : Bool) (cause : Cause) (info : Word) (m : MemSys)
    (h : (s.narrow s.effectivePriv va).toNat % n ≠ 0) (hp : s.cfg.misaligned = .split up)
    (he : loadPieces (inOrder up (s.pieces va n .load)) s.ms = .exc cause info m) :
    s.loadBytes va n = .exc cause info m := by
  refine (if_neg h).trans ?_
  simp only [hp, he]

theorem State.storeBytes_aligned (h : (s.narrow s.effectivePriv va).toNat % bs.length = 0) :
    s.storeBytes va bs = storePiece (s.walkCtx va .store s.effectivePriv) false bs s.ms := if_pos h

theorem State.storeBytes_trap (h : (s.narrow s.effectivePriv va).toNat % bs.length ≠ 0) (hp : s.cfg.misaligned = .trap) :
    s.storeBytes va bs = .exc .storeMisaligned (s.narrow s.effectivePriv va) s.ms := by
  refine (if_neg h).trans ?_
  rw [hp]; rfl

theorem State.storeBytes_split (up : Bool) (h : (s.narrow s.effectivePriv va).toNat % bs.length ≠ 0)
    (hp : s.cfg.misaligned = .split up) :
    s.storeBytes va bs = storePieces (inOrder up ((s.pieces va bs.length .store).zip bs)) s.ms := by
  refine (if_neg h).trans ?_
  simp only [hp]

end

/-- A member of a list in address order or turned round is a member of the list. -/
theorem mem_inOrder {α : Type} {up : Bool} {l : List α} {a : α} (h : a ∈ inOrder up l) : a ∈ l := by
  unfold inOrder at h
  split at h
  · exact h
  · exact List.mem_reverse.mp h

/-- The `k`-th byte of a 32-bit value, the least significant first. -/
theorem littleBytes_word (w : Word) :
    littleBytes 4 (w.setWidth 32).toNat =
      [w.extractLsb' 0 8, w.extractLsb' 8 8, w.extractLsb' 16 8, w.extractLsb' 24 8] := by
  have hbyte : ∀ k, k < 4 → BitVec.ofNat 8 ((w.setWidth 32).toNat / 256 ^ k) = w.extractLsb' (8 * k) 8 := by
    intro k hk
    apply BitVec.eq_of_toNat_eq
    rw [BitVec.toNat_ofNat, BitVec.extractLsb'_toNat, Nat.shiftRight_eq_div_pow, BitVec.toNat_setWidth]
    interval_cases k <;> omega
  have h0 := hbyte 0 (by decide)
  have h1 := hbyte 1 (by decide)
  have h2 := hbyte 2 (by decide)
  have h3 := hbyte 3 (by decide)
  simp only [littleBytes, Nat.div_div_eq_div_mul]
  simp only [← h0, ← h1, ← h2, ← h3]
  norm_num

/-- The bytes that SW stores, by their place in memory (R121, R333). -/
theorem splitBytes_word (big : Bool) (w : Word) :
    splitBytes big 4 (w.setWidth 32).toNat =
      (List.range 4).map (fun k => w.extractLsb' (if big then 8 * (3 - k) else 8 * k) 8) := by
  unfold splitBytes
  rw [littleBytes_word]
  cases big <;> rfl

/-- The pieces of a split SW, each with its byte. -/
theorem State.pieces_zip (s : State) (va : Word) (rs2 : RegId) :
    (s.pieces va (s.storedBytes rs2).length .store).zip (s.storedBytes rs2) =
      (List.range 4).map (fun k => (s.walkCtx (va + BitVec.ofNat 64 k) .store s.effectivePriv,
        (s.reg rs2).extractLsb' (if s.bigEndian s.effectivePriv then 8 * (3 - k) else 8 * k) 8)) := by
  rw [s.storedBytes_length, State.storedBytes, splitBytes_word, State.pieces, List.zip_map']

/-- Settles O31: the trap of a misaligned access, an aligned access that raises, and the first portion of a split one that
does. -/
theorem faultingAccessTraps : Obligations.FaultingAccessTraps := by
  unfold Obligations.FaultingAccessTraps
  refine ⟨?trap, ?load, ?store, ?loadSplit, ?storeSplit⟩
  case trap =>
    rintro r rs1 imm s p va rfl rfl hva hp
    refine ⟨exec_lw_exc s r rs1 imm _ _ s.ms (s.loadBytes_trap _ 4 hva hp), exec_sw_exc s r rs1 imm _ _ s.ms ?_⟩
    exact s.storeBytes_trap _ _ (by rw [s.storedBytes_length]; exact hva) hp
  case load =>
    rintro rd rs1 imm s p c cause info m rfl rfl hva hr
    obtain ⟨hc, hi⟩ := reach_exc _ false 4 s.ms m cause info hr
    refine ⟨exec_lw_exc s rd rs1 imm cause info m ?_, ?_, hi⟩
    · rw [s.loadBytes_aligned _ 4 hva]
      exact (loadPiece_exc_iff _ _ _ _ _ _ _).mpr hr
    · rcases hc with h | h | ⟨h, -⟩
      · exact .inl h
      · exact .inr h
      · cases h
  case store =>
    rintro rs2 rs1 imm s p c cause info m rfl rfl hva hr
    obtain ⟨hc, hi⟩ := reach_exc _ false 4 s.ms m cause info hr
    refine ⟨exec_sw_exc s rs2 rs1 imm cause info m ?_, ?_, hi⟩
    · rw [s.storeBytes_aligned _ _ (by rw [s.storedBytes_length]; exact hva), storePiece_exc_iff, s.storedBytes_length]
      exact hr
    · rcases hc with h | h | ⟨h, -⟩
      · exact .inl h
      · exact .inr h
      · cases h
  case loadSplit =>
    rintro rd rs1 imm s p l up cause info m rfl hva hp rfl
    have hiff := loadPieces_exc_iff cause info m (inOrder up (s.pieces (s.effectiveAddress rs1 imm) 4 .load)) s.ms
    refine ⟨hiff, fun l1 l2 c bs1 m1 hl hok hr => ⟨?_, ?_⟩⟩
    · exact exec_lw_exc s rd rs1 imm cause info m
        (s.loadBytes_split_exc _ 4 up cause info m hva hp (hiff.mpr ⟨l1, c, l2, bs1, m1, hl, hok, hr⟩))
    · have hmem : c ∈ inOrder up (s.pieces (s.effectiveAddress rs1 imm) 4 .load) := by
        rw [show inOrder up (s.pieces (s.effectiveAddress rs1 imm) 4 .load) = l1 ++ c :: l2 from hl]; simp
      obtain ⟨k, -, rfl⟩ := List.mem_map.mp (mem_inOrder hmem)
      exact reach_exc_load _ 1 m1 m cause info rfl hr
  case storeSplit =>
    intro rs2 rs1 imm s p big l up cause info m hpriv hbig hva hp hl
    have hbig' : big = s.bigEndian p := by rw [hbig]; cases p <;> rfl
    subst hbig' hpriv
    have hpieces := s.pieces_zip (s.effectiveAddress rs1 imm) rs2
    refine ⟨storePieces_exc_iff cause info m l s.ms, fun l1 l2 c b m1 hl' hok hr => ⟨?_, ?_⟩⟩
    · refine exec_sw_exc s rs2 rs1 imm cause info m ?_
      rw [s.storeBytes_split _ _ up (by rw [s.storedBytes_length]; exact hva) hp, hpieces]
      refine Eq.trans ?_ ((storePieces_exc_iff cause info m l s.ms).mpr ⟨l1, c, b, l2, m1, hl', hok, hr⟩)
      rw [hl]
      rfl
    · have hmem : (c, b) ∈ l := by rw [hl']; simp
      rw [hl] at hmem
      obtain ⟨k, -, hk⟩ := List.mem_map.mp (mem_inOrder hmem)
      obtain ⟨rfl, -⟩ := Prod.mk.inj hk
      exact reach_exc_store _ 1 m1 m cause info rfl hr

end Sys2Proof.Machine
end

section
/-! PROOFS. A word that the decoder reads is in its instruction's row (R224), and what a fetch brings or raises. -/

namespace Sys2Proof.Machine

/-! ### The row of a decoded word -/

/-- A word is made of its fields (R222). -/
theorem packWord_fields (w : BitVec 32) :
    packWord (wordField w 25 7) (wordField w 20 5) (wordField w 15 5) (wordField w 12 3) (wordField w 7 5) (wordField w 0 7) =
      w := by
  apply BitVec.eq_of_getLsbD_eq
  intro k hk
  rw [packWord_bit]
  split_ifs <;> (rw [wordField_bit _ _ _ _ (by omega)]; congr 1; omega)

/-- The opcode and funct3 of a word under the mask that keeps them. -/
theorem and_opcode_mask (w : BitVec 32) : w &&& 0x0000707F = packWord 0 0 0 (wordField w 12 3) 0 (wordField w 0 7) := by
  conv_lhs => rw [← packWord_fields w]
  exact Laws.TableRow.packed_opcode _ _ _ _ _ _

/-- A SYSTEM word with funct3=000 and rd=x0 is in the row of what it decodes to (R225). -/
theorem decodePrivileged_row (f7 : BitVec 7) (rs2 rs1 : BitVec 5) (i : Instr) (h : decodePrivileged f7 rs2 rs1 = some i) :
    packWord f7 rs2 rs1 0 0 opSystem &&& (tableRow i).1 = (tableRow i).2 := by
  unfold decodePrivileged at h
  split at h
  · rename_i h7; subst h7
    split at h
    · rename_i hr; obtain ⟨rfl, rfl⟩ := hr; cases h; decide
    · split at h
      · rename_i hr; obtain ⟨rfl, rfl⟩ := hr; cases h; decide
      · cases h
  split at h
  · rename_i h7; subst h7
    split at h
    · rename_i hr; obtain ⟨rfl, rfl⟩ := hr; cases h; decide
    · cases h
  split at h
  · rename_i h7; subst h7; cases h
    exact (Laws.TableRow.packed_privileged _ _ _ _ _ _).trans rfl
  split at h
  · rename_i h7; subst h7; cases h
    exact (Laws.TableRow.packed_privileged _ _ _ _ _ _).trans rfl
  split at h
  · rename_i h7; subst h7
    split at h
    · rename_i hr; obtain ⟨rfl, rfl⟩ := hr; cases h; decide
    · split at h
      · rename_i hr; obtain ⟨rfl, rfl⟩ := hr; cases h; decide
      · cases h
  split at h
  · rename_i h7; subst h7; cases h
    exact (Laws.TableRow.packed_privileged _ _ _ _ _ _).trans rfl
  split at h
  · rename_i h7; subst h7; cases h
    exact (Laws.TableRow.packed_privileged _ _ _ _ _ _).trans rfl
  · cases h

theorem decodeSystem_row (w : BitVec 32) (i : Instr) (hop : wordField w 0 7 = opSystem) (h : decodeSystem w = some i) :
    w &&& (tableRow i).1 = (tableRow i).2 := by
  have hcsr := and_opcode_mask w
  rw [hop] at hcsr
  unfold decodeSystem at h
  dsimp only at h
  split at h
  · rename_i h3
    split at h
    · rename_i hrd
      have hrow := decodePrivileged_row _ _ _ i h
      rw [← packWord_fields w, hop, h3, hrd]
      exact hrow
    · cases h
  split at h
  · rename_i h3; cases h; rw [h3] at hcsr; exact hcsr
  split at h
  · rename_i h3; cases h; rw [h3] at hcsr; exact hcsr
  split at h
  · rename_i h3; cases h; rw [h3] at hcsr; exact hcsr
  split at h
  · rename_i h3; cases h; rw [h3] at hcsr; exact hcsr
  split at h
  · rename_i h3; cases h; rw [h3] at hcsr; exact hcsr
  split at h
  · rename_i h3; cases h; rw [h3] at hcsr; exact hcsr
  · cases h

theorem decodeWord_row (w : BitVec 32) (i : Instr) (h : decodeWord w = some i) : w &&& (tableRow i).1 = (tableRow i).2 := by
  have hmask := and_opcode_mask w
  unfold decodeWord at h
  dsimp only at h
  split at h
  · rename_i hop; exact decodeSystem_row w i hop h
  split at h
  · rename_i hf; cases h; rw [hf.1, hf.2] at hmask; exact hmask
  split at h
  · rename_i hf; cases h; rw [hf.1, hf.2] at hmask; exact hmask
  split at h
  · rename_i hf; cases h; rw [hf.1, hf.2] at hmask; exact hmask
  split at h
  · rename_i hf; cases h; rw [hf.1, hf.2] at hmask; exact hmask
  · cases h

/-- A word in no row decodes to nothing (R224, R227). -/
theorem instrOf_none_of_no_row (w : BitVec 32) (h : ∀ i, w &&& (tableRow i).1 ≠ (tableRow i).2) : instrOf w = none := by
  rw [instrOf_eq]
  split_ifs
  · rfl
  · rfl
  · cases hd : decodeWord w with
    | none => rfl
    | some i => exact absurd (decodeWord_row w i hd) (h i)

/-! ### Words that no row has -/

/-- Words that agree in a mask's bits agree in those of a smaller mask. -/
theorem and_of_and {n : Nat} {w m m' v : BitVec n} (h : w &&& m = v) (hm : m &&& m' = m') : w &&& m' = v &&& m' := by
  rw [← h, BitVec.and_assoc, hm]

theorem lengthBits_of_and {w m v : BitVec 32} (h : w &&& m = v) (hm : m &&& 3 = 3) : w.extractLsb' 0 2 = v.extractLsb' 0 2 := by
  have h3 := and_of_and h hm
  apply BitVec.eq_of_getLsbD_eq
  intro k hk
  have hb := congrArg (fun x => x.getLsbD k) h3
  simp only [BitVec.getLsbD_and] at hb
  rw [BitVec.getLsbD_extractLsb', BitVec.getLsbD_extractLsb', Nat.zero_add]
  interval_cases k <;> simpa using hb

/-- CBO.FLUSH is among the words of Zicbom, and has the length bits of a 32-bit instruction. -/
theorem foreignWord_flush (c : Config) (w : BitVec 32) (hz : c.ext.zicbom = true) (hw : flushWord w = true) :
    foreignWord c w = true ∧ w.extractLsb' 0 2 = 3 := by
  have hw' : w &&& 0xFFF07FFF#32 = 0x0020200F#32 := beq_iff_eq.mp hw
  refine ⟨?_, (lengthBits_of_and hw' (by decide)).trans (by decide)⟩
  rw [foreignWord, Bool.or_eq_true, List.any_eq_true]
  refine .inl ⟨(0xFFF07FFF, 0x0020200F), ?_, hw⟩
  rw [List.mem_append]
  refine .inr ?_
  simp only [extensionWords, List.mem_append, hz, if_true, List.mem_cons]
  tauto

theorem lpadWord_false {w m v : BitVec 32} (h : w &&& m = v) (hm : m &&& 0x7F = 0x7F) (hv : v &&& 0x7F ≠ 0x17) :
    lpadWord w = false := by
  rw [lpadWord, beq_eq_false_iff_ne]
  intro hl
  exact hv ((and_of_and h hm).symm.trans (and_of_and hl (by decide)))

theorem flushWord_false {w m v : BitVec 32} (h : w &&& m = v) (hm : m &&& 0x7F = 0x7F) (hv : v &&& 0x7F ≠ 0x0F) :
    flushWord w = false := by
  rw [flushWord, beq_eq_false_iff_ne]
  intro hl
  exact hv ((and_of_and h hm).symm.trans (and_of_and hl (by decide)))

/-! ### What a fetch raises -/

theorem State.fetchBytes_exc (s : State) (va : Word) (n : Nat) (ms m : MemSys) (cause : Cause) (info : Word)
    (h : s.fetchBytes va n ms = .exc cause info m) :
    info = s.narrow s.priv va ∧ cause ∈ [Cause.instrAccess, Cause.instrPage] := by
  unfold State.fetchBytes at h
  split at h
  · cases h
  · rename_i hr
    cases h
    obtain ⟨hc, hi⟩ := reach_exc _ false n ms m cause info hr
    refine ⟨hi, ?_⟩
    rcases hc with rfl | rfl | ⟨hf, -⟩
    · simp [State.walkCtx, pageFaultOf]
    · simp [State.walkCtx, accessFaultOf]
    · cases hf
  · cases h

theorem State.fetchSecond_exc (s : State) (low : Nat) (ms m : MemSys) (cause : Cause) (info : Word) :
    s.fetchSecond low ms = .exc cause info m ↔ s.fetchBytes (s.pc + 2) 2 ms = .exc cause info m := by
  unfold State.fetchSecond
  cases s.fetchBytes (s.pc + 2) 2 ms <;> simp

/-- A fetch raises an instruction page fault or access fault (R158, R221). -/
theorem State.fetch_exc (s u : State) (cause : Cause) (info : Word) (h : s.fetch = .exc cause info u) :
    cause ∈ [Cause.instrAccess, Cause.instrPage] := by
  have hwhole : ∀ m, s.fetchWhole = .exc cause info m → cause ∈ [Cause.instrAccess, Cause.instrPage] := by
    intro m hw
    unfold State.fetchWhole at hw
    split at hw
    · cases hw
    · rename_i hb; cases hw; exact (s.fetchBytes_exc _ _ _ _ _ _ hb).2
    · cases hw
  have hparcels : ∀ m, s.fetchParcels = .exc cause info m → cause ∈ [Cause.instrAccess, Cause.instrPage] := by
    intro m hw
    unfold State.fetchParcels at hw
    split at hw
    · split at hw
      · cases hw
      · exact (s.fetchBytes_exc _ _ _ _ _ _ ((s.fetchSecond_exc _ _ _ _ _).mp hw)).2
    · rename_i hb; cases hw; exact (s.fetchBytes_exc _ _ _ _ _ _ hb).2
    · cases hw
  unfold State.fetch at h
  split at h
  · cases hw : s.fetchWhole <;> rw [hw] at h <;> cases h
    exact hwhole _ hw
  · cases hw : s.fetchParcels <;> rw [hw] at h <;> cases h
    exact hparcels _ hw

theorem State.pcAligned_iff (s : State) : s.pcAligned = true ↔ s.pc.toNat % (if s.align16 then 2 else 4) = 0 := beq_iff_eq

/-- The second parcel of an instruction raises for the instruction (R84, R221). -/
theorem State.fetch_second_exc (e : State) (low : Nat) (m m' : MemSys) (cause : Cause) (info : Word)
    (hp : e.align16 = true ∧ low % 4 = 3 ∨ e.align16 = false ∧ e.pc.toNat % 4 ≠ 0) (h1 : e.fetchBytes e.pc 2 e.ms = .ok low m)
    (h2 : e.fetchBytes (e.pc + 2) 2 m = .exc cause info m') : e.fetch = .exc cause info { e with ms := m' } := by
  have hhalf : (e.align16 && low % 4 != 3) = false := by
    rcases hp with ⟨-, hl⟩ | ⟨ha, -⟩ <;> simp [*]
  have hwhole : (!e.align16 && e.pcAligned) = false := by
    rcases hp with ⟨ha, -⟩ | ⟨ha, hpc⟩
    · simp [ha]
    · have : e.pcAligned = false := by
        rw [Bool.eq_false_iff, ne_eq, e.pcAligned_iff, ha]
        exact hpc
      simp [this]
  have hparcels : e.fetchParcels = .exc cause info m' := by
    simp only [State.fetchParcels, h1, hhalf, Bool.false_eq_true, if_false]
    exact (e.fetchSecond_exc low m m' cause info).mpr h2
  simp only [State.fetch, hwhole, Bool.false_eq_true, if_false, hparcels, State.withMs]

/-- A 16-bit parcel that a fetch brings is no part of a longer instruction (R220). -/
theorem State.fetch_half (s u : State) (h : BitVec 16) (hf : s.fetch = .ok (.half h) u) : h.toNat % 4 ≠ 3 := by
  have hparcels : ∀ m, s.fetchParcels = .ok (.half h) m → h.toNat % 4 ≠ 3 := by
    intro m hp
    unfold State.fetchParcels at hp
    split at hp
    · split at hp
      · rename_i hc
        cases hp
        simp only [Bool.and_eq_true, bne_iff_ne] at hc
        rw [BitVec.toNat_ofNat]
        omega
      · unfold State.fetchSecond at hp
        split at hp <;> cases hp
    · cases hp
    · cases hp
  unfold State.fetch at hf
  split at hf
  · cases hw : s.fetchWhole <;> rw [hw] at hf <;> cases hf
    unfold State.fetchWhole at hw
    split at hw <;> cases hw
  · cases hw : s.fetchParcels <;> rw [hw] at hf <;> cases hf
    exact hparcels _ hw

end Sys2Proof.Machine
end

section
/-! PROOFS. The exceptions of the fetch and of the decoder (O7). -/

namespace Sys2Proof.Machine

/-! ### A step that fetches -/

/-- Where no interrupt is due and the other agents' turn goes on, a step fetches (R231). -/
theorem step_eq_runNext (s : State) (hi : s.immediateInterrupt = none) (hs : s.environmentStop = none)
    (hn : s.environmentTurn.selectInterrupt = none) : step s = s.environmentTurn.runNext := by
  simp only [step, State.advanceHart, hi, hs, State.proceed, hn]

section
variable (e u : State)

theorem State.runNext_exc (cause : Cause) (info : Word) (h : e.fetch = .exc cause info u) :
    e.runNext = .next (u.takeException cause info) := by
  simp only [State.runNext, h]

theorem State.runNext_word (w : BitVec 32) (h : e.fetch = .ok (.word w) u) : e.runNext = u.runWord w := by
  simp only [State.runNext, h]

theorem State.runNext_half (b : BitVec 16) (h : e.fetch = .ok (.half b) u) :
    e.runNext = u.noInstruction 16 (b.setWidth 32) := by
  simp only [State.runNext, h]

theorem State.runNext_no_row (w : BitVec 32) (h : e.fetch = .ok (.word w) u)
    (hw : ∀ i, w &&& (tableRow i).1 ≠ (tableRow i).2) : e.runNext = u.noInstruction 32 w := by
  rw [e.runNext_word u w h, State.runWord, instrOf_none_of_no_row w hw]

end

/-! ### Words that are no instruction of R224 -/

section
variable (u : State) (len : Nat) (w : BitVec 32)

/-- LPAD (R329). -/
theorem State.noInstruction_lpad (hz : u.cfg.ext.zicfilp = true) (hw : lpadWord w = true) :
    u.noInstruction len w = u.runLpad w := by
  simp [State.noInstruction, hz, hw]

/-- CBO.FLUSH (R211). -/
theorem State.noInstruction_flush (hl : lpadWord w = false) (hp : u.padMissing = false) (hz : u.cfg.ext.zicbom = true)
    (hw : flushWord w = true) : u.noInstruction len w = u.runFlush w := by
  simp [State.noInstruction, hl, hp, hz, hw]

/-- A word that no extension outside the spec has, or SSAMOSWAP where it is illegal, is an illegal instruction (R95, R227). -/
theorem State.noInstruction_illegal (hl : (u.cfg.ext.zicfilp && lpadWord w) = false) (hp : u.padMissing = false)
    (hf : (u.cfg.ext.zicbom && flushWord w) = false)
    (hw : (lengthFits len w && foreignWord u.cfg w && !u.ssamoswapIllegal w) = false) :
    u.noInstruction len w = u.raiseWord len w := by
  simp only [State.noInstruction, hl, hp, hf, hw, Bool.false_eq_true, if_false]

end

/-- An illegal word reports all of its bits where ILEN has them (R85). -/
theorem State.raiseWord_word (u : State) (w : BitVec 32) (h : 32 ≤ u.cfg.ilen) :
    u.raiseWord 32 w = .next (u.takeException .illegal (w.setWidth 64)) := by
  rw [State.raiseWord, instrBits_word u.cfg h]

/-- A parcel's bits within its 16 are all of it (R85). -/
theorem State.raiseWord_half (u : State) (b : BitVec 16) (h : 16 ≤ u.cfg.ilen) :
    u.raiseWord 16 (b.setWidth 32) = .next (u.takeException .illegal (b.setWidth 64)) := by
  have hmin : min 16 (min u.cfg.ilen u.cfg.sxlen.bits) = 16 := by
    have : 32 ≤ u.cfg.sxlen.bits := by cases u.cfg.sxlen <;> decide
    omega
  have hbits : instrBits u.cfg 16 ((b.setWidth 32).setWidth 64) = b.setWidth 64 := by
    rw [instrBits, hmin]
    apply BitVec.eq_of_getLsbD_eq
    intro k hk
    rw [BitVec.getLsbD_and, lowBits_getLsbD, BitVec.getLsbD_setWidth, BitVec.getLsbD_setWidth, BitVec.getLsbD_setWidth]
    by_cases h16 : k < 16
    · simp [h16, hk, show k < 32 by omega]
    · simp [BitVec.getLsbD_of_ge b k (by omega)]
  rw [State.raiseWord, hbits]

theorem State.ifAligned_eq (u : State) (o : Host.Outcome State Fault Refusal) :
    u.ifAligned o =
      if u.pc.toNat % (if u.align16 then 2 else 4) = 0 then o else .next (u.takeException .instrMisaligned u.pc) := by
  simp only [State.ifAligned, u.pcAligned_iff]

/-- LPAD in U-mode with landing pads off is a no-op (R94, R329). -/
theorem State.runLpad_user (u : State) (w : BitVec 32) (hp : u.priv = .user) (hl : u.senvcfg.lpe = false) :
    u.runLpad w = if u.pc.toNat % (if u.align16 then 2 else 4) = 0 then .next { u with pc := cut u.cfg.sxlen (u.pc + 4) }
      else .next (u.takeException .instrMisaligned u.pc) := by
  have hoff : u.landingPads u.priv = false := by rw [hp]; simp [State.landingPads, hl]
  rw [State.runLpad, hoff, if_neg Bool.false_ne_true, u.ifAligned_eq]
  rfl

/-- Where CBO.FLUSH is enabled (log entry 44). -/
theorem State.flushLegal_false_iff (u : State) :
    u.flushLegal = false ↔
      u.priv ≠ .machine ∧ u.inputs.menvcfgCbcfe = false ∨ u.priv = .user ∧ u.senvcfg.cbcfe = false := by
  cases hp : u.priv <;> simp [State.flushLegal, hp, ← Bool.and_eq_false_iff]

theorem State.runFlush_eq (u : State) (w : BitVec 32) (h : 32 ≤ u.cfg.ilen) :
    u.runFlush w =
      if u.priv ≠ .machine ∧ u.inputs.menvcfgCbcfe = false ∨ u.priv = .user ∧ u.senvcfg.cbcfe = false then
        .next (u.takeException .illegal (w.setWidth 64))
      else if u.pc.toNat % (if u.align16 then 2 else 4) ≠ 0 then .next (u.takeException .instrMisaligned u.pc)
      else u.flushBlock (w.extractLsb' 15 5) := by
  cases hl : u.flushLegal with
  | false =>
    rw [if_pos (u.flushLegal_false_iff.mp hl), State.runFlush, hl, if_neg Bool.false_ne_true, u.raiseWord_word w h]
  | true =>
    rw [if_neg (fun hf => Bool.false_ne_true ((u.flushLegal_false_iff.mpr hf).symm.trans hl)), State.runFlush, hl, if_pos rfl,
      u.ifAligned_eq, ite_not]

/-! ### The four kinds of words -/

section
variable (u : State) (w : BitVec 32)

/-- A word of no extension (R227). -/
theorem State.noInstruction_undefined (hl : u.cfg.ext.zicfilp = false ∨ w &&& 0xFFF#32 ≠ 0x17#32) (hp : u.padMissing = false)
    (hilen : 32 ≤ u.cfg.ilen) (hf : foreignWord u.cfg w = false ∨ w.extractLsb' 0 2 ≠ 3) :
    u.noInstruction 32 w = .next (u.takeException .illegal (w.setWidth 64)) := by
  rw [← u.raiseWord_word w hilen]
  apply u.noInstruction_illegal 32 w _ hp
  · rw [Bool.and_eq_false_iff]
    by_contra hc
    simp only [not_or, Bool.not_eq_false] at hc
    obtain ⟨hfor, hlen⟩ := foreignWord_flush u.cfg w hc.1 hc.2
    exact hf.elim (fun h => Bool.false_ne_true (h.symm.trans hfor)) (fun h => h hlen)
  · rcases hf with h | h
    · simp [h]
    · have hlow : (w.extractLsb' 0 2 == 3#2) = false := beq_eq_false_iff_ne.mpr h
      simp [lengthFits, hlow]
  · rcases hl with h | h
    · simp [h]
    · simp [lpadWord, h]

/-- SSAMOSWAP with Zicfiss off in U-mode and `menvcfg.SSE` set (R95, R330). -/
theorem State.noInstruction_ssamoswap (hz : u.cfg.ext.zicfiss = true) (hpriv : u.priv = .user) (hs : u.senvcfg.sse = false)
    (hm : u.inputs.menvcfgSse = true)
    (hw : w &&& 0xF800707F#32 = 0x4800202F#32 ∨ u.cfg.sxlen = .rv64 ∧ w &&& 0xF800707F#32 = 0x4800302F#32)
    (hp : u.padMissing = false) (hilen : 32 ≤ u.cfg.ilen) :
    u.noInstruction 32 w = .next (u.takeException .illegal (w.setWidth 64)) := by
  have hill : u.ssamoswapIllegal w = true := by
    rcases hw with h | ⟨hx, h⟩ <;> simp [State.ssamoswapIllegal, ssamoswapWord, *]
  have hother : lpadWord w = false ∧ flushWord w = false := by
    rcases hw with h | ⟨-, h⟩
    · exact ⟨lpadWord_false h (by decide) (by decide), flushWord_false h (by decide) (by decide)⟩
    · exact ⟨lpadWord_false h (by decide) (by decide), flushWord_false h (by decide) (by decide)⟩
  obtain ⟨hlpad, hflush⟩ := hother
  rw [← u.raiseWord_word w hilen]
  exact u.noInstruction_illegal 32 w (by rw [hlpad, Bool.and_false]) hp (by rw [hflush, Bool.and_false])
    (by rw [hill, Bool.not_true, Bool.and_false])

theorem State.noInstruction_cboFlush (hz : u.cfg.ext.zicbom = true) (hw : w &&& 0xFFF07FFF#32 = 0x0020200F#32)
    (hp : u.padMissing = false) : u.noInstruction 32 w = u.runFlush w :=
  u.noInstruction_flush 32 w (lpadWord_false hw (by decide) (by decide)) hp hz (beq_iff_eq.mpr hw)

/-- A 16-bit parcel that is an instruction by its length is none here (R220, R227). -/
theorem State.noInstruction_half (b : BitVec 16) (hb : b.toNat % 4 ≠ 3) (hp : u.padMissing = false) (hilen : 16 ≤ u.cfg.ilen)
    (hf : foreignWord u.cfg (b.setWidth 32) = false) :
    u.noInstruction 16 (b.setWidth 32) = .next (u.takeException .illegal (b.setWidth 64)) := by
  have hlow : ∀ m v : BitVec 32, m &&& 3 = 3 → v &&& 3 = 3 → b.setWidth 32 &&& m ≠ v := by
    intro m v hm hv h
    have h3 : b.setWidth 32 &&& 3 = 3 := (and_of_and h hm).trans hv
    have e : (b.setWidth 32 &&& 3#32).toNat = (b.setWidth 32).toNat % 4 := Nat.and_two_pow_sub_one_eq_mod _ 2
    have hn := congrArg BitVec.toNat h3
    have hlt := b.isLt
    rw [show ((3 : BitVec 32)) = 3#32 from rfl, e, BitVec.toNat_setWidth] at hn
    simp only [BitVec.toNat_ofNat] at hn
    omega
  have hlpad : lpadWord (b.setWidth 32) = false := beq_eq_false_iff_ne.mpr (hlow _ _ (by decide) (by decide))
  have hflush : flushWord (b.setWidth 32) = false := beq_eq_false_iff_ne.mpr (hlow _ _ (by decide) (by decide))
  rw [← u.raiseWord_half b hilen]
  exact u.noInstruction_illegal 16 _ (by rw [hlpad, Bool.and_false]) hp (by rw [hflush, Bool.and_false])
    (by rw [hf, Bool.and_false, Bool.false_and])

end

/-! ### Decoded instructions -/

section
variable (u : State) (w : BitVec 32) (i : Instr) (hd : instrOf w = some i)
include hd

/-- Where a landing pad is expected and enabled, an instruction of R224 raises the software check (R86). -/
theorem State.runWord_padMissing (hp : u.padMissing = true) : u.runWord w = .next (u.takeException .softwareCheck 2) := by
  simp only [State.runWord, hd, hp, if_true]

theorem State.runWord_execute (hp : u.padMissing = false) : u.runWord w = u.execute i := by
  simp only [State.runWord, hd, hp, Bool.false_eq_true, if_false]

end

/-- At a misaligned `pc` an instruction raises code 0, but for one that is illegal or has a machine-level CSR number (R348). -/
theorem State.execute_misaligned (u : State) (i : Instr) (h : u.pc.toNat % (if u.align16 then 2 else 4) ≠ 0) :
    (u.barred i = false → u.execute i = .next (u.takeException .instrMisaligned u.pc)) ∧
    (u.barred i = true → u.execute i = exec i u ∧
      (exec i u = .next (u.takeException .illegal (instrBits u.cfg 32 ((encode i).setWidth 64))) ∨
        ∃ num, exec i u = .refused (.machineCsr num))) := by
  refine ⟨fun hb => ?_, fun hb => ⟨?_, u.barred_exec i hb⟩⟩
  · rw [State.execute, hb, if_neg Bool.false_ne_true, u.ifAligned_eq, if_neg h]
  · rw [State.execute, hb, if_pos rfl]

/-! ### The statement -/

/-- Settles O7: the step is the fetch, and each clause one way the fetch or the decoder ends. -/
theorem fetchAndDecodeExceptions : Obligations.FetchAndDecodeExceptions := by
  unfold Obligations.FetchAndDecodeExceptions
  intro s u hi hs hn
  rw [step_eq_runNext s hi hs hn]
  refine ⟨fun cause info hf => ?exc, fun e low m m' cause info he hp h1 h2 => ?second, fun w hf hw => ?word,
    fun h hf hp hilen hfor => ?half, fun w i hf hd => ?decoded⟩
  case exc =>
    have hframe := s.environmentTurn.fetch_frame
    rw [hf] at hframe
    obtain ⟨m, rfl⟩ := hframe
    exact ⟨State.runNext_exc _ _ cause info hf, rfl, State.fetch_exc _ _ cause info hf⟩
  case second =>
    subst he
    obtain ⟨hinfo, hcause⟩ := State.fetchBytes_exc _ _ _ _ _ _ _ h2
    exact ⟨State.runNext_exc _ _ cause info (State.fetch_second_exc _ low m m' cause info hp h1 h2), hinfo, hcause⟩
  case word =>
    rw [State.runNext_no_row _ u w hf hw]
    refine ⟨u.noInstruction_undefined w, fun hz hl hp hlpe => ?_, fun hz hl hp hilen => ?_, u.noInstruction_ssamoswap w⟩
    · rw [u.noInstruction_lpad 32 w hz (beq_iff_eq.mpr hl), u.runLpad_user w hp hlpe]
    · rw [u.noInstruction_cboFlush w hz hl hp, u.runFlush_eq w hilen]
  case half =>
    rw [State.runNext_half _ u h hf]
    exact u.noInstruction_half h (State.fetch_half _ u h hf) hp hilen hfor
  case decoded =>
    rw [State.runNext_word _ u w hf]
    refine ⟨fun he hl => u.runWord_padMissing w i hd (by rw [State.padMissing, he, hl]; rfl), fun hp hpc => ?_⟩
    rw [u.runWord_execute w i hd hp]
    exact u.execute_misaligned i hpc

end Sys2Proof.Machine
end

section
/-! PROOFS. Words of bytes, the record of attributes after an access, and an access without translation. -/

namespace Sys2Proof.Machine

/-! ### Words of bytes -/

theorem toNat_append_byte {n : Nat} (x : BitVec n) (b : Byte) : (x ++ b).toNat = b.toNat + 256 * x.toNat := by
  rw [BitVec.toNat_append, ← Nat.shiftLeft_add_eq_or_of_lt b.isLt, Nat.shiftLeft_eq]
  omega

/-- Four bytes of memory, the first the least significant, are the word that the decoder makes of them (R122). -/
theorem ofNat_littleValue_word (b0 b1 b2 b3 : Byte) :
    BitVec.ofNat 32 (littleValue [b0, b1, b2, b3]) = wordOfBytes b0 b1 b2 b3 := by
  apply BitVec.eq_of_toNat_eq
  simp only [BitVec.toNat_ofNat, wordOfBytes, toNat_append_byte, littleValue]
  have := b0.isLt; have := b1.isLt; have := b2.isLt; have := b3.isLt
  omega

theorem ofNat_littleValue_half (b0 b1 : Byte) : BitVec.ofNat 16 (littleValue [b0, b1]) = b1 ++ b0 := by
  apply BitVec.eq_of_toNat_eq
  simp only [BitVec.toNat_ofNat, toNat_append_byte, littleValue]
  have := b0.isLt; have := b1.isLt
  omega

/-- A word made of its two parcels, the first the lower half (R221). -/
theorem ofNat_littleValue_parcels (b0 b1 b2 b3 : Byte) :
    BitVec.ofNat 32 (littleValue [b0, b1] + 2 ^ 16 * littleValue [b2, b3]) = wordOfBytes b0 b1 b2 b3 := by
  rw [← ofNat_littleValue_word]
  congr 1
  simp only [littleValue]
  omega

/-- Four bytes in memory order are a word in either byte order (R121). -/
theorem ofNat_joinBytes_word (big : Bool) (b0 b1 b2 b3 : Byte) :
    BitVec.ofNat 32 (joinBytes big [b0, b1, b2, b3]) =
      if big then wordOfBytes b3 b2 b1 b0 else wordOfBytes b0 b1 b2 b3 := by
  cases big <;> exact ofNat_littleValue_word _ _ _ _

/-! ### The record of attributes -/

/-- An access of `n` bytes keeps coherence with the last access to each of its locations (R211). -/
def keepsCoherence (c : Config) (pa n : Nat) (mt : MemType) (types : List (Nat × Seen)) : Prop :=
  ∀ k, k < n → compatible (lookupAt .unseen types (pa + k)) (attributesOf c pa n mt) = true

/-- The second record is the first with an access of `n` bytes in it, where a record is kept (R210). -/
def accessRecorded (c : Config) (pa n : Nat) (mt : MemType) (types types' : List (Nat × Seen)) : Prop :=
  ∀ a, lookupAt .unseen types' a =
    if c.ext.svpbmt = true ∧ pa ≤ a ∧ a < pa + n then .seen (attributesOf c pa n mt) .nothing
    else lookupAt .unseen types a

theorem lookupAt_foldl_updateAt {α : Type} [DecidableEq α] (d v : α) (a : Nat) : ∀ (l : List Nat) (t : List (Nat × α)),
    lookupAt d (l.foldl (fun t a => updateAt d t a v) t) a = if a ∈ l then v else lookupAt d t a := by
  intro l
  induction l with
  | nil => intro t; rfl
  | cons b l ih =>
    intro t
    rw [List.foldl_cons, ih]
    by_cases hl : a ∈ l
    · simp [hl]
    · by_cases hb : a = b
      · subst hb; simp [hl, lookupAt_updateAt_same]
      · simp [hl, hb, lookupAt_updateAt_other d t v hb]

theorem mem_span {pa n a : Nat} : a ∈ span pa n ↔ pa ≤ a ∧ a < pa + n := by
  simp only [span, List.mem_map, List.mem_range]
  exact ⟨by rintro ⟨k, hk, rfl⟩; omega, fun h => ⟨a - pa, by omega, by omega⟩⟩

theorem span_all_compatible (c : Config) (pa n : Nat) (mt : MemType) (types : List (Nat × Seen)) :
    (span pa n).all (fun a => compatible (lookupAt .unseen types a) (attributesOf c pa n mt)) = true ↔
      keepsCoherence c pa n mt types := by
  simp [span, keepsCoherence]

section
variable (ms : MemSys) (c : Config) (pa n : Nat) (mt : MemType)

/-- An access that keeps coherence is recorded; without Svpbmt every access goes on, and nothing is recorded (R211). -/
theorem MemSys.touch_ok (h : c.ext.svpbmt = false ∨ keepsCoherence c pa n mt ms.types) :
    ∃ types, ms.touch c pa n mt = .ok { ms with types := types } ∧ accessRecorded c pa n mt ms.types types := by
  cases hs : c.ext.svpbmt with
  | false => exact ⟨ms.types, by simp [MemSys.touch, touchTypes, hs], fun a => by simp [hs]⟩
  | true =>
    have hk := (span_all_compatible c pa n mt ms.types).mpr (h.resolve_left (by simp [hs]))
    refine ⟨_, by simp only [MemSys.touch, touchTypes, hs, hk]; rfl, fun a => ?_⟩
    rw [lookupAt_foldl_updateAt]
    simp [hs, mem_span]

theorem not_keepsCoherence_iff (types : List (Nat × Seen)) :
    ¬keepsCoherence c pa n mt types ↔
      ∃ k, k < n ∧ compatible (lookupAt .unseen types (pa + k)) (attributesOf c pa n mt) = false := by
  simp [keepsCoherence]

theorem MemSys.touch_stops (hs : c.ext.svpbmt = true) (h : ¬keepsCoherence c pa n mt ms.types) :
    ms.touch c pa n mt = .error (.fault .incoherentTypes) := by
  have hall := (span_all_compatible c pa n mt ms.types).not.mpr h
  simp only [MemSys.touch, touchTypes, hs, hall]
  rfl

/-- The only stop of a recorded access is U32: a location is last accessed with attributes that do not go with these (R210,
R211). -/
theorem MemSys.touch_error_iff (x : Stop) :
    ms.touch c pa n mt = .error x ↔
      x = .fault .incoherentTypes ∧ c.ext.svpbmt = true ∧
        ∃ k, k < n ∧ compatible (lookupAt .unseen ms.types (pa + k)) (attributesOf c pa n mt) = false := by
  rw [← not_keepsCoherence_iff]
  constructor
  · intro he
    by_cases h : c.ext.svpbmt = false ∨ keepsCoherence c pa n mt ms.types
    · obtain ⟨types, ht, -⟩ := ms.touch_ok c pa n mt h
      rw [ht] at he
      cases he
    · obtain ⟨hs, hk⟩ := not_or.mp h
      have hs' : c.ext.svpbmt = true := by simpa using hs
      rw [ms.touch_stops c pa n mt hs' hk] at he
      cases he
      exact ⟨rfl, hs', hk⟩
  · rintro ⟨rfl, hs, hk⟩
    exact ms.touch_stops c pa n mt hs hk

end

/-- After a recorded access, one elsewhere keeps coherence where it did, and so does the same one again. -/
theorem accessRecorded.keeps {c : Config} {pa n pa' n' : Nat} {mt mt' : MemType} {types types' : List (Nat × Seen)}
    (hr : accessRecorded c pa n mt types types') (hk : keepsCoherence c pa' n' mt' types)
    (hd : pa' + n' ≤ pa ∨ pa + n ≤ pa' ∨ attributesOf c pa n mt = attributesOf c pa' n' mt') :
    keepsCoherence c pa' n' mt' types' := by
  intro k hlt
  rw [hr (pa' + k)]
  split
  · rename_i hin
    obtain ⟨-, hlo, hhi⟩ := hin
    rcases hd with hd | hd | hd
    · omega
    · omega
    · simp [compatible, hd]
  · exact hk k hlt

/-! ### Reaching a piece -/

/-- An access that is located and keeps coherence reaches its address, and is recorded (R327); a piece of a page with PBMT=IO may
raise instead (R207). -/
theorem reach_of_locate {c : WalkCtx} {isPiece : Bool} {n pa : Nat} {mt : MemType} {ms m : MemSys}
    (hl : locate c n ms = .ok (pa, mt) m) (hio : isPiece = false ∨ mt ≠ .io)
    (hk : c.cfg.ext.svpbmt = false ∨ keepsCoherence c.cfg pa n mt m.types) :
    ∃ types, reach c isPiece n ms = .ok pa { m with types := types } ∧ accessRecorded c.cfg pa n mt m.types types := by
  obtain ⟨types, ht, hr⟩ := m.touch_ok c.cfg pa n mt hk
  have hno : (isPiece && mt == .io) = false := by rcases hio with rfl | h <;> simp [*]
  exact ⟨types, by simp only [reach, hl, hno, ht]; rfl, hr⟩

/-- Without translation an access that its check allows is located at its own address (R140, R141). -/
theorem locate_bare {c : WalkCtx} {n : Nat} (ms : MemSys) (hb : c.scheme = .bare)
    (hok : pmaCheck c.cfg c.va.toNat n c.acc c.epriv = .ok) : locate c n ms = .ok (c.va.toNat, .pma) ms := by
  simp only [locate, translate_bare c ms hb, checkAccess, hok]

/-- Without translation an access that its check allows, and that keeps coherence, reaches its own address. -/
theorem reach_bare {c : WalkCtx} {n : Nat} (isPiece : Bool) (ms : MemSys) (hb : c.scheme = .bare)
    (hok : pmaCheck c.cfg c.va.toNat n c.acc c.epriv = .ok) (hk : keepsCoherence c.cfg c.va.toNat n .pma ms.types) :
    ∃ types, reach c isPiece n ms = .ok c.va.toNat { ms with types := types } ∧
      accessRecorded c.cfg c.va.toNat n .pma ms.types types :=
  reach_of_locate (locate_bare ms hb hok) (.inr (by decide)) (.inr hk)

/-- In M-mode and under Bare no scheme is in force (R107, R140). -/
theorem State.schemeFor_bare (s : State) (p : Priv) (h : p = .machine ∨ s.satp.mode = .bare) : s.schemeFor p = .bare := by
  unfold State.schemeFor
  split
  · rfl
  · exact h.resolve_left ‹_›

end Sys2Proof.Machine
end

section
/-! PROOFS. What a fetch brings: a whole word, a parcel or two, always little-endian (O6). -/

namespace Sys2Proof.Machine

theorem State.fetchBytes_of_reach (s : State) (va : Word) (n pa : Nat) (ms m : MemSys)
    (h : reach (s.walkCtx va .fetch s.priv) false n ms = .ok pa m) :
    s.fetchBytes va n ms = .ok (littleValue (Memory.readBytes m.mem pa n)) m := by
  simp only [State.fetchBytes, h]

/-- With IALIGN=32 and an aligned `pc` a fetch is one access of four bytes (log entry 28). -/
theorem State.fetch_whole (s : State) (pa : Nat) (m : MemSys) (ha : s.align16 = false) (hpc : s.pc.toNat % 4 = 0)
    (h : reach (s.walkCtx s.pc .fetch s.priv) false 4 s.ms = .ok pa m) :
    s.fetch = .ok (.word (wordOfBytes (Memory.read m.mem pa) (Memory.read m.mem (pa + 1)) (Memory.read m.mem (pa + 2))
      (Memory.read m.mem (pa + 3)))) { s with ms := m } := by
  have hal : s.pcAligned = true := s.pcAligned_iff.mpr (by simpa [ha] using hpc)
  simp only [State.fetch, ha, hal, State.fetchWhole, s.fetchBytes_of_reach _ _ _ _ _ h, Memory.readBytes,
    ofNat_littleValue_word]
  rfl

/-- Any other fetch is by parcels (log entries 28, 38). -/
theorem State.fetch_parcels (s : State) (h : s.align16 = true ∨ s.pc.toNat % 4 ≠ 0) : s.fetch = s.withMs s.fetchParcels := by
  have hno : (!s.align16 && s.pcAligned) = false := by
    cases ha : s.align16 with
    | true => rfl
    | false =>
      have hpc := h.resolve_left (by simp [ha])
      simpa [Bool.eq_false_iff, s.pcAligned_iff, ha] using hpc
  simp only [State.fetch, hno]
  rfl

/-- The length bits of a parcel, as a number and as bits (R220). -/
theorem littleValue_mod_four (b0 b1 : Byte) : littleValue [b0, b1] % 4 = 3 ↔ (b1 ++ b0).extractLsb' 0 2 = 3 := by
  rw [← ofNat_littleValue_half, ← BitVec.toNat_inj, BitVec.extractLsb'_toNat, BitVec.toNat_ofNat]
  simp only [Nat.shiftRight_zero, littleValue]
  show _ ↔ _ = 3
  have := b0.isLt; have := b1.isLt
  omega

section
variable (s : State) (pa qa : Nat) (m m' : MemSys)
  (hp : reach (s.walkCtx s.pc .fetch s.priv) false 2 s.ms = .ok pa m)
include hp

/-- A first parcel that is an instruction by its length (R220). -/
theorem State.fetchParcels_half (ha : s.align16 = true)
    (hlen : (Memory.read m.mem (pa + 1) ++ Memory.read m.mem pa).extractLsb' 0 2 ≠ 3) :
    s.fetchParcels = .ok (.half (Memory.read m.mem (pa + 1) ++ Memory.read m.mem pa)) m := by
  have hlow := (littleValue_mod_four _ _).not.mpr hlen
  simp only [State.fetchParcels, s.fetchBytes_of_reach _ _ _ _ _ hp, Memory.readBytes, ha, bne_iff_ne.mpr hlow,
    Bool.and_self, if_true, ofNat_littleValue_half]

/-- A first parcel that calls for a second one, which is the upper half (R221). -/
theorem State.fetchParcels_word
    (hlen : s.align16 = true → (Memory.read m.mem (pa + 1) ++ Memory.read m.mem pa).extractLsb' 0 2 = 3)
    (hq : reach (s.walkCtx (s.pc + 2) .fetch s.priv) false 2 m = .ok qa m') :
    s.fetchParcels = .ok (.word (wordOfBytes (Memory.read m.mem pa) (Memory.read m.mem (pa + 1)) (Memory.read m'.mem qa)
      (Memory.read m'.mem (qa + 1)))) m' := by
  have hlow : (s.align16 && littleValue [Memory.read m.mem pa, Memory.read m.mem (pa + 1)] % 4 != 3) = false := by
    cases ha : s.align16 with
    | false => rfl
    | true => simpa using (littleValue_mod_four _ _).mpr (hlen ha)
  simp only [State.fetchParcels, s.fetchBytes_of_reach _ _ _ _ _ hp, Memory.readBytes, hlow, State.fetchSecond,
    s.fetchBytes_of_reach _ _ _ _ _ hq, ofNat_littleValue_parcels]
  rfl

end

/-- The two parcels at `pc` and `pc` + 2 do not overlap, at the width of the mode (R33). -/
theorem State.narrow_parcels (s : State) (p : Priv) (pc : Word) :
    (s.narrow p (pc + 2)).toNat + 2 ≤ (s.narrow p pc).toNat ∨ (s.narrow p pc).toNat + 2 ≤ (s.narrow p (pc + 2)).toNat := by
  have h2 : (2 : Word).toNat = 2 := rfl
  simp only [State.narrow, cut_toNat, BitVec.toNat_add, h2]
  cases s.xlenOf p <;> simp only [Xlen.bits] <;> omega

/-- Settles O6: one access of four bytes, one parcel or two, without translation and, for the whole word, with it. -/
theorem fetchIsLittleEndian : Obligations.FetchIsLittleEndian := by
  unfold Obligations.FetchIsLittleEndian
  refine ⟨?whole, ?parcels, State.fetch_whole⟩
  case whole =>
    rintro s pa ha hpc hbare rfl hok hk
    obtain ⟨types, hr, -⟩ := reach_bare (c := s.walkCtx s.pc .fetch s.priv) (n := 4) false s.ms (s.schemeFor_bare _ hbare)
      hok hk
    exact ⟨types, s.fetch_whole _ _ ha hpc hr⟩
  case parcels =>
    rintro s pa h hpc hbare rfl hok hk rfl
    rw [s.fetch_parcels hpc]
    obtain ⟨types, hr, hrec⟩ := reach_bare (c := s.walkCtx s.pc .fetch s.priv) (n := 2) false s.ms (s.schemeFor_bare _ hbare)
      hok hk
    refine ⟨fun ha hlen => ⟨types, ?_⟩, ?_⟩
    · rw [s.fetchParcels_half _ _ hr ha hlen]
      rfl
    · rintro qa hlen rfl hok' hk'
      have hk2 := hrec.keeps (pa' := (s.narrow s.priv (s.pc + 2)).toNat) hk'
        ((s.narrow_parcels s.priv s.pc).imp id .inl)
      obtain ⟨types', hr', -⟩ := reach_bare (c := s.walkCtx (s.pc + 2) .fetch s.priv) (n := 2) false
        { s.ms with types := types } (s.schemeFor_bare _ hbare) hok' hk2
      refine ⟨types', ?_⟩
      rw [s.fetchParcels_word _ _ _ _ hr hlen hr']
      rfl

end Sys2Proof.Machine
end

section
/-! PROOFS. Loads and stores that complete: their pieces, and what LW and SW make of them (O28, O29). -/

namespace Sys2Proof.Machine

/-! ### One piece -/

theorem loadPiece_of_reach {c : WalkCtx} {isPiece : Bool} {n pa : Nat} {ms m : MemSys} (h : reach c isPiece n ms = .ok pa m) :
    loadPiece c isPiece n ms = .ok (Memory.readBytes m.mem pa n) m := by
  simp only [loadPiece, h]

theorem storePiece_of_reach {c : WalkCtx} {isPiece : Bool} {bs : List Byte} {pa : Nat} {ms m : MemSys}
    (h : reach c isPiece bs.length ms = .ok pa m) :
    storePiece c isPiece bs ms = .ok () { m with mem := Memory.writeBytes m.mem pa bs } := by
  simp only [storePiece, h]

theorem loadPiece_byte_ok_iff (c : WalkCtx) (bs : List Byte) (ms m : MemSys) :
    loadPiece c true 1 ms = .ok bs m ↔ ∃ pa, reach c true 1 ms = .ok pa m ∧ bs = [Memory.read m.mem pa] := by
  unfold loadPiece
  cases hr : reach c true 1 ms with
  | ok pa m' =>
    simp only [Res.ok.injEq, Memory.readBytes]
    constructor
    · rintro ⟨rfl, rfl⟩; exact ⟨pa, ⟨rfl, rfl⟩, rfl⟩
    · rintro ⟨_, ⟨rfl, rfl⟩, rfl⟩; exact ⟨rfl, rfl⟩
  | exc cause info m' => simp
  | stop x => simp

theorem storePiece_byte_ok_iff (c : WalkCtx) (b : Byte) (ms m : MemSys) :
    storePiece c true [b] ms = .ok () m ↔
      ∃ pa m', reach c true 1 ms = .ok pa m' ∧ m = { m' with mem := Memory.writeBytes m'.mem pa [b] } := by
  rw [storePiece, List.length_singleton]
  cases hr : reach c true 1 ms with
  | ok pa m' => simp [eq_comm]
  | exc cause info m' => simp
  | stop x => simp

/-! ### All pieces -/

/-- Pieces that are loaded: those before one, that one where it reaches, those after it, with their bytes in order (R127). -/
theorem loadPieces_append_ok : ∀ (l1 l2 : List WalkCtx) (c : WalkCtx) (ms m : MemSys) (bs : List Byte),
    loadPieces (l1 ++ c :: l2) ms = .ok bs m →
      ∃ bs1 m1 pa m2 bs2, loadPieces l1 ms = .ok bs1 m1 ∧ reach c true 1 m1 = .ok pa m2 ∧ loadPieces l2 m2 = .ok bs2 m ∧
        bs = bs1 ++ Memory.read m2.mem pa :: bs2 ∧ bs1.length = l1.length := by
  intro l1
  induction l1 with
  | nil =>
    intro l2 c ms m bs h
    obtain ⟨b, m2, bs2, hb, hrest, rfl⟩ := (loadPieces_cons_ok m c l2 ms bs).mp h
    obtain ⟨pa, hr, rfl⟩ := (loadPiece_byte_ok_iff c b ms m2).mp hb
    exact ⟨[], ms, pa, m2, bs2, rfl, hr, hrest, rfl, rfl⟩
  | cons d l1 ih =>
    intro l2 c ms m bs h
    obtain ⟨b, ms', bs', hb, hrest, rfl⟩ := (loadPieces_cons_ok m d _ ms bs).mp h
    obtain ⟨bs1, m1, pa, m2, bs2, h1, hr, h2, rfl, hlen⟩ := ih l2 c ms' m bs' hrest
    obtain ⟨qa, -, rfl⟩ := (loadPiece_byte_ok_iff d b ms ms').mp hb
    exact ⟨_ :: bs1, m1, pa, m2, bs2, (loadPieces_cons_ok m1 d l1 ms _).mpr ⟨_, ms', bs1, hb, h1, rfl⟩, hr, h2, rfl,
      congrArg (· + 1) hlen⟩

theorem loadPieces_length : ∀ (l : List WalkCtx) (ms m : MemSys) (bs : List Byte), loadPieces l ms = .ok bs m →
    bs.length = l.length := by
  intro l
  induction l with
  | nil => intro ms m bs h; cases h; rfl
  | cons c l ih =>
    intro ms m bs h
    obtain ⟨b, ms', bs', hb, hrest, rfl⟩ := (loadPieces_cons_ok m c l ms bs).mp h
    obtain ⟨pa, -, rfl⟩ := (loadPiece_byte_ok_iff c b ms ms').mp hb
    exact congrArg (· + 1) (ih ms' m bs' hrest)

/-- Pieces that are stored: those before one, that one where it reaches, and those after it (R127). -/
theorem storePieces_append_ok : ∀ (l1 l2 : List (WalkCtx × Byte)) (c : WalkCtx) (b : Byte) (ms m : MemSys),
    storePieces (l1 ++ (c, b) :: l2) ms = .ok () m →
      ∃ m1 pa m2, storePieces l1 ms = .ok () m1 ∧ reach c true 1 m1 = .ok pa m2 ∧
        storePieces l2 { m2 with mem := Memory.writeBytes m2.mem pa [b] } = .ok () m := by
  intro l1
  induction l1 with
  | nil =>
    intro l2 c b ms m h
    obtain ⟨ms', hb, hrest⟩ := (storePieces_cons_ok m c b l2 ms).mp h
    obtain ⟨pa, m2, hr, rfl⟩ := (storePiece_byte_ok_iff c b ms ms').mp hb
    exact ⟨ms, pa, m2, rfl, hr, hrest⟩
  | cons e l1 ih =>
    obtain ⟨d, x⟩ := e
    intro l2 c b ms m h
    obtain ⟨ms', hb, hrest⟩ := (storePieces_cons_ok m d x _ ms).mp h
    obtain ⟨m1, pa, m2, h1, hr, h2⟩ := ih l2 c b ms' m hrest
    exact ⟨m1, pa, m2, (storePieces_cons_ok m1 d x l1 ms).mpr ⟨ms', hb, h1⟩, hr, h2⟩

/-! ### LW and SW that complete -/

theorem State.bigEndian_eq (s : State) (p : Priv) :
    (match p with
      | .user => if s.cfg.ubeWritable then s.sstatus.ube else s.cfg.sBigEndian
      | .supervisor => s.cfg.sBigEndian
      | .machine => s.cfg.mBigEndian) = s.bigEndian p := by
  cases p <;> rfl

theorem State.loadBytes_split_ok (s : State) (va : Word) (n : Nat) (up : Bool) (bs : List Byte) (m : MemSys)
    (h : (s.narrow s.effectivePriv va).toNat % n ≠ 0) (hp : s.cfg.misaligned = .split up)
    (hl : loadPieces (inOrder up (s.pieces va n .load)) s.ms = .ok bs m) : s.loadBytes va n = .ok (inOrder up bs) m := by
  refine (if_neg h).trans ?_
  simp only [hp, hl]

/-- LW with the bytes it loads: `rd` takes their word, and beside it only `pc` and the memory system change (R332). -/
theorem exec_lw_ok (s : State) (rd rs1 : RegId) (imm : BitVec 12) (bs : List Byte) (m : MemSys)
    (h : s.loadBytes (s.effectiveAddress rs1 imm) 4 = .ok bs m) :
    ∃ t, exec (.lw rd rs1 imm) s = .next t ∧
      s.registersAfter t rd ((BitVec.ofNat 32 (joinBytes (s.bigEndian s.effectivePriv) bs)).signExtend 64) ∧
      t = { s with regs := t.regs, pc := cut s.cfg.sxlen (s.pc + 4), ms := m } := by
  have he : exec (.lw rd rs1 imm) s = execLw rd rs1 imm s := rfl
  simp only [he, execLw, State.loadWord, h, State.withMs]
  refine ⟨_, rfl, State.registersAfter_of_setReg s { s with ms := m } rd _ rfl rfl rfl, ?_⟩
  unfold State.setReg
  split <;> rfl

/-- LW with its four bytes by name, in either byte order (R121, R332). -/
theorem exec_lw_word (s : State) (rd rs1 : RegId) (imm : BitVec 12) (b0 b1 b2 b3 : Byte) (m : MemSys)
    (h : s.loadBytes (s.effectiveAddress rs1 imm) 4 = .ok [b0, b1, b2, b3] m) :
    ∃ t, exec (.lw rd rs1 imm) s = .next t ∧
      s.registersAfter t rd
        ((if s.bigEndian s.effectivePriv then wordOfBytes b3 b2 b1 b0 else wordOfBytes b0 b1 b2 b3).signExtend 64) ∧
      t = { s with regs := t.regs, pc := cut s.cfg.sxlen (s.pc + 4), ms := m } := by
  rw [← ofNat_joinBytes_word]
  exact exec_lw_ok s rd rs1 imm _ m h

/-- SW that completes changes the memory system and `pc` (R333). -/
theorem exec_sw_ok (s : State) (rs2 rs1 : RegId) (imm : BitVec 12) (m : MemSys)
    (h : s.storeBytes (s.effectiveAddress rs1 imm) (s.storedBytes rs2) = .ok () m) :
    exec (.sw rs2 rs1 imm) s = .next { s with pc := cut s.cfg.sxlen (s.pc + 4), ms := m } := by
  unfold State.storedBytes at h
  show execSw rs2 rs1 imm s = _
  simp only [execSw, State.storeWord, h, State.withMs]
  rfl

/-- The `k`-th byte that SW stores (R121, R333). -/
theorem State.storedBytes_getElem (s : State) (rs2 : RegId) (k : Nat) (hk : k < 4) :
    (s.storedBytes rs2)[k]'(by rw [s.storedBytes_length]; exact hk) =
      (s.reg rs2).extractLsb' (if s.bigEndian s.effectivePriv then 8 * (3 - k) else 8 * k) 8 := by
  simp only [State.storedBytes, splitBytes_word, List.getElem_map, List.getElem_range]

/-- The `k`-th piece of a split SW, in address order, with its byte of `rs2` (R127). -/
def State.swPiece (s : State) (va : Word) (rs2 : RegId) (k : Nat) : WalkCtx × Byte :=
  (s.walkCtx (va + BitVec.ofNat 64 k) .store s.effectivePriv,
    (s.reg rs2).extractLsb' (if s.bigEndian s.effectivePriv then 8 * (3 - k) else 8 * k) 8)

/-- A split SW is its pieces, in the order of the policy (R127). -/
theorem State.storeBytes_pieces (s : State) (va : Word) (rs2 : RegId) (up : Bool)
    (h : (s.narrow s.effectivePriv va).toNat % 4 ≠ 0) (hp : s.cfg.misaligned = .split up) :
    s.storeBytes va (s.storedBytes rs2) = storePieces (inOrder up ((List.range 4).map (s.swPiece va rs2))) s.ms := by
  rw [s.storeBytes_split va _ up (by rw [s.storedBytes_length]; exact h) hp, s.pieces_zip]
  rfl

theorem inOrder_length {α : Type} (up : Bool) (l : List α) : (inOrder up l).length = l.length := by
  cases up <;> simp [inOrder]

/-- An aligned SW that reaches `pa` stores its four bytes there. -/
theorem exec_sw_aligned (s : State) (rs2 rs1 : RegId) (imm : BitVec 12) (pa : Nat) (m : MemSys)
    (hva : (s.narrow s.effectivePriv (s.effectiveAddress rs1 imm)).toNat % 4 = 0)
    (hr : reach (s.walkCtx (s.effectiveAddress rs1 imm) .store s.effectivePriv) false 4 s.ms = .ok pa m) :
    exec (.sw rs2 rs1 imm) s = .next { s with
      pc := cut s.cfg.sxlen (s.pc + 4), ms := { m with mem := Memory.writeBytes m.mem pa (s.storedBytes rs2) } } := by
  refine exec_sw_ok s rs2 rs1 imm _ ?_
  rw [s.storeBytes_aligned _ _ (by rw [s.storedBytes_length]; exact hva)]
  exact storePiece_of_reach (by rw [s.storedBytes_length]; exact hr)

/-- An aligned LW that reaches `pa` loads the four bytes there. -/
theorem exec_lw_aligned (s : State) (rd rs1 : RegId) (imm : BitVec 12) (pa : Nat) (m : MemSys)
    (hva : (s.narrow s.effectivePriv (s.effectiveAddress rs1 imm)).toNat % 4 = 0)
    (hr : reach (s.walkCtx (s.effectiveAddress rs1 imm) .load s.effectivePriv) false 4 s.ms = .ok pa m) :
    ∃ t, exec (.lw rd rs1 imm) s = .next t ∧
      s.registersAfter t rd
        ((if s.bigEndian s.effectivePriv then
            wordOfBytes (Memory.read m.mem (pa + 3)) (Memory.read m.mem (pa + 2)) (Memory.read m.mem (pa + 1))
              (Memory.read m.mem pa)
          else
            wordOfBytes (Memory.read m.mem pa) (Memory.read m.mem (pa + 1)) (Memory.read m.mem (pa + 2))
              (Memory.read m.mem (pa + 3))).signExtend 64) ∧
      t = { s with regs := t.regs, pc := cut s.cfg.sxlen (s.pc + 4), ms := m } := by
  refine exec_lw_word s rd rs1 imm _ _ _ _ m ?_
  rw [s.loadBytes_aligned _ 4 hva, loadPiece_of_reach hr]
  rfl

/-- The bytes that an aligned SW leaves: its own four, and every other as it was (R333). -/
theorem State.read_storedBytes (s : State) (rs2 : RegId) (m : List Host.Cell) (pa : Nat) :
    (∀ k, k < 4 → Memory.read (Memory.writeBytes m pa (s.storedBytes rs2)) (pa + k) =
      (s.reg rs2).extractLsb' (if s.bigEndian s.effectivePriv then 8 * (3 - k) else 8 * k) 8) ∧
    ∀ a, (a < pa ∨ pa + 4 ≤ a) → Memory.read (Memory.writeBytes m pa (s.storedBytes rs2)) a = Memory.read m a := by
  refine ⟨fun k hk => ?_, fun a ha => ?_⟩
  · rw [Memory.read_writeBytes_inside _ _ _ k (by rw [s.storedBytes_length]; exact hk), s.storedBytes_getElem rs2 k hk]
  · exact Memory.read_writeBytes_outside _ _ _ _ (by rw [s.storedBytes_length]; exact ha)

/-- Settles O28: an aligned load where it reaches, and a split one piece by piece; its only writes are PTE updates. -/
theorem lwTranslated : Obligations.LwTranslated := by
  unfold Obligations.LwTranslated
  intro rd rs1 imm s p big hp hbig
  obtain rfl : p = s.effectivePriv := hp
  obtain rfl : big = s.bigEndian s.effectivePriv := hbig.trans (s.bigEndian_eq _)
  refine ⟨?aligned, ?split⟩
  case aligned =>
    rintro c pa m rfl hva hr
    obtain ⟨t, he, hregs, ht⟩ := exec_lw_aligned s rd rs1 imm pa m hva hr
    refine ⟨t, he, hregs, fun a ha => ?_, ht⟩
    have hmem := reach_mem _ false 4 s.ms a ha
    rw [hr] at hmem
    rw [ht]
    exact hmem
  case split =>
    rintro l up bs m hva hp rfl hl
    refine ⟨fun l1 l2 c hsplit => ?_, ?_⟩
    · rw [hsplit] at hl
      obtain ⟨bs1, m1, pa, m2, bs2, h1, hr, -, rfl, hlen⟩ := loadPieces_append_ok l1 l2 c s.ms m bs hl
      exact ⟨bs1, m1, pa, m2, h1, hr, by rw [← hlen]; simp⟩
    · have hfour : (inOrder up bs).length = 4 := by
        rw [inOrder_length, loadPieces_length _ _ _ _ hl, inOrder_length]; rfl
      obtain ⟨b0, b1, b2, b3, hbs⟩ := List.length_eq_four.mp hfour
      have hload := s.loadBytes_split_ok _ 4 up bs m hva hp hl
      rw [hbs] at hload
      obtain ⟨t, he, hregs, ht⟩ := exec_lw_word s rd rs1 imm b0 b1 b2 b3 m hload
      refine ⟨b0, b1, b2, b3, t, hbs, he, hregs, fun a ha => ?_, ht⟩
      have hmem := loadPieces_mem a _ s.ms ha
      rw [hl] at hmem
      rw [ht]
      exact hmem

/-- Settles O29: an aligned store where it reaches, and a split one piece by piece; beside its own bytes it writes PTE updates
only. -/
theorem swTranslated : Obligations.SwTranslated := by
  unfold Obligations.SwTranslated
  intro rs2 rs1 imm s p big hp hbig
  obtain rfl : p = s.effectivePriv := hp
  obtain rfl : big = s.bigEndian s.effectivePriv := hbig.trans (s.bigEndian_eq _)
  refine ⟨?aligned, ?split⟩
  case aligned =>
    rintro c pa m rfl hva hr
    obtain ⟨hin, hout⟩ := s.read_storedBytes rs2 m.mem pa
    refine ⟨_, exec_sw_aligned s rs2 rs1 imm pa m hva hr, hin, fun a ha hn => ?_, rfl⟩
    have hmem := reach_mem _ false 4 s.ms a hn
    rw [hr] at hmem
    exact (hout a ha).trans hmem
  case split =>
    rintro l up m hva hp rfl hl
    refine ⟨exec_sw_ok s rs2 rs1 imm m ((s.storeBytes_pieces _ rs2 up hva hp).trans hl), fun l1 l2 c b hsplit => ?_,
      fun a ha => ?_⟩
    · rw [hsplit] at hl
      obtain ⟨m1, pa, m2, h1, hr, h2⟩ := storePieces_append_ok l1 l2 c b s.ms m hl
      refine ⟨m1, pa, m2, h1, hr, fun hn => ?_⟩
      have hmem := storePieces_mem pa l2 _ hn
      rw [h2] at hmem
      exact hmem.trans (Memory.read_write_same _ _ _)
    · have hmem := storePieces_mem a _ s.ms ha
      rw [hl] at hmem
      exact hmem

end Sys2Proof.Machine
end

section
/-! PROOFS. The invariant that memory and the record of memory types are in canonical form (O12). -/

namespace Sys2Proof.Machine

/-! ### What leaves the two records -/

theorem State.takeException_memoryOk (s : State) (c : Cause) (info : Word) (h : s.MemoryOk) :
    (s.takeException c info).MemoryOk := by
  rw [s.takeException_frame c info]; exact h

theorem State.takeInterrupt_memoryOk (s : State) (code : Nat) (h : s.MemoryOk) : (s.takeInterrupt code).MemoryOk := by
  rw [s.takeInterrupt_frame code]; exact h

theorem State.writeCsr_memoryOk (s t : State) (c : Csr) (v : Word) (h : s.MemoryOk) (hw : s.writeCsr c v = .ok t) :
    t.MemoryOk := by
  rw [s.writeCsr_frame t c v hw]; exact h

/-- A change of the memory system that keeps its records (`recordsOk`) keeps the canonical form of the state's memory. -/
theorem State.setMs_memoryOk (s : State) (m : MemSys) (h : s.MemoryOk) (hm : recordsOk s.ms → recordsOk m) :
    ({ s with ms := m } : State).MemoryOk := hm h

/-! ### What writes them: the other agents' stores and walks, and the accesses of instructions -/

theorem State.act_memoryOk (s : State) (a : EnvAction) (h : s.MemoryOk) : (s.act a).MemoryOk :=
  s.act_keeps a State.MemoryOk h (fun _ _ => h) (fun _ => h) (fun m hm => s.setMs_memoryOk m h hm) (fun _ => h)
    (fun m _ hm => s.setMs_memoryOk m h hm) (fun _ _ => h) (fun _ => h) (fun _ => h)
    (fun _ c v t hw => s.writeCsr_memoryOk t c v h hw) (fun _ _ _ => h) (fun _ _ _ => h)

theorem exec_memoryOk (i : Instr) (s t : State) (h : s.MemoryOk) (he : exec i s = .next t) : t.MemoryOk :=
  exec_keeps State.MemoryOk State.takeException_memoryOk State.setMs_memoryOk (fun _ _ h => h) (fun _ h => h)
    (fun _ _ _ _ h => h) (fun _ h => h) (fun _ _ h => h) (fun _ _ _ h => h)
    (fun s t c v h _ hw => s.writeCsr_memoryOk t c v h hw) i s t h he

/-- Settles O12: traps and CSR writes leave the two records, and every store, walk and access changes them only by writes that
keep the canonical form. -/
theorem stepKeepsMemoryCanonical : Obligations.StepKeepsMemoryCanonical := by
  unfold Obligations.StepKeepsMemoryCanonical
  intro s t hs h
  exact step_keeps State.MemoryOk State.act_memoryOk (fun _ h => h) (fun _ _ h => h) State.setMs_memoryOk
    (fun s code h _ => s.takeInterrupt_memoryOk code h) State.takeException_memoryOk (fun _ h => h) exec_memoryOk s t hs h

end Sys2Proof.Machine
end

section
/-! PROOFS. LW and SW without translation (O26, O27): each piece reaches its own address, and its record does not bar the
pieces after it. -/

namespace Sys2Proof.Machine

/-! ### The pieces of an untranslated access -/

/-- A byte piece that reaches its own address: no scheme is in force, its check allows it, and it keeps coherence. -/
def bareByte (cfg : Config) (types : List (Nat × Seen)) (c : WalkCtx) : Prop :=
  c.cfg = cfg ∧ c.scheme = .bare ∧ pmaCheck cfg c.va.toNat 1 c.acc c.epriv = .ok ∧
    keepsCoherence cfg c.va.toNat 1 .pma types

theorem keepsCoherence_byte {c : Config} {pa : Nat} {mt : MemType} {types : List (Nat × Seen)}
    (h : compatible (lookupAt .unseen types pa) (attributesOf c pa 1 mt) = true) : keepsCoherence c pa 1 mt types := by
  intro k hk
  obtain rfl : k = 0 := by omega
  exact h

/-- Such a piece reaches its address, and every other such piece still does after it: one at another address by the record,
one at the same address since it has the same attributes. -/
theorem bareByte.reach {cfg : Config} {c : WalkCtx} {ms : MemSys} (h : bareByte cfg ms.types c) :
    ∃ types, Machine.reach c true 1 ms = .ok c.va.toNat { ms with types := types } ∧
      ∀ d, bareByte cfg ms.types d → bareByte cfg types d := by
  obtain ⟨rfl, hb, hok, hk⟩ := h
  obtain ⟨types, hr, hrec⟩ := reach_bare true ms hb hok hk
  refine ⟨types, hr, fun d ⟨hcfg, hd, hdok, hdk⟩ => ⟨hcfg, hd, hdok, hrec.keeps hdk ?_⟩⟩
  by_cases he : c.va.toNat = d.va.toNat
  · exact .inr (.inr (by rw [he]))
  · omega

theorem loadPieces_bare (cfg : Config) : ∀ (l : List WalkCtx) (ms : MemSys), (∀ c ∈ l, bareByte cfg ms.types c) →
    ∃ types, loadPieces l ms = .ok (l.map (fun c => Memory.read ms.mem c.va.toNat)) { ms with types := types } := by
  intro l
  induction l with
  | nil => exact fun ms _ => ⟨ms.types, rfl⟩
  | cons c l ih =>
    intro ms h
    obtain ⟨types, hr, hkeep⟩ := (h c List.mem_cons_self).reach
    obtain ⟨types', hl⟩ := ih { ms with types := types } (fun d hd => hkeep d (h d (List.mem_cons_of_mem c hd)))
    exact ⟨types', (loadPieces_cons_ok _ c l ms _).mpr ⟨_, _, _, loadPiece_of_reach hr, hl, rfl⟩⟩

/-- Memory after byte stores at the pieces' own addresses, one after the other. -/
def storedPieces (m : List Host.Cell) (l : List (WalkCtx × Byte)) : List Host.Cell :=
  l.foldl (fun m e => Memory.write m e.1.va.toNat e.2) m

theorem storePieces_bare (cfg : Config) : ∀ (l : List (WalkCtx × Byte)) (ms : MemSys),
    (∀ e ∈ l, bareByte cfg ms.types e.1) →
    ∃ types, storePieces l ms = .ok () { ms with mem := storedPieces ms.mem l, types := types } := by
  intro l
  induction l with
  | nil => exact fun ms _ => ⟨ms.types, rfl⟩
  | cons e l ih =>
    obtain ⟨c, b⟩ := e
    intro ms h
    obtain ⟨types, hr, hkeep⟩ := (h (c, b) List.mem_cons_self).reach
    obtain ⟨types', hl⟩ := ih { ms with mem := Memory.write ms.mem c.va.toNat b, types := types }
      (fun d hd => hkeep d.1 (h d (List.mem_cons_of_mem _ hd)))
    exact ⟨types', (storePieces_cons_ok _ c b l ms).mpr ⟨_, (storePiece_byte_ok_iff c b ms _).mpr ⟨_, _, hr, rfl⟩, hl⟩⟩

theorem read_storedPieces_other (m : List Host.Cell) (a : Nat) (l : List (WalkCtx × Byte)) (h : ∀ e ∈ l, a ≠ e.1.va.toNat) :
    Memory.read (storedPieces m l) a = Memory.read m a := by
  induction l generalizing m with
  | nil => rfl
  | cons e l ih =>
    rw [storedPieces, List.foldl_cons, ← storedPieces, ih _ (fun d hd => h d (List.mem_cons_of_mem e hd)),
      Memory.read_write_other _ _ (h e List.mem_cons_self)]

/-- Where no two pieces with different bytes have one address, each byte is read where it is stored. -/
theorem read_storedPieces (m : List Host.Cell) (l : List (WalkCtx × Byte)) (e : WalkCtx × Byte) (he : e ∈ l)
    (hu : ∀ d ∈ l, d.1.va.toNat = e.1.va.toNat → d.2 = e.2) : Memory.read (storedPieces m l) e.1.va.toNat = e.2 := by
  induction l using List.reverseRecOn with
  | nil => cases he
  | append_singleton l x ih =>
    rw [storedPieces, List.foldl_append]
    show Memory.read (Memory.write (storedPieces m l) x.1.va.toNat x.2) _ = _
    by_cases hx : x.1.va.toNat = e.1.va.toNat
    · rw [hx, Memory.read_write_same]
      exact hu x (by simp) hx
    · have hel : e ∈ l := (List.mem_append.mp he).resolve_right (fun h => hx (by rw [List.mem_singleton.mp h]))
      rw [Memory.read_write_other _ _ (Ne.symm hx), ih hel (fun d hd => hu d (List.mem_append_left _ hd))]

theorem inOrder_map {α β : Type} (up : Bool) (f : α → β) (l : List α) : inOrder up (l.map f) = (inOrder up l).map f := by
  cases up <;> simp [inOrder]

theorem inOrder_inOrder {α : Type} (up : Bool) (l : List α) : inOrder up (inOrder up l) = l := by
  cases up <;> simp [inOrder]

theorem inOrder_mem_iff {α : Type} (up : Bool) (l : List α) (a : α) : a ∈ inOrder up l ↔ a ∈ l := by
  cases up <;> simp [inOrder]

/-- The four bytes of a word have four addresses, at the width of the mode (R33). -/
theorem State.narrow_byte_inj (s : State) (p : Priv) (va : Word) {j k : Nat} (hj : j < 4) (hk : k < 4)
    (h : (s.narrow p (va + BitVec.ofNat 64 j)).toNat = (s.narrow p (va + BitVec.ofNat 64 k)).toNat) : j = k := by
  simp only [State.narrow, cut_toNat, BitVec.toNat_add, BitVec.toNat_ofNat] at h
  cases hx : s.xlenOf p <;> simp only [hx, Xlen.bits] at h <;> omega

/-! ### The statements -/

/-- Settles O26: the aligned access reaches its own address, and so does each piece of a split one. -/
theorem lwUntranslated : Obligations.LwUntranslated := by
  unfold Obligations.LwUntranslated
  intro rd rs1 imm s p big hp hbig hbare
  obtain rfl : p = s.effectivePriv := hp
  obtain rfl : big = s.bigEndian s.effectivePriv := hbig.trans (s.bigEndian_eq _)
  have hb := s.schemeFor_bare _ hbare
  refine ⟨?aligned, ?split⟩
  case aligned =>
    rintro pa rfl hva hok hk
    obtain ⟨types, hr, -⟩ := reach_bare (c := s.walkCtx (s.effectiveAddress rs1 imm) .load s.effectivePriv) (n := 4) false
      s.ms hb hok hk
    obtain ⟨t, he, hregs, ht⟩ := exec_lw_aligned s rd rs1 imm _ _ hva hr
    refine ⟨t, he, hregs, ?_⟩
    have hms : t.ms = { s.ms with types := types } := congrArg State.ms ht
    rw [hms]
    exact ht
  case split =>
    intro up pa hp hpa hva hok
    obtain rfl : pa = fun k => _ := funext hpa
    have hbyte : ∀ c ∈ inOrder up (s.pieces (s.effectiveAddress rs1 imm) 4 .load), bareByte s.cfg s.ms.types c := by
      intro c hc
      obtain ⟨k, hk, rfl⟩ := List.mem_map.mp (mem_inOrder hc)
      obtain ⟨hpma, hcomp⟩ := hok k (List.mem_range.mp hk)
      exact ⟨rfl, hb, hpma, keepsCoherence_byte hcomp⟩
    obtain ⟨types, hl⟩ := loadPieces_bare s.cfg _ s.ms hbyte
    have hva' : (s.narrow s.effectivePriv (s.effectiveAddress rs1 imm)).toNat % 4 ≠ 0 := by simpa using hva
    have hload := s.loadBytes_split_ok _ 4 up _ _ hva' hp hl
    rw [← inOrder_map, inOrder_inOrder] at hload
    obtain ⟨t, he, hregs, ht⟩ := exec_lw_word s rd rs1 imm _ _ _ _ _ hload
    refine ⟨t, he, hregs, ?_⟩
    have hms : t.ms = { s.ms with types := types } := congrArg State.ms ht
    rw [hms]
    exact ht

/-- Settles O27: the aligned access reaches its own address, and so does each piece of a split one, which stores its byte at
an address of its own. -/
theorem swUntranslated : Obligations.SwUntranslated := by
  unfold Obligations.SwUntranslated
  intro rs2 rs1 imm s p big hp hbig hbare
  obtain rfl : p = s.effectivePriv := hp
  obtain rfl : big = s.bigEndian s.effectivePriv := hbig.trans (s.bigEndian_eq _)
  have hb := s.schemeFor_bare _ hbare
  refine ⟨?aligned, ?split⟩
  case aligned =>
    rintro pa rfl hva hok hk
    obtain ⟨types, hr, -⟩ := reach_bare (c := s.walkCtx (s.effectiveAddress rs1 imm) .store s.effectivePriv) (n := 4) false
      s.ms hb hok hk
    obtain ⟨hin, hout⟩ := s.read_storedBytes rs2 s.ms.mem (s.narrow s.effectivePriv (s.effectiveAddress rs1 imm)).toNat
    exact ⟨_, exec_sw_aligned s rs2 rs1 imm _ _ hva hr, hin, hout, rfl⟩
  case split =>
    intro up pa hp hpa hva hok
    obtain rfl : pa = fun k => _ := funext hpa
    have hva' : (s.narrow s.effectivePriv (s.effectiveAddress rs1 imm)).toNat % 4 ≠ 0 := by simpa using hva
    have hstore := s.storeBytes_pieces (s.effectiveAddress rs1 imm) rs2 up hva' hp
    generalize hl : inOrder up ((List.range 4).map (s.swPiece (s.effectiveAddress rs1 imm) rs2)) = l at hstore
    have hmem : ∀ e, e ∈ l ↔ ∃ k, k < 4 ∧ s.swPiece (s.effectiveAddress rs1 imm) rs2 k = e := by
      intro e
      rw [← hl, inOrder_mem_iff, List.mem_map]
      simp only [List.mem_range]
    have hbyte : ∀ e ∈ l, bareByte s.cfg s.ms.types e.1 := by
      intro e he
      obtain ⟨k, hk, rfl⟩ := (hmem e).mp he
      obtain ⟨hpma, hcomp⟩ := hok k hk
      exact ⟨rfl, hb, hpma, keepsCoherence_byte hcomp⟩
    obtain ⟨types, hs⟩ := storePieces_bare s.cfg l s.ms hbyte
    refine ⟨_, exec_sw_ok s rs2 rs1 imm _ (hstore.trans hs), fun k hk => ?_, fun a ha => ?_, rfl⟩
    · refine read_storedPieces s.ms.mem l _ ((hmem _).mpr ⟨k, hk, rfl⟩) (fun d hd hda => ?_)
      obtain ⟨j, hj, rfl⟩ := (hmem d).mp hd
      rw [s.narrow_byte_inj _ _ hj hk hda]
    · refine read_storedPieces_other s.ms.mem a l (fun e he => ?_)
      obtain ⟨k, hk, rfl⟩ := (hmem e).mp he
      exact ha k hk

end Sys2Proof.Machine
end

section
/-! PROOFS. Where LW and SW stop (O32), and their frame however they end (O30). -/

namespace Sys2Proof.Machine

/-! ### Where a piece stops -/

/-- PBMT=IO makes a piece raise by the configuration only: not a whole access, nor where the access is performed (R207). -/
theorem ioCause_none_iff (c : WalkCtx) (isPiece : Bool) (mt : MemType) :
    (if isPiece && mt == .io then ioMisalignedCause c.cfg c.acc else none) = none ↔
      isPiece = false ∨ mt ≠ .io ∨ c.cfg.ioMisaligned = .perform := by
  have hio : ioMisalignedCause c.cfg c.acc = none ↔ c.cfg.ioMisaligned = .perform := by
    unfold ioMisalignedCause
    cases c.cfg.ioMisaligned <;> simp
  cases isPiece <;> cases mt <;> simp [hio]

/-- A located access stops on a device region, unless PBMT=NC makes its page main memory (R136, R206). -/
theorem checkAccess_stop_iff (c : WalkCtx) (n pa : Nat) (mt : MemType) (m : MemSys) (x : Stop) :
    checkAccess c n pa mt m = .stop x ↔
      x = .refusal .deviceAccess ∧ pmaCheck c.cfg pa n c.acc c.epriv = .device ∧ mt ≠ .nc := by
  unfold checkAccess
  cases pmaCheck c.cfg pa n c.acc c.epriv
  case ok => simp
  case denied => simp
  case device => by_cases h : mt = .nc <;> simp [h, eq_comm]

theorem checkAccess_ok_iff (c : WalkCtx) (n pa : Nat) (mt : MemType) (m : MemSys) (r : Nat × MemType) (m' : MemSys) :
    checkAccess c n pa mt m = .ok r m' ↔
      r = (pa, mt) ∧ m' = m ∧
        (pmaCheck c.cfg pa n c.acc c.epriv = .ok ∨ pmaCheck c.cfg pa n c.acc c.epriv = .device ∧ mt = .nc) := by
  unfold checkAccess
  cases pmaCheck c.cfg pa n c.acc c.epriv
  case ok => simp [eq_comm]
  case denied => simp
  case device => by_cases h : mt = .nc <;> simp [h, eq_comm]

/-- A located access stops on its record (R210, U32), where it does not raise before. -/
theorem reach_stop_of_locate (c : WalkCtx) (isPiece : Bool) (n pa : Nat) (mt : MemType) (ms m : MemSys) (x : Stop)
    (hl : locate c n ms = .ok (pa, mt) m) :
    reach c isPiece n ms = .stop x ↔
      (isPiece = false ∨ mt ≠ .io ∨ c.cfg.ioMisaligned = .perform) ∧ m.touch c.cfg pa n mt = .error x := by
  rw [← ioCause_none_iff]
  simp only [reach, hl]
  cases (if isPiece && mt == .io then ioMisalignedCause c.cfg c.acc else none) with
  | some cause => simp
  | none => cases m.touch c.cfg pa n mt <;> simp

/-- Where reaching a piece stops: in its translation, on a device, or on its record (R136, R206, R210). -/
theorem reach_stop_iff (c : WalkCtx) (isPiece : Bool) (n : Nat) (ms : MemSys) (x : Stop) :
    reach c isPiece n ms = .stop x ↔
      translate c ms = .stop x ∨
      ∃ pa mt m, translate c ms = .ok (pa, mt) m ∧
        (x = .refusal .deviceAccess ∧ pmaCheck c.cfg pa n c.acc c.epriv = .device ∧ mt ≠ .nc ∨
          x = .fault .incoherentTypes ∧
            (pmaCheck c.cfg pa n c.acc c.epriv = .ok ∨ pmaCheck c.cfg pa n c.acc c.epriv = .device ∧ mt = .nc) ∧
            (isPiece = false ∨ mt ≠ .io ∨ c.cfg.ioMisaligned = .perform) ∧ c.cfg.ext.svpbmt = true ∧
            ∃ k, k < n ∧ compatible (lookupAt .unseen m.types (pa + k)) (attributesOf c.cfg pa n mt) = false) := by
  cases ht : translate c ms with
  | exc cause info m => simp [reach, locate, ht]
  | stop y => simp [reach, locate, ht]
  | ok r m =>
    obtain ⟨pa, mt⟩ := r
    have hl : locate c n ms = checkAccess c n pa mt m := by simp only [locate, ht]
    simp only [reduceCtorEq, false_or, Res.ok.injEq, Prod.mk.injEq]
    have one : ∀ Q : Nat → MemType → MemSys → Prop,
        (∃ qa nt m', ((pa = qa ∧ mt = nt) ∧ m = m') ∧ Q qa nt m') ↔ Q pa mt m := by
      intro Q
      exact ⟨by rintro ⟨_, _, _, ⟨⟨rfl, rfl⟩, rfl⟩, h⟩; exact h, fun h => ⟨pa, mt, m, ⟨⟨rfl, rfl⟩, rfl⟩, h⟩⟩
    rw [one (fun pa mt m => _ ∨ _)]
    rw [← checkAccess_stop_iff c n pa mt m x]
    have hallowed := fun h => (checkAccess_ok_iff c n pa mt m (pa, mt) m).mpr ⟨rfl, rfl, h⟩
    cases hc : checkAccess c n pa mt m with
    | ok q m' =>
      obtain ⟨rfl, rfl, hpma⟩ := (checkAccess_ok_iff c n pa mt m q m').mp hc
      rw [reach_stop_of_locate c isPiece n pa mt ms m' x (hl.trans hc), MemSys.touch_error_iff]
      simp only [reduceCtorEq, false_or, hpma, true_and]
      tauto
    | exc cause info m' =>
      have hpma := (not_imp_not.mpr hallowed) (by simp [hc])
      simp [reach, hl, hc, hpma]
    | stop y =>
      have hpma := (not_imp_not.mpr hallowed) (by simp [hc])
      simp [reach, hl, hc, hpma]

/-! ### LW and SW that stop -/

theorem loadPieces_stop : ∀ (l1 l2 : List WalkCtx) (c : WalkCtx) (ms m1 : MemSys) (bs1 : List Byte) (x : Stop),
    loadPieces l1 ms = .ok bs1 m1 → reach c true 1 m1 = .stop x → loadPieces (l1 ++ c :: l2) ms = .stop x := by
  intro l1
  induction l1 with
  | nil =>
    intro l2 c ms m1 bs1 x h hr
    cases h
    simp only [List.nil_append, loadPieces, loadPiece, hr]
  | cons d l1 ih =>
    intro l2 c ms m1 bs1 x h hr
    obtain ⟨b, ms', bs', hb, hrest, -⟩ := (loadPieces_cons_ok m1 d l1 ms bs1).mp h
    simp only [List.cons_append, loadPieces, hb, ih l2 c ms' m1 bs' x hrest hr]

theorem storePieces_stop : ∀ (l1 l2 : List (WalkCtx × Byte)) (c : WalkCtx) (b : Byte) (ms m1 : MemSys) (x : Stop),
    storePieces l1 ms = .ok () m1 → reach c true 1 m1 = .stop x → storePieces (l1 ++ (c, b) :: l2) ms = .stop x := by
  intro l1
  induction l1 with
  | nil =>
    intro l2 c b ms m1 x h hr
    cases h
    simp only [List.nil_append, storePieces, storePiece, List.length_singleton, hr]
  | cons e l1 ih =>
    obtain ⟨d, y⟩ := e
    intro l2 c b ms m1 x h hr
    obtain ⟨ms', hb, hrest⟩ := (storePieces_cons_ok m1 d y l1 ms).mp h
    simp only [List.cons_append, storePieces, hb, ih l2 c b ms' m1 x hrest hr]

theorem exec_lw_stop (s : State) (rd rs1 : RegId) (imm : BitVec 12) (x : Stop)
    (h : s.loadBytes (s.effectiveAddress rs1 imm) 4 = .stop x) : exec (.lw rd rs1 imm) s = x.outcome := by
  show execLw rd rs1 imm s = _
  simp only [execLw, State.loadWord, h, State.withMs]

theorem exec_sw_stop (s : State) (rs2 rs1 : RegId) (imm : BitVec 12) (x : Stop)
    (h : s.storeBytes (s.effectiveAddress rs1 imm) (s.storedBytes rs2) = .stop x) :
    exec (.sw rs2 rs1 imm) s = x.outcome := by
  unfold State.storedBytes at h
  show execSw rs2 rs1 imm s = _
  simp only [execSw, State.storeWord, h, State.withMs]

theorem exec_lw_aligned_stop (s : State) (rd rs1 : RegId) (imm : BitVec 12) (x : Stop)
    (hva : (s.narrow s.effectivePriv (s.effectiveAddress rs1 imm)).toNat % 4 = 0)
    (hr : reach (s.walkCtx (s.effectiveAddress rs1 imm) .load s.effectivePriv) false 4 s.ms = .stop x) :
    exec (.lw rd rs1 imm) s = x.outcome := by
  refine exec_lw_stop s rd rs1 imm x ?_
  rw [s.loadBytes_aligned _ 4 hva]
  simp only [loadPiece, hr]

theorem exec_sw_aligned_stop (s : State) (rs2 rs1 : RegId) (imm : BitVec 12) (x : Stop)
    (hva : (s.narrow s.effectivePriv (s.effectiveAddress rs1 imm)).toNat % 4 = 0)
    (hr : reach (s.walkCtx (s.effectiveAddress rs1 imm) .store s.effectivePriv) false 4 s.ms = .stop x) :
    exec (.sw rs2 rs1 imm) s = x.outcome := by
  refine exec_sw_stop s rs2 rs1 imm x ?_
  rw [s.storeBytes_aligned _ _ (by rw [s.storedBytes_length]; exact hva)]
  simp only [storePiece, s.storedBytes_length, hr]

/-- Without translation an access stops on a device region, and on its record (R136, R210). -/
theorem reach_bare_stop {c : WalkCtx} {n : Nat} (ms : MemSys) (hb : c.scheme = .bare) :
    (pmaCheck c.cfg c.va.toNat n c.acc c.epriv = .device → reach c false n ms = .stop (.refusal .deviceAccess)) ∧
    (pmaCheck c.cfg c.va.toNat n c.acc c.epriv = .ok → c.cfg.ext.svpbmt = true →
      (∃ k, k < n ∧ compatible (lookupAt .unseen ms.types (c.va.toNat + k)) (attributesOf c.cfg c.va.toNat n .pma) = false) →
      reach c false n ms = .stop (.fault .incoherentTypes)) := by
  have ht := translate_bare c ms hb
  refine ⟨fun hd => ?_, fun hok hs hk => ?_⟩
  · exact (reach_stop_iff c false n ms _).mpr (.inr ⟨_, _, _, ht, .inl ⟨rfl, hd, by decide⟩⟩)
  · exact (reach_stop_iff c false n ms _).mpr (.inr ⟨_, _, _, ht, .inr ⟨rfl, .inl hok, .inl rfl, hs, hk⟩⟩)

/-- Settles O32: where a piece stops, and what aligned, split and untranslated accesses make of it. -/
theorem loadStoreStops : Obligations.LoadStoreStops := by
  unfold Obligations.LoadStoreStops
  refine ⟨reach_stop_iff, ?aligned, ?split, ?untranslated⟩
  case aligned =>
    rintro r rs1 imm s p x rfl hva
    exact ⟨exec_lw_aligned_stop s r rs1 imm x hva, exec_sw_aligned_stop s r rs1 imm x hva⟩
  case split =>
    intro r rs1 imm s p big up x hp hbig hva hsplit
    obtain rfl : p = s.effectivePriv := hp
    obtain rfl : big = s.bigEndian s.effectivePriv := hbig.trans (s.bigEndian_eq _)
    refine ⟨fun l1 l2 c bs1 m1 hl hok hr => ?_, fun l1 l2 c b m1 hl hok hr => ?_⟩
    · refine exec_lw_stop s r rs1 imm x ((if_neg hva).trans ?_)
      have hpieces : inOrder up (s.pieces (s.effectiveAddress rs1 imm) 4 .load) = l1 ++ c :: l2 := hl
      simp only [hsplit, hpieces, loadPieces_stop l1 l2 c s.ms m1 bs1 x hok hr]
    · refine exec_sw_stop s r rs1 imm x ?_
      have hpieces : inOrder up ((List.range 4).map (s.swPiece (s.effectiveAddress rs1 imm) r)) = l1 ++ (c, b) :: l2 := hl
      rw [s.storeBytes_pieces _ r up hva hsplit, hpieces]
      exact storePieces_stop l1 l2 c b s.ms m1 x hok hr
  case untranslated =>
    rintro r rs1 imm s p pa rfl hbare rfl hva
    have hb := s.schemeFor_bare _ hbare
    obtain ⟨hld, hlt⟩ := reach_bare_stop (c := s.walkCtx (s.effectiveAddress rs1 imm) .load s.effectivePriv) (n := 4) s.ms hb
    obtain ⟨hsd, hst⟩ := reach_bare_stop (c := s.walkCtx (s.effectiveAddress rs1 imm) .store s.effectivePriv) (n := 4) s.ms hb
    exact ⟨fun h => exec_lw_aligned_stop s r rs1 imm _ hva (hld h), fun h => exec_sw_aligned_stop s r rs1 imm _ hva (hsd h),
      fun hpb hk => ⟨fun h => exec_lw_aligned_stop s r rs1 imm _ hva (hlt h hpb hk),
        fun h => exec_sw_aligned_stop s r rs1 imm _ hva (hst h hpb hk)⟩⟩

/-! ### The bytes that a load or a store may write -/

theorem State.loadBytes_mem (s : State) (va : Word) (a : Nat) (h : ¬s.loadWrites va a) :
    resLeaves (fun m => Memory.read m.mem a = Memory.read s.ms.mem a) (s.loadBytes va 4) := by
  unfold State.loadWrites at h
  unfold State.loadBytes
  dsimp only at h ⊢
  split at h
  · rename_i hva
    rw [if_pos hva]
    have hm := reach_mem _ false 4 s.ms a h
    unfold loadPiece
    split <;> rename_i hr <;> rw [hr] at hm <;> exact hm
  · rename_i hva
    rw [if_neg hva]
    cases hp : s.cfg.misaligned with
    | trap => rfl
    | split up =>
      rw [hp] at h
      have hm := loadPieces_mem a _ s.ms h
      dsimp only
      split <;> rename_i hr <;> rw [hr] at hm <;> exact hm

theorem State.storeBytes_mem (s : State) (va : Word) (v : BitVec 32) (a : Nat) (h : ¬s.storeWrites va v a) :
    resLeaves (fun m => Memory.read m.mem a = Memory.read s.ms.mem a)
      (s.storeBytes va (splitBytes (s.bigEndian s.effectivePriv) 4 v.toNat)) := by
  unfold State.storeWrites at h
  unfold State.storeBytes
  rw [splitBytes_length]
  dsimp only at h ⊢
  split at h
  · rename_i hva
    rw [if_pos hva]
    obtain ⟨hpte, hown⟩ := not_or.mp h
    have hm := reach_mem _ false 4 s.ms a hpte
    unfold storePiece
    rw [splitBytes_length]
    split <;> rename_i hr <;> rw [hr] at hm
    · rename_i pa m
      refine (Memory.read_writeBytes_outside _ _ _ _ ?_).trans hm
      rw [splitBytes_length]
      by_contra hin
      exact hown ⟨pa, m, hr, by omega, by omega⟩
    · exact hm
    · exact hm
  · rename_i hva
    rw [if_neg hva]
    cases hp : s.cfg.misaligned with
    | trap => rfl
    | split up =>
      rw [hp] at h
      exact storePieces_mem a _ s.ms h

/-! ### The exceptions that a load or a store may raise -/

theorem State.loadBytes_exc (s : State) (va : Word) (cause : Cause) (info : Word) (m : MemSys)
    (h : s.loadBytes va 4 = .exc cause info m) : cause ∈ [Cause.loadMisaligned, Cause.loadAccess, Cause.loadPage] := by
  unfold State.loadBytes at h
  dsimp only at h
  split at h
  · rcases (reach_exc _ _ _ _ _ _ _ ((loadPiece_exc_iff _ _ _ _ _ _ _).mp h)).1 with rfl | rfl | ⟨hf, -⟩
    · simp [State.walkCtx, pageFaultOf]
    · simp [State.walkCtx, accessFaultOf]
    · cases hf
  · split at h
    · cases h; simp
    · split at h
      · cases h
      · rename_i up _ _ _ _ _ hl
        cases h
        obtain ⟨l1, c, l2, bs1, m1, hsplit, -, hr⟩ := (loadPieces_exc_iff _ _ _ _ _).mp hl
        have hmem : c ∈ inOrder up (s.pieces va 4 .load) := by rw [hsplit]; simp
        obtain ⟨k, -, rfl⟩ := List.mem_map.mp (mem_inOrder hmem)
        exact (reach_exc_load _ 1 m1 m cause info rfl hr).2
      · cases h

theorem State.storeBytes_exc (s : State) (va : Word) (bs : List Byte) (cause : Cause) (info : Word) (m : MemSys)
    (h : s.storeBytes va bs = .exc cause info m) : cause ∈ [Cause.storeMisaligned, Cause.storeAccess, Cause.storePage] := by
  unfold State.storeBytes at h
  dsimp only at h
  split at h
  · rcases (reach_exc _ _ _ _ _ _ _ ((storePiece_exc_iff _ _ _ _ _ _ _).mp h)).1 with rfl | rfl | ⟨hf, -⟩
    · simp [State.walkCtx, pageFaultOf]
    · simp [State.walkCtx, accessFaultOf]
    · cases hf
  · split at h
    · cases h; simp
    · rename_i up _
      obtain ⟨l1, c, b, l2, m1, hsplit, -, hr⟩ := (storePieces_exc_iff _ _ _ _ _).mp h
      have hmem : (c, b) ∈ inOrder up ((s.pieces va bs.length .store).zip bs) := by rw [hsplit]; simp
      obtain ⟨k, -, rfl⟩ := List.mem_map.mp (List.of_mem_zip (mem_inOrder hmem)).1
      exact (reach_exc_store _ 1 m1 m cause info rfl hr).2

theorem State.takeException_mem (s : State) (cause : Cause) (info : Word) :
    (s.takeException cause info).ms.mem = s.ms.mem := by
  rw [s.takeException_frame cause info]

theorem Stop.outcome_ne_next (x : Stop) (t : State) : x.outcome ≠ .next t := by
  cases x <;> simp [Stop.outcome]

/-- Settles O30: a load or a store that goes on completes or raises, and either way its writes are those of its pieces. -/
theorem loadStoreFrame : Obligations.LoadStoreFrame := by
  unfold Obligations.LoadStoreFrame
  refine ⟨?load, ?store⟩
  case load =>
    intro rd rs1 imm s t h
    have hmem := s.loadBytes_mem (s.effectiveAddress rs1 imm)
    cases hl : s.loadBytes (s.effectiveAddress rs1 imm) 4 with
    | ok bs m =>
      rw [hl] at hmem
      obtain ⟨u, he, hregs, hu⟩ := exec_lw_ok s rd rs1 imm bs m hl
      obtain rfl := Host.Outcome.next.inj (he.symm.trans h)
      have hms : u.ms = m := congrArg State.ms hu
      rw [hms]
      exact ⟨hmem, .inl ⟨_, hregs, hu⟩⟩
    | exc cause info m =>
      rw [hl] at hmem
      obtain rfl := Host.Outcome.next.inj ((exec_lw_exc s rd rs1 imm cause info m hl).symm.trans h)
      rw [State.takeException_mem]
      exact ⟨hmem, .inr ⟨m, cause, info, rfl, s.loadBytes_exc _ cause info m hl⟩⟩
    | stop x => exact absurd ((exec_lw_stop s rd rs1 imm x hl).symm.trans h) (x.outcome_ne_next t)
  case store =>
    intro rs2 rs1 imm s t h
    have hmem : ∀ a, ¬s.storeWrites (s.effectiveAddress rs1 imm) ((s.reg rs2).setWidth 32) a →
        resLeaves (fun m => Memory.read m.mem a = Memory.read s.ms.mem a)
          (s.storeBytes (s.effectiveAddress rs1 imm) (s.storedBytes rs2)) := s.storeBytes_mem _ _
    cases hl : s.storeBytes (s.effectiveAddress rs1 imm) (s.storedBytes rs2) with
    | ok u m =>
      rw [hl] at hmem
      obtain rfl := Host.Outcome.next.inj ((exec_sw_ok s rs2 rs1 imm m hl).symm.trans h)
      exact ⟨hmem, .inl rfl⟩
    | exc cause info m =>
      rw [hl] at hmem
      obtain rfl := Host.Outcome.next.inj ((exec_sw_exc s rs2 rs1 imm cause info m hl).symm.trans h)
      rw [State.takeException_mem]
      exact ⟨hmem, .inr ⟨m, cause, info, rfl, s.storeBytes_exc _ _ cause info m hl⟩⟩
    | stop x => exact absurd ((exec_sw_stop s rs2 rs1 imm x hl).symm.trans h) (x.outcome_ne_next t)

end Sys2Proof.Machine
end

section
/-! PROOFS. FENCE and CBO.FLUSH on the record of attributes (O53). -/

namespace Sys2Proof.Machine

/-- FENCE changes `pc` and what it marks in the record of attributes (R323). -/
theorem exec_fence (fm pred succ : BitVec 4) (rs1 rd : RegId) (s : State) :
    exec (.fence fm pred succ rs1 rd) s = .next { s with
      pc := cut s.cfg.sxlen (s.pc + 4)
      ms := { s.ms with
        types := if s.fenceSet pred = 15 ∧ s.fenceSet succ = 15 then fenceTypes s.ms.types else s.ms.types } } := by
  show execFence fm pred succ rs1 rd s = _
  unfold execFence
  split <;> rfl

theorem Since.afterFence_eq (since : Since) :
    since.afterFence = if since = .nothing then .fenced else if since = .flushed then .synced else since := by
  cases since <;> rfl

theorem Since.afterFlush_eq (since : Since) : since.afterFlush = if since = .fenced then .flushed else since := by
  cases since <;> rfl

/-- What a flush of the block of `pa` marks: the second stage, after a fence, for the locations of the block (R211). -/
theorem lookupAt_flushTypes (size pa : Nat) (types : List (Nat × Seen)) (a : Nat) :
    lookupAt .unseen (flushTypes size pa types) a = (lookupAt .unseen types a).follow
      (fun since => if a / size = pa / size ∧ since = .fenced then .flushed else since) := by
  rw [flushTypes, lookupAt_followTypes]
  congr 1
  funext since
  rw [Since.afterFlush_eq, ite_and]

theorem lookupAt_fenceTypes (types : List (Nat × Seen)) (a : Nat) :
    lookupAt .unseen (fenceTypes types) a = (lookupAt .unseen types a).follow Since.afterFence :=
  lookupAt_followTypes _ types a

section
variable (s : State) (rs1 : RegId)

theorem State.flushBlock_ok (pa : Nat) (mt : MemType) (m : MemSys)
    (h : locate (s.walkCtx (s.reg rs1) .load s.effectivePriv) 1 s.ms = .ok (pa, mt) m) :
    s.flushBlock rs1 = .next { s with
      pc := cut s.cfg.sxlen (s.pc + 4), ms := { m with types := flushTypes s.cfg.cacheBlock pa m.types } } := by
  simp only [State.flushBlock, h, State.withMs]
  rfl

theorem State.flushBlock_exc (cause : Cause) (info : Word) (m : MemSys)
    (h : locate (s.walkCtx (s.reg rs1) .load s.effectivePriv) 1 s.ms = .exc cause info m) :
    s.flushBlock rs1 = .next ({ s with ms := m }.takeException (flushCause cause) info) := by
  simp only [State.flushBlock, h, State.withMs]

theorem State.flushBlock_stop (x : Stop)
    (h : locate (s.walkCtx (s.reg rs1) .load s.effectivePriv) 1 s.ms = .stop x) : s.flushBlock rs1 = x.outcome := by
  simp only [State.flushBlock, h, State.withMs]

end

/-- CBO.FLUSH takes a store's exception where a load at its address raises (log entry 44). -/
theorem flushCause_of_load (c : WalkCtx) (ha : c.acc = .load) (cause : Cause)
    (h : cause = pageFaultOf c.acc ∨ cause = accessFaultOf c.acc) :
    (cause, flushCause cause) ∈ [(Cause.loadPage, Cause.storePage), (.loadAccess, .storeAccess)] := by
  rw [ha] at h
  rcases h with rfl | rfl <;> simp [pageFaultOf, accessFaultOf, flushCause]

/-- When an access goes on after the last one to its location (R211). -/
theorem compatible_seen_iff (before now : Attributes) (since : Since) :
    compatible (.seen before since) now = true ↔
      before = now ∨ before.cacheable = false ∧ now.cacheable = false ∧ since ≠ .nothing ∨ since = .synced := by
  simp [compatible, or_assoc, and_assoc]

/-- Settles O53: FENCE, CBO.FLUSH as its address is located, and the accesses that go on after each stage. -/
theorem fenceResult : Obligations.FenceResult := by
  unfold Obligations.FenceResult
  refine ⟨fun fm pred succ rs1 rd s => ?fence, ?flush, compatible_seen_iff⟩
  case fence =>
    refine ⟨_, exec_fence fm pred succ rs1 rd s, rfl, fun a => ?_⟩
    show lookupAt .unseen (if s.fenceSet pred = 15 ∧ s.fenceSet succ = 15 then fenceTypes s.ms.types else s.ms.types) a = _
    split
    · rw [lookupAt_fenceTypes]
      cases lookupAt .unseen s.ms.types a
      · rfl
      · simp only [Seen.follow, Since.afterFence_eq]
    · cases lookupAt .unseen s.ms.types a <;> rfl
  case flush =>
    intro rs1 s p c hp hc
    obtain rfl : p = s.effectivePriv := hp
    subst hc
    refine ⟨fun pa mt m hl => ?_, fun cause info m hl => ?_, fun x hl => s.flushBlock_stop rs1 x hl⟩
    · refine ⟨_, s.flushBlock_ok rs1 pa mt m hl, rfl, fun a ha => ?_, fun a => ?_⟩
      · have hmem := locate_leaves _ 1 s.ms _ (translate_mem _ s.ms a ha)
        rw [hl] at hmem
        exact hmem
      · refine (lookupAt_flushTypes _ _ _ a).trans ?_
        cases lookupAt .unseen m.types a <;> rfl
    · obtain ⟨hcause, hinfo⟩ := locate_exc _ 1 s.ms m cause info hl
      exact ⟨hinfo, _, flushCause_of_load _ rfl cause hcause, s.flushBlock_exc rs1 cause info m hl⟩

end Sys2Proof.Machine
end

section
/-! PROOFS. Valid virtual addresses (O55). -/

namespace Sys2Proof.Machine

/-- A word whose bits from `m` up are all alike, by its bits and by its shift: all of them zero, or all of them one. -/
theorem ushiftRight_eq_zero_iff (v : Word) (m : Nat) : v >>> m = 0 ↔ ∀ k, m ≤ k → k < 64 → v.getLsbD k = false := by
  constructor
  · intro h k hm hk
    have hb := congrArg (fun x => x.getLsbD (k - m)) h
    simpa [show m + (k - m) = k by omega] using hb
  · intro h
    apply BitVec.eq_of_getLsbD_eq
    intro k hk
    simp only [BitVec.getLsbD_ushiftRight]
    by_cases hlt : m + k < 64
    · rw [h _ (by omega) hlt]; simp
    · rw [BitVec.getLsbD_of_ge _ _ (by omega)]; simp

theorem ushiftRight_eq_ones_iff (v : Word) (m : Nat) :
    v >>> m = BitVec.allOnes 64 >>> m ↔ ∀ k, m ≤ k → k < 64 → v.getLsbD k = true := by
  constructor
  · intro h k hm hk
    have hb := congrArg (fun x => x.getLsbD (k - m)) h
    simpa only [BitVec.getLsbD_ushiftRight, BitVec.getLsbD_allOnes, show m + (k - m) = k by omega, hk, decide_true] using hb
  · intro h
    apply BitVec.eq_of_getLsbD_eq
    intro k hk
    simp only [BitVec.getLsbD_ushiftRight, BitVec.getLsbD_allOnes]
    by_cases hlt : m + k < 64
    · rw [h _ (by omega) hlt]; simp [hlt]
    · rw [BitVec.getLsbD_of_ge _ _ (by omega)]; simp [hlt]

/-- The bits from `m` up are all zero or all one exactly where each equals the lowest of them (R152). -/
theorem topBits_alike_iff (v : Word) (m : Nat) (hm : m < 64) :
    (v >>> m == 0 || v >>> m == BitVec.allOnes 64 >>> m) = true ↔ ∀ k, m ≤ k → k < 64 → v.getLsbD k = v.getLsbD m := by
  rw [Bool.or_eq_true, beq_iff_eq, beq_iff_eq, ushiftRight_eq_zero_iff, ushiftRight_eq_ones_iff]
  constructor
  · rintro (h | h) k hk hlt <;> rw [h k hk hlt, h m le_rfl hm]
  · intro h
    cases hb : v.getLsbD m
    · exact .inl (fun k hk hlt => (h k hk hlt).trans hb)
    · exact .inr (fun k hk hlt => (h k hk hlt).trans hb)

/-- Settles O55: validity by the top bits, and the page fault of an address that is not valid. -/
theorem nonCanonicalAddressFaults : Obligations.NonCanonicalAddressFaults := by
  unfold Obligations.NonCanonicalAddressFaults
  intro c n ms hsch
  have hvalid : c.scheme ≠ .bare ∧ (vaValid c.scheme c.va = true ↔
      ∀ k, n - 1 ≤ k → k < 64 → c.va.getLsbD k = c.va.getLsbD (n - 1)) := by
    simp only [List.mem_cons, Prod.mk.injEq, List.mem_nil_iff, or_false] at hsch
    rcases hsch with ⟨hs, rfl⟩ | ⟨hs, rfl⟩ | ⟨hs, rfl⟩ <;> rw [hs] <;>
      exact ⟨by decide, topBits_alike_iff c.va _ (by decide)⟩
  obtain ⟨hb, hiff⟩ := hvalid
  refine ⟨hiff, fun hv => ?_⟩
  rw [translate_paged c ms hb, hv]
  cases hacc : c.acc <;> rfl

end Sys2Proof.Machine
end

section
/-! PROOFS. What steps 3 to 8 of the walk say of one PTE, and a PTE that step 7 updates (R154, R165 to R169). -/

namespace Sys2Proof.Machine

/-! ### A PTE that raises a page fault -/

/-- A PTE that steps 3 to 7 refuse with a page fault, whatever the check of its update says: invalid, reserved, a pointer at
level 0, a leaf that does not allow the access, a misaligned superpage, A or D clear where software sets them. -/
def pteRefused (c : WalkCtx) (i : Nat) (pte : Word) : Bool :=
  !pteV pte || (!pteR pte && pteW pte) || (!pteIsLeaf pte && i == 0) || reservedSet c.cfg c.scheme i pte ||
    (pteIsLeaf pte &&
      (!permOk c pte || ptePpn c.scheme pte % 2 ^ (c.scheme.vpnBits * i) != 0 || (!c.hwAd && needsUpdate c.acc pte)))

/-- Steps 3 to 8 by their four ends. -/
theorem levelResult_eq (c : WalkCtx) (i addr : Nat) (pte : Word) :
    levelResult c i addr pte =
      if pteRefused c i pte then .pageFault
      else if pteIsLeaf pte = false then .descend (ptePpn c.scheme pte * 4096) (pteG pte)
      else if needsUpdate c.acc pte = true ∧ pteStoreOk c.cfg addr c.scheme.pteBytes = false then .accessFault
      else .leaf (leafAddress c.scheme i pte c.va) (memTypeOf c.scheme pte) (needsUpdate c.acc pte) := by
  unfold levelResult pteRefused
  by_cases hbad : (!pteV pte || (!pteR pte && pteW pte) || reservedSet c.cfg c.scheme i pte) = true
  · rw [if_pos hbad]
    simp only [Bool.or_eq_true] at hbad
    rcases hbad with (h | h) | h <;> simp [h]
  rw [if_neg hbad]
  simp only [Bool.or_eq_true, not_or, Bool.not_eq_true] at hbad
  obtain ⟨⟨hv, hrw⟩, hres⟩ := hbad
  rw [hv, hrw, hres]
  cases hleaf : pteIsLeaf pte
  · by_cases hi : i = 0 <;> simp [hi]
  cases hperm : permOk c pte
  · simp
  by_cases hsuper : ptePpn c.scheme pte % 2 ^ (c.scheme.vpnBits * i) = 0
  · cases hup : needsUpdate c.acc pte
    · simp [hsuper]
    · cases hhw : c.hwAd
      · simp [hsuper]
      · cases hst : pteStoreOk c.cfg addr c.scheme.pteBytes <;> simp [hsuper]
  · have hi : i ≠ 0 := by
      rintro rfl
      exact hsuper (by simp [Nat.mod_one])
    simp [hsuper, hi]

/-- The reserved patterns (R154, R156, R201, R205). -/
theorem reservedSet_iff (c : Config) (sch : Scheme) (i : Nat) (p : Word) :
    reservedSet c sch i p = true ↔
      pteIsLeaf p = false ∧ (pteD p = true ∨ pteA p = true ∨ pteU p = true) ∨
      sch ≠ .sv32 ∧
        (p.extractLsb' 54 7 ≠ 0 ∨ p.getLsbD 63 = true ∧ (c.ext.svnapot = false ∨ i ≠ 0 ∨ p.extractLsb' 10 4 ≠ 0b1000) ∨
          p.extractLsb' 61 2 ≠ 0 ∧ (c.ext.svpbmt = false ∨ pteIsLeaf p = false ∨ p.extractLsb' 61 2 = 3)) := by
  have hthree : p.extractLsb' 61 2 = 3 → p.extractLsb' 61 2 ≠ 0 := fun h h0 => absurd (h.symm.trans h0) (by decide)
  by_cases hs : sch = .sv32
  · subst hs
    simp [reservedSet, or_assoc]
  · have hpages : reservedSet c sch i p = ((!pteIsLeaf p && (pteD p || pteA p || pteU p)) ||
        (p.extractLsb' 54 7 != 0 || (pteN p && !c.ext.svnapot) || (pteN p && !napotOk i p) ||
          (ptePbmt p != 0 && !c.ext.svpbmt) || (ptePbmt p != 0 && !pteIsLeaf p) || ptePbmt p == 3)) := by
      unfold reservedSet
      cases sch with
      | sv32 => exact absurd rfl hs
      | _ => rfl
    rw [hpages]
    simp only [pteN, ptePbmt, napotOk, hs, ne_eq, not_false_eq_true, true_and, Bool.or_eq_true, Bool.and_eq_true,
      Bool.not_eq_true', bne_iff_ne, beq_iff_eq, Bool.and_eq_false_iff, beq_eq_false_iff_ne, and_or_left, or_assoc,
      and_iff_right_of_imp hthree]
    rfl

/-- A leaf that does not allow the access (R165). -/
theorem permOk_false_iff (c : WalkCtx) (p : Word) (hleaf : pteIsLeaf p = true) :
    permOk c p = false ↔
      c.epriv = .user ∧ pteU p = false ∨ c.epriv = .supervisor ∧ pteU p = true ∧ (c.acc = .fetch ∨ c.sum = false) ∨
        c.acc = .fetch ∧ pteX p = false ∨ c.acc = .store ∧ pteW p = false ∨
        c.acc = .load ∧ pteR p = false ∧ c.mxr = false := by
  have hload : pteR p = false → pteX p = true := by
    intro h; simpa [pteIsLeaf, h] using hleaf
  rw [permOk, Bool.and_eq_false_iff]
  refine (or_congr ?mode ?acc).trans or_assoc
  case mode =>
    cases c.epriv <;> simp [-Bool.and_eq_false_imp, Bool.and_eq_false_iff]
  case acc =>
    cases c.acc
    case fetch => simp
    case store => simp
    case load =>
      cases hR : pteR p
      · simp [hload hR]
      · simp

/-- Which PTEs are refused (R154 to R158, R165 to R168). -/
theorem pteRefused_iff (c : WalkCtx) (i : Nat) (p : Word) :
    pteRefused c i p = true ↔
      pteV p = false ∨ pteR p = false ∧ pteW p = true ∨
      pteIsLeaf p = false ∧ (i = 0 ∨ pteD p = true ∨ pteA p = true ∨ pteU p = true) ∨
      c.scheme ≠ .sv32 ∧
        (p.extractLsb' 54 7 ≠ 0 ∨ p.getLsbD 63 = true ∧ (c.cfg.ext.svnapot = false ∨ i ≠ 0 ∨ p.extractLsb' 10 4 ≠ 0b1000) ∨
          p.extractLsb' 61 2 ≠ 0 ∧ (c.cfg.ext.svpbmt = false ∨ pteIsLeaf p = false ∨ p.extractLsb' 61 2 = 3)) ∨
      pteIsLeaf p = true ∧
        (c.epriv = .user ∧ pteU p = false ∨ c.epriv = .supervisor ∧ pteU p = true ∧ (c.acc = .fetch ∨ c.sum = false) ∨
          c.acc = .fetch ∧ pteX p = false ∨ c.acc = .store ∧ pteW p = false ∨
          c.acc = .load ∧ pteR p = false ∧ c.mxr = false ∨
          ptePpn c.scheme p % 2 ^ (c.scheme.vpnBits * i) ≠ 0 ∨ c.hwAd = false ∧ needsUpdate c.acc p = true) := by
  simp only [pteRefused, Bool.or_eq_true, Bool.and_eq_true, Bool.not_eq_true', beq_iff_eq, bne_iff_ne, reservedSet_iff]
  cases hleaf : pteIsLeaf p
  · simp only [Bool.false_eq_true, false_and, or_false, true_and, or_assoc]
  · rw [permOk_false_iff c p hleaf]
    simp only [Bool.true_eq_false, false_and, false_or, or_false, true_and, or_assoc]

/-! ### A leaf's address -/

/-- The physical page of a leaf, with the low bits of its NAPOT range taken from the address (R169, R201). -/
theorem leafAddress_eq (sch : Scheme) (i : Nat) (p va : Word) :
    leafAddress sch i p va =
      ((if sch ≠ .sv32 ∧ p.getLsbD 63 = true then ptePpn sch p / 16 * 16 + va.toNat / 2 ^ 12 % 16 else ptePpn sch p) /
          2 ^ (sch.vpnBits * i) * 2 ^ (sch.vpnBits * i) + va.toNat / 2 ^ 12 % 2 ^ (sch.vpnBits * i)) * 4096 +
        va.toNat % 4096 := by
  have hvpn : sch ≠ .sv32 → vpnIndex sch 0 va % 16 = va.toNat / 2 ^ 12 % 16 := by
    intro hs
    have h9 : sch.vpnBits = 9 := by
      cases sch with
      | sv32 => exact absurd rfl hs
      | _ => rfl
    rw [vpnIndex, h9]
    omega
  unfold leafAddress napotPpn pteN
  by_cases hs : sch = .sv32
  · simp [hs]
  · rw [hvpn hs]
    rfl

theorem memTypeOf_eq (sch : Scheme) (p : Word) :
    memTypeOf sch p =
      if sch ≠ .sv32 ∧ p.extractLsb' 61 2 = 1 then .nc else if sch ≠ .sv32 ∧ p.extractLsb' 61 2 = 2 then .io else .pma := by
  unfold memTypeOf ptePbmt
  by_cases hs : sch = .sv32 <;> simp [hs]

/-! ### A PTE that is updated -/

theorem littleValue_lt (bs : List Byte) : littleValue bs < 256 ^ bs.length := by
  induction bs with
  | nil => simp [littleValue]
  | cons b bs ih =>
    rw [littleValue, List.length_cons, pow_succ']
    have := b.isLt
    omega

theorem Scheme.pteBits_ge (sch : Scheme) : 8 ≤ 8 * sch.pteBytes := by cases sch <;> decide

theorem joinBytes_lt (big : Bool) (bs : List Byte) : joinBytes big bs < 256 ^ bs.length := by
  refine (littleValue_lt _).trans_eq ?_
  cases big <;> simp

theorem pteAt_toNat (c : Config) (sch : Scheme) (mem : List Host.Cell) (addr : Nat) :
    (pteAt c sch mem addr).toNat = joinBytes c.sBigEndian (Memory.readBytes mem addr sch.pteBytes) := by
  have hlt := joinBytes_lt c.sBigEndian (Memory.readBytes mem addr sch.pteBytes)
  rw [Memory.readBytes_length] at hlt
  have h64 : 256 ^ sch.pteBytes ≤ 2 ^ 64 := by cases sch <;> decide
  rw [pteAt, BitVec.toNat_ofNat, Nat.mod_eq_of_lt (hlt.trans_le h64)]

/-- A PTE from memory has the width of its scheme (R131). -/
theorem pteAt_lt (c : Config) (sch : Scheme) (mem : List Host.Cell) (addr : Nat) :
    (pteAt c sch mem addr).toNat < 2 ^ (8 * sch.pteBytes) := by
  have hlt := joinBytes_lt c.sBigEndian (Memory.readBytes mem addr sch.pteBytes)
  rw [Memory.readBytes_length] at hlt
  rw [pteAt_toNat, pow_mul]
  exact hlt

/-- A PTE of the width of its scheme that is stored is read back. -/
theorem pteAt_storePte (c : Config) (sch : Scheme) (mem : List Host.Cell) (addr : Nat) (q : Word)
    (h : q.toNat < 2 ^ (8 * sch.pteBytes)) : pteAt c sch (storePte c sch mem addr q) addr = q := by
  have hbytes : Memory.readBytes (storePte c sch mem addr q) addr sch.pteBytes =
      splitBytes c.sBigEndian sch.pteBytes q.toNat := by
    have hb := Memory.readBytes_writeBytes mem addr (splitBytes c.sBigEndian sch.pteBytes q.toNat)
    rwa [splitBytes_length] at hb
  have h256 : q.toNat < 256 ^ sch.pteBytes := lt_of_lt_of_eq h (pow_mul 2 8 _)
  rw [pteAt, hbytes, joinBytes_splitBytes, Nat.mod_eq_of_lt h256, BitVec.ofNat_toNat, BitVec.setWidth_eq]

theorem markPte_eq (acc : Access) (p : Word) : markPte acc p = p ||| 0x40 ||| (if acc = .store then 0x80 else 0) := by
  unfold markPte
  split
  · rw [BitVec.or_assoc]; rfl
  · exact BitVec.or_zero.symm

theorem markPte_lt (acc : Access) (p : Word) (sch : Scheme) (h : p.toNat < 2 ^ (8 * sch.pteBytes)) :
    (markPte acc p).toNat < 2 ^ (8 * sch.pteBytes) := by
  have h8 : 2 ^ 8 ≤ 2 ^ (8 * sch.pteBytes) := Nat.pow_le_pow_right (by decide) sch.pteBits_ge
  unfold markPte
  split <;> rw [BitVec.toNat_or] <;> exact Nat.or_lt_two_pow h (lt_of_lt_of_le (by decide) h8)

/-- The update of step 7: A is set in the PTE as memory holds it, D for a store, and no other bit changes (R168). -/
theorem pteAt_update (c : WalkCtx) (mem : List Host.Cell) (addr : Nat) :
    pteAt c.cfg c.scheme (storePte c.cfg c.scheme mem addr (markPte c.acc (pteAt c.cfg c.scheme mem addr))) addr =
      pteAt c.cfg c.scheme mem addr ||| 0x40 ||| (if c.acc = .store then 0x80 else 0) := by
  rw [pteAt_storePte _ _ _ _ _ (markPte_lt _ _ _ (pteAt_lt _ _ _ _)), markPte_eq]

end Sys2Proof.Machine
end

section
/-! PROOFS. One level of the walk, whose PTE memory gives (O57), the Sv39 walk of three levels (O58), and the only write of a
translation (O59). -/

namespace Sys2Proof.Machine

/-! ### The source of a level's PTE -/

/-- An entry that may serve a step 2 read matches it (R171). -/
theorem usableEntries_matches {c : WalkCtx} {i addr : Nat} {memPte : Option Word} {atc : List AtcEntry} {e : AtcEntry}
    (h : e ∈ usableEntries c i addr memPte atc) : e ∈ atc ∧ entryMatches c i addr e := by
  obtain ⟨hmem, hok⟩ := List.mem_filter.mp h
  refine ⟨hmem, ?_⟩
  simp only [AtcEntry.serves, AtcEntry.covers, Bool.and_eq_true, Bool.or_eq_true, beq_iff_eq] at hok
  obtain ⟨⟨⟨hasid, haddr⟩, -⟩, -⟩ := hok
  refine ⟨hasid, haddr.imp id ?_⟩
  rintro ⟨⟨hsch, hlevel⟩, hvpn⟩
  exact ⟨hsch, hlevel, by rw [← hvpn, hsch, hlevel]⟩

/-- Memory serves a read where every matching entry holds what memory holds, without a draw. -/
theorem chooseSource_memory (c : WalkCtx) (i addr : Nat) (memPte : Option Word) (ms : MemSys)
    (h : ∀ e ∈ ms.atc, entryMatches c i addr e → levelResult c i addr e.pte = memoryResult c i addr memPte) :
    chooseSource c i addr memPte ms = (none, ms.draws) := by
  refine if_pos (List.all_eq_true.mpr (fun e he => ?_))
  obtain ⟨hmem, hm⟩ := usableEntries_matches he
  exact beq_iff_eq.mpr (h e hmem hm)

section
variable (c : WalkCtx) (i base : Nat) (g : Bool) (ms : MemSys)

/-- A page table in device memory stops the level (U35). -/
theorem walkLevel_device (hp : pmaCheck c.cfg (pteAddress c i base) c.scheme.pteBytes .load .supervisor = .device) :
    walkLevel c i base g ms = .error (.refusal .pageTableInDevice) := by
  simp only [walkLevel, readPte, hp]

/-- A denied read that no entry of the cache serves instead is an access fault (R153). -/
theorem walkLevel_denied (hp : pmaCheck c.cfg (pteAddress c i base) c.scheme.pteBytes .load .supervisor = .denied)
    (hatc : ∀ e ∈ ms.atc, ¬entryMatches c i (pteAddress c i base) e) : walkLevel c i base g ms = .ok (.accessFault, ms) := by
  have hsrc := chooseSource_memory c i (pteAddress c i base) none ms (fun e he hm => absurd hm (hatc e he))
  simp only [walkLevel, readPte, hp, hsrc]

/-- The memory system after a read of a PTE from memory: the entries that it creates (R112). -/
def afterRead (p : Word) : MemSys :=
  { ms with atc := (createdEntries c i (pteAddress c i base) g p).foldl addEntry ms.atc }

variable (p : Word) (hp : p = pteAt c.cfg c.scheme ms.mem (pteAddress c i base))
  (hok : pmaCheck c.cfg (pteAddress c i base) c.scheme.pteBytes .load .supervisor = .ok)
  (hatc : ∀ e ∈ ms.atc, entryMatches c i (pteAddress c i base) e → e.pte = p)
include hp hok hatc

/-- A level whose PTE memory gives. -/
theorem walkLevel_memory :
    walkLevel c i base g ms =
      finishLevel c (pteAddress c i base) true (levelResult c i (pteAddress c i base) p) p (afterRead c i base g ms p) := by
  have hsrc := chooseSource_memory c i (pteAddress c i base) (some p) ms (fun e he hm => by rw [hatc e he hm]; rfl)
  simp only [walkLevel, readPte, hok, ← hp, hsrc, afterRead]

/-- It stops where the read of its PTE breaks R211 (U32). -/
theorem walkLevel_incoherent (hs : c.cfg.ext.svpbmt = true)
    (hk : ¬keepsCoherence c.cfg (pteAddress c i base) c.scheme.pteBytes .pma ms.types) :
    walkLevel c i base g ms = .error (.fault .incoherentTypes) := by
  have ht : (afterRead c i base g ms p).touch c.cfg (pteAddress c i base) c.scheme.pteBytes .pma = _ :=
    MemSys.touch_stops _ _ _ _ _ hs hk
  rw [walkLevel_memory c i base g ms p hp hok hatc]
  simp only [finishLevel, Bool.true_or, if_true, ht]

/-- Else it has the result of steps 3 to 8, the PTE updated where they say so, and its read recorded. -/
theorem walkLevel_ok
    (hk : c.cfg.ext.svpbmt = false ∨ keepsCoherence c.cfg (pteAddress c i base) c.scheme.pteBytes .pma ms.types) :
    ∃ types, accessRecorded c.cfg (pteAddress c i base) c.scheme.pteBytes .pma ms.types types ∧
      walkLevel c i base g ms =
        .ok (levelResult c i (pteAddress c i base) p,
          updatePte c (pteAddress c i base) (levelResult c i (pteAddress c i base) p) p
            { afterRead c i base g ms p with types := types }) := by
  obtain ⟨types, ht, hrec⟩ := (afterRead c i base g ms p).touch_ok c.cfg (pteAddress c i base) c.scheme.pteBytes .pma hk
  refine ⟨types, hrec, ?_⟩
  rw [walkLevel_memory c i base g ms p hp hok hatc]
  simp only [finishLevel, Bool.true_or, if_true, ht]

end

/-! ### A walk by its first level -/

section
variable {c : WalkCtx} {i base : Nat} {g : Bool} {ms m : MemSys}

theorem walkFrom_error {x : Stop} (h : walkLevel c i base g ms = .error x) : walkFrom c i base g ms = .stop x := by
  cases i <;> rw [walkFrom, h] <;> rfl

theorem walkFrom_pageFault (h : walkLevel c i base g ms = .ok (.pageFault, m)) :
    walkFrom c i base g ms = .exc (pageFaultOf c.acc) c.va m := by
  cases i <;> rw [walkFrom, h] <;> rfl

theorem walkFrom_accessFault (h : walkLevel c i base g ms = .ok (.accessFault, m)) :
    walkFrom c i base g ms = .exc (accessFaultOf c.acc) c.va m := by
  cases i <;> rw [walkFrom, h] <;> rfl

theorem walkFrom_leaf {pa : Nat} {mt : MemType} {u : Bool} (h : walkLevel c i base g ms = .ok (.leaf pa mt u, m)) :
    walkFrom c i base g ms = .ok (pa, mt) m := by
  cases i <;> rw [walkFrom, h] <;> rfl

theorem walkFrom_descend {next : Nat} {g' : Bool} (h : walkLevel c (i + 1) base g ms = .ok (.descend next g', m)) :
    walkFrom c (i + 1) base g ms = walkFrom c i next (g || g') m := by
  rw [walkFrom, h]; rfl

end

/-! ### The four ends of a level whose PTE memory gives -/

section
variable (c : WalkCtx) (i base : Nat) (g : Bool) (ms : MemSys) (p : Word)
  (hp : p = pteAt c.cfg c.scheme ms.mem (pteAddress c i base))
  (hok : pmaCheck c.cfg (pteAddress c i base) c.scheme.pteBytes .load .supervisor = .ok)
  (hatc : ∀ e ∈ ms.atc, entryMatches c i (pteAddress c i base) e → e.pte = p)
  (hk : c.cfg.ext.svpbmt = false ∨ keepsCoherence c.cfg (pteAddress c i base) c.scheme.pteBytes .pma ms.types)
include hp hok hatc hk

/-- A refused PTE raises the page fault, and memory stays (R154 to R158). -/
theorem walkFrom_refused (hbad : pteRefused c i p = true) :
    ∃ m, walkFrom c i base g ms = .exc (pageFaultOf c.acc) c.va m ∧ m.mem = ms.mem := by
  obtain ⟨types, -, hw⟩ := walkLevel_ok c i base g ms p hp hok hatc hk
  rw [levelResult_eq, if_pos hbad] at hw
  exact ⟨_, walkFrom_pageFault hw, rfl⟩

/-- A leaf whose update its check denies raises the access fault, and memory stays (R167). -/
theorem walkFrom_updateDenied (hgood : pteRefused c i p = false) (hleaf : pteIsLeaf p = true)
    (hu : needsUpdate c.acc p = true) (hst : pteStoreOk c.cfg (pteAddress c i base) c.scheme.pteBytes = false) :
    ∃ m, walkFrom c i base g ms = .exc (accessFaultOf c.acc) c.va m ∧ m.mem = ms.mem := by
  obtain ⟨types, -, hw⟩ := walkLevel_ok c i base g ms p hp hok hatc hk
  simp only [levelResult_eq, hgood, hleaf, hu, hst, Bool.false_eq_true, Bool.true_eq_false, if_false, and_self, if_true] at hw
  exact ⟨_, walkFrom_accessFault hw, rfl⟩

/-- A leaf gives its address and memory type; memory stays, but for the PTE where A or D is to be set (R167 to R169). -/
theorem walkFrom_atLeaf (hgood : pteRefused c i p = false) (hleaf : pteIsLeaf p = true)
    (hu : needsUpdate c.acc p = false ∨ pteStoreOk c.cfg (pteAddress c i base) c.scheme.pteBytes = true) :
    ∃ m, walkFrom c i base g ms = .ok (leafAddress c.scheme i p c.va, memTypeOf c.scheme p) m ∧
      m.mem = if needsUpdate c.acc p then storePte c.cfg c.scheme ms.mem (pteAddress c i base) (markPte c.acc p) else ms.mem := by
  obtain ⟨types, -, hw⟩ := walkLevel_ok c i base g ms p hp hok hatc hk
  have hnd : ¬(needsUpdate c.acc p = true ∧ pteStoreOk c.cfg (pteAddress c i base) c.scheme.pteBytes = false) := by
    rintro ⟨h1, h2⟩
    rcases hu with h | h
    · exact absurd (h1.symm.trans h) (by decide)
    · exact absurd (h2.symm.trans h) (by decide)
  rw [levelResult_eq, if_neg (by simp [hgood]), if_neg (by simp [hleaf]), if_neg hnd] at hw
  refine ⟨_, walkFrom_leaf hw, ?_⟩
  cases needsUpdate c.acc p <;> rfl

/-- A pointer goes on to its table; memory stays, its read is recorded, and the cache has an entry for it (R155). -/
theorem walkFrom_pointer (hgood : pteRefused c i p = false) (hleaf : pteIsLeaf p = false) :
    ∃ (j : Nat) (m : MemSys), i = j + 1 ∧
      walkFrom c i base g ms = walkFrom c j (ptePpn c.scheme p * 4096) (g || pteG p) m ∧ m.mem = ms.mem ∧ m.draws = ms.draws ∧
      (∀ e ∈ m.atc, e ∈ ms.atc ∨ e.pteAddr = pteAddress c i base ∧ e.pte = p ∧ e.level = i) ∧
      accessRecorded c.cfg (pteAddress c i base) c.scheme.pteBytes .pma ms.types m.types := by
  obtain ⟨types, hrec, hw⟩ := walkLevel_ok c i base g ms p hp hok hatc hk
  simp only [levelResult_eq, hgood, hleaf, Bool.false_eq_true, if_false, if_true] at hw
  cases i with
  | zero => simp [pteRefused, hleaf] at hgood
  | succ j =>
    refine ⟨j, _, rfl, walkFrom_descend hw, rfl, rfl, fun e he => ?_, hrec⟩
    rcases foldl_addEntry_mem he with he | he
    · rw [createdEntries_succ, List.mem_singleton] at he
      subst he
      exact .inr ⟨rfl, rfl, rfl⟩
    · exact .inl he

end

/-- Settles O57: the walk by its first level, and each end of a level whose PTE memory gives. -/
theorem walkOneLevel : Obligations.WalkOneLevel := by
  unfold Obligations.WalkOneLevel
  refine ⟨fun c ms hb hv => by rw [translate_paged c ms hb, if_pos hv], ?_⟩
  intro c i base addr g isLeaf update ms p bad now hb haddr hp hleaf hupdate hnow hbad
  obtain rfl : addr = pteAddress c i base := haddr
  obtain rfl : isLeaf = pteIsLeaf p := hleaf
  obtain rfl : update = needsUpdate c.acc p := hupdate
  subst hnow
  have hbad' : bad ↔ pteRefused c i p = true := hbad.trans (pteRefused_iff c i p).symm
  rw [hbad', Bool.not_eq_true]
  refine ⟨fun hd => ?_, fun hd hatc => ?_, fun hok hatc => ⟨fun hs hk => ?_, fun hk => ?_⟩⟩
  · exact walkFrom_error (walkLevel_device c i base g ms hd)
  · exact ⟨ms, walkFrom_accessFault (walkLevel_denied c i base g ms hd hatc), rfl⟩
  · exact walkFrom_error (walkLevel_incoherent c i base g ms p hp hok hatc hs ((not_keepsCoherence_iff _ _ _ _ _).mpr hk))
  refine ⟨walkFrom_refused c i base g ms p hp hok hatc hk, walkFrom_pointer c i base g ms p hp hok hatc hk,
    walkFrom_updateDenied c i base g ms p hp hok hatc hk, ?leaf⟩
  intro hgood hleaf hu ppn pa mt hppn hpa hmt
  obtain ⟨m, hw, hmem⟩ := walkFrom_atLeaf c i base g ms p hp hok hatc hk hgood hleaf hu
  have hpa' : pa = leafAddress c.scheme i p c.va := by rw [hpa, hppn, leafAddress_eq]; rfl
  have hmt' : mt = memTypeOf c.scheme p := hmt.trans (memTypeOf_eq _ _).symm
  refine ⟨m, by rw [hw, hpa', hmt'], fun h => by rw [hmem, h]; rfl, fun h => ?_⟩
  rw [h, if_pos rfl] at hmem
  rw [hmem]
  refine ⟨?_, fun a ha => storePte_outside c _ _ _ a (by omega)⟩
  rw [hp]
  exact pteAt_update c ms.mem _

/-! ### Sv39, three levels -/

/-- Words that agree in a mask agree in each of its bits. -/
theorem getLsbD_of_and {w m v : Word} (h : w &&& m = v) (k : Nat) (hm : m.getLsbD k = true) : w.getLsbD k = v.getLsbD k := by
  rw [← h, BitVec.getLsbD_and, hm, Bool.and_true]

/-- And in each field that the mask covers. -/
theorem extractLsb'_of_and {w m v : Word} (h : w &&& m = v) (lo n : Nat) (hm : m.extractLsb' lo n = BitVec.allOnes n) :
    w.extractLsb' lo n = v.extractLsb' lo n := by
  rw [← h, BitVec.extractLsb'_and, hm, BitVec.and_allOnes]

/-- A PTE without the fields of bits 63:54 is refused for its permission bits only (R154). -/
theorem pteRefused_plain {c : WalkCtx} {i : Nat} {p : Word} (hv : pteV p = true) (hrw : pteW p = true → pteR p = true)
    (hres : p.extractLsb' 54 7 = 0) (hn : p.getLsbD 63 = false) (hpbmt : p.extractLsb' 61 2 = 0)
    (hptr : pteIsLeaf p = false → i ≠ 0 ∧ pteD p = false ∧ pteA p = false ∧ pteU p = false)
    (hleaf : pteIsLeaf p = true → permOk c p = true ∧ ptePpn c.scheme p % 2 ^ (c.scheme.vpnBits * i) = 0 ∧
      needsUpdate c.acc p = false) : pteRefused c i p = false := by
  have hset : reservedSet c.cfg c.scheme i p = false := by
    rw [Bool.eq_false_iff, ne_eq, reservedSet_iff]
    rintro (⟨hl, hf⟩ | ⟨-, hf⟩)
    · obtain ⟨-, hd, ha, hu⟩ := hptr hl
      simp [hd, ha, hu] at hf
    · simp only [hres, hn, hpbmt, ne_eq, not_true_eq_false, Bool.false_eq_true, false_and, or_self] at hf
  have hwr : (!pteR p && pteW p) = false := by
    cases hw : pteW p
    · simp
    · simp [hrw hw]
  cases hl : pteIsLeaf p
  · obtain ⟨hi, -⟩ := hptr hl
    simp [pteRefused, hv, hwr, hset, hl, hi]
  · obtain ⟨hperm, hsup, hup⟩ := hleaf hl
    simp [pteRefused, hv, hwr, hset, hl, hperm, hsup, hup]

/-- A word with V set, and R, W, X, U, A, D and bits 63:54 clear, is a pointer above level 0 (R155, R156). -/
theorem pointer_of_mask {c : WalkCtx} {i : Nat} {p : Word} (h : p &&& 0xFFC00000000000DF#64 = 1) (hi : i ≠ 0) :
    pteRefused c i p = false ∧ pteIsLeaf p = false := by
  have hbit := getLsbD_of_and h
  have hR : pteR p = false := hbit 1 (by decide)
  have hX : pteX p = false := hbit 3 (by decide)
  have hl : pteIsLeaf p = false := by simp [pteIsLeaf, hR, hX]
  have hW : pteW p = false := hbit 2 (by decide)
  refine ⟨pteRefused_plain (hbit 0 (by decide)) (by simp [hW]) (extractLsb'_of_and h 54 7 (by decide)) (hbit 63 (by decide))
    (extractLsb'_of_and h 61 2 (by decide)) (fun _ => ⟨hi, hbit 7 (by decide), hbit 6 (by decide), hbit 4 (by decide)⟩) ?_, hl⟩
  rw [hl]
  exact fun hf => absurd hf (by decide)

/-- On the way of a walk whose address space the cache had nothing of, a matching entry holds what memory holds: the walk made
it. -/
theorem onTheWay.agrees {c : WalkCtx} {ms₀ ms : MemSys} {i : Nat} (h : onTheWay c ms₀ i ms)
    (hfree : ∀ e ∈ ms₀.atc, e.asid ≠ c.asid ∧ e.isGlobal = false) (addr : Nat) :
    ∀ e ∈ ms.atc, entryMatches c i addr e → e.pte = pteAt c.cfg c.scheme ms₀.mem addr := by
  intro e he hm
  rcases h.source (.inr ⟨e, he, hm, rfl⟩) with ⟨-, hp⟩ | ⟨e₀, he₀, ⟨hid, -⟩, -⟩
  · exact hp
  · obtain ⟨hasid, hglobal⟩ := hfree e₀ he₀
    rcases hid with hid | hid
    · exact absurd hid hasid
    · exact absurd (hid.symm.trans hglobal) (by decide)

theorem pteAddress_sv39_aligned {c : WalkCtx} (hs : c.scheme = .sv39) (i : Nat) {base : Nat} (h : base % 8 = 0) :
    pteAddress c i base % 8 = 0 := by
  rw [pteAddress, hs]
  show (base + vpnIndex .sv39 i c.va * 8) % 8 = 0
  omega

/-- The Sv39 walk from `ms₀` has come to level `i`: it is on the way, and an aligned PTE that could be read still can. -/
def sv39Way (c : WalkCtx) (ms₀ : MemSys) (i : Nat) (m : MemSys) : Prop :=
  onTheWay c ms₀ i m ∧
    ∀ a, a % 8 = 0 → keepsCoherence c.cfg a 8 .pma ms₀.types → keepsCoherence c.cfg a 8 .pma m.types

section
variable {c : WalkCtx} {ms₀ m : MemSys} {i base : Nat} {p : Word} (g : Bool) (hs : c.scheme = .sv39)
  (hfree : ∀ e ∈ ms₀.atc, e.asid ≠ c.asid ∧ e.isGlobal = false) (hbase : base % 8 = 0)
  (hok : pmaCheck c.cfg (pteAddress c i base) 8 .load .supervisor = .ok)
  (hp : pteAt c.cfg .sv39 ms₀.mem (pteAddress c i base) = p)
  (hk : keepsCoherence c.cfg (pteAddress c i base) 8 .pma ms₀.types) (hway : sv39Way c ms₀ i m)
include hs hfree hbase hok hp hk hway

/-- What a level on the way reads: the PTE in memory. -/
theorem sv39Way.reads :
    p = pteAt c.cfg c.scheme m.mem (pteAddress c i base) ∧
      pmaCheck c.cfg (pteAddress c i base) c.scheme.pteBytes .load .supervisor = .ok ∧
      (∀ e ∈ m.atc, entryMatches c i (pteAddress c i base) e → e.pte = p) ∧
      keepsCoherence c.cfg (pteAddress c i base) c.scheme.pteBytes .pma m.types := by
  obtain ⟨honway, hkeep⟩ := hway
  have hagree := honway.agrees hfree (pteAddress c i base)
  rw [hs, hp] at hagree
  rw [hs]
  exact ⟨by rw [honway.1]; exact hp.symm, hok, hagree, hkeep _ (pteAddress_sv39_aligned hs i hbase) hk⟩

/-- A level that reads a pointer goes on to its table. -/
theorem sv39Way.pointer (hi : i ≠ 0) (hmask : p &&& 0xFFC00000000000DF#64 = 1) :
    ∃ j m', i = j + 1 ∧ walkFrom c i base g m = walkFrom c j (p.toNat / 2 ^ 10 % 2 ^ 44 * 4096) (g || pteG p) m' ∧
      sv39Way c ms₀ j m' := by
  obtain ⟨hpm, hokm, hatc, hkm⟩ := sv39Way.reads hs hfree hbase hok hp hk hway
  obtain ⟨hgood, hleaf⟩ := pointer_of_mask hmask hi
  obtain ⟨j, m', rfl, hw, hmem, -, hnew, hrec⟩ :=
    walkFrom_pointer c i base g m p hpm hokm hatc (.inr hkm) hgood hleaf
  obtain ⟨⟨hmem₀, hatc₀⟩, hkeep⟩ := hway
  rw [hs] at hw hrec
  refine ⟨j, m', rfl, hw, ⟨hmem.trans hmem₀, fun e he => ?_⟩, fun a ha hka => ?_⟩
  · rcases hnew e he with he | ⟨haddr, hpte, hlevel⟩
    · exact (hatc₀ e he).imp id (fun ⟨hl, hrest⟩ => ⟨Nat.lt_of_succ_lt hl, hrest⟩)
    · refine .inr ⟨by omega, ?_, ?_⟩
      · rw [haddr, hpte, hs, hp]
      · rw [haddr]; exact hokm
  · refine hrec.keeps (hkeep a ha hka) ?_
    have haligned := pteAddress_sv39_aligned hs (j + 1) hbase
    by_cases he : a = pteAddress c (j + 1) base
    · exact .inr (.inr (by rw [he]; rfl))
    · show a + 8 ≤ _ ∨ _ + 8 ≤ a ∨ _
      omega

/-- A leaf of level 0 that needs no update gives its page and the offset of the address, and memory stays. -/
theorem sv39Way.leaf (hi : i = 0) (hmask : p &&& 0xFFC0000000000041#64 = 0x41) (hwr : pteW p = true → pteR p = true)
    (hrx : pteR p = true ∨ pteX p = true) (hperm : permOk c p = true) (hd : c.acc = .store → pteD p = true) :
    ∃ m', walkFrom c i base g m = .ok (p.toNat / 2 ^ 10 % 2 ^ 44 * 4096 + c.va.toNat % 4096, .pma) m' ∧
      m'.mem = ms₀.mem := by
  subst hi
  obtain ⟨hpm, hokm, hatc, hkm⟩ := sv39Way.reads hs hfree hbase hok hp hk hway
  have hA : pteA p = true := getLsbD_of_and hmask 6 (by decide)
  have hn : p.getLsbD 63 = false := getLsbD_of_and hmask 63 (by decide)
  have hpbmt : p.extractLsb' 61 2 = 0 := extractLsb'_of_and hmask 61 2 (by decide)
  have hup : needsUpdate c.acc p = false := by
    simp only [needsUpdate, hA, Bool.not_true, Bool.false_or, Bool.and_eq_false_iff, beq_eq_false_iff_ne, Bool.not_eq_false']
    exact or_iff_not_imp_left.mpr (fun h => hd (not_not.mp h))
  have hleaf : pteIsLeaf p = true := by simpa [pteIsLeaf] using hrx
  have hgood : pteRefused c 0 p = false :=
    pteRefused_plain (getLsbD_of_and hmask 0 (by decide)) hwr (extractLsb'_of_and hmask 54 7 (by decide)) hn hpbmt
      (fun h => absurd (hleaf.symm.trans h) (by decide)) (fun _ => ⟨hperm, by simp [Nat.mod_one], hup⟩)
  obtain ⟨m', hw, hmem⟩ := walkFrom_atLeaf c 0 base g m p hpm hokm hatc (.inr hkm) hgood hleaf (.inl hup)
  have hpa : leafAddress c.scheme 0 p c.va = p.toNat / 2 ^ 10 % 2 ^ 44 * 4096 + c.va.toNat % 4096 := by
    rw [leafAddress_eq, hn, hs]
    simp [Nat.mod_one, ptePpn, Scheme.ppnBits]
  have hmt : memTypeOf c.scheme p = .pma := by rw [memTypeOf_eq, hpbmt]; simp
  refine ⟨m', by rw [hw, hpa, hmt], ?_⟩
  rw [hmem, hup]
  exact hway.1.1

end

/-- Settles O58: the first two levels read pointers and the third the leaf, all from memory: an entry that a level above made
for the same address holds the same PTE. -/
theorem sv39WalkOfThreeLevels : Obligations.Sv39WalkOfThreeLevels := by
  unfold Obligations.Sv39WalkOfThreeLevels
  intro c ms a2 a1 a0 p2 p1 p0 hs hv hhw hfree ha2 ha1 ha0 hread hptr hmask hwr hrx hperm hd
  have haddr : ∀ i base, pteAddress c i base = base + c.va.toNat / 2 ^ (12 + 9 * i) % 512 * 8 := by
    intro i base; rw [pteAddress, hs]; rfl
  obtain rfl : a2 = pteAddress c 2 (c.root * 4096) := by rw [haddr]; exact ha2
  obtain rfl : a1 = pteAddress c 1 (p2.toNat / 2 ^ 10 % 2 ^ 44 * 4096) := by rw [haddr]; exact ha1
  obtain rfl : a0 = pteAddress c 0 (p1.toNat / 2 ^ 10 % 2 ^ 44 * 4096) := by rw [haddr]; exact ha0
  simp only [List.mem_cons, List.not_mem_nil, or_false, forall_eq_or_imp, forall_eq] at hread hptr
  obtain ⟨⟨hok2, hp2, hk2⟩, ⟨hok1, hp1, hk1⟩, hok0, hp0, hk0⟩ := hread
  obtain ⟨hptr2, hptr1⟩ := hptr
  have hway2 : sv39Way c ms 2 ms := ⟨onTheWay_refl c 2 ms, fun _ _ h => h⟩
  obtain ⟨j, m1, hj, hw2, hway1⟩ := hway2.pointer false hs hfree (by omega) hok2 hp2 hk2 (by decide) hptr2
  obtain rfl : j = 1 := by omega
  obtain ⟨j, m0, hj, hw1, hway0⟩ := hway1.pointer (false || pteG p2) hs hfree (by omega) hok1 hp1 hk1 (by decide) hptr1
  obtain rfl : j = 0 := by omega
  obtain ⟨m, hw0, hmem⟩ :=
    hway0.leaf (false || pteG p2 || pteG p1) hs hfree (by omega) hok0 hp0 hk0 rfl hmask hwr hrx hperm hd
  refine ⟨m, ?_, hmem⟩
  rw [translate_paged c ms (by rw [hs]; decide), hs, if_pos hv]
  exact hw2.trans (hw1.trans hw0)

/-! ### The only write of a translation -/

/-- Where step 7 updates the PTE, memory gets it marked (R168). -/
theorem finishLevel_update (c : WalkCtx) (addr : Nat) (isRead : Bool) (r r' : LevelResult) (pte : Word) (ms ms' : MemSys)
    (pa : Nat) (mt : MemType) (h : finishLevel c addr isRead r pte ms = .ok (r', ms')) (hr : r' = .leaf pa mt true) :
    ms'.mem = storePte c.cfg c.scheme ms.mem addr (markPte c.acc pte) := by
  subst hr
  unfold finishLevel at h
  split at h
  · rename_i m hm
    obtain ⟨rfl, rfl⟩ := Prod.mk.inj (Except.ok.inj h)
    have hmem : m.mem = ms.mem := by
      split at hm
      · obtain ⟨types, -, rfl⟩ := ms.touch_cases _ _ _ _ _ hm; rfl
      · obtain rfl := Except.ok.inj hm; rfl
    rw [updatePte, hmem]
  · cases h

/-- An entry that serves a read whose PTE step 7 updates holds what memory holds (R168, log entry 9). -/
theorem chooseSource_update {c : WalkCtx} {i addr : Nat} {memPte : Option Word} {ms : MemSys} {e : AtcEntry} {pa : Nat}
    {mt : MemType} (h : (chooseSource c i addr memPte ms).1 = some e) (hr : levelResult c i addr e.pte = .leaf pa mt true) :
    memPte = some e.pte := by
  have hu : e ∈ usableEntries c i addr memPte ms.atc := by
    unfold chooseSource at h
    dsimp only at h
    split at h
    · cases h
    · exact List.mem_of_getElem? h
  have hok := (List.mem_filter.mp hu).2
  rw [hr, Bool.and_eq_true] at hok
  simpa [loopsBack] using hok.2

/-- A PTE that is updated is the one memory holds: an entry that differs from it is not used there (R168, log entry 9). -/
theorem walkLevel_update (c : WalkCtx) (i base : Nat) (g : Bool) (ms ms' : MemSys) (pa : Nat) (mt : MemType)
    (h : walkLevel c i base g ms = .ok (.leaf pa mt true, ms')) :
    ms'.mem = storePte c.cfg c.scheme ms.mem (pteAddress c i base)
      (markPte c.acc (pteAt c.cfg c.scheme ms.mem (pteAddress c i base))) := by
  unfold walkLevel at h
  dsimp only at h
  split at h
  · cases h
  · rename_i memPte hread
    split at h
    · rename_i e hsrc
      have hpte := chooseSource_update hsrc (finishLevel_leaves _ _ _ _ _ _ _ _ h).1.symm
      rcases readPte_cases _ _ _ _ hread with ⟨-, hm⟩ | ⟨-, hm⟩
      · rw [← Option.some.inj (hpte.symm.trans hm)]
        have hmem := finishLevel_update _ _ _ _ _ _ _ _ _ _ h rfl
        exact hmem
      · exact absurd (hpte.symm.trans hm) (by simp)
    · rcases readPte_cases _ _ _ _ hread with ⟨-, hm⟩ | ⟨-, hm⟩
      · rw [← Option.some.inj hm]
        have hmem := finishLevel_update _ _ _ _ _ _ _ _ _ _ h rfl
        exact hmem
      · cases hm
    · cases h

/-- So does a walk that ends at this level, where `walkStores` names a PTE. -/
theorem walkLevel_leaf_stores {c : WalkCtx} {i base a : Nat} {g u : Bool} {ms ms' : MemSys} {pa : Nat} {mt : MemType}
    (h : walkLevel c i base g ms = .ok (.leaf pa mt u, ms')) (hst : walkStores c i base g ms = some a) :
    ms'.mem = storePte c.cfg c.scheme ms.mem a (markPte c.acc (pteAt c.cfg c.scheme ms.mem a)) := by
  rw [walkStores, h] at hst
  cases u
  · cases hst
  · obtain rfl := Option.some.inj hst
    exact walkLevel_update c i base g ms ms' pa mt h

/-- A walk that gives an address: its level is the leaf, or a pointer from whose table the walk gives it. -/
theorem walkFrom_ok_cases {c : WalkCtx} {i base : Nat} {g : Bool} {ms ms' : MemSys} {r : Nat × MemType}
    (h : walkFrom c i base g ms = .ok r ms') :
    (∃ pa mt u, walkLevel c i base g ms = .ok (.leaf pa mt u, ms')) ∨
      ∃ j next g' m, i = j + 1 ∧ walkLevel c (j + 1) base g ms = .ok (.descend next g', m) ∧
        walkFrom c j next (g || g') m = .ok r ms' := by
  cases hl : walkLevel c i base g ms with
  | error x => cases (walkFrom_error hl).symm.trans h
  | ok q =>
    obtain ⟨r', m⟩ := q
    cases r' with
    | pageFault => cases (walkFrom_pageFault hl).symm.trans h
    | accessFault => cases (walkFrom_accessFault hl).symm.trans h
    | leaf pa mt u =>
      obtain ⟨-, rfl⟩ := Res.ok.inj ((walkFrom_leaf hl).symm.trans h)
      exact .inl ⟨pa, mt, u, rfl⟩
    | descend next g' =>
      cases i with
      | zero => rw [walkFrom, hl] at h; cases h
      | succ j => exact .inr ⟨j, next, g', m, rfl, hl, (walkFrom_descend hl).symm.trans h⟩

/-- A walk that gives an address writes the PTE that `walkStores` names, as memory held it at the start and marked. -/
theorem walkFrom_stores (c : WalkCtx) (a : Nat) (r : Nat × MemType) (ms' : MemSys) : ∀ (i base : Nat) (g : Bool) (ms : MemSys),
    walkFrom c i base g ms = .ok r ms' → walkStores c i base g ms = some a →
    ms'.mem = storePte c.cfg c.scheme ms.mem a (markPte c.acc (pteAt c.cfg c.scheme ms.mem a)) := by
  intro i
  induction i with
  | zero =>
    intro base g ms hw hst
    rcases walkFrom_ok_cases hw with ⟨pa, mt, u, hl⟩ | ⟨j, _, _, _, hj, -⟩
    · exact walkLevel_leaf_stores hl hst
    · cases hj
  | succ i ih =>
    intro base g ms hw hst
    rcases walkFrom_ok_cases hw with ⟨pa, mt, u, hl⟩ | ⟨j, next, g', m, hj, hl, hnext⟩
    · exact walkLevel_leaf_stores hl hst
    · cases hj
      rw [walkStores, hl] at hst
      rw [← walkLevel_mem_same c (i + 1) base g ms m _ hl (by simp)]
      exact ih next (g || g') m hnext hst

/-- Where software sets A and D, no level updates a PTE (R167, R182). -/
theorem walkLevel_no_update (c : WalkCtx) (hhw : c.hwAd = false) (i base : Nat) (g : Bool) (ms ms' : MemSys) (r : LevelResult)
    (h : walkLevel c i base g ms = .ok (r, ms')) (pa : Nat) (mt : MemType) : r ≠ .leaf pa mt true := by
  rintro rfl
  rcases walkLevel_result _ _ _ _ _ _ _ h with h | ⟨pte, h⟩
  · cases h
  · have hno : needsUpdate c.acc pte = false := (levelResult_leaf c i _ pte pa mt true h.symm).2.2.2.2 hhw
    rw [levelResult_eq] at h
    split_ifs at h
    rw [hno] at h
    cases h

/-- Settles O59: only a leaf writes, its own PTE, as memory holds it and marked. -/
theorem translationSetsOnlyAAndD : Obligations.TranslationSetsOnlyAAndD := by
  unfold Obligations.TranslationSetsOnlyAAndD
  intro c ms ms' r ht
  refine ⟨fun a ha => ?_, fun p hp => ?_, fun hhw => ?_⟩
  · have hmem := translate_mem c ms a ha
    rw [ht] at hmem
    exact hmem
  · unfold translationStores at hp
    split at hp
    · cases hp
    · rename_i hb
      split at hp
      · rename_i hv
        rw [translate_paged c ms hb, if_pos hv] at ht
        rw [walkFrom_stores c p r ms' _ _ _ ms ht hp]
        exact pteAt_update c ms.mem p
      · cases hp
  · have hkeep := translate_leaves c (fun m => m.mem = ms.mem)
      (fun i base g m m' r hw hm => (walkLevel_mem_same c i base g m m' r hw
        (walkLevel_no_update c hhw i base g m m' r hw)).trans hm) ms rfl
    rw [ht] at hkeep
    exact hkeep

end Sys2Proof.Machine
end

section
/-! PROOFS. The other agents' turn (O60): what a speculative walk's read may change, and where the turn stops. -/

namespace Sys2Proof.Machine

/-! ### The A bit in memory -/

theorem Memory.readBytes_getElem (m : List Host.Cell) (a n k : Nat) (h : k < (Memory.readBytes m a n).length) :
    (Memory.readBytes m a n)[k] = Memory.read m (a + k) := by
  induction n generalizing a k with
  | zero => cases h
  | succ n ih =>
    cases k with
    | zero => rfl
    | succ k =>
      simp only [Memory.readBytes, List.getElem_cons_succ]
      rw [ih, show a + 1 + k = a + (k + 1) by omega]

theorem littleBytes_littleValue (bs : List Byte) : littleBytes bs.length (littleValue bs) = bs := by
  induction bs with
  | nil => rfl
  | cons b bs ih =>
    have hb := b.isLt
    rw [List.length_cons, littleBytes, littleValue, show (b.toNat + 256 * littleValue bs) / 256 = littleValue bs by omega, ih]
    congr 1
    apply BitVec.eq_of_toNat_eq
    rw [BitVec.toNat_ofNat]
    omega

/-- Bit 6 of a value is in its least significant byte. -/
theorem littleBytes_mark (b : Byte) (bs : List Byte) :
    littleBytes (bs.length + 1) (littleValue (b :: bs) ||| 64) = (b ||| 0x40#8) :: bs := by
  have hb := b.isLt
  have hlow : BitVec.ofNat 8 (b.toNat + 256 * littleValue bs ||| 64) = b ||| 0x40#8 := by
    apply BitVec.eq_of_toNat_eq
    rw [BitVec.toNat_ofNat, Nat.or_mod_two_pow, BitVec.toNat_or,
      show (b.toNat + 256 * littleValue bs) % 2 ^ 8 = b.toNat by omega]
    rfl
  have hhigh : (b.toNat + 256 * littleValue bs ||| 64) / 256 = littleValue bs := by
    rw [show 256 = 2 ^ 8 from rfl, Nat.or_div_two_pow, show (b.toNat + 2 ^ 8 * littleValue bs) / 2 ^ 8 = littleValue bs by omega]
    exact Nat.or_zero _
  rw [littleBytes, littleValue, hlow, hhigh, littleBytes_littleValue]

theorem littleBytes_mark_getElem (bs : List Byte) (k : Nat) (h : k < bs.length) :
    (littleBytes bs.length (littleValue bs ||| 64))[k]'(by rw [littleBytes_length]; exact h) =
      if k = 0 then bs[k] ||| 0x40#8 else bs[k] := by
  cases bs with
  | nil => cases h
  | cons b bs =>
    simp only [List.length_cons, littleBytes_mark]
    cases k <;> simp

/-- In memory order it is in the first byte, or in the last (R121). -/
theorem splitBytes_mark_getElem (big : Bool) (bs : List Byte) (k : Nat) (h : k < bs.length) :
    (splitBytes big bs.length (joinBytes big bs ||| 64))[k]'(by rw [splitBytes_length]; exact h) =
      if k = (if big then bs.length - 1 else 0) then bs[k] ||| 0x40#8 else bs[k] := by
  cases big with
  | false => exact littleBytes_mark_getElem bs k h
  | true =>
    have hrev := littleBytes_mark_getElem bs.reverse (bs.length - 1 - k) (by rw [List.length_reverse]; omega)
    simp only [List.length_reverse, List.getElem_reverse] at hrev
    simp only [splitBytes, joinBytes, if_true, List.getElem_reverse, littleBytes_length, hrev]
    have hk : bs.length - 1 - (bs.length - 1 - k) = k := by omega
    simp only [hk, show bs.length - 1 - k = 0 ↔ k = bs.length - 1 by omega]

/-- Setting A in a PTE as memory holds it changes the byte that has bit 6, and no other (R123, R168). -/
theorem read_storePte_accessed (c : Config) (sch : Scheme) (mem : List Host.Cell) (addr a : Nat) :
    Memory.read (storePte c sch mem addr (markPte .load (pteAt c sch mem addr))) a =
      if a = (if c.sBigEndian then addr + sch.pteBytes - 1 else addr) then Memory.read mem a ||| 0x40#8
      else Memory.read mem a := by
  have hpos : 0 < sch.pteBytes := by cases sch <;> decide
  have hlen := Memory.readBytes_length mem addr sch.pteBytes
  have hval : (markPte .load (pteAt c sch mem addr)).toNat =
      joinBytes c.sBigEndian (Memory.readBytes mem addr sch.pteBytes) ||| 64 := by
    rw [← pteAt_toNat]; rfl
  by_cases hin : addr ≤ a ∧ a < addr + sch.pteBytes
  · obtain ⟨k, rfl⟩ := Nat.exists_eq_add_of_le hin.1
    have hk : k < (Memory.readBytes mem addr sch.pteBytes).length := by rw [hlen]; omega
    have hmark := splitBytes_mark_getElem c.sBigEndian _ k hk
    simp only [hlen, Memory.readBytes_getElem] at hmark
    rw [storePte, hval, Memory.read_writeBytes_inside _ _ _ k (by rw [splitBytes_length]; omega), hmark]
    refine if_congr ?_ rfl rfl
    split <;> omega
  · rw [storePte, Memory.read_writeBytes_outside _ _ _ _ (by rw [splitBytes_length]; omega), if_neg]
    split <;> omega

/-! ### One read of a speculative walk -/

theorem speculativeUpdate_leaves (c : WalkCtx) (addr : Nat) (r : LevelResult) (pte : Word) (memPte : Option Word) (ms : MemSys) :
    (speculativeUpdate c addr r pte memPte ms).atc = ms.atc ∧ (speculativeUpdate c addr r pte memPte ms).draws = ms.draws ∧
      ((speculativeUpdate c addr r pte memPte ms).mem = ms.mem ∨
        memPte = some pte ∧
          (speculativeUpdate c addr r pte memPte ms).mem = storePte c.cfg c.scheme ms.mem addr (markPte .load pte)) := by
  unfold speculativeUpdate
  split
  · split
    · exact ⟨rfl, rfl, .inr ⟨‹_›, rfl⟩⟩
    · exact ⟨rfl, rfl, .inl rfl⟩
  · exact ⟨rfl, rfl, .inl rfl⟩

theorem InflightWalk.onward_cases (w : InflightWalk) (r : LevelResult) :
    w.onward r = none ∨ ∃ b l g, w.onward r = some { w with base := b, level := l, isGlobal := g } := by
  unfold InflightWalk.onward
  split
  · exact .inr ⟨_, _, _, rfl⟩
  · exact .inl rfl

/-- An entry that a speculative walk may leave in the cache: one from before, an invalid one that Svvptc still lets serve, counted
once more, or one that no fence since the walk began selects (R173, R213, R266). -/
def speculativeEntry (s : State) (w : InflightWalk) (e : AtcEntry) : Prop :=
  e ∈ s.ms.atc ∨
  (∃ e' ∈ s.ms.atc, e = { e' with staleReads := e'.staleReads + 1 } ∧ pteV e'.pte = false ∧
    (s.cfg.ext.svvptc = true → e'.staleReads < Config.svvptcBound)) ∨
  ∀ q ∈ w.fences, q.hits e = false

/-- What a read of a speculative walk leaves: memory, or memory with A set in the PTE that it holds there; a cache of such
entries; the draws; and the walk ended, or at another table (R173, R176). -/
theorem State.walkOnce_leaves (s : State) (w : InflightWalk) (k : Option Nat) (m : MemSys) (o : Option InflightWalk)
    (h : s.walkOnce w k = .ok (m, o)) :
    (m.mem = s.ms.mem ∨ m.mem = storePte s.cfg w.scheme s.ms.mem (pteAddress (s.walkCtxOf w) w.level w.base)
      (markPte .load (pteAt s.cfg w.scheme s.ms.mem (pteAddress (s.walkCtxOf w) w.level w.base)))) ∧
    (∀ e ∈ m.atc, speculativeEntry s w e) ∧ m.draws = s.ms.draws ∧
    (o = none ∨ ∃ b l g, o = some { w with base := b, level := l, isGlobal := g }) := by
  unfold State.walkOnce at h
  dsimp only at h
  split at h
  · cases h
  rename_i memPte hread
  split at h
  · cases h
    exact ⟨.inl rfl, fun e he => .inl he, rfl, .inl rfl⟩
  rename_i pte atc es hsrc
  have hcache : ∀ e ∈ atc, speculativeEntry s w e := fun e he =>
    (speculativeSource_cache _ w _ _ _ _ _ k pte hsrc e he).imp id .inl
  split at h
  · cases h
    exact ⟨.inl rfl, hcache, rfl, .inl rfl⟩
  split at h
  · rename_i ms hms
    obtain ⟨types, rfl⟩ : ∃ types, ms = { s.ms with types := types } := by
      split at hms
      · obtain ⟨types, -, rfl⟩ := s.ms.touch_cases _ _ _ _ _ hms
        exact ⟨types, rfl⟩
      · cases hms
        exact ⟨_, rfl⟩
    obtain ⟨rfl, rfl⟩ := Prod.mk.inj (Except.ok.inj h)
    obtain ⟨hatc, hdraws, hmem⟩ := speculativeUpdate_leaves (s.walkCtxOf w) (pteAddress (s.walkCtxOf w) w.level w.base)
      (levelResult (s.walkCtxOf w) w.level (pteAddress (s.walkCtxOf w) w.level w.base) pte) pte memPte
      { s.ms with
        types := types
        atc := (es.filter (fun e => !w.fences.any (fun q => q.hits e))).foldl addEntry atc }
    refine ⟨hmem.imp id ?_, fun e he => ?_, hdraws, w.onward_cases _⟩
    · rintro ⟨hpte, hmem⟩
      rcases readPte_cases _ _ _ _ hread with ⟨-, hm⟩ | ⟨-, hm⟩
      · obtain rfl := Option.some.inj (hpte.symm.trans hm)
        exact hmem
      · exact absurd (hpte.symm.trans hm) (by simp)
    · rw [hatc] at he
      rcases foldl_addEntry_mem he with he | he
      · refine .inr (.inr (fun q hq => ?_))
        have hkept := (List.mem_filter.mp he).2
        rw [Bool.not_eq_true', List.any_eq_false] at hkept
        exact (Bool.not_eq_true _).mp (hkept q hq)
      · exact hcache e he
  · cases h

theorem readPte_none_iff (c : WalkCtx) (mem : List Host.Cell) (addr : Nat) :
    readPte c mem addr = none ↔ pmaCheck c.cfg addr c.scheme.pteBytes .load .supervisor = .device := by
  unfold readPte
  cases pmaCheck c.cfg addr c.scheme.pteBytes .load .supervisor <;> simp

/-- Where a read of a speculative walk stops: a page table in device memory, or an access to the PTE that breaks R211 (R421, U32,
U35). -/
theorem State.walkOnce_error_iff (s : State) (w : InflightWalk) (k : Option Nat) (x : Stop) (c : WalkCtx) (addr : Nat)
    (hc : c = s.walkCtxOf w) (ha : addr = pteAddress c w.level w.base) :
    s.walkOnce w k = .error x ↔
      x = .refusal .pageTableInDevice ∧ pmaCheck c.cfg addr c.scheme.pteBytes .load .supervisor = .device ∨
      x = .fault .incoherentTypes ∧ c.cfg.ext.svpbmt = true ∧
        (∃ j, j < c.scheme.pteBytes ∧
          compatible (lookupAt .unseen s.ms.types (addr + j)) (attributesOf c.cfg addr c.scheme.pteBytes .pma) = false) ∧
        ∃ memPte pte atc es, readPte c s.ms.mem addr = some memPte ∧
          speculativeSource c w addr memPte s.ms.atc k = some (pte, atc, es) ∧
          (∀ q ∈ w.fences, q.hits (newEntry c w.level addr w.isGlobal pte) = false) ∧
          (k = none ∨ (levelResult c w.level addr pte).updates = true) := by
  rw [State.walkOnce, ← hc]
  dsimp only
  rw [← ha, ← readPte_none_iff c s.ms.mem addr]
  cases hread : readPte c s.ms.mem addr with
  | none =>
    refine ⟨fun h => .inl ⟨(Except.error.inj h).symm, rfl⟩, ?_⟩
    rintro (⟨rfl, -⟩ | ⟨-, -, -, _, _, _, _, hr, -⟩)
    · rfl
    · cases hr
  | some memPte =>
    dsimp only
    cases hsrc : speculativeSource c w addr memPte s.ms.atc k with
    | none =>
      refine ⟨nofun, ?_⟩
      rintro (⟨-, hr⟩ | ⟨-, -, -, _, _, _, _, hr, hs, -⟩)
      · cases hr
      · cases hr
        cases hsrc.symm.trans hs
    | some src =>
      obtain ⟨pte, atc, es⟩ := src
      simp only [reduceCtorEq, and_false, false_or]
      split
      · rename_i hfenced
        refine ⟨nofun, ?_⟩
        rintro ⟨-, -, -, _, _, _, _, hr, hs, hfree, -⟩
        cases hr
        cases hsrc.symm.trans hs
        obtain ⟨q, hq, hhit⟩ := List.any_eq_true.mp hfenced
        exact absurd (hhit.symm.trans (hfree q hq)) (by decide)
      · rename_i hfenced
        have hfree : ∀ q ∈ w.fences, q.hits (newEntry c w.level addr w.isGlobal pte) = false := by simpa using hfenced
        have hsource : (∃ memPte' pte' atc' es', some memPte = some memPte' ∧
            speculativeSource c w addr memPte' s.ms.atc k = some (pte', atc', es') ∧
            (∀ q ∈ w.fences, q.hits (newEntry c w.level addr w.isGlobal pte') = false) ∧
            (k = none ∨ (levelResult c w.level addr pte').updates = true)) ↔
            (k.isNone || (levelResult c w.level addr pte).updates) = true := by
          rw [Bool.or_eq_true, Option.isNone_iff_eq_none]
          constructor
          · rintro ⟨_, _, _, _, hr, hs, -, hu⟩
            cases hr
            cases hsrc.symm.trans hs
            exact hu
          · exact fun hu => ⟨_, _, _, _, rfl, hsrc, hfree, hu⟩
        rw [hsource]
        cases hu : (k.isNone || (levelResult c w.level addr pte).updates)
        · simp
        · have ht := s.ms.touch_error_iff c.cfg addr c.scheme.pteBytes .pma x
          simp only [if_true, and_true]
          rw [← ht]
          cases s.ms.touch c.cfg addr c.scheme.pteBytes .pma <;> simp

/-! ### Actions -/

/-- The state after the next read of walk `n` (R173). -/
theorem State.act_advanceWalk (s : State) (n : Nat) (k : Option Nat) :
    s.act (.advanceWalk n k) = s ∨
      ∃ w m o, s.walks[n]? = some w ∧ s.walkOnce w k = .ok (m, o) ∧
        s.act (.advanceWalk n k) = { s with
          ms := m, walks := match o with | some w' => s.walks.set n w' | none => s.walks.eraseIdx n } := by
  show s.advanceWalk n k = s ∨ ∃ w m o, _ ∧ _ ∧ s.advanceWalk n k = _
  unfold State.advanceWalk
  cases hw : s.walks[n]? with
  | none => exact .inl rfl
  | some w =>
    dsimp only
    cases ho : s.walkOnce w k with
    | error x => exact .inl rfl
    | ok r =>
      obtain ⟨m, o⟩ := r
      refine .inr ⟨w, m, o, rfl, ho, ?_⟩
      cases o <;> rfl

/-- While the hart is not in M-mode an action changes `sip`, counters, walks and the memory system only, and draws nothing
(R385). -/
theorem State.act_frame (s : State) (a : EnvAction) (h : s.priv ≠ .machine) :
    s.act a = { s with sip := (s.act a).sip, counters := (s.act a).counters, walks := (s.act a).walks,
                       ms := { (s.act a).ms with draws := s.ms.draws } } := by
  have see : ∀ u, s.bySee u = s := fun u => if_neg h
  cases a with
  | setSei b => rfl
  | setSti b => rfl
  | raiseSsi => rfl
  | raiseLcofi => rfl
  | setPlatform v => rfl
  | setCounter n v => rfl
  | writeByte a b =>
    simp only [State.act, State.writeByte]
    split <;> rfl
  | beginWalk va acc =>
    simp only [State.act, State.beginWalk]
    split <;> rfl
  | advanceWalk n k =>
    rcases s.act_advanceWalk n k with he | ⟨w, m, o, -, ho, he⟩
    · rw [he]
    · rw [he, ← (s.walkOnce_leaves w k m o ho).2.2.1]
  | abandonWalk n => rfl
  | dropEntry n => rfl
  | performInval n =>
    simp only [State.act, State.performInval]
    split <;> rfl
  | setInputs m => simp only [State.act, see]
  | setMachineRegs m => simp only [State.act, see]
  | seeReg r v => simp only [State.act, see]
  | seeCsr c v => simp only [State.act, see]
  | seeReserve r => simp only [State.act, see]
  | seeResume p pc => simp only [State.act, see]

/-! ### Where the turn stops -/

/-- The only action that stops the model advances a speculative walk whose next read stops (R421, U32, U35). -/
theorem State.actStop_iff (s : State) (a : EnvAction) (x : Stop) :
    s.actStop a = some x ↔ ∃ n k w, a = .advanceWalk n k ∧ s.walks[n]? = some w ∧ s.walkOnce w k = .error x := by
  cases a with
  | advanceWalk n k =>
    simp only [State.actStop, EnvAction.advanceWalk.injEq]
    cases hw : s.walks[n]? with
    | none =>
      refine ⟨nofun, ?_⟩
      rintro ⟨_, _, w, ⟨rfl, rfl⟩, hw', -⟩
      cases hw.symm.trans hw'
    | some w =>
      dsimp only
      constructor
      · intro h
        refine ⟨n, k, w, ⟨rfl, rfl⟩, hw, ?_⟩
        cases ho : s.walkOnce w k <;> rw [ho] at h <;> cases h
        rfl
      · rintro ⟨_, _, w', ⟨rfl, rfl⟩, hw', ho⟩
        cases hw.symm.trans hw'
        rw [ho]
  | _ => simp [State.actStop]

/-- A batch stops at its first action that stops, the actions before it done. -/
theorem State.batchStop_iff (x : Stop) : ∀ (batch : List EnvAction) (s : State),
    s.batchStop batch = some x ↔ ∃ pre post a, batch = pre ++ a :: post ∧ s.batchStop pre = none ∧
      (pre.foldl State.act s).actStop a = some x := by
  intro batch
  induction batch with
  | nil => intro s; simp [State.batchStop]
  | cons a rest ih =>
    intro s
    constructor
    · intro h
      rw [State.batchStop] at h
      cases ha : s.actStop a with
      | some y =>
        rw [ha] at h
        exact ⟨[], rest, a, rfl, rfl, ha.trans h⟩
      | none =>
        rw [ha] at h
        obtain ⟨pre, post, b, rfl, hpre, hb⟩ := (ih (s.act a)).mp h
        exact ⟨a :: pre, post, b, rfl, by rw [State.batchStop, ha]; exact hpre, hb⟩
    · rintro ⟨pre, post, b, hsplit, hpre, hb⟩
      rw [State.batchStop]
      cases pre with
      | nil =>
        obtain ⟨rfl, rfl⟩ := List.cons.inj hsplit
        rw [show s.actStop a = some x from hb]
      | cons d pre =>
        obtain ⟨rfl, rfl⟩ := List.cons.inj hsplit
        rw [State.batchStop] at hpre
        cases ha : s.actStop a with
        | some y => rw [ha] at hpre; cases hpre
        | none =>
          rw [ha] at hpre
          exact (ih (s.act a)).mpr ⟨pre, post, b, rfl, hpre, hb⟩

/-- Settles O60: the frame of an action, the read of a speculative walk, and the stop of a turn. -/
theorem environmentReach : Obligations.EnvironmentReach := by
  unfold Obligations.EnvironmentReach
  refine ⟨State.act_frame, ?walk, ?stop, State.walkOnce_error_iff⟩
  case walk =>
    rintro s n k t rfl
    refine ⟨fun hw => ?_, ?_⟩
    · rcases s.act_advanceWalk n k with he | ⟨w, m, o, hw', -⟩
      · exact he
      · cases hw.symm.trans hw'
    rintro w c addr flags hw rfl rfl rfl
    rcases s.act_advanceWalk n k with he | ⟨w', m, o, hw', ho, he⟩
    · rw [he]
      obtain ⟨hn, hget⟩ := List.getElem?_eq_some_iff.mp hw
      refine ⟨fun _ _ => rfl, .inl rfl, fun e h => .inl h, .inr ⟨w.base, w.level, w.isGlobal, ?_⟩, rfl⟩
      rw [← hget]
      exact (List.set_getElem_self hn).symm
    · cases hw.symm.trans hw'
      obtain ⟨hmem, hatc, hdraws, hon⟩ := s.walkOnce_leaves w k m o ho
      rw [he]
      refine ⟨fun a ha => ?_, ?_, hatc, ?_, by rw [← hdraws]⟩
      · rcases hmem with hmem | hmem
        · show Memory.read m.mem a = _
          rw [hmem]
        · show Memory.read m.mem a = _
          rw [hmem, read_storePte_accessed]
          exact if_neg ha
      · rcases hmem with hmem | hmem
        · exact .inl (by rw [hmem])
        · refine .inr ?_
          show Memory.read m.mem _ = _
          rw [hmem, read_storePte_accessed]
          exact if_pos rfl
      · rcases hon with rfl | ⟨b, l, g, rfl⟩
        · exact .inl rfl
        · exact .inr ⟨b, l, g, rfl⟩
  case stop =>
    intro s x
    refine ⟨?_, fun hstop himm => by simp only [step, State.advanceHart, himm, hstop]⟩
    constructor
    · intro h
      unfold State.environmentStop at h
      split at h
      · cases h
      · rename_i batch rest hinbox
        obtain ⟨pre, post, a, rfl, hpre, ha⟩ := (State.batchStop_iff x batch _).mp h
        obtain ⟨n, k, w, rfl, hw, ho⟩ := (State.actStop_iff _ _ _).mp ha
        exact ⟨pre, post, rest, n, k, _, w, hinbox, hpre, rfl, hw, ho⟩
    · rintro ⟨pre, post, rest, n, k, e, w, hinbox, hpre, rfl, hw, ho⟩
      unfold State.environmentStop
      rw [hinbox]
      exact (State.batchStop_iff x _ _).mpr ⟨pre, post, _, rfl, hpre, (State.actStop_iff _ _ _).mpr ⟨n, k, w, rfl, hw, ho⟩⟩

end Sys2Proof.Machine
end

section
/-! PROOFS. The decoder and the encoder (O1 to O4): the word of an instruction decodes to it, and every word of a row is the
word of one of the row's instructions. The rest follows from these two. -/

namespace Sys2Proof.Machine

/-! ### Words of the encoder -/

/-- A field of a field is a field of the word. -/
theorem extract_wordField (w : BitVec 32) (lo n a m : Nat) (h : a + m ≤ n) :
    (wordField w lo n).extractLsb' a m = wordField w (lo + a) m := by
  apply BitVec.eq_of_getLsbD_eq
  intro k hk
  rw [BitVec.getLsbD_extractLsb', wordField_bit _ _ _ _ (by omega), wordField_bit _ _ _ _ hk, Nat.add_assoc]
  simp [hk]

/-- A word is the format I word of its fields (R222). -/
theorem encodeI_fields (w : BitVec 32) :
    encodeI (wordField w 0 7) (wordField w 12 3) (wordField w 7 5) (wordField w 15 5) (wordField w 20 12) = w := by
  rw [encodeI, extract_wordField w 20 12 5 7 (by decide), extract_wordField w 20 12 0 5 (by decide), packWord_fields]

/-- The three parts of twelve bits, joined, are the twelve bits. -/
theorem thirds_of_twelve (x : BitVec 12) : x.extractLsb' 8 4 ++ x.extractLsb' 4 4 ++ x.extractLsb' 0 4 = x := by
  rw [BitVec.extractLsb'_append_extractLsb'_eq_extractLsb' (by decide),
    BitVec.extractLsb'_append_extractLsb'_eq_extractLsb' (by decide), BitVec.extractLsb'_eq_self]

/-- FENCE has format I, with `fm`, `pred` and `succ` in the place of the immediate (R323). -/
theorem encode_fence (fm pred succ : BitVec 4) (rs1 rd : RegId) :
    encode (.fence fm pred succ rs1 rd) = encodeI 0b0001111 0b000 rd rs1 (fm ++ pred ++ succ) := by
  rw [encodeI, packWord, halves_of_twelve, encode]
  rfl

/-- The bits of an encoded instruction that its row fixes (R220, R224). -/
theorem encode_tableRow (i : Instr) : Laws.TableRow.Statement i := by
  cases i with
  | sret => exact Laws.TableRow.sret
  | sfenceVma rs1 rs2 => exact Laws.TableRow.sfenceVma rs1 rs2
  | sinvalVma rs1 rs2 => exact Laws.TableRow.sinvalVma rs1 rs2
  | sfenceWInval => exact Laws.TableRow.sfenceWInval
  | sfenceInvalIr => exact Laws.TableRow.sfenceInvalIr
  | hinvalVvma rs1 rs2 => exact Laws.TableRow.hinvalVvma rs1 rs2
  | hinvalGvma rs1 rs2 => exact Laws.TableRow.hinvalGvma rs1 rs2
  | csrrw rd csr rs1 => exact Laws.TableRow.csrrw rd csr rs1
  | csrrs rd csr rs1 => exact Laws.TableRow.csrrs rd csr rs1
  | csrrc rd csr rs1 => exact Laws.TableRow.csrrc rd csr rs1
  | csrrwi rd csr uimm => exact Laws.TableRow.csrrwi rd csr uimm
  | csrrsi rd csr uimm => exact Laws.TableRow.csrrsi rd csr uimm
  | csrrci rd csr uimm => exact Laws.TableRow.csrrci rd csr uimm
  | ecall => exact Laws.TableRow.ecall
  | ebreak => exact Laws.TableRow.ebreak
  | fence fm pred succ rs1 rd => exact Laws.TableRow.fence fm pred succ rs1 rd
  | addi rd rs1 imm => exact Laws.TableRow.addi rd rs1 imm
  | lw rd rs1 imm => exact Laws.TableRow.lw rd rs1 imm
  | sw rs2 rs1 imm => exact Laws.TableRow.sw rs2 rs1 imm

/-! ### Decoding an encoded word -/

/-- A SYSTEM word with funct3=000 and rd=x0 decodes by funct7, rs2 and rs1 (R225). -/
theorem decodeWord_encodePrivileged (f7 : BitVec 7) (rs2 rs1 : BitVec 5) :
    decodeWord (encodePrivileged f7 rs2 rs1) = decodePrivileged f7 rs2 rs1 := by
  simp [encodePrivileged, decodeWord, decodeSystem, opSystem]

/-- A SYSTEM word with another funct3 decodes by funct3, its three operands kept (R225). -/
theorem decodeWord_encodeCsr (f3 : BitVec 3) (rd : RegId) (csr : BitVec 12) (src : BitVec 5) (h : f3 ≠ 0) :
    decodeWord (encodeCsr f3 rd csr src) =
      if f3 = 0b001#3 then some (.csrrw rd csr src)
      else if f3 = 0b010#3 then some (.csrrs rd csr src)
      else if f3 = 0b011#3 then some (.csrrc rd csr src)
      else if f3 = 0b101#3 then some (.csrrwi rd csr src)
      else if f3 = 0b110#3 then some (.csrrsi rd csr src)
      else if f3 = 0b111#3 then some (.csrrci rd csr src)
      else none := by
  have h' : f3 ≠ 0b000#3 := h
  simp [encodeCsr, decodeWord, decodeSystem, opSystem, h']

/-- FENCE's three fields are the parts of the immediate's place (R323). -/
theorem decodeWord_encodeI_fence (rd rs1 : RegId) (imm : BitVec 12) :
    decodeWord (encodeI 0b0001111 0b000 rd rs1 imm) =
      some (.fence (imm.extractLsb' 8 4) (imm.extractLsb' 4 4) (imm.extractLsb' 0 4) rs1 rd) := by
  have himm : wordField (encodeI 0b0001111 0b000 rd rs1 imm) 20 12 = imm := by
    rw [encodeI, packWord_imm, halves_of_twelve]
  have hfm := extract_wordField (encodeI 0b0001111 0b000 rd rs1 imm) 20 12 8 4 (by decide)
  have hpred := extract_wordField (encodeI 0b0001111 0b000 rd rs1 imm) 20 12 4 4 (by decide)
  have hsucc := extract_wordField (encodeI 0b0001111 0b000 rd rs1 imm) 20 12 0 4 (by decide)
  rw [himm] at hfm hpred hsucc
  rw [hfm, hpred, hsucc]
  simp [decodeWord, encodeI]

theorem decodeWord_encode (i : Instr) : decodeWord (encode i) = some i := by
  cases i with
  | sret => decide
  | sfenceVma rs1 rs2 => exact decodeWord_encodePrivileged _ _ _
  | sinvalVma rs1 rs2 => exact decodeWord_encodePrivileged _ _ _
  | sfenceWInval => decide
  | sfenceInvalIr => decide
  | hinvalVvma rs1 rs2 => exact decodeWord_encodePrivileged _ _ _
  | hinvalGvma rs1 rs2 => exact decodeWord_encodePrivileged _ _ _
  | csrrw rd csr rs1 => exact decodeWord_encodeCsr _ _ _ _ (by decide)
  | csrrs rd csr rs1 => exact decodeWord_encodeCsr _ _ _ _ (by decide)
  | csrrc rd csr rs1 => exact decodeWord_encodeCsr _ _ _ _ (by decide)
  | csrrwi rd csr uimm => exact decodeWord_encodeCsr _ _ _ _ (by decide)
  | csrrsi rd csr uimm => exact decodeWord_encodeCsr _ _ _ _ (by decide)
  | csrrci rd csr uimm => exact decodeWord_encodeCsr _ _ _ _ (by decide)
  | ecall => decide
  | ebreak => decide
  | fence fm pred succ rs1 rd =>
    rw [encode_fence, decodeWord_encodeI_fence, BitVec.extractLsb'_append_eq_of_le (by decide),
      BitVec.extractLsb'_append_eq_left, BitVec.extractLsb'_append_eq_of_le (by decide),
      BitVec.extractLsb'_append_eq_right, BitVec.extractLsb'_append_eq_right]
  | addi rd rs1 imm => simp [encode, encodeI, decodeWord]
  | lw rd rs1 imm => simp [encode, encodeI, decodeWord]
  | sw rs2 rs1 imm => simp [encode, decodeWord]

/-- The word of an instruction is that instruction (R222 to R225). -/
theorem instrOf_encode (i : Instr) : instrOf (encode i) = some i := by
  obtain ⟨-, hlow, hlong⟩ := encode_tableRow i
  rw [instrOf_eq, if_neg (not_not.mpr hlow), if_neg hlong, decodeWord_encode]

/-! ### The words of a row -/

/-- The fields that a row fixes by opcode and funct3. -/
theorem fields_of_opcode_mask {w : BitVec 32} {f3 : BitVec 3} {op : BitVec 7}
    (h : w &&& 0x0000707F = packWord 0 0 0 f3 0 op) : wordField w 12 3 = f3 ∧ wordField w 0 7 = op := by
  rw [and_opcode_mask] at h
  constructor
  · simpa using congrArg (wordField · 12 3) h
  · simpa using congrArg (wordField · 0 7) h

/-- A word with a given opcode and funct3 is a format I word. -/
theorem encodeI_of_opcode_mask {w : BitVec 32} {f3 : BitVec 3} {op : BitVec 7}
    (h : w &&& 0x0000707F = packWord 0 0 0 f3 0 op) :
    encodeI op f3 (wordField w 7 5) (wordField w 15 5) (wordField w 20 12) = w := by
  obtain ⟨rfl, rfl⟩ := fields_of_opcode_mask h
  exact encodeI_fields w

/-- A word whose bits are given but for rs2 and rs1 is a privileged word. -/
theorem encodePrivileged_of_mask {w : BitVec 32} {f7 : BitVec 7} (h : w &&& 0xFE007FFF = packWord f7 0 0 0 0 opSystem) :
    encodePrivileged f7 (wordField w 20 5) (wordField w 15 5) = w := by
  rw [← packWord_fields w, Laws.TableRow.packed_privileged] at h
  have h7 : wordField w 25 7 = f7 := by simpa using congrArg (wordField · 25 7) h
  have h3 : wordField w 12 3 = 0 := by simpa using congrArg (wordField · 12 3) h
  have hrd : wordField w 7 5 = 0 := by simpa using congrArg (wordField · 7 5) h
  have hop : wordField w 0 7 = opSystem := by simpa using congrArg (wordField · 0 7) h
  rw [encodePrivileged, ← h7, ← hop]
  conv_rhs => rw [← packWord_fields w, h3, hrd]

/-- A row without operands has one word. -/
theorem eq_of_full_mask {w v : BitVec 32} (h : w &&& 0xFFFFFFFF = v) : v = w :=
  h.symm.trans BitVec.and_allOnes

/-- Every word of a row is the word of an instruction of that row, whose operands are the word's fields (R222, R224). -/
theorem exists_encode_of_row (w : BitVec 32) (i : Instr) (h : w &&& (tableRow i).1 = (tableRow i).2) :
    ∃ j, encode j = w ∧ tableRow j = tableRow i := by
  cases i with
  | sret => exact ⟨.sret, eq_of_full_mask h, rfl⟩
  | sfenceVma rs1 rs2 => exact ⟨.sfenceVma _ _, encodePrivileged_of_mask (h.trans rfl), rfl⟩
  | sinvalVma rs1 rs2 => exact ⟨.sinvalVma _ _, encodePrivileged_of_mask (h.trans rfl), rfl⟩
  | sfenceWInval => exact ⟨.sfenceWInval, eq_of_full_mask h, rfl⟩
  | sfenceInvalIr => exact ⟨.sfenceInvalIr, eq_of_full_mask h, rfl⟩
  | hinvalVvma rs1 rs2 => exact ⟨.hinvalVvma _ _, encodePrivileged_of_mask (h.trans rfl), rfl⟩
  | hinvalGvma rs1 rs2 => exact ⟨.hinvalGvma _ _, encodePrivileged_of_mask (h.trans rfl), rfl⟩
  | csrrw rd csr rs1 => exact ⟨.csrrw _ _ _, encodeI_of_opcode_mask (h.trans rfl), rfl⟩
  | csrrs rd csr rs1 => exact ⟨.csrrs _ _ _, encodeI_of_opcode_mask (h.trans rfl), rfl⟩
  | csrrc rd csr rs1 => exact ⟨.csrrc _ _ _, encodeI_of_opcode_mask (h.trans rfl), rfl⟩
  | csrrwi rd csr uimm => exact ⟨.csrrwi _ _ _, encodeI_of_opcode_mask (h.trans rfl), rfl⟩
  | csrrsi rd csr uimm => exact ⟨.csrrsi _ _ _, encodeI_of_opcode_mask (h.trans rfl), rfl⟩
  | csrrci rd csr uimm => exact ⟨.csrrci _ _ _, encodeI_of_opcode_mask (h.trans rfl), rfl⟩
  | ecall => exact ⟨.ecall, eq_of_full_mask h, rfl⟩
  | ebreak => exact ⟨.ebreak, eq_of_full_mask h, rfl⟩
  | fence fm pred succ rs1 rd =>
    refine ⟨.fence ((wordField w 20 12).extractLsb' 8 4) ((wordField w 20 12).extractLsb' 4 4)
      ((wordField w 20 12).extractLsb' 0 4) (wordField w 15 5) (wordField w 7 5), ?_, rfl⟩
    rw [encode_fence, thirds_of_twelve]
    exact encodeI_of_opcode_mask (h.trans rfl)
  | addi rd rs1 imm => exact ⟨.addi _ _ _, encodeI_of_opcode_mask (h.trans rfl), rfl⟩
  | lw rd rs1 imm => exact ⟨.lw _ _ _, encodeI_of_opcode_mask (h.trans rfl), rfl⟩
  | sw rs2 rs1 imm =>
    obtain ⟨h3, hop⟩ := fields_of_opcode_mask (f3 := 0b010) (op := 0b0100011) (h.trans rfl)
    refine ⟨.sw (wordField w 20 5) (wordField w 15 5) (wordField w 25 7 ++ wordField w 7 5), ?_, rfl⟩
    rw [encode, extract_append_high, extract_append_low, ← h3, ← hop]
    exact packWord_fields w

/-- A word that decodes to an instruction is in its row (R224). -/
theorem instrOf_row (w : BitVec 32) (i : Instr) (h : instrOf w = some i) : w &&& (tableRow i).1 = (tableRow i).2 := by
  rw [instrOf_eq] at h
  split at h
  · cases h
  split at h
  · cases h
  · exact decodeWord_row w i h

/-- A word is an instruction exactly where it is that instruction's word: it lies in the instruction's row, so it is the word
of some instruction, which is the one it decodes to. -/
theorem instrOf_eq_some_iff (w : BitVec 32) (i : Instr) : instrOf w = some i ↔ encode i = w := by
  constructor
  · intro h
    obtain ⟨j, rfl, -⟩ := exists_encode_of_row w i (instrOf_row w i h)
    rw [Option.some.inj (h.symm.trans (instrOf_encode j))]
  · rintro rfl
    exact instrOf_encode i

/-! ### Lists of bytes -/

theorem wordOfBytes_low (b0 b1 b2 b3 : Byte) (n : Nat) (h : n ≤ 8) :
    (wordOfBytes b0 b1 b2 b3).extractLsb' 0 n = b0.extractLsb' 0 n :=
  BitVec.extractLsb'_append_eq_of_add_le (by omega)

/-- The decoder reads the word of the first four bytes and leaves the bytes after them (R122, R220). -/
theorem decode_four_bytes (b0 b1 b2 b3 : Byte) (rest left : List Byte) (i : Instr) :
    decode (b0 :: b1 :: b2 :: b3 :: rest) = .ok (i, left) ↔ left = rest ∧ instrOf (wordOfBytes b0 b1 b2 b3) = some i := by
  rw [instrOf_eq, wordOfBytes_low _ _ _ _ 2 (by decide), wordOfBytes_low _ _ _ _ 5 (by decide), decode]
  split_ifs
  · simp
  · simp
  · cases decodeWord (wordOfBytes b0 b1 b2 b3) with
    | none => simp
    | some j => simp [eq_comm, and_comm]

/-! ### The statements -/

/-- Settles O1: the encoder's words have the length bits of a 32-bit instruction, and each format's fields read back. -/
theorem decodeOfEncode : Obligations.DecodeOfEncode := by
  unfold Obligations.DecodeOfEncode
  intro i rest
  refine (decode_four_bytes _ _ _ _ rest rest i).mpr ⟨rfl, ?_⟩
  rw [wordOfBytes_bytes]
  exact instrOf_encode i

/-- Settles O2: a word that decodes is in a row, and a row's words are those that the encoder builds. -/
theorem encodeOfDecode : Obligations.EncodeOfDecode := by
  unfold Obligations.EncodeOfDecode
  intro b0 b1 b2 b3 rest left i h
  obtain ⟨hleft, hi⟩ := (decode_four_bytes b0 b1 b2 b3 rest left i).mp h
  exact ⟨hleft, (instrOf_eq_some_iff _ i).mp hi⟩

/-- Settles O3: a row's words are those that the encoder builds from the row's instructions. -/
theorem wordsFollowTheTable : Obligations.WordsFollowTheTable := by
  unfold Obligations.WordsFollowTheTable
  intro w i
  constructor
  · intro h
    obtain ⟨j, hj, hrow⟩ := exists_encode_of_row w i h
    exact ⟨j, (instrOf_eq_some_iff w j).mpr hj, hrow⟩
  · rintro ⟨j, hj, hrow⟩
    rw [← hrow]
    exact instrOf_row w j hj

/-- Settles O4: the words of the list are the encodings of what it names, and the reserved words are evaluated. -/
theorem specWordsDecode : Obligations.SpecWordsDecode := by
  unfold Obligations.SpecWordsDecode
  simp only [instrOf_eq_some_iff]
  decide

end Sys2Proof.Machine
end

section
/-! PROOFS. A step with no interrupt due runs the fetched instruction (O5). -/

namespace Sys2Proof.Machine

/-- A decoded word runs, where no landing pad is missing and `pc` is aligned (R86, R126). -/
theorem State.runWord_decoded (u : State) (w : BitVec 32) (i : Instr) (hi : instrOf w = some i) (hp : u.padMissing = false)
    (hpc : u.pcAligned = true) : u.runWord w = exec i u := by
  simp only [State.runWord, hi, hp, Bool.false_eq_true, if_false, u.execute_aligned i hpc]

/-- With an empty inbox the other agents' turn goes on and only clears `recheck` (R385). -/
theorem State.environmentTurn_nil (s : State) (h : s.inbox = []) :
    s.environmentStop = none ∧ s.environmentTurn = { s with recheck := false } := by
  simp only [State.environmentStop, State.environmentTurn, h, and_self]

/-- Settles O5: the step fetches, the fetch changes the memory system only, and the decoded word runs. -/
theorem stepRunsTheDecodedInstruction : Obligations.StepRunsTheDecodedInstruction := by
  unfold Obligations.StepRunsTheDecodedInstruction
  intro s u w i himm hstop hirq hfetch hi hpad hpc
  have hframe := s.environmentTurn.fetch_frame
  rw [hfetch] at hframe
  refine ⟨?_, hframe, s.environmentTurn_nil⟩
  calc step s = s.environmentTurn.runNext := step_eq_runNext s himm hstop hirq
    _ = u.runWord w := s.environmentTurn.runNext_word u w hfetch
    _ = exec i u := u.runWord_decoded w i hi hpad (u.pcAligned_iff.mpr hpc)

end Sys2Proof.Machine
end

section
/-! PROOFS. SRET where it is permitted (O22), and where the privileged instructions are illegal (O48). -/

namespace Sys2Proof.Machine

/-! ### Where the privileged instructions are legal -/

theorem State.sretPermitted_iff (s : State) :
    s.sretPermitted = true ↔ s.priv = .supervisor ∧ s.inputs.tsr = false ∨ s.priv = .machine := by
  cases hp : s.priv <;> simp [State.sretPermitted, hp]

theorem State.sretPermitted_false_iff (s : State) :
    s.sretPermitted = false ↔ s.priv = .user ∨ s.priv = .supervisor ∧ s.inputs.tsr = true := by
  cases hp : s.priv <;> simp [State.sretPermitted, hp]

theorem State.fencePermitted_false_iff (s : State) :
    s.fencePermitted = false ↔ s.priv = .user ∨ s.priv = .supervisor ∧ s.inputs.tvm = true := by
  cases hp : s.priv <;> simp [State.fencePermitted, hp]

theorem State.fenceLegal_false_iff (s : State) :
    s.fenceLegal = false ↔ s.priv = .user ∨ s.priv = .supervisor ∧ s.inputs.tvm = true ∨
      s.cfg.sfenceIllegalBare = true ∧ paged s.cfg = false := by
  simp only [State.fenceLegal, Bool.and_eq_false_iff, s.fencePermitted_false_iff, Bool.not_eq_false', Bool.and_eq_true,
    Bool.not_eq_true', or_assoc]

theorem State.sinvalLegal_false_iff (s : State) :
    s.sinvalLegal = false ↔ s.cfg.ext.svinval = false ∨ s.fenceLegal = false := Bool.and_eq_false_iff

theorem State.invalOrderLegal_false_iff (s : State) :
    s.invalOrderLegal = false ↔ s.cfg.ext.svinval = false ∨ s.priv = .user := by
  simp only [State.invalOrderLegal, Bool.and_eq_false_iff, bne_eq_false_iff_eq]

/-! ### SRET where it is permitted (O22) -/

/-- Settles O22: each field of the state that SRET returns to; SPELP counts where Zicfilp is there (R115, R256). -/
theorem sretResult : Obligations.SretResult := by
  unfold Obligations.SretResult
  intro s h
  refine ⟨s.returnFromTrap, exec_sret s (s.sretPermitted_iff.mpr h), rfl, rfl, rfl, rfl, fun hz => ?off, fun hz => ?on, rfl⟩
  case off => exact if_neg (by simp [hz])
  case on =>
    have hspelp : s.spelpOn = s.sstatus.spelp := by rw [State.spelpOn, hz, Bool.true_and]
    rw [← hspelp]
    exact if_pos hz

/-! ### Where they are illegal (O48) -/

/-- An instruction that is illegal in a state traps with its own bits, and does so before `pc` is found misaligned (R85,
R348). -/
theorem State.barred_traps (s : State) (i : Instr) (hilen : 32 ≤ s.cfg.ilen) (hb : s.barred i = true)
    (hi : exec i s = raiseIllegal i s) :
    exec i s = .next (s.takeException .illegal ((encode i).setWidth 64)) ∧ s.execute i = exec i s :=
  ⟨hi.trans (raiseIllegal_eq s i hilen), if_pos hb⟩

/-- Settles O48: each instruction is barred where it is not legal, and then its meaning is the illegal-instruction exception. -/
theorem privilegedInstructionsTrap : Obligations.PrivilegedInstructionsTrap := by
  unfold Obligations.PrivilegedInstructionsTrap
  intro rs1 rs2 s hilen
  refine ⟨fun h => ?sret, fun h => ?sfenceVma, fun h => ?sinvalVma, fun h => ?inval⟩
  case sret =>
    have hs := s.sretPermitted_false_iff.mpr h
    exact s.barred_traps .sret hilen (congrArg not hs) (if_neg (by simp [hs]))
  case sfenceVma =>
    have hb : s.barred (.sfenceVma rs1 rs2) = true := congrArg not (s.fenceLegal_false_iff.mpr h)
    exact s.barred_traps _ hilen hb (if_pos hb)
  case sinvalVma =>
    rw [← s.fenceLegal_false_iff, ← s.sinvalLegal_false_iff] at h
    have hb : s.barred (.sinvalVma rs1 rs2) = true := congrArg not h
    exact s.barred_traps _ hilen hb (if_pos hb)
  case inval =>
    have hb : (!s.invalOrderLegal) = true := congrArg not (s.invalOrderLegal_false_iff.mpr h)
    obtain ⟨hw, hwExec⟩ := s.barred_traps .sfenceWInval hilen hb (if_pos hb)
    obtain ⟨hir, hirExec⟩ := s.barred_traps .sfenceInvalIr hilen hb (if_pos hb)
    exact ⟨hw, hir, List.forall_mem_cons.mpr ⟨hwExec, List.forall_mem_singleton.mpr hirExec⟩⟩

end Sys2Proof.Machine
end

section
/-! PROOFS. The fences of the address-translation cache: SFENCE.VMA (O46, O47) and the two ordering instructions of Svinval
(O51). -/

namespace Sys2Proof.Machine

/-! ### Where they are legal -/

theorem State.fenceLegal_of_permitted (s : State) (hp : s.fencePermitted = true)
    (hb : s.cfg.sfenceIllegalBare = false ∨ paged s.cfg = true) : s.fenceLegal = true := by
  rcases hb with hb | hb <;> simp [State.fenceLegal, hp, hb]

theorem State.invalOrderLegal_of_priv (s : State) (hx : s.cfg.ext.svinval = true) (hp : s.priv ≠ .user) :
    s.invalOrderLegal = true := by
  simp [State.invalOrderLegal, hx, hp]

theorem State.fenceVaOk_iff (s : State) (rs1 : RegId) :
    s.fenceVaOk rs1 = true ↔ rs1 = 0 ∨ vaValid s.satp.mode (s.reg rs1) = true := by
  simp [State.fenceVaOk]

theorem State.fenceVaOk_false_iff (s : State) (rs1 : RegId) :
    s.fenceVaOk rs1 = false ↔ rs1 ≠ 0 ∧ vaValid s.satp.mode (s.reg rs1) = false := by
  simp [State.fenceVaOk]

/-! ### What each answers where it is legal -/

theorem exec_sfenceVma_valid (s : State) (rs1 rs2 : RegId) (hl : s.fenceLegal = true) (hv : s.fenceVaOk rs1 = true) :
    exec (.sfenceVma rs1 rs2) s = .next (s.fenceNow (s.fenceRequest rs1 rs2)).advance := by
  simp [exec, execSfenceVma, hl, hv]

theorem exec_sfenceVma_invalid (s : State) (rs1 rs2 : RegId) (hl : s.fenceLegal = true) (hv : s.fenceVaOk rs1 = false) :
    exec (.sfenceVma rs1 rs2) s = .next s.retirePending.advance := by
  simp [exec, execSfenceVma, hl, hv]

theorem exec_sinvalVma_invalid (s : State) (rs1 rs2 : RegId) (hl : s.sinvalLegal = true) (hv : s.fenceVaOk rs1 = false) :
    exec (.sinvalVma rs1 rs2) s = .next s.advance := by
  simp [exec, execSinvalVma, hl, hv]

theorem exec_sfenceWInval (s : State) (hl : s.invalOrderLegal = true) : exec .sfenceWInval s = .next s.advance := by
  simp [exec, execSfenceWInval, hl]

theorem exec_sfenceInvalIr (s : State) (hl : s.invalOrderLegal = true) :
    exec .sfenceInvalIr s = .next s.retirePending.advance := by
  simp [exec, execSfenceInvalIr, hl]

/-! ### Which entries stay -/

theorem State.mem_retirePending_atc (s : State) (e : AtcEntry) :
    e ∈ s.retirePending.ms.atc ↔ e ∈ s.ms.atc ∧ ∀ q ∈ s.pendingInval, q.hits e = false := by
  simp [retirePending_eq]

theorem State.mem_fenceOne_atc (s : State) (q : FenceRequest) (e : AtcEntry) :
    e ∈ (s.fenceOne q).ms.atc ↔ e ∈ s.ms.atc ∧ q.hits e = false := by
  simp [State.fenceOne, MemSys.invalidate]

theorem State.mem_fenceNow_atc (s : State) (q : FenceRequest) (e : AtcEntry) :
    e ∈ (s.fenceNow q).ms.atc ↔ e ∈ s.ms.atc ∧ (∀ p ∈ s.pendingInval, p.hits e = false) ∧ q.hits e = false := by
  rw [State.fenceNow, State.mem_fenceOne_atc, State.mem_retirePending_atc, and_assoc]

theorem AtcEntry.covers_iff (e : AtcEntry) (va : Word) :
    e.covers va = true ↔ vpnFrom e.scheme e.level va = e.vpn := beq_iff_eq

theorem AtcEntry.isLeaf_iff (e : AtcEntry) :
    e.isLeaf = true ↔ pteV e.pte = false ∨ pteR e.pte ∨ pteW e.pte ∨ pteX e.pte := by
  simp only [AtcEntry.isLeaf, Bool.or_eq_true, Bool.not_eq_true', or_assoc]

/-- Each operand that a request has narrows what it selects (R262). -/
theorem FenceRequest.hits_iff (q : FenceRequest) (e : AtcEntry) :
    q.hits e = true ↔ (∀ va, q.va = some va → e.covers va = true ∧ e.isLeaf = true) ∧
      (∀ a, q.asid = some a → e.asid = a ∧ e.isGlobal = false) := by
  obtain ⟨va, asid⟩ := q
  cases va <;> cases asid <;> simp [FenceRequest.hits]

theorem State.fenceRequest_va_eq_some_iff (s : State) (rs1 rs2 : RegId) (va : Word) :
    (s.fenceRequest rs1 rs2).va = some va ↔ s.reg rs1 = va ∧ rs1 ≠ 0 := by
  simp [State.fenceRequest, and_comm]

theorem State.fenceRequest_asid_eq_some_iff (s : State) (rs1 rs2 : RegId) (a : BitVec 16) :
    (s.fenceRequest rs1 rs2).asid = some a ↔ asidOperand s.cfg (s.reg rs2) = a ∧ rs2 ≠ 0 := by
  simp [State.fenceRequest, and_comm]

/-- What the operands select, in the four cases of R262: by address unless `rs1` is `x0`, and by address space, global
entries excepted, unless `rs2` is `x0` (R263, R264). -/
theorem State.fenceRequest_hits_iff (s : State) (rs1 rs2 : RegId) (e : AtcEntry) :
    (s.fenceRequest rs1 rs2).hits e = true ↔
      (rs1 = 0 ∨ vpnFrom e.scheme e.level (s.reg rs1) = e.vpn ∧
        (pteV e.pte = false ∨ pteR e.pte ∨ pteW e.pte ∨ pteX e.pte)) ∧
      (rs2 = 0 ∨ e.asid = asidOperand s.cfg (s.reg rs2) ∧ e.isGlobal = false) := by
  simp only [FenceRequest.hits_iff, s.fenceRequest_va_eq_some_iff, s.fenceRequest_asid_eq_some_iff, and_imp, forall_eq',
    e.covers_iff, e.isLeaf_iff, ne_eq, or_iff_not_imp_left]

/-- With both operands `x0` nothing stays (R262). -/
theorem State.fenceNow_all_atc (s : State) : (s.fenceNow (s.fenceRequest 0 0)).ms.atc = [] := by
  refine List.eq_nil_iff_forall_not_mem.mpr fun e he => ?_
  obtain ⟨-, -, hmiss⟩ := (s.mem_fenceNow_atc _ e).mp he
  have hhit := (s.fenceRequest_hits_iff 0 0 e).mpr ⟨.inl rfl, .inl rfl⟩
  exact absurd (hhit.symm.trans hmiss) (by decide)

/-! ### What else changes -/

/-- The requests retired, then `pc`: the pending ones bind the walks under way, and only the ATC changes otherwise. -/
theorem State.retirePending_advance_frame (s : State) :
    s.retirePending.advance = { s with
      pc := cut s.cfg.sxlen (s.pc + 4)
      pendingInval := []
      walks := s.walks.map (fun w => { w with fences := s.pendingInval.reverse ++ w.fences })
      ms := { s.ms with atc := s.retirePending.advance.ms.atc } } := by
  rw [retirePending_eq]
  rfl

/-- The same of SFENCE.VMA, whose own request comes last and so stands first among the fences. -/
theorem State.fenceNow_advance_frame (s : State) (q : FenceRequest) :
    (s.fenceNow q).advance = { s with
      pc := cut s.cfg.sxlen (s.pc + 4)
      pendingInval := []
      walks := s.walks.map (fun w => { w with fences := q :: (s.pendingInval.reverse ++ w.fences) })
      ms := { s.ms with atc := (s.fenceNow q).advance.ms.atc } } := by
  simp only [State.fenceNow, State.fenceOne, retirePending_eq, List.map_map]
  rfl

theorem State.retirePending_of_nil (s : State) (h : s.pendingInval = []) : s.retirePending = s := by
  rw [State.retirePending, h, List.foldl_nil, ← h]

/-! ### The obligations -/

/-- Settles O46: what stays is what neither the pending requests nor the operands select; the frame is `fenceNow`'s. -/
theorem sfenceVmaResult : Obligations.SfenceVmaResult := by
  unfold Obligations.SfenceVmaResult
  rintro rs1 rs2 s q hp hb hv rfl
  refine ⟨_, exec_sfenceVma_valid s rs1 rs2 (s.fenceLegal_of_permitted hp hb) ((s.fenceVaOk_iff rs1).mpr hv),
    fun e => ?stay, ?all, s.fenceNow_advance_frame _⟩
  case stay =>
    rw [State.advance_ms, s.mem_fenceNow_atc, ← s.fenceRequest_hits_iff rs1 rs2 e, Bool.not_eq_true]
  case all =>
    rintro rfl rfl
    exact s.fenceNow_all_atc

/-- Settles O51: SFENCE.W.INVAL is `advance`; SFENCE.INVAL.IR retires what pends, which is nothing where nothing pends. -/
theorem sfenceInvalResults : Obligations.SfenceInvalResults := by
  unfold Obligations.SfenceInvalResults
  intro s hx hp
  have hl := s.invalOrderLegal_of_priv hx hp
  refine ⟨exec_sfenceWInval s hl, fun hnil => ?none, _, exec_sfenceInvalIr s hl, s.mem_retirePending_atc,
    s.retirePending_advance_frame⟩
  case none =>
    rw [exec_sfenceInvalIr s hl, s.retirePending_of_nil hnil]
    rfl

/-- Settles O47: with an invalid address SFENCE.VMA retires what pends and no more, and SINVAL.VMA is `advance`. -/
theorem fenceOfInvalidAddress : Obligations.FenceOfInvalidAddress := by
  unfold Obligations.FenceOfInvalidAddress
  intro rs1 rs2 s hp hb h0 hv
  have hl := s.fenceLegal_of_permitted hp hb
  have hbad := (s.fenceVaOk_false_iff rs1).mpr ⟨h0, hv⟩
  have hexec := exec_sfenceVma_invalid s rs1 rs2 hl hbad
  refine ⟨⟨_, hexec, s.mem_retirePending_atc, s.retirePending_advance_frame⟩, fun hnil => ?none, fun hx => ?sinval⟩
  case none =>
    rw [hexec, s.retirePending_of_nil hnil]
    rfl
  case sinval =>
    exact exec_sinvalVma_invalid s rs1 rs2 (by simp [State.sinvalLegal, hx, hl]) hbad

end Sys2Proof.Machine
end

section
/-! PROOFS. Svinval: SINVAL.VMA (O50), the three instructions in a row (O52), and HINVAL.VVMA and HINVAL.GVMA (O49). -/

namespace Sys2Proof.Machine

/-! ### SINVAL.VMA where it is legal and its address is valid -/

theorem State.sinvalLegal_of_permitted (s : State) (hx : s.cfg.ext.svinval = true) (hp : s.fencePermitted = true)
    (hb : s.cfg.sfenceIllegalBare = false ∨ paged s.cfg = true) : s.sinvalLegal = true := by
  simp [State.sinvalLegal, hx, s.fenceLegal_of_permitted hp hb]

theorem exec_sinvalVma_eager (s : State) (rs1 rs2 : RegId) (hl : s.sinvalLegal = true) (hv : s.fenceVaOk rs1 = true)
    (he : s.cfg.svinvalEager = true) :
    exec (.sinvalVma rs1 rs2) s = .next (s.fenceNow (s.fenceRequest rs1 rs2)).advance := by
  simp [exec, execSinvalVma, hl, hv, he]

theorem exec_sinvalVma_records (s : State) (rs1 rs2 : RegId) (hl : s.sinvalLegal = true) (hv : s.fenceVaOk rs1 = true)
    (he : s.cfg.svinvalEager = false) :
    exec (.sinvalVma rs1 rs2) s =
      .next { s with pendingInval := addRequest (s.fenceRequest rs1 rs2) s.pendingInval }.advance := by
  simp [exec, execSinvalVma, hl, hv, he]

/-- Recording adds the request and no other; one that pends already is not recorded twice (R281, R282). -/
theorem mem_addRequest (q p : FenceRequest) (l : List FenceRequest) : p ∈ addRequest q l ↔ p ∈ l ∨ p = q := by
  unfold addRequest
  split
  case isTrue h => exact ⟨.inl, fun hp => hp.elim id (· ▸ h)⟩
  case isFalse => rw [List.mem_cons, or_comm]

/-- Settles O50: a simple implementation fences at once, as SFENCE.VMA does; any other one adds to PendingInval. -/
theorem sinvalVmaRecords : Obligations.SinvalVmaRecords := by
  unfold Obligations.SinvalVmaRecords
  intro rs1 rs2 s hx hp hb hv
  have hl := s.sinvalLegal_of_permitted hx hp hb
  have hok := (s.fenceVaOk_iff rs1).mpr hv
  refine ⟨fun he => ?records, fun he => ?eager⟩
  case records =>
    exact ⟨_, exec_sinvalVma_records s rs1 rs2 hl hok he, fun q => mem_addRequest _ q s.pendingInval, rfl⟩
  case eager =>
    exact ⟨_, exec_sinvalVma_eager s rs1 rs2 hl hok he,
      exec_sfenceVma_valid s rs1 rs2 (s.fenceLegal_of_permitted hp hb) hok, rfl⟩

/-! ### Walks bound by the same fences, in whatever order -/

/-- The same walks under way, bound by the same fences: their order and repetition have no effect on which entries a walk
may make (R266). -/
def SameFences (ws vs : List InflightWalk) : Prop :=
  ws.map (fun w => { w with fences := [] }) = vs.map (fun w => { w with fences := [] }) ∧
  ∀ (n : Nat) (w v : InflightWalk), ws[n]? = some w → vs[n]? = some v → ∀ q, q ∈ w.fences ↔ q ∈ v.fences

theorem SameFences.refl (ws : List InflightWalk) : SameFences ws ws := by
  refine ⟨rfl, fun n w v hw hv q => ?_⟩
  rw [Option.some.inj (hw.symm.trans hv)]

/-- Adding the same requests, in two orders, to the fences of every walk. -/
theorem SameFences.map_append {l l' : List FenceRequest} (h : ∀ q, q ∈ l ↔ q ∈ l') (ws : List InflightWalk) :
    SameFences (ws.map (fun w => { w with fences := l ++ w.fences }))
      (ws.map (fun w => { w with fences := l' ++ w.fences })) := by
  refine ⟨by simp only [List.map_map]; rfl, fun n w v hw hv q => ?_⟩
  rw [List.getElem?_map] at hw hv
  obtain ⟨u, hu, rfl⟩ := Option.map_eq_some_iff.mp hw
  obtain ⟨u', hu', rfl⟩ := Option.map_eq_some_iff.mp hv
  obtain rfl := Option.some.inj (hu.symm.trans hu')
  simp only [List.mem_append, h]

/-- A state is the other but for the order and repetition of the walks' fences. -/
def State.SameButFenceOrder (x y : State) : Prop := x = { y with walks := x.walks } ∧ SameFences x.walks y.walks

theorem State.SameButFenceOrder.refl (x : State) : x.SameButFenceOrder x := ⟨rfl, .refl x.walks⟩

/-! ### Retiring requests and fencing -/

/-- What retiring does depends only on which requests pend (R286). -/
theorem State.retirePending_sameButFenceOrder (s : State) {l l' : List FenceRequest} (h : ∀ q, q ∈ l ↔ q ∈ l') :
    { s with pendingInval := l }.retirePending.SameButFenceOrder { s with pendingInval := l' }.retirePending := by
  have hall : ∀ e, (l.all fun q => !FenceRequest.hits q e) = l'.all fun q => !q.hits e := fun e => by
    rw [Bool.eq_iff_iff, List.all_eq_true, List.all_eq_true]
    simp only [h]
  rw [retirePending_eq, retirePending_eq]
  refine ⟨?_, .map_append (by simpa using h) s.walks⟩
  simp only [hall]

/-- SFENCE.VMA's own request is retired as one that came after every pending one (R286). -/
theorem State.fenceNow_eq_retirePending (s : State) (q : FenceRequest) :
    s.fenceNow q = { s with pendingInval := s.pendingInval ++ [q] }.retirePending := by
  rw [State.fenceNow, retirePending_eq, retirePending_eq]
  simp [State.fenceOne, MemSys.invalidate, InflightWalk.fenced, Function.comp_def, Bool.and_comm]

/-- Recording a request and retiring later is fencing now, but for the order of the fences (R282, R286). -/
theorem State.retirePending_addRequest (s : State) (q : FenceRequest) :
    { s with pendingInval := addRequest q s.pendingInval }.retirePending.SameButFenceOrder (s.fenceNow q) := by
  rw [s.fenceNow_eq_retirePending]
  refine s.retirePending_sameButFenceOrder fun p => ?_
  rw [mem_addRequest, List.mem_append, List.mem_singleton]

theorem State.advance_retirePending (s : State) : s.advance.retirePending = s.retirePending.advance := by
  rw [retirePending_eq, retirePending_eq]
  rfl

theorem State.advance_fenceNow (s : State) (q : FenceRequest) : s.advance.fenceNow q = (s.fenceNow q).advance := by
  rw [State.fenceNow, s.advance_retirePending]
  rfl

theorem State.fenceNow_retirePending (s : State) (q : FenceRequest) : (s.fenceNow q).retirePending = s.fenceNow q :=
  (s.fenceNow q).retirePending_of_nil rfl

/-! ### The three in a row -/

theorem State.advance_fenceRequest (s : State) (rs1 rs2 : RegId) :
    s.advance.fenceRequest rs1 rs2 = s.fenceRequest rs1 rs2 := rfl

@[simp] theorem State.retirePending_cfg (s : State) : s.retirePending.cfg = s.cfg := by rw [retirePending_eq]
@[simp] theorem State.retirePending_pc (s : State) : s.retirePending.pc = s.pc := by rw [retirePending_eq]
@[simp] theorem State.retirePending_priv (s : State) : s.retirePending.priv = s.priv := by rw [retirePending_eq]

@[simp] theorem State.fenceNow_cfg (s : State) (q : FenceRequest) : (s.fenceNow q).cfg = s.cfg := s.retirePending_cfg
@[simp] theorem State.fenceNow_pc (s : State) (q : FenceRequest) : (s.fenceNow q).pc = s.pc := s.retirePending_pc
@[simp] theorem State.fenceNow_priv (s : State) (q : FenceRequest) : (s.fenceNow q).priv = s.priv := s.retirePending_priv

/-! ### The three in a row -/

theorem State.priv_ne_user_of_fencePermitted (s : State) (hp : s.fencePermitted = true) : s.priv ≠ .user := by
  intro hu
  simp [State.fencePermitted, hu] at hp

/-- After SFENCE.W.INVAL, which is `advance`, SINVAL.VMA leaves a `t`, but for `pc`, whose pending requests retire to what
SFENCE.VMA leaves at once (R286): with an invalid address neither has a request of its own, a simple implementation has fenced
already, and any other one has recorded the request. -/
theorem exec_sinvalVma_retires (s : State) (rs1 rs2 : RegId) (hx : s.cfg.ext.svinval = true) (hp : s.fencePermitted = true)
    (hb : s.cfg.sfenceIllegalBare = false ∨ paged s.cfg = true) :
    ∃ t u : State, exec (.sinvalVma rs1 rs2) s.advance = .next t.advance.advance ∧
      exec (.sfenceVma rs1 rs2) s = .next u.advance ∧ t.retirePending.SameButFenceOrder u ∧
      t.cfg = s.cfg ∧ t.priv = s.priv ∧ t.pc = s.pc := by
  have hl := s.fenceLegal_of_permitted hp hb
  have hsl : s.advance.sinvalLegal = true := s.sinvalLegal_of_permitted hx hp hb
  cases hv : s.fenceVaOk rs1 with
  | false =>
    exact ⟨s, _, exec_sinvalVma_invalid s.advance rs1 rs2 hsl hv, exec_sfenceVma_invalid s rs1 rs2 hl hv, .refl _,
      rfl, rfl, rfl⟩
  | true =>
    have hfence := exec_sfenceVma_valid s rs1 rs2 hl hv
    cases he : s.cfg.svinvalEager with
    | true =>
      have hsinval := exec_sinvalVma_eager s.advance rs1 rs2 hsl hv he
      rw [s.advance_fenceNow, s.advance_fenceRequest] at hsinval
      refine ⟨_, _, hsinval, hfence, ?_, s.fenceNow_cfg _, s.fenceNow_priv _, s.fenceNow_pc _⟩
      rw [State.fenceNow_retirePending]
      exact .refl _
    | false =>
      have hsinval := exec_sinvalVma_records s.advance rs1 rs2 hsl hv he
      rw [s.advance_fenceRequest, s.advance_pendingInval] at hsinval
      exact ⟨{ s with pendingInval := addRequest (s.fenceRequest rs1 rs2) s.pendingInval }, _, hsinval, hfence,
        s.retirePending_addRequest _, rfl, rfl, rfl⟩

/-- Settles O52: SFENCE.INVAL.IR retires what SINVAL.VMA left pending, which gives what SFENCE.VMA gives; `pc` moves commute
with it. -/
theorem svinvalSequenceIsSfenceVma : Obligations.SvinvalSequenceIsSfenceVma := by
  unfold Obligations.SvinvalSequenceIsSfenceVma
  intro rs1 rs2 s a b c d hp hx ha hb hc hd hbare
  have huser := s.priv_ne_user_of_fencePermitted hp
  cases (exec_sfenceWInval s (s.invalOrderLegal_of_priv hx huser)).symm.trans ha
  obtain ⟨t, u, hsinval, hfence, ⟨hsame, hfences⟩, hcfg, hpriv, hpc⟩ := exec_sinvalVma_retires s rs1 rs2 hx hp hbare
  cases hsinval.symm.trans hb
  cases hfence.symm.trans hd
  have hir := exec_sfenceInvalIr t.advance.advance (State.invalOrderLegal_of_priv _ (hcfg ▸ hx) (hpriv ▸ huser))
  cases hir.symm.trans hc
  rw [State.advance_retirePending, State.advance_retirePending]
  refine ⟨?_, hfences⟩
  have hucfg : u.cfg = s.cfg := ((congrArg State.cfg hsame).symm.trans t.retirePending_cfg).trans hcfg
  have hupc : u.pc = s.pc := ((congrArg State.pc hsame).symm.trans t.retirePending_pc).trans hpc
  rw [← hucfg, ← hupc]
  exact congrArg (fun x : State => x.advance.advance.advance) hsame

/-! ### HINVAL.VVMA and HINVAL.GVMA -/

/-- The bits of a register field put at bit `n` of a word. -/
theorem registerField_bit (r : RegId) (n k : Nat) (hk : k < 64) :
    (r.setWidth 64 <<< n : Word).getLsbD k = if n ≤ k ∧ k < n + 5 then r.getLsbD (k - n) else false := by
  rw [BitVec.getLsbD_shiftLeft, BitVec.getLsbD_setWidth]
  by_cases hn : n ≤ k
  · by_cases h5 : k < n + 5
    · simp [hn, h5, hk, show k - n < 64 by omega]
    · simp [h5, BitVec.getLsbD_of_ge r (k - n) (by omega)]
  · simp [hn, show k < n by omega]

/-- The register fields of a privileged word, put into the word of its funct7 (R222). -/
theorem encodePrivileged_setWidth (f7 : BitVec 7) (rs2 rs1 : RegId) :
    (encodePrivileged f7 rs2 rs1).setWidth 64 =
      (encodePrivileged f7 0 0).setWidth 64 ||| rs2.setWidth 64 <<< 20 ||| rs1.setWidth 64 <<< 15 := by
  apply BitVec.eq_of_getLsbD_eq
  intro k hk
  rw [BitVec.getLsbD_or, BitVec.getLsbD_or, registerField_bit _ _ _ hk, registerField_bit _ _ _ hk]
  simp only [BitVec.getLsbD_setWidth, encodePrivileged, packWord_bit]
  grind

theorem encode_hinvalVvma (rs1 rs2 : RegId) :
    (encode (.hinvalVvma rs1 rs2)).setWidth 64 = 0x26000073#64 ||| rs2.setWidth 64 <<< 20 ||| rs1.setWidth 64 <<< 15 :=
  encodePrivileged_setWidth _ rs2 rs1

theorem encode_hinvalGvma (rs1 rs2 : RegId) :
    (encode (.hinvalGvma rs1 rs2)).setWidth 64 = 0x66000073#64 ||| rs2.setWidth 64 <<< 20 ||| rs1.setWidth 64 <<< 15 :=
  encodePrivileged_setWidth _ rs2 rs1

/-- Settles O49: they are barred in every state, and their meaning is the illegal-instruction exception with their own word. -/
theorem hinvalIsIllegal : Obligations.HinvalIsIllegal := by
  unfold Obligations.HinvalIsIllegal
  intro rs1 rs2 s hilen
  obtain ⟨hv, hvExec⟩ := s.barred_traps (.hinvalVvma rs1 rs2) hilen rfl rfl
  obtain ⟨hg, hgExec⟩ := s.barred_traps (.hinvalGvma rs1 rs2) hilen rfl rfl
  rw [encode_hinvalVvma] at hv
  rw [encode_hinvalGvma] at hg
  exact ⟨hv, hg, List.forall_mem_cons.mpr ⟨hvExec, List.forall_mem_singleton.mpr hgExec⟩⟩

end Sys2Proof.Machine
end

section
/-! PROOFS. Where a CSR instruction does not get past `csr_check`: illegal, or outside the spec (O36). -/

namespace Sys2Proof.Machine

/-! ### The verdict of `csr_check` -/

/-- The three ways in which `csr_check` finds an access illegal: from too low a mode, a write of a read-only number, and a number
of no CSR or of one that is closed (R300, R309 to R311). -/
theorem State.csrCheck_illegal_iff (s : State) (num : BitVec 12) (isWrite : Bool) :
    s.csrCheck num isWrite = .illegal ↔
      privNumber s.priv < (num.extractLsb' 8 2).toNat ∨ (isWrite = true ∧ num.extractLsb' 10 2 = 3) ∨
        (num.extractLsb' 8 2 ≠ 3 ∧ ∀ c, csrOf s.cfg num = some c → s.csrOpen c = false) := by
  unfold State.csrCheck
  generalize num.extractLsb' 8 2 = level
  generalize num.extractLsb' 10 2 = access
  split
  case isTrue hlow => simp only [hlow, true_or]
  case isFalse hlow =>
    split
    case isTrue hread =>
      have hwrite : isWrite = true ∧ access = 3 := by simpa using hread
      simp only [hwrite, and_self, true_or, or_true]
    case isFalse hread =>
      have hwrite : ¬(isWrite = true ∧ access = 3) := by simpa using hread
      simp only [hlow, hwrite, false_or]
      split
      case isTrue hm => simp [hm]
      case isFalse hm =>
        rw [ne_eq, eq_true hm, true_and]
        cases csrOf s.cfg num <;> simp

/-- A machine-level number accessed from M-mode is outside the spec, where it is not a write of a read-only one (R6). -/
theorem State.csrCheck_machineLevel (s : State) (num : BitVec 12) (isWrite : Bool) (hp : s.priv = .machine)
    (hlevel : num.extractLsb' 8 2 = 3) (hwrite : isWrite = false ∨ num.extractLsb' 10 2 ≠ 3) :
    s.csrCheck num isWrite = .machineLevel := by
  have hread : ¬(isWrite && num.extractLsb' 10 2 == 3) = true := by
    rcases hwrite with h | h
    · simp [h]
    · simpa using fun _ => h
  unfold State.csrCheck
  rw [hlevel, hp, if_neg (by decide), if_neg hread, if_pos rfl]

theorem privNumber_lt_three (p : Priv) (h : p ≠ .machine) : privNumber p < 3 := by
  cases p
  case machine => exact absurd rfl h
  all_goals decide

/-- A number of no CSR, or of a closed one, is illegal but for the machine-level numbers in M-mode (R300). -/
theorem State.csrCheck_closed (s : State) (num : BitVec 12) (isWrite : Bool)
    (hlevel : s.priv ≠ .machine ∨ num.extractLsb' 8 2 ≠ 3)
    (hclosed : ∀ c, csrOf s.cfg num = some c → s.csrOpen c = false) : s.csrCheck num isWrite = .illegal := by
  rw [State.csrCheck_illegal_iff]
  by_cases h3 : num.extractLsb' 8 2 = 3
  · rw [h3]
    exact .inl (privNumber_lt_three _ (hlevel.resolve_right (fun h => h h3)))
  · exact .inr (.inr ⟨h3, hclosed⟩)

/-! ### Numbers without a CSR -/

theorem csrOf_unlisted (c : Config) (num : BitVec 12)
    (hlist : num ∉ [0x100, 0x104, 0x105, 0x106, 0x10A, 0x140, 0x141, 0x142, 0x143, 0x144, 0x180, 0x181])
    (hlow : num.extractLsb' 5 7 ≠ 0b1100000#7) (hhigh : num.extractLsb' 5 7 ≠ 0b1100100#7 ∨ c.sxlen = .rv64) :
    csrOf c num = none := by
  simp only [List.mem_cons, List.not_mem_nil, or_false, not_or] at hlist
  obtain ⟨h100, h104, h105, h106, h10A, h140, h141, h142, h143, h144, h180, h181⟩ := hlist
  unfold csrOf
  rw [if_neg h100, if_neg h104, if_neg h105, if_neg h106, if_neg h10A, if_neg h140, if_neg h141, if_neg h142, if_neg h143,
    if_neg h144, if_neg h180, if_neg h181, if_neg hlow]
  rcases hhigh with h | h
  · exact if_neg h
  · rw [if_neg (c := c.sxlen = .rv32) (by rw [h]; decide), ite_self]

theorem csrOf_srmcfg (c : Config) : csrOf c 0x181 = if c.ext.ssqosid then some .srmcfg else none := rfl

/-- A counter's CSR is open as the counter is (R310). -/
theorem State.csrOpen_of_high (s : State) (num : BitVec 12) (c : Csr)
    (h : num.extractLsb' 5 7 = 0b1100000#7 ∨ num.extractLsb' 5 7 = 0b1100100#7) (hc : csrOf s.cfg num = some c) :
    s.csrOpen c = s.counterOpen (num.extractLsb' 0 5) := by
  rw [csrOf_of_high s.cfg num h] at hc
  split_ifs at hc <;> cases hc <;> rfl

/-! ### The six instructions -/

/-- The six CSR instructions, each with whether it writes (R300). -/
def csrForms (rd : RegId) (num : BitVec 12) (src : BitVec 5) : List (Instr × Bool) :=
  [(.csrrw rd num src, true), (.csrrwi rd num src, true), (.csrrs rd num src, decide (src ≠ 0)),
    (.csrrc rd num src, decide (src ≠ 0)), (.csrrsi rd num src, decide (src ≠ 0)), (.csrrci rd num src, decide (src ≠ 0))]

/-- Each of them is the common part, and what it comes before at a misaligned `pc` is the check's verdict (R300, R348). -/
theorem exec_csrForms {rd : RegId} {num : BitVec 12} {src : BitVec 5} {i : Instr} {isWrite : Bool} (s : State)
    (h : (i, isWrite) ∈ csrForms rd num src) :
    (∃ op v isRead, exec i s = csrInstr i op rd num v isRead isWrite s) ∧ s.barred i = s.csrBarred num isWrite := by
  simp only [csrForms, List.mem_cons, Prod.mk.injEq, List.not_mem_nil, or_false] at h
  rcases h with ⟨rfl, rfl⟩ | ⟨rfl, rfl⟩ | ⟨rfl, rfl⟩ | ⟨rfl, rfl⟩ | ⟨rfl, rfl⟩ | ⟨rfl, rfl⟩ <;>
    exact ⟨⟨_, _, _, rfl⟩, rfl⟩

theorem State.csrForms_illegal {rd : RegId} {num : BitVec 12} {src : BitVec 5} {i : Instr} {isWrite : Bool} (s : State)
    (hilen : 32 ≤ s.cfg.ilen) (h : (i, isWrite) ∈ csrForms rd num src) (hc : s.csrCheck num isWrite = .illegal) :
    exec i s = .next (s.takeException .illegal ((encode i).setWidth 64)) ∧ s.execute i = exec i s := by
  obtain ⟨⟨op, v, isRead, hexec⟩, hbarred⟩ := exec_csrForms s h
  exact s.barred_traps i hilen (by rw [hbarred, State.csrBarred, hc]) (by rw [hexec, csrInstr, hc])

theorem State.csrForms_machineLevel {rd : RegId} {num : BitVec 12} {src : BitVec 5} {i : Instr} {isWrite : Bool} (s : State)
    (h : (i, isWrite) ∈ csrForms rd num src) (hc : s.csrCheck num isWrite = .machineLevel) :
    exec i s = .refused (.machineCsr num) ∧ s.execute i = exec i s := by
  obtain ⟨⟨op, v, isRead, hexec⟩, hbarred⟩ := exec_csrForms s h
  exact ⟨by rw [hexec, csrInstr, hc], if_pos (by rw [hbarred, State.csrBarred, hc])⟩

/-- Settles O36: each listed access is one that `csr_check` finds illegal, and a machine-level one in M-mode is refused. -/
theorem csrIllegalAccess : Obligations.CsrIllegalAccess := by
  unfold Obligations.CsrIllegalAccess
  intro rd num src s hilen i isWrite hi
  refine ⟨fun h => s.csrForms_illegal hilen hi ?_, fun hp hlevel hwrite => ?machineLevel⟩
  case machineLevel => exact s.csrForms_machineLevel hi (s.csrCheck_machineLevel num isWrite hp hlevel hwrite)
  rcases h with ⟨hp, hlevel⟩ | ⟨hp, hlevel⟩ | hwrite | ⟨hlist, hlow, hhigh, hlevel⟩ | ⟨hcounter, hp, hclosed⟩ |
    ⟨rfl, hp, htvm⟩ | ⟨rfl, hext, hbit, hp⟩ | ⟨rfl, hext⟩
  · have hpos : 0 < (num.extractLsb' 8 2).toNat := Nat.pos_of_ne_zero (fun h0 => hlevel (BitVec.eq_of_toNat_eq h0))
    exact (s.csrCheck_illegal_iff num isWrite).mpr (.inl (by rw [hp]; exact hpos))
  · exact (s.csrCheck_illegal_iff num isWrite).mpr (.inl (by rw [hp]; exact hlevel))
  · exact (s.csrCheck_illegal_iff num isWrite).mpr (.inr (.inl hwrite))
  · refine s.csrCheck_closed num isWrite hlevel (fun c hc => ?_)
    rw [csrOf_unlisted s.cfg num hlist hlow hhigh] at hc
    cases hc
  · refine s.csrCheck_closed num isWrite (.inl (by simp [hp])) (fun c hc => ?_)
    rw [s.csrOpen_of_high num c hcounter hc, State.counterOpen, hp]
    exact hclosed
  · refine s.csrCheck_closed _ isWrite (.inl (by simp [hp])) (fun c hc => ?_)
    obtain rfl : Csr.satp = c := Option.some.inj hc
    simp [State.csrOpen, hp, htvm]
  · refine s.csrCheck_closed _ isWrite (.inl hp) (fun c hc => ?_)
    rw [csrOf_srmcfg] at hc
    split at hc <;> cases hc
    simp [State.csrOpen, hext, hbit, hp]
  · refine s.csrCheck_closed _ isWrite (.inr (by decide)) (fun c hc => ?_)
    rw [csrOf_srmcfg, hext] at hc
    cases hc

end Sys2Proof.Machine
end

section
/-! PROOFS. CSR instructions that write: `rd` takes the old value, the CSR what its write rule makes of the new one (O33, O34). -/

namespace Sys2Proof.Machine

/-! ### A CSR that can be written is not a counter -/

theorem csrOf_eq_counter {c : Config} {num : BitVec 12} {d : Csr} {n : BitVec 5} (h : csrOf c num = some d)
    (hd : d = .counter n ∨ d = .counterHigh n) :
    num.extractLsb' 5 7 = 0b1100000#7 ∨ num.extractLsb' 5 7 = 0b1100100#7 := by
  by_contra hn
  rw [not_or] at hn
  obtain ⟨hlow, hhigh⟩ := hn
  by_cases hsrmcfg : num = 0x181
  · rw [hsrmcfg, csrOf_srmcfg] at h
    split at h <;> cases h
    simp at hd
  by_cases hlist : num ∈ [0x100, 0x104, 0x105, 0x106, 0x10A, 0x140, 0x141, 0x142, 0x143, 0x144, 0x180]
  · simp only [List.mem_cons, List.not_mem_nil, or_false] at hlist
    rcases hlist with rfl | rfl | rfl | rfl | rfl | rfl | rfl | rfl | rfl | rfl | rfl
    all_goals cases h; simp at hd
  · have hunlisted : num ∉ [0x100, 0x104, 0x105, 0x106, 0x10A, 0x140, 0x141, 0x142, 0x143, 0x144, 0x180] ++ [0x181] := by
      rw [List.mem_append, List.mem_singleton, not_or]
      exact ⟨hlist, hsrmcfg⟩
    rw [csrOf_unlisted c num hunlisted hlow (.inl hhigh)] at h
    cases h

theorem State.csrCheck_write_bits (s : State) (num : BitVec 12) (c : Csr) (h : s.csrCheck num true = .ok c) :
    num.extractLsb' 10 2 ≠ 3 := by
  intro hread
  have hill : s.csrCheck num true = .illegal := (s.csrCheck_illegal_iff num true).mpr (.inr (.inl ⟨rfl, hread⟩))
  rw [h] at hill
  cases hill

/-- The counters' numbers are read-only ones (R300, R310). -/
theorem State.csrCheck_write_not_counter (s : State) (num : BitVec 12) (c : Csr) (h : s.csrCheck num true = .ok c)
    (n : BitVec 5) : c ≠ .counter n ∧ c ≠ .counterHigh n := by
  have hbits := s.csrCheck_write_bits num c h
  rw [← not_or]
  intro hc
  have htop : num.extractLsb' 10 2 = (num.extractLsb' 5 7).extractLsb' 5 2 := by
    apply BitVec.eq_of_getLsbD_eq
    intro k hk
    simp only [BitVec.getLsbD_extractLsb', hk, show 5 + k < 7 by omega, decide_true, Bool.true_and]
    congr 1
    omega
  rcases csrOf_eq_counter (s.csrCheck_ok num true c h) hc with h5 | h5 <;> exact hbits (by rw [htop, h5]; rfl)

/-- Reading a CSR that can be written changes nothing (R308). -/
theorem State.readCsr_state_of_write (s : State) (num : BitVec 12) (c : Csr) (h : s.csrCheck num true = .ok c) :
    (s.readCsr c).2 = s := by
  cases c
  case counter n => exact absurd rfl (s.csrCheck_write_not_counter num _ h n).1
  case counterHigh n => exact absurd rfl (s.csrCheck_write_not_counter num _ h n).2
  all_goals rfl

/-! ### A write changes the CSR written alone -/

/-- Each field of a CSR is as before unless the CSR is the one written (R308). -/
theorem State.writeCsr_own_field (s t : State) (c : Csr) (v : Word) (h : s.writeCsr c v = .ok t) :
    t = { s with
      sstatus := (if c = .sstatus then t else s).sstatus, sie := (if c = .sie then t else s).sie
      stvec := (if c = .stvec then t else s).stvec, scounteren := (if c = .scounteren then t else s).scounteren
      senvcfg := (if c = .senvcfg then t else s).senvcfg, sscratch := (if c = .sscratch then t else s).sscratch
      sepc := (if c = .sepc then t else s).sepc, scause := (if c = .scause then t else s).scause
      stval := (if c = .stval then t else s).stval, sip := (if c = .sip then t else s).sip
      satp := (if c = .satp then t else s).satp, srmcfg := (if c = .srmcfg then t else s).srmcfg } := by
  cases c
  case satp =>
    simp only [State.writeCsr, State.writeSatp] at h
    split at h
    · cases h; rfl
    · split at h
      · cases h
      · cases h; rfl
  all_goals cases h; rfl

/-- Every other CSR reads as before (R301). -/
theorem State.readCsr_writeCsr_other (s t : State) (c d : Csr) (v : Word) (h : s.writeCsr c v = .ok t) (hd : d ≠ c) :
    (t.readCsr d).1 = (s.readCsr d).1 := by
  have hf := s.writeCsr_own_field t c v h
  cases d
  case counter n => rw [hf]; rfl
  case counterHigh n => rw [hf]; rfl
  all_goals rw [hf]; simp only [if_neg hd.symm]; rfl

/-- What a CSR reads does not depend on the integer registers, on `pc` or on the re-evaluation of interrupts. -/
theorem State.readCsr_regs_pc_recheck (s : State) (d : Csr) (r : Vector Word 32) (p : Word) (b : Bool) :
    (State.readCsr { s with regs := r, pc := p, recheck := b } d).1 = (s.readCsr d).1 := by
  cases d <;> rfl

/-! ### The state after the instruction -/

theorem State.setReg_eq (s : State) (rd : RegId) (v : Word) : s.setReg rd v = { s with regs := (s.setReg rd v).regs } := by
  unfold State.setReg
  split <;> rfl

/-- A register write to `x0` leaves what any value would (R20). -/
theorem State.registersAfter_x0 (s t : State) (v w : Word) (h : s.registersAfter t 0 v) : s.registersAfter t 0 w := by
  obtain ⟨hrd, hother, hstored, -⟩ := h
  exact ⟨hrd, hother, hstored, fun hn => absurd rfl hn⟩

/-- The frame of a CSR instruction that writes, above U-mode: `u` is the state with the CSR written (R300, R301). -/
theorem State.csrWritten_of_writeCsr (s u : State) (rd : RegId) (c : Csr) (v w : Word) (hp : s.priv ≠ .user)
    (hu : s.writeCsr c w = .ok u) (hv : rd = 0 ∨ v = (s.readCsr c).1) :
    s.csrWritten (({ u with recheck := u.recheck || interruptCsr c } : State).setReg rd v).advance u rd c := by
  have hf := s.writeCsr_frame u c w hu
  have hcfg : u.cfg = s.cfg := by rw [hf]
  have hpriv : u.priv = s.priv := by rw [hf]
  have hrecheck : u.recheck = s.recheck := by rw [hf]
  have hpc : u.pc = s.pc := by rw [hf]
  have hregs : u.regs = s.regs := by rw [hf]
  generalize hx : ({ u with recheck := u.recheck || interruptCsr c } : State) = x
  have hxlen : x.xlen = s.xlen := by
    rw [s.xlen_of_not_user hp, x.xlen_of_not_user (by rw [← hx]; exact hpriv ▸ hp), ← hx, hcfg]
  have hafter : s.registersAfter (x.setReg rd v).advance rd v :=
    s.registersAfter_of_setReg x rd v (by rw [← hx]; exact hregs) hxlen (by rw [← hx, hcfg])
  have heq : (x.setReg rd v).advance =
      { u with regs := (x.setReg rd v).regs, pc := cut s.cfg.sxlen (s.pc + 4), recheck := s.recheck || interruptCsr c } := by
    rw [x.setReg_eq, ← hx, ← hcfg, ← hpc, ← hrecheck]
    rfl
  refine ⟨?registers, heq, ⟨fun d hd => ?read, ?_⟩, fun a => ?memory⟩
  case registers =>
    rcases hv with rfl | rfl
    · exact s.registersAfter_x0 _ v _ hafter
    · exact hafter
  case read => rw [heq, State.readCsr_regs_pc_recheck, s.readCsr_writeCsr_other u c d w hu hd]
  case memory => rw [heq, hf]
  · rw [heq, hf]
    exact ⟨rfl, rfl, rfl, rfl, rfl, rfl, rfl, rfl, rfl, rfl⟩

/-! ### The instruction, by how the write ends -/

/-- The read of a CSR instruction that writes: the value, 0 where there is no read, and no change of the state (R301). -/
theorem State.csrRead_of_write (s : State) (num : BitVec 12) (c : Csr) (isRead : Bool) (hc : s.csrCheck num true = .ok c) :
    (if isRead then s.readCsr c else (0, s)) = (if isRead then (s.readCsr c).1 else 0, s) := by
  cases isRead
  · rfl
  · exact Prod.ext rfl (s.readCsr_state_of_write num c hc)

section
variable (i : Instr) (op : CsrOp) (rd : RegId) (num : BitVec 12) (src : Word) (isRead : Bool) (s : State) (c : Csr)
  (hc : s.csrCheck num true = .ok c) (w : Word) (hw : op.combine (if isRead then (s.readCsr c).1 else 0) src = w)
include hc hw

theorem csrInstr_write_ok (u : State) (hu : s.writeCsr c w = .ok u) :
    csrInstr i op rd num src isRead true s = .next
      (({ u with recheck := u.recheck || interruptCsr c } : State).setReg rd (if isRead then (s.readCsr c).1 else 0)).advance := by
  simp only [csrInstr, hc, State.csrReadWrite, s.csrRead_of_write num c isRead hc, State.commitCsr, hw, if_true, hu]

theorem csrInstr_write_error (x : Stop) (hx : s.writeCsr c w = .error x) :
    csrInstr i op rd num src isRead true s = x.outcome := by
  simp only [csrInstr, hc, State.csrReadWrite, s.csrRead_of_write num c isRead hc, State.commitCsr, hw, if_true, hx]

/-- A checked CSR instruction that writes: every CSR but `satp` takes every value, a write that succeeds leaves the frame, and
one without a meaning stops the instruction (R300, R301, R308). -/
theorem csrInstr_write_result (hrd : rd = 0 ∨ isRead = true) :
    (c ≠ .satp → ∃ t u, csrInstr i op rd num src isRead true s = .next t ∧ s.writeCsr c w = .ok u ∧ s.csrWritten t u rd c) ∧
    (∀ u, s.writeCsr c w = .ok u → ∃ t, csrInstr i op rd num src isRead true s = .next t ∧ s.csrWritten t u rd c) ∧
    (∀ x, s.writeCsr c w = .error x → csrInstr i op rd num src isRead true s = x.outcome) := by
  have hok : ∀ u, s.writeCsr c w = .ok u →
      ∃ t, csrInstr i op rd num src isRead true s = .next t ∧ s.csrWritten t u rd c := fun u hu =>
    ⟨_, csrInstr_write_ok i op rd num src isRead s c hc w hw u hu,
      s.csrWritten_of_writeCsr u rd c _ w (s.csrCheck_write num c hc) hu (hrd.imp_right (fun h => if_pos h))⟩
  refine ⟨fun hs => ?_, hok, csrInstr_write_error i op rd num src isRead s c hc w hw⟩
  obtain ⟨u, hu⟩ := s.writeCsr_total c w hs
  obtain ⟨t, ht, hwritten⟩ := hok u hu
  exact ⟨t, u, ht, hu, hwritten⟩

end

/-! ### The statements -/

/-- Settles O33: CSRRW and CSRRWI read the CSR unless `rd` is `x0`, and write their operand. -/
theorem csrSwapResult : Obligations.CsrSwapResult := by
  unfold Obligations.CsrSwapResult
  intro rd num src s r c hc hr i v hi
  obtain rfl : r = s := by rw [hr, s.readCsr_state_of_write num c hc, ite_self]
  have hrd : rd = 0 ∨ decide (rd ≠ 0) = true := by simpa using em (rd = 0)
  simp only [List.mem_cons, Prod.mk.injEq, List.not_mem_nil, or_false] at hi
  rcases hi with ⟨rfl, rfl⟩ | ⟨rfl, rfl⟩
  · exact csrInstr_write_result _ .swap rd num _ _ r c hc _ rfl hrd
  · exact csrInstr_write_result _ .swap rd num _ _ r c hc _ rfl hrd

/-- Settles O34: with a nonzero source field the four instructions read the CSR and write it. -/
theorem csrSetClearResult : Obligations.CsrSetClearResult := by
  unfold Obligations.CsrSetClearResult
  rintro rd num src s c old hsrc hc rfl i v hi
  rw [s.readCsr_state_of_write num c hc]
  have key := fun i op src w hw => csrInstr_write_result i op rd num src true s c hc w hw (.inr rfl)
  have hforms : ∀ (i : Instr) (op : CsrOp) (x : Word), exec i s = csrInstr i op rd num x true (decide (src ≠ 0)) s →
      exec i s = csrInstr i op rd num x true true s := by
    intro i op x he
    rw [he, decide_eq_true hsrc]
  simp only [List.mem_cons, Prod.mk.injEq, List.not_mem_nil, or_false] at hi
  rcases hi with ⟨rfl, rfl⟩ | ⟨rfl, rfl⟩ | ⟨rfl, rfl⟩ | ⟨rfl, rfl⟩
  · rw [hforms _ .set _ rfl]; exact key _ .set _ _ rfl
  · rw [hforms _ .clear _ rfl]; exact key _ .clear _ _ rfl
  · rw [hforms _ .set _ rfl]; exact key _ .set _ _ rfl
  · rw [hforms _ .clear _ rfl]; exact key _ .clear _ _ rfl

end Sys2Proof.Machine
end

section
/-! PROOFS. An instruction of U-mode traps, or changes registers, `pc`, counters and the memory system alone (O16). -/

namespace Sys2Proof.Machine

theorem State.takeException_priv_ne_user (s : State) (c : Cause) (info : Word) : (s.takeException c info).priv ≠ .user := by
  unfold State.takeException
  dsimp only
  split
  · intro h
    rcases State.trapToS_priv _ _ _ _ _ with hp | hp <;> cases h.symm.trans hp
  · rw [State.trapToM_priv]; decide

/-- `t` is a trap of an instruction that started in `s`, whatever its accesses did to the memory system. -/
def State.trapsTo (s t : State) : Prop := ∃ m c info, t = ({ s with ms := m } : State).takeException c info

/-- From `s` to `t` nothing changes but registers, `pc`, counters and the memory system. -/
def State.userChange (s t : State) : Prop :=
  t = { s with regs := t.regs, pc := t.pc, counters := t.counters, ms := t.ms }

theorem raiseIllegal_trapsTo {i : Instr} {s t : State} (h : raiseIllegal i s = .next t) : s.trapsTo t := by
  cases h
  exact ⟨s.ms, _, _, rfl⟩

/-- A destination register and `pc` + 4 after a change of counters and the memory system. -/
theorem State.userChange_setReg_advance (s : State) (cs : Vector (BitVec 64) 32) (m : MemSys) (rd : RegId) (v : Word) :
    s.userChange (({ s with counters := cs, ms := m } : State).setReg rd v).advance := by
  rw [State.setReg_eq]
  rfl

/-- A CSR instruction of U-mode is illegal or only reads, for every CSR that U-mode may name is read-only (R300, R310). -/
theorem csrInstr_user {i : Instr} {op : CsrOp} {rd : RegId} {num : BitVec 12} {src : Word} {isRead isWrite : Bool}
    {s t : State} (hp : s.priv = .user) (h : csrInstr i op rd num src isRead isWrite s = .next t) :
    s.trapsTo t ∨ s.userChange t := by
  rcases csrInstr_next _ _ _ _ _ _ _ _ _ h with ⟨-, hill⟩ | ⟨c, v, u, hc, hu, rfl⟩
  · exact .inl (raiseIllegal_trapsTo hill)
  · obtain rfl : isWrite = false := by
      cases isWrite
      · rfl
      · exact absurd hp (s.csrCheck_write num c hc)
    have hread : (if isRead then s.readCsr c else (0, s)) = (v, u) := Except.ok.inj hu
    obtain ⟨cs, m, rfl⟩ : ∃ cs m, u = { s with counters := cs, ms := m } := by
      cases isRead
      · exact ⟨s.counters, s.ms, (Prod.mk.inj hread).2.symm⟩
      · obtain rfl : (s.readCsr c).2 = u := (Prod.mk.inj hread).2
        exact ⟨_, _, s.readCsr_frame c⟩
    exact .inr (s.userChange_setReg_advance cs m rd v)

/-- How an instruction of U-mode goes on: it traps, SRET and the fences as illegal instructions, or it changes registers, `pc`,
counters and the memory system alone (R253, R276, R300, R310). -/
theorem exec_user_cases (i : Instr) (s t : State) (hp : s.priv = .user) (h : exec i s = .next t) :
    s.trapsTo t ∨ s.userChange t := by
  have hfence : s.fenceLegal = false := s.fenceLegal_false_iff.mpr (.inl hp)
  have hsinval : s.sinvalLegal = false := s.sinvalLegal_false_iff.mpr (.inr hfence)
  have horder : s.invalOrderLegal = false := s.invalOrderLegal_false_iff.mpr (.inr hp)
  cases i with
  | sret =>
    have hsret : s.sretPermitted = false := s.sretPermitted_false_iff.mpr (.inl hp)
    exact .inl (raiseIllegal_trapsTo ((if_neg (by simp [hsret])).symm.trans h))
  | sfenceVma rs1 rs2 => exact .inl (raiseIllegal_trapsTo ((if_pos (congrArg not hfence)).symm.trans h))
  | sinvalVma rs1 rs2 => exact .inl (raiseIllegal_trapsTo ((if_pos (congrArg not hsinval)).symm.trans h))
  | sfenceWInval => exact .inl (raiseIllegal_trapsTo ((if_pos (congrArg not horder)).symm.trans h))
  | sfenceInvalIr => exact .inl (raiseIllegal_trapsTo ((if_pos (congrArg not horder)).symm.trans h))
  | hinvalVvma rs1 rs2 => exact .inl (raiseIllegal_trapsTo h)
  | hinvalGvma rs1 rs2 => exact .inl (raiseIllegal_trapsTo h)
  | csrrw rd csr rs1 => exact csrInstr_user hp h
  | csrrs rd csr rs1 => exact csrInstr_user hp h
  | csrrc rd csr rs1 => exact csrInstr_user hp h
  | csrrwi rd csr uimm => exact csrInstr_user hp h
  | csrrsi rd csr uimm => exact csrInstr_user hp h
  | csrrci rd csr uimm => exact csrInstr_user hp h
  | ecall => cases h; exact .inl ⟨s.ms, _, _, rfl⟩
  | ebreak => cases h; exact .inl ⟨s.ms, _, _, rfl⟩
  | fence fm pred succ rs1 rd =>
    obtain rfl := Host.Outcome.next.inj ((exec_fence fm pred succ rs1 rd s).symm.trans h)
    exact .inr rfl
  | addi rd rs1 imm =>
    cases h
    exact .inr (s.userChange_setReg_advance s.counters s.ms rd _)
  | lw rd rs1 imm =>
    have hf := s.loadWord_frame (s.effectiveAddress rs1 imm)
    simp only [exec, execLw] at h
    cases hl : s.loadWord (s.effectiveAddress rs1 imm) <;> rw [hl] at hf h
    case ok v u =>
      obtain ⟨m, rfl⟩ := hf
      cases h
      exact .inr (s.userChange_setReg_advance s.counters m rd _)
    case exc cause info u =>
      obtain ⟨m, rfl⟩ := hf
      cases h
      exact .inl ⟨m, _, _, rfl⟩
    case stop x => exact absurd h (x.outcome_ne_next t)
  | sw rs2 rs1 imm =>
    have hf := s.storeWord_frame (s.effectiveAddress rs1 imm) ((s.reg rs2).setWidth 32)
    simp only [exec, execSw] at h
    cases hl : s.storeWord (s.effectiveAddress rs1 imm) ((s.reg rs2).setWidth 32) <;> rw [hl] at hf h
    case ok v u =>
      obtain ⟨m, rfl⟩ := hf
      cases h
      exact .inr rfl
    case exc cause info u =>
      obtain ⟨m, rfl⟩ := hf
      cases h
      exact .inl ⟨m, _, _, rfl⟩
    case stop x => exact absurd h (x.outcome_ne_next t)

/-- Settles O16: a trap leaves U-mode, and what else an instruction of U-mode changes is not supervisor or machine state. -/
theorem userModeIsolation : Obligations.UserModeIsolation := by
  unfold Obligations.UserModeIsolation
  intro i s t hp h htp
  rcases exec_user_cases i s t hp h with ⟨m, c, info, rfl⟩ | hframe
  · exact absurd htp (State.takeException_priv_ne_user _ c info)
  · rw [hframe]
    refine ⟨?_, rfl, rfl, rfl⟩
    unfold State.supervisorAlike
    simp only [and_self]

end Sys2Proof.Machine
end

section
/-! PROOFS. ECALL (O23), ADDI (O25), and the sets of FENCE under FIOM (O54). -/

namespace Sys2Proof.Machine

/-! ### ECALL -/

/-- An environment call has trap value zero in every mode (R87, R320). -/
theorem trapValue_ecallCause (cfg : Config) (p : Priv) (info : Word) (d : Nat) :
    trapValue cfg (ecallCause p) info d = (0, d) := by
  cases p <;> rfl

theorem ecallCause_code_small (p : Priv) : (BitVec.ofNat 64 (ecallCause p).code).toNat < 2 ^ 31 := by
  cases p <;> decide

theorem exec_ecall (s : State) : exec .ecall s = .next (s.takeException (ecallCause s.priv) 0) := rfl

/-- Settles O23: the three ways the environment-call exception is taken. -/
theorem ecallResult : Obligations.EcallResult := by
  unfold Obligations.EcallResult
  intro s code hcode
  have hcause : code = (ecallCause s.priv).code := hcode.trans (by cases s.priv <;> rfl)
  subst hcause
  have hzero : (trapValue s.cfg (ecallCause s.priv) 0 s.ms.draws).1 = 0 := by rw [trapValue_ecallCause]
  refine ⟨_, exec_ecall s, fun hd hs => ?taken, fun hd hs => ?double, fun hd => ?undelegated, s.takeException_frame _ _⟩
  case taken =>
    have ht := s.takeException_supervisor (ecallCause s.priv) 0 hd hs
    exact ⟨by rw [ht], by rw [ht], s.takeException_stval_zero _ 0 hd hs hzero, by rw [ht],
      s.takeException_sepc (ecallCause s.priv) 0 hd hs⟩
  case double =>
    rw [s.takeException_double _ 0 hd hs]
    exact ⟨rfl, rfl, causeWord_exception s.cfg (ecallCause_code_small s.priv)⟩
  case undelegated =>
    rw [s.takeException_undelegated _ 0 hd]
    exact ⟨rfl, rfl, rfl, hzero⟩

/-! ### ADDI -/

/-- In the narrower mode a result is stored sign-extended to 64 bits (R32). -/
theorem State.registersAfter_narrow {s t : State} {rd : RegId} {v : Word} (h : s.registersAfter t rd v)
    (hx : s.xlen = .rv32) (hs : s.cfg.sxlen = .rv64) (hrd : rd ≠ 0) :
    t.regs[rd.toNat]'(rd.isLt) = (v.setWidth 32).signExtend 64 := by
  obtain ⟨-, -, -, hstored⟩ := h
  rw [hstored hrd, hx, hs]

/-- In the narrower mode the upper half of a source register is ignored (R32). -/
theorem State.reg_narrow_setWidth {s : State} {r : RegId} (hx : s.xlen = .rv32) (hr : r ≠ 0) :
    (s.reg r).setWidth 32 = (s.regs[r.toNat]'(r.isLt)).setWidth 32 := by
  rw [State.reg, if_neg hr, hx]
  exact BitVec.setWidth_setWidth_of_le _ (by decide)

/-- The low half of an immediate is the immediate of the narrower mode (R223). -/
theorem immediate_setWidth (imm : BitVec 12) : (immediate imm).setWidth 32 = imm.signExtend 32 := by
  apply BitVec.eq_of_getLsbD_eq
  intro k hk
  simp only [immediate, BitVec.getLsbD_setWidth, BitVec.getLsbD_signExtend, hk, show k < 64 by omega, decide_true,
    Bool.true_and]

/-- ADDI writes `rd`, and beside the registers only `pc` changes (R331). -/
theorem exec_addi (s : State) (rd rs1 : RegId) (imm : BitVec 12) :
    exec (.addi rd rs1 imm) s = .next (s.setReg rd (s.reg rs1 + immediate imm)).advance := rfl

/-- Settles O25: the register write of the sum, and the sum's low half in the narrower mode. -/
theorem addiResult : Obligations.AddiResult := by
  unfold Obligations.AddiResult
  intro rd rs1 imm s
  have hafter := s.registersAfter_of_setReg s rd (s.reg rs1 + immediate imm) rfl rfl rfl
  refine ⟨_, exec_addi s rd rs1 imm, hafter, ?frame, fun hx hs hrd hrs1 => ?narrow⟩
  case frame =>
    rw [s.setReg_eq]
    rfl
  case narrow =>
    rw [State.registersAfter_narrow hafter hx hs hrd, BitVec.setWidth_add _ _ (by decide),
      State.reg_narrow_setWidth hx hrs1, immediate_setWidth]

/-! ### FENCE under FIOM -/

theorem State.fenceSet_fiom {s : State} (hp : s.priv = .user) (hf : s.fiomOn = true) (b : BitVec 4) :
    s.fenceSet b = b ||| (b >>> 2) := if_pos ⟨hp, hf⟩

theorem State.fenceSet_plain {s : State} (h : ¬(s.priv = .user ∧ s.fiomOn = true)) (b : BitVec 4) : s.fenceSet b = b :=
  if_neg h

/-- Settles O54: FIOM in U-mode puts I on R and O on W, and no other case changes a set. -/
theorem fenceUnderFiom : Obligations.FenceUnderFiom := by
  unfold Obligations.FenceUnderFiom
  intro s b
  by_cases h : s.priv = .user ∧ s.fiomOn = true
  case pos =>
    obtain ⟨hp, hf⟩ := h
    rw [State.fenceSet_fiom hp hf b]
    have hbit (k : Nat) : (b ||| (b >>> 2)).getLsbD k = (b.getLsbD k || b.getLsbD (k + 2)) := by
      rw [BitVec.getLsbD_or, BitVec.getLsbD_ushiftRight, Nat.add_comm]
    refine ⟨?_, ?_, fun _ _ => ⟨hbit 1, hbit 0⟩, fun hn => ?_⟩
    · rw [hbit, BitVec.getLsbD_of_ge b 5 (by decide), Bool.or_false]
    · rw [hbit, BitVec.getLsbD_of_ge b 4 (by decide), Bool.or_false]
    · rcases hn with hn | hn
      · exact absurd hp hn
      · exact absurd (hf.symm.trans hn) (by decide)
  case neg =>
    rw [State.fenceSet_plain h b]
    exact ⟨rfl, rfl, fun hp hf => absurd ⟨hp, hf⟩ h, fun _ => rfl⟩

end Sys2Proof.Machine
end

section
/-! PROOFS. Interrupts: which one is taken (O8), before the fetch (O9), and right after SRET and the CSR writes that may let one
through (O10). -/

namespace Sys2Proof.Machine

/-! ### Which interrupt is selected -/

theorem State.interruptsEnabled_iff (s : State) :
    s.interruptsEnabled = true ↔ s.priv = .supervisor ∧ s.sstatus.sie = true ∨ s.priv = .user := by
  cases hp : s.priv <;> simp [State.interruptsEnabled, hp]

theorem State.takeable_iff (s : State) (i : Nat) :
    s.takeable i = true ↔
      (s.priv = .supervisor ∧ s.sstatus.sie = true ∨ s.priv = .user) ∧
        s.readSip.getLsbD i = true ∧ s.readSie.getLsbD i = true := by
  simp only [State.takeable, Bool.and_eq_true, s.interruptsEnabled_iff, and_assoc]

/-- A takeable interrupt is a bit of a word. -/
theorem State.takeable_lt (s : State) (i : Nat) (h : s.takeable i = true) : i < 64 := by
  obtain ⟨-, hsip, -⟩ := (s.takeable_iff i).mp h
  by_contra hi
  rw [BitVec.getLsbD_of_ge _ i (not_lt.mp hi)] at hsip
  cases hsip

/-- The search ends with every code below 64, so it misses none (R351). -/
theorem State.selectInterrupt_none_iff (s : State) : s.selectInterrupt = none ↔ ∀ i, s.takeable i = false := by
  rw [State.selectInterrupt, List.find?_eq_none]
  constructor
  · intro h i
    by_contra ht
    rw [Bool.not_eq_false] at ht
    exact h i (List.mem_append_right _ (List.mem_range.mpr (s.takeable_lt i ht))) ht
  · intro h i _
    simp [h i]

/-- The first element a search finds it still finds where other elements are left out. -/
theorem find?_filter_of_find? {α : Type} {l : List α} {p q : α → Bool} {a : α} (h : l.find? q = some a) (hp : p a = true) :
    (l.filter p).find? q = some a := by
  obtain ⟨hq, before, after, rfl, hbefore⟩ := List.find?_eq_some_iff_append.mp h
  refine List.find?_eq_some_iff_append.mpr ⟨hq, before.filter p, after.filter p, ?_, fun b hb => ?_⟩
  · rw [List.filter_append, List.filter_cons_of_pos hp]
  · exact hbefore b (List.mem_of_mem_filter hb)

theorem irqOrder_standard (c : Config) (h : c.irqOrderOk = true) :
    c.irqOrder.filter (fun i => decide (i < 16)) = [9, 1, 5, 13] := by
  simp only [Config.irqOrderOk, Bool.and_eq_true, beq_iff_eq] at h
  obtain ⟨⟨-, hstandard⟩, -⟩ := h
  exact hstandard

/-- What a search passes over fails its test. -/
theorem eq_false_of_find?_after {α : Type} {before after : List α} {q : α → Bool} {a : α}
    (h : (before ++ after).find? q = some a) (ha : a ∉ before) : ∀ b ∈ before, q b = false := by
  rw [List.find?_append, Option.or_eq_some_iff] at h
  rcases h with h | ⟨h, -⟩
  · exact absurd (List.mem_of_find?_eq_some h) ha
  · simpa using h

/-- Where a standard interrupt is selected, none that stands before it in the standard order is takeable (R351). -/
theorem State.not_takeable_before (s : State) {i : Nat} (hc : s.cfg.irqOrderOk = true) (h : s.selectInterrupt = some i)
    (hi : i < 16) (before : List Nat) {after : List Nat} (hsplit : [9, 1, 5, 13] = before ++ after) (hbefore : i ∉ before) :
    ∀ j ∈ before, s.takeable j = false := by
  have hfirst := find?_filter_of_find? (p := fun i => decide (i < 16)) h (decide_eq_true hi)
  rw [List.filter_append, irqOrder_standard s.cfg hc, hsplit, List.append_assoc] at hfirst
  exact eq_false_of_find?_after hfirst hbefore

/-- Settles O8: the search runs over the priority order and then over every code. -/
theorem interruptSelection : Obligations.InterruptSelection := by
  unfold Obligations.InterruptSelection
  intro s hc
  refine ⟨s.takeable_iff, s.selectInterrupt_none_iff, fun i h => ⟨List.find?_some h, ?ssi, ?sti, ?lcofi⟩⟩
  all_goals
    rintro rfl
    have passed := s.not_takeable_before hc h (by decide)
  case ssi =>
    have hpassed := passed [9] rfl (by decide)
    exact hpassed 9 (by decide)
  case sti =>
    have hpassed := passed [9, 1] rfl (by decide)
    exact ⟨hpassed 9 (by decide), hpassed 1 (by decide)⟩
  case lcofi =>
    have hpassed := passed [9, 1, 5] rfl (by decide)
    exact ⟨hpassed 9 (by decide), hpassed 1 (by decide), hpassed 5 (by decide)⟩

/-! ### Before the fetch -/

/-- An interrupt that is due after the other agents' turn is what the step does (R231, R347). -/
theorem step_eq_takeInterrupt (s : State) (code : Nat) (hi : s.immediateInterrupt = none) (hs : s.environmentStop = none)
    (hc : s.environmentTurn.selectInterrupt = some code) : step s = .next (s.environmentTurn.takeInterrupt code) := by
  simp only [step, State.advanceHart, hi, hs, State.proceed, hc]

/-- An interrupt goes to BASE, and under Vectored to four times its code above it (R364). -/
theorem State.trapVector_interrupt (s : State) (code : Nat) :
    s.trapVector true code = cut s.cfg.sxlen
      (if s.stvec &&& 3 = 1 then (s.stvec &&& ~~~3#64) + BitVec.ofNat 64 (4 * code) else s.stvec &&& ~~~3#64) := by
  simp only [State.trapVector, and_true]
  exact (apply_ite (cut s.cfg.sxlen) _ _ _).symm

/-- Settles O9: the step is the interrupt, and with SDT clear that is a trap taken in S-mode. -/
theorem interruptIsTakenBeforeFetch : Obligations.InterruptIsTakenBeforeFetch := by
  unfold Obligations.InterruptIsTakenBeforeFetch
  rintro s e code hi hs rfl hc hsdt
  generalize he : s.environmentTurn = e at hc hsdt
  have ht : e.takeInterrupt code = _ := e.trapToS_taken true code 0 e.pc hsdt
  refine ⟨_, he ▸ step_eq_takeInterrupt s code hi hs (he ▸ hc), by rw [ht], by rw [ht], ?stval, fun hv => ?sepc, ?pc,
    by rw [ht]; rfl, by rw [ht], by rw [ht]⟩
  case stval => rw [ht]; exact legalStval_small e.cfg _ (by decide)
  case sepc => rw [ht]; exact congrArg (· &&& epcMask e.cfg) (legalize_valid _ hv)
  case pc => rw [ht]; exact e.trapVector_interrupt code

/-! ### Right after SRET and after a write of `sip`, `sie` or `sstatus` -/

/-- A CSR instruction that writes a CSR on which the interrupt condition depends completes and has it evaluated next (R352). -/
theorem exec_csrForms_recheck {rd : RegId} {num : BitVec 12} {src : BitVec 5} {i : Instr} (s : State) (c : Csr)
    (hc : s.csrCheck num true = .ok c) (hirq : interruptCsr c = true) (h : (i, true) ∈ csrForms rd num src) :
    ∃ t, exec i s = .next t ∧ t.recheck = true := by
  obtain ⟨⟨op, v, isRead, hexec⟩, -⟩ := exec_csrForms s h
  have hsatp : c ≠ .satp := by
    rintro rfl
    cases hirq
  obtain ⟨u, hu⟩ := s.writeCsr_total c (op.combine (if isRead then (s.readCsr c).1 else 0) v) hsatp
  refine ⟨_, hexec.trans (csrInstr_write_ok i op rd num v isRead s c hc _ rfl u hu), ?_⟩
  rw [State.advance_recheck, State.setReg_recheck, hirq, Bool.or_true]

/-- Settles O10: SRET and these writes set `recheck`, and with it set a step takes the selected interrupt first. -/
theorem interruptRightAfterSretOrCsrWrite : Obligations.InterruptRightAfterSretOrCsrWrite := by
  unfold Obligations.InterruptRightAfterSretOrCsrWrite
  refine ⟨fun s hp => ⟨_, exec_sret s hp, rfl⟩, fun s rd num src c hc hirq => ?csr, fun t code hr hsel => ?step⟩
  case csr =>
    have key : ∀ i, (i, true) ∈ csrForms rd num src → ∃ t, exec i s = .next t ∧ t.recheck = true := fun i =>
      exec_csrForms_recheck s c hc hirq
    refine ⟨key _ (by simp [csrForms]), key _ (by simp [csrForms]), fun hsrc => ?_⟩
    have hwrites : decide (src ≠ 0) = true := decide_eq_true hsrc
    simp only [csrForms, hwrites] at key
    exact ⟨key _ (by simp), key _ (by simp), key _ (by simp), key _ (by simp)⟩
  case step => simp only [step, State.advanceHart, State.immediateInterrupt, hr, if_true, hsel]

end Sys2Proof.Machine
end

section
/-! PROOFS. The mode after an instruction (O15), double traps (O18), exceptions into M-mode (O19), and the counters (O45). -/

namespace Sys2Proof.Machine

/-! ### No instruction but SRET lowers the mode -/

/-- An exception is taken in a mode that is not lower (R345, R374). -/
theorem State.takeException_priv_le (s : State) (c : Cause) (info : Word) :
    privNumber s.priv ≤ privNumber (s.takeException c info).priv := by
  by_cases hp : s.priv = .machine
  · rw [s.takeException_machine c info (s.delegated_machine c.code hp), hp]
  · have hs : privNumber s.priv ≤ 1 := by
      cases h : s.priv
      case machine => exact absurd h hp
      all_goals decide
    have ht : 1 ≤ privNumber (s.takeException c info).priv := by
      cases h : (s.takeException c info).priv
      case user => exact absurd h (s.takeException_priv_ne_user c info)
      all_goals decide
    exact hs.trans ht

/-- A CSR instruction traps or stays in its mode. -/
theorem csrInstr_priv {i : Instr} {op : CsrOp} {rd : RegId} {num : BitVec 12} {src : Word} {isRead isWrite : Bool}
    {s t : State} (h : csrInstr i op rd num src isRead isWrite s = .next t) : s.trapsTo t ∨ t.priv = s.priv := by
  rcases csrInstr_next _ _ _ _ _ _ _ _ _ h with ⟨-, hill⟩ | ⟨c, v, u, -, hu, rfl⟩
  · exact .inl (raiseIllegal_trapsTo hill)
  · rw [State.advance_priv, State.setReg_priv, s.csrReadWrite_frame u op c src v isRead isWrite hu]
    exact .inr rfl

/-- Every instruction but SRET traps or stays in its mode. -/
theorem exec_priv_cases (i : Instr) (s t : State) (hi : i ≠ .sret) (h : exec i s = .next t) :
    s.trapsTo t ∨ t.priv = s.priv := by
  cases i with
  | sret => exact absurd rfl hi
  | sfenceVma rs1 rs2 =>
    simp only [exec, execSfenceVma] at h
    split at h
    · exact .inl (raiseIllegal_trapsTo h)
    · right; split at h <;> cases h <;> simp
  | sinvalVma rs1 rs2 =>
    simp only [exec, execSinvalVma] at h
    split at h
    · exact .inl (raiseIllegal_trapsTo h)
    · right
      split at h
      · cases h; rfl
      · split at h <;> cases h <;> simp
  | sfenceWInval =>
    simp only [exec, execSfenceWInval] at h
    split at h
    · exact .inl (raiseIllegal_trapsTo h)
    · cases h; exact .inr rfl
  | sfenceInvalIr =>
    simp only [exec, execSfenceInvalIr] at h
    split at h
    · exact .inl (raiseIllegal_trapsTo h)
    · cases h; exact .inr s.retirePending_priv
  | hinvalVvma rs1 rs2 => exact .inl (raiseIllegal_trapsTo h)
  | hinvalGvma rs1 rs2 => exact .inl (raiseIllegal_trapsTo h)
  | csrrw rd csr rs1 => exact csrInstr_priv h
  | csrrs rd csr rs1 => exact csrInstr_priv h
  | csrrc rd csr rs1 => exact csrInstr_priv h
  | csrrwi rd csr uimm => exact csrInstr_priv h
  | csrrsi rd csr uimm => exact csrInstr_priv h
  | csrrci rd csr uimm => exact csrInstr_priv h
  | ecall => cases h; exact .inl ⟨s.ms, _, _, rfl⟩
  | ebreak => cases h; exact .inl ⟨s.ms, _, _, rfl⟩
  | fence fm pred succ rs1 rd =>
    obtain rfl := Host.Outcome.next.inj ((exec_fence fm pred succ rs1 rd s).symm.trans h)
    exact .inr rfl
  | addi rd rs1 imm => cases h; exact .inr (s.setReg_priv rd _)
  | lw rd rs1 imm =>
    obtain ⟨-, ⟨_, -, ht⟩ | ⟨m, c, info, ht, -⟩⟩ := loadStoreFrame.1 rd rs1 imm s t h
    · rw [ht]; exact .inr rfl
    · exact .inl ⟨m, c, info, ht⟩
  | sw rs2 rs1 imm =>
    obtain ⟨-, ht | ⟨m, c, info, ht, -⟩⟩ := loadStoreFrame.2 rs2 rs1 imm s t h
    · rw [ht]; exact .inr rfl
    · exact .inl ⟨m, c, info, ht⟩

/-- Settles O15: what is not SRET traps, into a mode that is not lower, or stays in its mode. -/
theorem onlySretLowersTheMode : Obligations.OnlySretLowersTheMode := by
  unfold Obligations.OnlySretLowersTheMode
  refine ⟨fun i s t hi h => ?others, fun s t hp h => ?sret⟩
  case others =>
    rcases exec_priv_cases i s t hi h with ⟨m, c, info, rfl⟩ | hsame
    · exact State.takeException_priv_le { s with ms := m } c info
    · rw [hsame]
  case sret =>
    obtain rfl := Host.Outcome.next.inj ((exec_sret s hp).symm.trans h)
    rfl

/-! ### Double traps, and exceptions into M-mode -/

/-- A cause with a small code is the code under the Interrupt bit (R77). -/
theorem causeWord_small (c : Config) (isI : Bool) {code : Nat} (h : code < 2 ^ 31) :
    causeWord c isI (BitVec.ofNat 64 code) = BitVec.ofNat 64 code ||| bitAt isI (c.sxlen.bits - 1) := by
  have hcode : (BitVec.ofNat 64 code).toNat < 2 ^ 31 := by rw [BitVec.toNat_ofNat]; omega
  have hbits : 31 ≤ c.sxlen.bits - 1 := by cases c.sxlen <;> decide
  apply BitVec.eq_of_getLsbD_eq
  intro k hk
  rw [causeWord_getLsbD, BitVec.getLsbD_or, bitAt_getLsbD, decide_eq_true hk, Bool.and_true]
  split
  case isTrue hlow => rw [decide_eq_false hlow.ne, Bool.and_false, Bool.or_false]
  case isFalse hhigh => rw [getLsbD_eq_false_of_lt hcode (by omega), Bool.false_or]

/-- Settles O18: with SDT set the trap is the double trap, whose `mtval2` is the cause's word. -/
theorem doubleTrap : Obligations.DoubleTrap := by
  unfold Obligations.DoubleTrap
  intro s isI code tval epc hs hcode
  refine ⟨_, s.trapToS_double isI code tval epc hs, rfl, rfl, causeWord_small s.cfg isI hcode, rfl, rfl, rfl, rfl, rfl, ?_⟩
  exact s.trapToM_frame 16 _ tval epc

/-- Settles O19: an exception that is not delegated is the trap into M-mode. -/
theorem exceptionIntoMachine : Obligations.ExceptionIntoMachine := by
  unfold Obligations.ExceptionIntoMachine
  rintro s t c info hd rfl
  rw [s.takeException_undelegated c info hd]
  exact ⟨rfl, rfl, rfl, rfl, rfl, rfl⟩

/-! ### The counters -/

/-- The free advance of a counter stays below the end of its 64 bits, so its value does not wrap (R380). -/
theorem State.counterNow_ge (s : State) (n : BitVec 5) :
    (s.counters[n.toNat]'(n.isLt)).toNat ≤ (s.counterNow n).toNat := by
  have hold := (s.counters[n.toNat]'(n.isLt)).isLt
  unfold State.counterNow
  generalize (s.counters[n.toNat]'(n.isLt)).toNat = old at hold
  have hstep := Nat.mod_lt (Config.counterStep n.toNat s.ms.draws) (Nat.sub_pos_of_lt hold)
  rw [BitVec.toNat_ofNat, Nat.mod_eq_of_lt (by omega)]
  exact Nat.le_add_right _ _

theorem State.countRead_counter_same (s : State) (n : BitVec 5) :
    (s.countRead n).counters[n.toNat]'(n.isLt) = s.counterNow n := Vector.getElem_set_self _

theorem State.countRead_counter_other (s : State) {n k : BitVec 5} (h : k ≠ n) :
    (s.countRead n).counters[k.toNat]'(k.isLt) = s.counters[k.toNat]'(k.isLt) :=
  Vector.getElem_set_ne n.isLt k.isLt (fun he => h (BitVec.eq_of_toNat_eq he.symm))

/-- Settles O45: the value given is not below the one kept, and it is the one kept for the next read. -/
theorem countersNeverDecrease : Obligations.CountersNeverDecrease := by
  unfold Obligations.CountersNeverDecrease
  intro s n
  refine ⟨s.counterNow_ge n, s.countRead_counter_same n, fun k hk => s.countRead_counter_other hk, ?_⟩
  rw [← s.countRead_counter_same n]
  exact (s.countRead n).counterNow_ge n

end Sys2Proof.Machine
end
